-- ==== Sys2Proof/Word.lean ====
section
/-! DEFINITION. The bit-vector types of the M46's links and stores. -/

namespace Sys2Proof

/-- One byte of either link (R179). -/
abbrev Byte := BitVec 8

/-- A 16-bit number of either link: an identity, a service id, a check, a threshold (R179). -/
abbrev Word16 := BitVec 16

/-- A frame count or a lane frame number, 0..4095, which wraps. -/
abbrev Count := BitVec 12

/-- Thirty bytes: a tile payload or the directory bytes of a DIR cell; the first byte is the high-order one. -/
abbrev Bytes30 := BitVec 240

end Sys2Proof
end

