-- ==== Sys2Proof/Config.lean ====
section
/-! DEFINITION. The free values: bytes of QUERY answers whose shape no rule states (log 7). -/

namespace Sys2Proof.Config

/-- The start position shown by a QUERY of LANE-ENTRY whose entry is absent: R179 names no form for it. -/
opaque absentLaneStart : Word16

/-- The kind bits of the kind and presence byte shown by a QUERY of SERVICE-ENTRY whose entry is absent: R179 names no form for
them. -/
opaque absentServiceKind : BitVec 2

/-- The support mask shown by a QUERY of SERVICE-ENTRY whose entry is absent: R179 names no form for it. -/
opaque absentServiceSupport : Byte

/-- The role shown by a QUERY of SELECTION for a slot whose role is none: Table 10-1 and R179 name no code for it. -/
opaque noRole : Byte

/-- The arm state shown by a QUERY of CONTEXT for a FREE context: R105 marks it absent, R179 names no form for it. -/
opaque absentArmState : Byte

end Sys2Proof.Config
end

