-- ==== Sys2Proof/Syntax.lean ====
section
/-! DEFINITION. The directory records as parsed, and the commands: one constructor of `Instr` per row of
spec/opcode_table.json. -/

namespace Sys2Proof

/-- A directory record with the fields of Table 10-3 as read from its body, before the limits of R29. Codes and numbers
are kept as read; reserved bits, and a primary lane byte whose present bit is clear, are dropped (R179, R182). -/
inductive Record where
  | lane (lane start n profile g trim cls serial : Nat)
  | service (service : Word16) (serial kind : Nat) (primary twin : Option Nat) (data : List Nat) (support : Byte)
  | serviceLabel (service : Word16) (serial : Nat) (text : List Byte)
  | ident (serial : Nat) (identity : Word16) (lanes services : Nat) (name : List Byte)
  | change (serial frame lanes services : Nat)
  | announce (type state : Nat) (target : Word16)
  | labelSegment (service : Word16) (toggle index count : Nat) (text : List Byte)
  deriving DecidableEq, Repr

/-- The commands of the M46: what its links, lines, timers and arbiter bring about, each one event. Every order carries
the host's order reference first. -/
inductive Instr where
  /-- HEAD cell (R4), with the fields and the check of Table 10-2. -/
  | head (identity : Word16) (count : Count) (serial quality reserved : BitVec 4) (check : Word16)
  /-- DIR cell (R8, R26). -/
  | dir (index : Byte) (block : Bytes30) (check : Word16)
  /-- TILE cell (R6, R7). -/
  | tile (erasure : Bool) (reserved : BitVec 5) (position : BitVec 10) (payload : Bytes30) (check : Word16)
  /-- TAIL cell (R5). -/
  | tail
  /-- GAP cell (R16, R17). -/
  | gap
  /-- A cell start whose kind byte the part does not know, or a cell cut short by the next cell start (R1, R180). -/
  | unknownCell (kind : Byte) (rest : List Byte)
  /-- The 96 ms frame watch expires (R10). -/
  | frameWatchExpiry
  /-- The frame-period timer ticks (R11). -/
  | tick
  /-- The step of a tick that enters LOST (R18). -/
  | holdoverLimitReached
  /-- The step of a tick that ends the announcements whose age has reached 64 (R41). -/
  | announcementExpiry
  /-- RESET held and released, with the EARLY strap low or high at the release (R138, R177). -/
  | powerOnReset (earlyLow : Bool)
  /-- The inbound data line has been low with the clock idle for 1 ms (R175, R176). -/
  | breakReset
  /-- The inbound data line rises after a break (R175, R177). -/
  | breakRelease
  /-- A packet of kind ORDER with this body on the inbound line (R163, R164). -/
  | order (body : List Byte)
  /-- Bytes on the inbound line that the receiver finds malformed (R163). -/
  | malformed (bytes : List Byte)
  /-- An ORDER packet whose order kind is none of the fifteen (R165). -/
  | unknownOrder (ref kind : Byte) (params : List Byte)
  | select (ref slot : Byte) (service : Word16) (role wants : Byte)
  | release (ref slot : Byte)
  | setQuality (ref slot : Byte) (thHi thLo : Word16) (rise fall : Byte)
  | setAnnounce (ref accept wake : Byte)
  | dismiss (ref : Byte)
  | lockAlarm (ref : Byte)
  | loadPattern (ref number : Byte) (values : List Byte)
  | setHoldover (ref limit : Byte)
  | inject (ref : Byte) (record : List Byte)
  | forget (ref : Byte)
  | queryStatus (ref first second : Byte)
  | queryLaneEntry (ref bank lane : Byte)
  | queryServiceEntry (ref bank index : Byte)
  | queryContext (ref id second : Byte)
  | querySelection (ref slot second : Byte)
  | queryAnnouncements (ref first second : Byte)
  | queryPattern (ref number second : Byte)
  | queryLabel (ref slot second : Byte)
  | which (ref : Byte)
  | setAttention (ref : Byte) (mask : Word16)
  | standby (ref : Byte)
  | resume (ref : Byte)
  /-- The arbiter starts a packet on the IDLE line (R160). -/
  | packetStart
  /-- The packet in transmission completes (R160). -/
  | packetComplete
  /-- The early start (R139). -/
  | earlyStart
  /-- The release of the draining contexts that have assembled their drain end frame (R94). -/
  | drainEnd
  /-- The retry of the DEFERRED roles at a frame close (R64). -/
  | deferredRetry
  /-- The retry of the slots SUSPENDED with cause ROOM at a frame close (R127). -/
  | roomRetry
  /-- The opening of the WAITING slots whose service is in the active bank (R126). -/
  | waitingSlotOpens
  /-- The beginning of a takeover when slot 4 is DELIVERING (R147). -/
  | takeover
  /-- The completion of the label buffers that hold every segment (R45). -/
  | labelComplete
  /-- The second sighting in a row of this record (R32 case 2). -/
  | recordConfirmed (record : Record)
  /-- RESET driven low and held (R173). -/
  | resetHeld
  deriving DecidableEq, Repr

end Sys2Proof
end

