-- ==== Sys2Proof/Decode.lean ====
section
/-! DEFINITION. Reading bytes: the byte order of the links (R179), the directory records of R27 to R29 and Table 10-3,
and the command a table word spells (none: no row of the table gives bits). -/

namespace Sys2Proof

/-- The command that a word spells by the bits of spec/opcode_table.json. No row gives bits, so no word spells one. -/
def decodeTableWord (_nbits _w : Nat) : Option Instr := none

/-- The high-order byte of a 16-bit number, sent first (R179). -/
def highByte (w : Word16) : Byte := w.extractLsb' 8 8

/-- The low-order byte of a 16-bit number, sent second (R179). -/
def lowByte (w : Word16) : Byte := w.extractLsb' 0 8

/-- The two bytes of a 16-bit number in the order sent (R179). -/
def wordBytes (w : Word16) : List Byte := [highByte w, lowByte w]

/-- The 16-bit number whose bytes arrive high-order first (R179). -/
def wordOf (h l : Byte) : Word16 := h ++ l

/-- The thirty bytes of a tile payload or directory block in the order they arrive. -/
def bytes30 (b : Bytes30) : List Byte :=
  (List.range 30).map fun i => b.extractLsb' (8 * (29 - i)) 8

/-- Bytes as one block, the first byte the high-order one. -/
def bytes30Of (l : List Byte) : Bytes30 :=
  l.foldl (fun acc b => (acc <<< 8) ||| b.setWidth 240) 0

/-- The kind codes of the fifteen orders of Table 10-4. -/
def orderKinds : List Byte := [0x01, 0x02, 0x03, 0x04, 0x05, 0x06, 0x07, 0x08, 0x09, 0x0A, 0x0B, 0x0C, 0x0D, 0x0E, 0x0F]

/-- The length in bytes, kind byte included, of a cell of this kind (R180); none for an unknown kind. -/
def cellLength (kind : Byte) : Option Nat :=
  if kind = 0x51 then some 8
  else if kind = 0x52 then some 34
  else if kind = 0x53 then some 35
  else if kind = 0x54 then some 1
  else if kind = 0x55 then some 1
  else none

/-- The record that a body of the given kind holds by Table 10-3; none when the kind is unknown or the body has not the
size its kind implies (R27, R28). -/
def recordOf (kind : Byte) (body : List Byte) : Option Record :=
  if kind = 0x11 then
    match body with
    | [l, sh, sl, n, p, g, t, c, s] =>
      some (.lane l.toNat (wordOf sh sl).toNat n.toNat p.toNat g.toNat t.toNat c.toNat s.toNat)
    | _ => none
  else if kind = 0x12 then
    match body with
    | ih :: il :: s :: f :: p :: m :: rest =>
      let twinPresent := f.getLsbD 4
      let count := (f.extractLsb' 0 3).toNat
      if rest.length = (if twinPresent then 1 else 0) + count then
        let ids := rest.map BitVec.toNat
        some (.service (wordOf ih il) s.toNat (f.extractLsb' 6 2).toNat
          (if f.getLsbD 5 then some p.toNat else none)
          (if twinPresent then ids.head? else none)
          (if twinPresent then ids.tail else ids) m)
      else none
    | _ => none
  else if kind = 0x13 then
    match body with
    | ih :: il :: s :: text => if text.length = 16 then some (.serviceLabel (wordOf ih il) s.toNat text) else none
    | _ => none
  else if kind = 0x14 then
    match body with
    | s :: ih :: il :: lc :: sc :: name =>
      if name.length = 16 then some (.ident s.toNat (wordOf ih il) lc.toNat sc.toNat name) else none
    | _ => none
  else if kind = 0x15 then
    match body with
    | [s, fh, fl, lc, sc] => some (.change s.toNat (wordOf fh fl).toNat lc.toNat sc.toNat)
    | _ => none
  else if kind = 0x21 then
    match body with
    | [t, st, sh, sl] => some (.announce t.toNat st.toNat (wordOf sh sl))
    | _ => none
  else if kind = 0x22 then
    match body with
    | ih :: il :: tg :: ix :: ct :: text =>
      if text.length = 16 then some (.labelSegment (wordOf ih il) tg.toNat ix.toNat ct.toNat text) else none
    | _ => none
  else none

/-- The limits of R29: a record that passes them is well-formed. -/
def Record.wellFormed : Record → Bool
  | .lane id start n profile g trim cls serial =>
    decide (id ≤ 63 ∧ start ≤ 575 ∧ 1 ≤ n ∧ n ≤ 96 ∧ start + n ≤ 576 ∧ profile ≤ 3 ∧ g ≤ 15 ∧
      (g = 0 ∨ n % (g + 1) = 0) ∧ trim ≤ 29 ∧ (cls = 1 ∨ cls = 2) ∧ serial ≤ 15)
  | .service _ serial kind primary twin data _ =>
    let ids := primary.toList ++ twin.toList ++ data
    decide (((kind = 1 ∧ primary.isSome) ∨ (kind = 2 ∧ primary = none ∧ twin = none ∧ data ≠ [])) ∧
      data.length ≤ 3 ∧ (∀ x ∈ ids, x ≤ 63) ∧ ids.Nodup ∧ serial ≤ 15)
  | .serviceLabel _ serial _ => decide (serial ≤ 15)
  | .ident serial _ lanes services _ => decide (lanes ≤ 64 ∧ services ≤ 32 ∧ serial ≤ 15)
  | .change serial frame lanes services => decide (lanes ≤ 64 ∧ services ≤ 32 ∧ serial ≤ 15 ∧ frame ≤ 4095)
  | .announce type state _ => decide (type ≤ 7 ∧ (state = 0 ∨ state = 1))
  | .labelSegment _ toggle index count _ => decide (toggle ≤ 1 ∧ 1 ≤ count ∧ count ≤ 8 ∧ index < count)

/-- A record of this kind and body that is well-formed (R28, R29); none where the record is discarded. -/
def wellFormedRecordOf (kind : Byte) (body : List Byte) : Option Record :=
  (recordOf kind body).filter Record.wellFormed

/-- The well-formed records of a directory block in order, read by R27: kind 0x00 ends the block, a record is skipped by
its length, and a length past the end discards the rest. The fuel is a bound on the records that can follow. -/
def parseRecords : Nat → List Byte → List Record
  | 0, _ => []
  | fuel + 1, kind :: len :: rest =>
    if kind = 0 then []
    else if rest.length < len.toNat then []
    else (wellFormedRecordOf kind (rest.take len.toNat)).toList ++ parseRecords fuel (rest.drop len.toNat)
  | _ + 1, _ => []

/-- The well-formed records of the directory bytes of one DIR cell (R26 to R29). -/
def parseBlock (bytes : List Byte) : List Record := parseRecords bytes.length bytes

end Sys2Proof
end

