-- ==== Sys2Proof/Machine/State.lean ====
section
/-! DEFINITION. The state of the M46, block by block (Table 1-1), as plain data, and its value after a power-on reset. -/

namespace Sys2Proof.Machine

/-! ### Intake Port (chapter 1) -/

/-- The intake states of section 1.4. -/
inductive IntakeState where
  | search | acquire | locked | holdover | lost
  deriving DecidableEq, Repr

/-- The open-frame record when it describes a frame (section 1.2). -/
structure OpenFrame where
  count : Count
  stale : Bool
  suspended : Bool
  lowest : Nat
  deriving DecidableEq, Repr

/-- Where an acquisition began (R12, R20). -/
inductive Origin where
  | search | lost
  deriving DecidableEq, Repr

/-- What ACQUIRE remembers (R12, R13). -/
structure Remembered where
  identity : Word16
  count : Count
  origin : Origin
  deriving DecidableEq, Repr

/-- The foreign candidate (R16, R19). -/
structure Foreign where
  identity : Word16
  count : Count
  deriving DecidableEq, Repr

/-- The receiver of intake cells (R180): no cell, a cell being skipped, or the bytes of a cell so far. -/
inductive CellRx where
  | idle
  | skipping
  | taking (bytes : List Byte)
  deriving DecidableEq, Repr

/-- The state of the Intake Port (R25). -/
structure Intake where
  state : IntakeState
  openFrame : Option OpenFrame
  lastClosed : Count
  remembered : Option Remembered
  foreign : Option Foreign
  holdoverLimit : Nat
  holdoverCount : Nat
  watchRunning : Bool
  timerRunning : Bool
  quality : BitVec 4
  cellRx : CellRx
  deriving DecidableEq, Repr

/-! ### Directory Acquirer (chapter 2) -/

/-- One entry of the announcement table (R37). -/
structure AnnEntry where
  on : Bool
  target : Option Word16
  age : Nat
  deriving DecidableEq, Repr

/-- One label buffer (R43). The present set is the set of the indices that hold a text. -/
structure LabelBuffer where
  toggle : Nat
  segments : Vector (Option (List Byte)) 8
  count : Option Nat
  visible : Option (List Byte)
  deriving DecidableEq, Repr

/-- The state of the Directory Acquirer (R47). Candidates stand oldest first (R30). -/
structure Directory where
  candidates : List Record
  table : Vector AnnEntry 8
  labels : Vector LabelBuffer 5
  deriving DecidableEq, Repr

/-! ### Lane Map (chapter 3) -/

inductive LaneClass where
  | audio | data
  deriving DecidableEq, Repr

inductive ServiceKind where
  | audio | dataOnly
  deriving DecidableEq, Repr

/-- A lane entry (R49). -/
structure LaneEntry where
  lane : Nat
  start : Nat
  n : Nat
  profile : Nat
  g : Nat
  trim : Nat
  cls : LaneClass
  deriving DecidableEq, Repr

/-- A service entry (R49). Bit t of the support mask stands for announcement type t. -/
structure ServiceEntry where
  service : Word16
  kind : ServiceKind
  primary : Option Nat
  twin : Option Nat
  data : List Nat
  support : Byte
  label : Option (List Byte)
  deriving DecidableEq, Repr

structure IdentContents where
  identity : Word16
  lanes : Nat
  services : Nat
  name : List Byte
  deriving DecidableEq, Repr

structure ChangeContents where
  lanes : Nat
  services : Nat
  frame : Nat
  deriving DecidableEq, Repr

/-- One bank (R48). Lane entries stand in ascending order of lane id, service entries of service id. -/
structure Bank where
  serial : Option Nat
  lanes : List LaneEntry
  services : List ServiceEntry
  ident : Option IdentContents
  change : Option ChangeContents
  overfull : Bool
  deriving DecidableEq, Repr

/-- One entry of the position index that is not empty (R65). -/
structure IndexEntry where
  position : Nat
  ctx : Fin 16
  tile : Nat
  deriving DecidableEq, Repr

/-- The state of the Lane Map (R69). The position index lists its entries that are not empty (log 3). -/
structure LaneMap where
  active : Bank
  pending : Bank
  complete : Bool
  stale : Bool
  ready : Bool
  identity : Option Word16
  index : List IndexEntry
  deriving DecidableEq, Repr

/-! ### Delay Store (chapter 4) -/

/-- One cell of the Delay Store (R70); a tag of none is EMPTY. -/
structure StoreCell where
  payload : Bytes30
  tag : Option Count
  erased : Bool
  deriving DecidableEq, Repr

/-- The cell as a power-on reset leaves it (R70): what an address with no entry in the memory reads as. -/
def StoreCell.blank : StoreCell := { payload := 0, tag := none, erased := false }

/-- The cells of the Delay Store: (address, cell) pairs, addresses rising, no cell equal to the blank one. The address of
a cell is 8 times its column plus its row. -/
abbrev Memory := List (Nat × StoreCell)

/-- The state of the Delay Store (R84). The top of the free column stack is the head of its list. -/
structure DelayStore where
  cells : Memory
  free : List Nat
  profiles : Vector (List Nat) 4
  deriving DecidableEq, Repr

/-! ### Lane Assembler and Impairment Monitor (chapters 5 and 6) -/

inductive CtxState where
  | free | filling | running | draining
  deriving DecidableEq, Repr

inductive ArmState where
  | high | low
  deriving DecidableEq, Repr

/-- The statuses of a lane frame (Table 10-1). -/
inductive FrameStatus where
  | clean | repaired | damaged | lost | muted
  deriving DecidableEq, Repr

/-- One lane context (R85). `shape` is the lane id, n, g, trim, profile and class copied from the lane entry, with its
start position (R59, R88). -/
structure LaneContext where
  state : CtxState
  shape : Option LaneEntry
  columns : List Nat
  first : Option Count
  drainEnd : Option Count
  refs : Nat
  score : Nat
  arm : ArmState
  settle : Nat
  assembled : Nat
  last : Option (Count × FrameStatus)
  deriving DecidableEq, Repr

/-! ### Selection Controller (chapter 7) -/

inductive SlotState where
  | empty | waiting | opening | delivering | suspended | parked
  deriving DecidableEq, Repr

inductive Role where
  | foreground | background | announcement
  deriving DecidableEq, Repr

/-- A reference of a slot's role (R118). -/
inductive Ref where
  | notWanted
  | context (c : Fin 16)
  | absent
  | deferred (lane : Nat)
  deriving DecidableEq, Repr

/-- A role of a slot: its reference and its outgoing contexts in the order in which they went DRAINING (R61, R118). -/
structure RoleRef where
  ref : Ref
  outgoing : List (Fin 16)
  deriving DecidableEq, Repr

/-- The roles of a slot in the order primary, twin, data lanes 0 to 2. -/
abbrev RoleIx := Fin 5

inductive Source where
  | primary | twin
  deriving DecidableEq, Repr

inductive SuspendCause where
  | lost | preempted | room
  deriving DecidableEq, Repr

/-- One slot of the selection table (R118). Rise mask bits: 0 ATTN, 1 SWITCH, 2 MUTE; fall mask bits: 0 ATTN,
1 RESTORE, 2 UNMUTE (Table 10-4). Bit r of `taken` says that an alarm took role r since the slot was opened last, so that the
slot is still in the state it was taken from (R146, R150 step 4, log 17). -/
structure Slot where
  state : SlotState
  role : Option Role
  service : Option Word16
  wantTwin : Bool
  wantData : Bool
  roles : Vector RoleRef 5
  source : Source
  muted : Bool
  overridden : Bool
  dwell : Nat
  thHi : Nat
  thLo : Nat
  riseMask : BitVec 3
  fallMask : BitVec 3
  cause : Option SuspendCause
  parked : Option SlotState
  early : Bool
  taken : BitVec 5
  deriving DecidableEq, Repr

/-! ### Announcement Controller (chapter 8) -/

inductive PowerState where
  | active | standby
  deriving DecidableEq, Repr

inductive Takeover where
  | idle | opening | takeover | inService
  deriving DecidableEq, Repr

/-- The anchor: the foreground slot and the service it held at acceptance (R140). -/
structure Anchor where
  slot : Fin 5
  service : Word16
  deriving DecidableEq, Repr

/-- One entry of the preemption record: the slot and what was taken from it (R140, R146). Bit r of `roles` stands for
role r of the slot. -/
structure Preempted where
  slot : Fin 5
  whole : Bool
  roles : BitVec 5
  deriving DecidableEq, Repr

/-- The state of the Announcement Controller (R140, R157). -/
structure Announcer where
  power : PowerState
  accept : Byte
  wake : Byte
  lock : Bool
  takeover : Takeover
  heldType : Option (Fin 8)
  heldTarget : Option Word16
  anchor : Option Anchor
  preempted : List Preempted
  anncLine : Bool
  wakeLine : Bool
  deriving DecidableEq, Repr

/-! ### Delivery Link (chapter 9) -/

/-- The source of a queued lane frame (R135, Table 10-1). -/
inductive FrameSource where
  | primary | twin | data | announcement
  deriving DecidableEq, Repr

/-- A LANE-FRAME packet (R162). -/
structure FramePacket where
  slot : Fin 5
  service : Word16
  lane : Nat
  source : FrameSource
  frame : Count
  status : FrameStatus
  score : Nat
  payload : List Byte
  deriving DecidableEq, Repr

/-- A LABEL packet (R162). -/
structure LabelPacket where
  slot : Fin 5
  service : Word16
  text : List Byte
  deriving DecidableEq, Repr

/-- The results of an order (R184). -/
inductive OrderResult where
  | accepted | unknownOrder | badValue | badSlot | noRoom | busy | locked | notNow
  deriving DecidableEq, Repr

/-- An ANSWER packet (R162, R184). -/
structure Answer where
  ref : Byte
  kind : Byte
  result : OrderResult
  data : List Byte
  deriving DecidableEq, Repr

/-- The packet in transmission (R158, R160). -/
inductive Packet where
  | answer (a : Answer)
  | frame (f : FramePacket)
  | label (l : LabelPacket)
  deriving DecidableEq, Repr

/-- The states of the inbound receiver (R163). In HUNT, `afterPacket` says that the byte expected is the one right after a
complete packet. BODY counts the body bytes still to come. -/
inductive Receiver where
  | hunt (afterPacket : Bool)
  | kind
  | length (bytes : List Byte)
  | body (bytes : List Byte) (missing : Nat)
  deriving DecidableEq, Repr

inductive ResetCause where
  | power | brk
  deriving DecidableEq, Repr

inductive SyncDetail where
  | lock | realign | identity | lost
  deriving DecidableEq, Repr

inductive AnnounceDetail where
  | refusedTarget | refusedRoom | takeover | returned | wake
  deriving DecidableEq, Repr

inductive LayoutDetail where
  | corrected | stale | swapped | laneEnded
  deriving DecidableEq, Repr

inductive QualityDetail where
  | switch | mute | restore | unmute | rise | fall
  deriving DecidableEq, Repr

inductive OverrunDetail where
  | audio | data | label | malformed | order
  deriving DecidableEq, Repr

/-- A raise of an attention cause with its detail (Table 9-2). -/
inductive Attention where
  | alarmOnset (target : Word16) (wake : Bool)
  | restart (cause : ResetCause)
  | syncChange (d : SyncDetail)
  | announce (d : AnnounceDetail)
  | layout (d : LayoutDetail)
  | selection (slot : Fin 5) (state : SlotState)
  | quality (slot : Fin 5) (d : QualityDetail)
  | overrun (d : OverrunDetail)
  | label (slot : Fin 5)
  deriving DecidableEq, Repr

/-- One attention cause (R171): its pending flag and the detail of its latest raise; none before the first raise. -/
structure Cause where
  pending : Bool
  detail : Option Attention
  deriving DecidableEq, Repr

/-- The break detector (R175): `holding` while the part is held in a break. -/
inductive BreakDetector where
  | idle | timing | holding
  deriving DecidableEq, Repr

/-- The state of the Delivery Link (R178) and the RESET input. Cause code c stands at place c - 1 of `causes` and of
`enable`. -/
structure Link where
  answers : List Answer
  audio : List FramePacket
  data : List FramePacket
  labels : List LabelPacket
  sending : Option Packet
  receiver : Receiver
  orders : List (List Byte)
  causes : Vector Cause 9
  enable : BitVec 9
  attn : Bool
  breakDetector : BreakDetector
  resetHeld : Bool
  resetCause : ResetCause
  deriving DecidableEq, Repr

/-! ### The whole part -/

/-- The state of the M46, and the queue of the commands that wait, first in, first out. -/
structure State where
  intake : Intake
  directory : Directory
  laneMap : LaneMap
  store : DelayStore
  contexts : Vector LaneContext 16
  slots : Vector Slot 5
  earlyLow : Bool
  earlyConsumed : Bool
  announcer : Announcer
  link : Link
  pending : List Instr
  deriving DecidableEq, Repr

/-- No command stops the M46 with a fault: the spec discards, ignores or answers whatever it does not carry out. Safe: no
behaviour is hidden behind a fault. -/
inductive Fault where
  deriving DecidableEq, Repr

/-- Why a command has no outcome in the model. -/
inductive Refusal where
  /-- Raised by `exec` for a command that has no meaning yet; none is left. Safe. -/
  | notModelled (mnemonic : String)
  deriving DecidableEq, Repr

/-! ### Reset values -/

/-- R25. -/
def Intake.reset : Intake :=
  { state := .search, openFrame := none, lastClosed := 0, remembered := none, foreign := none, holdoverLimit := 47,
    holdoverCount := 0, watchRunning := false, timerRunning := false, quality := 0, cellRx := .idle }

/-- R37, R47. -/
def AnnEntry.reset : AnnEntry := { on := false, target := none, age := 0 }

/-- The emptied label buffer (R43, R47). -/
def LabelBuffer.reset : LabelBuffer :=
  { toggle := 0, segments := Vector.replicate 8 none, count := none, visible := none }

/-- R47. -/
def Directory.reset : Directory :=
  { candidates := [], table := Vector.replicate 8 AnnEntry.reset, labels := Vector.replicate 5 LabelBuffer.reset }

/-- The empty bank (R48). -/
def Bank.empty : Bank :=
  { serial := none, lanes := [], services := [], ident := none, change := none, overfull := false }

/-- R69. -/
def LaneMap.reset : LaneMap :=
  { active := Bank.empty, pending := Bank.empty, complete := false, stale := false, ready := false, identity := none,
    index := [] }

/-- The stride-3 pattern (R80). -/
def strideThree : List Nat := [0, 3, 6, 1, 4, 7, 2, 5]

/-- R84. -/
def DelayStore.reset : DelayStore :=
  { cells := [], free := List.range 384, profiles := Vector.replicate 4 strideThree }

/-- The FREE context (R85). -/
def LaneContext.free : LaneContext :=
  { state := .free, shape := none, columns := [], first := none, drainEnd := none, refs := 0, score := 0, arm := .high,
    settle := 0, assembled := 0, last := none }

/-- A role that is not wanted and has no outgoing contexts. -/
def RoleRef.none : RoleRef := { ref := .notWanted, outgoing := [] }

/-- R118: the EMPTY slot, with the role the slot has while EMPTY. -/
def Slot.reset (role : Option Role) : Slot :=
  { state := .empty, role := role, service := none, wantTwin := false, wantData := false,
    roles := Vector.replicate 5 RoleRef.none, source := .primary, muted := false, overridden := false, dwell := 0,
    thHi := 1536, thLo := 512, riseMask := 0b011, fallMask := 0b110, cause := none, parked := none, early := false,
    taken := 0 }

/-- R118: the selection table after a reset; slot 4 has role ANNOUNCEMENT. -/
def slotsReset : Vector Slot 5 :=
  (Vector.replicate 5 (Slot.reset none)).set 4 (Slot.reset (some .announcement))

/-- R157. -/
def Announcer.reset : Announcer :=
  { power := .active, accept := 0x03, wake := 0x01, lock := false, takeover := .idle, heldType := none,
    heldTarget := none, anchor := none, preempted := [], anncLine := false, wakeLine := false }

/-- The attention causes right after a reset: all clear, then RESTART raised (R171, R177, R178). -/
def causesReset (cause : ResetCause) : Vector Cause 9 :=
  (Vector.replicate 9 { pending := false, detail := none }).set 1 { pending := true, detail := some (.restart cause) }

/-- R178, right after the release of RESET. -/
def Link.reset : Link :=
  { answers := [], audio := [], data := [], labels := [], sending := none, receiver := .hunt false, orders := [],
    causes := causesReset .power, enable := 0x1FF, attn := true, breakDetector := .idle, resetHeld := false,
    resetCause := .power }

/-- The part right after a power-on reset is released, with the EARLY strap high (log 5), and no command waiting. -/
def State.reset : State :=
  { intake := .reset, directory := .reset, laneMap := .reset, store := .reset,
    contexts := Vector.replicate 16 LaneContext.free, slots := slotsReset, earlyLow := false, earlyConsumed := false,
    announcer := .reset, link := .reset, pending := [] }

end Sys2Proof.Machine
end

