-- ==== Sys2Proof/Machine/Ops.lean ====
section
/-! DEFINITION. The named operations every block uses: access to the blocks of the state, frame-count arithmetic, the
Delay Store's cells and columns, the banks, the lane contexts, attention and the outbound queues. -/

namespace Sys2Proof.Machine

/-! ### Access to the blocks -/

def State.updIntake (s : State) (f : Intake → Intake) : State := { s with intake := f s.intake }
def State.updDirectory (s : State) (f : Directory → Directory) : State := { s with directory := f s.directory }
def State.updLaneMap (s : State) (f : LaneMap → LaneMap) : State := { s with laneMap := f s.laneMap }
def State.updStore (s : State) (f : DelayStore → DelayStore) : State := { s with store := f s.store }
def State.updAnnouncer (s : State) (f : Announcer → Announcer) : State := { s with announcer := f s.announcer }
def State.updLink (s : State) (f : Link → Link) : State := { s with link := f s.link }

/-- Lane context c. -/
def State.ctx (s : State) (c : Fin 16) : LaneContext := s.contexts[c]
def State.setCtx (s : State) (c : Fin 16) (x : LaneContext) : State := { s with contexts := s.contexts.set c x }

/-- Slot i of the selection table. -/
def State.slot (s : State) (i : Fin 5) : Slot := s.slots[i]
def State.setSlot (s : State) (i : Fin 5) (x : Slot) : State := { s with slots := s.slots.set i x }
def State.updSlot (s : State) (i : Fin 5) (f : Slot → Slot) : State := s.setSlot i (f (s.slot i))

/-- Role r of a slot. -/
def Slot.roleRef (x : Slot) (r : RoleIx) : RoleRef := x.roles[r]
def Slot.setRef (x : Slot) (r : RoleIx) (ref : Ref) : Slot :=
  { x with roles := x.roles.set r { x.roles[r] with ref := ref } }
def Slot.addOutgoing (x : Slot) (r : RoleIx) (c : Fin 16) : Slot :=
  { x with roles := x.roles.set r { x.roles[r] with outgoing := x.roles[r].outgoing ++ [c] } }

/-- No reference and no outgoing context in any role. -/
def Slot.clearRoles (x : Slot) : Slot := { x with roles := Vector.replicate 5 RoleRef.none }

/-- No reference in any role; the outgoing contexts are kept (R61). -/
def Slot.clearRefs (x : Slot) : Slot :=
  { x with roles := Vector.ofFn fun r => { x.roles[r] with ref := .notWanted } }

def setLabel (i : Fin 5) (b : LabelBuffer) (s : State) : State :=
  s.updDirectory fun d => { d with labels := d.labels.set i b }

/-- Emptying a label buffer (R43). -/
def emptyLabel (i : Fin 5) (s : State) : State := setLabel i LabelBuffer.reset s

/-- Ascending order of context id (R93). -/
def ctxIds : List (Fin 16) := [0, 1, 2, 3, 4, 5, 6, 7, 8, 9, 10, 11, 12, 13, 14, 15]

/-- The slot order of R62, R64, R127 and R130. -/
def slotOrder : List (Fin 5) := [4, 0, 1, 2, 3]

/-- The host's slots in ascending order. -/
def hostSlots : List (Fin 5) := [0, 1, 2, 3]

/-- Every slot in ascending order. -/
def allSlots : List (Fin 5) := [0, 1, 2, 3, 4]

/-- The roles in the order primary, twin, data lanes (R62). -/
def roleIxs : List RoleIx := [0, 1, 2, 3, 4]

/-- The part is held in neither a reset nor a break (R25, R173, R175). -/
def State.running (s : State) : Bool := !s.link.resetHeld && s.link.breakDetector != .holding

/-! ### Frame-count arithmetic (Conventions) -/

/-- The distance d(a, b) from count b to count a. -/
def distance (a b : Count) : Nat := (a - b).toNat

/-- Count a is at or ahead of b. -/
def atOrAhead (a b : Count) : Bool := decide (distance a b ≤ 2047)

/-- Count a is at or before b. -/
def atOrBefore (a b : Count) : Bool := atOrAhead b a

/-- The row of lane frame L. -/
def rowOf (l : Count) : Nat := l.toNat % 8

/-- The next frame count (R89). -/
def nextFrameCount (s : State) : Count :=
  match s.intake.openFrame with
  | some f => if f.stale then s.intake.lastClosed + 1 else f.count + 1
  | none => s.intake.lastClosed + 1

/-- The change frame of a correction (R54). -/
def correctionFrame (s : State) : Count :=
  match s.intake.openFrame with
  | some f => if f.stale then s.intake.lastClosed + 1 else f.count
  | none => s.intake.lastClosed + 1

/-! ### Attention (R171) -/

/-- The code of a cause, less 1 (Table 9-2). -/
def Attention.place : Attention → Fin 9
  | .alarmOnset .. => 0
  | .restart .. => 1
  | .syncChange .. => 2
  | .announce .. => 3
  | .layout .. => 4
  | .selection .. => 5
  | .quality .. => 6
  | .overrun .. => 7
  | .label .. => 8

/-- Raising a cause sets its pending flag and replaces its detail (R171). -/
def raise (a : Attention) (s : State) : State :=
  s.updLink fun l => { l with causes := l.causes.set a.place { pending := true, detail := some a } }

/-- A slot enters a state, which raises SELECTION attention (R136). -/
def enterSlotState (i : Fin 5) (st : SlotState) (s : State) : State :=
  raise (.selection i st) (s.updSlot i fun x => { x with state := st })

/-! ### Outbound queues (R158, R159, R161) -/

def answerCapacity : Nat := 4
def audioCapacity : Nat := 6
def dataCapacity : Nat := 12
def labelCapacity : Nat := 2
def orderCapacity : Nat := 4

/-- A LANE-FRAME packet joins the AUDIO queue; a full queue first gives up its oldest entry (R159). -/
def joinAudio (p : FramePacket) (s : State) : State :=
  if audioCapacity ≤ s.link.audio.length then
    raise (.overrun .audio) (s.updLink fun l => { l with audio := l.audio.tail ++ [p] })
  else s.updLink fun l => { l with audio := l.audio ++ [p] }

/-- A LANE-FRAME packet joins the DATA queue, or is discarded when the queue is full (R159). -/
def joinData (p : FramePacket) (s : State) : State :=
  if dataCapacity ≤ s.link.data.length then raise (.overrun .data) s
  else s.updLink fun l => { l with data := l.data ++ [p] }

/-- A LABEL packet joins the LABEL queue; a full queue first gives up its oldest entry (R159). -/
def joinLabel (p : LabelPacket) (s : State) : State :=
  if labelCapacity ≤ s.link.labels.length then
    raise (.overrun .label) (s.updLink fun l => { l with labels := l.labels.tail ++ [p] })
  else s.updLink fun l => { l with labels := l.labels ++ [p] }

/-- An answer joins the ANSWER queue, which has room whenever an order is carried out (R159, R165). -/
def joinAnswer (a : Answer) (s : State) : State :=
  s.updLink fun l => { l with answers := l.answers ++ [a] }

/-- Every lane frame and label of the slot leaves the queues without being sent (R161). -/
def removeSlotPackets (i : Fin 5) (s : State) : State :=
  s.updLink fun l =>
    { l with
      audio := l.audio.filter (fun p => decide (p.slot ≠ i))
      data := l.data.filter (fun p => decide (p.slot ≠ i))
      labels := l.labels.filter (fun p => decide (p.slot ≠ i)) }

/-! ### The cells of the Delay Store (R70 to R72) -/

/-- The number of cells: 384 columns of eight rows. -/
def cellCount : Nat := 3072

/-- The address of the cell in a column and a row. -/
def cellAddress (column row : Nat) : Nat := 8 * column + row

/-- The cell at an address, as it stands (R71). -/
def Memory.read : Memory → Nat → StoreCell
  | [], _ => StoreCell.blank
  | (a, c) :: rest, k => if a = k then c else Memory.read rest k

/-- The list with the cell at an address replaced, in canonical form. -/
def Memory.put : Memory → Nat → StoreCell → Memory
  | [], k, x => if x = StoreCell.blank then [] else [(k, x)]
  | (a, c) :: rest, k, x =>
    if k < a then (if x = StoreCell.blank then (a, c) :: rest else (k, x) :: (a, c) :: rest)
    else if k = a then (if x = StoreCell.blank then rest else (k, x) :: rest)
    else (a, c) :: Memory.put rest k x

/-- Writing a cell: as one change (R74). An address past the last cell names no cell and nothing is written. -/
def Memory.write (m : Memory) (k : Nat) (x : StoreCell) : Memory :=
  if k < cellCount then m.put k x else m

/-- The canonical form: addresses rising from a bound, below the number of cells, and no blank cell listed. -/
def Memory.wfFrom : Nat → Memory → Bool
  | _, [] => true
  | low, (a, c) :: rest => decide (low ≤ a) && decide (a < cellCount) && decide (c ≠ StoreCell.blank) && Memory.wfFrom (a + 1) rest

/-- The memory is in canonical form. -/
def Memory.wf (m : Memory) : Bool := Memory.wfFrom 0 m

/-- A cell cleared: tag EMPTY and erased mark clear, payload as it was (R72). -/
def StoreCell.cleared (c : StoreCell) : StoreCell := { c with tag := none, erased := false }

/-- Clearing a column sets the tags of its eight cells to EMPTY and their erased marks clear (R72). -/
def clearColumn (column : Nat) (m : Memory) : Memory :=
  (List.range 8).foldl (fun m row => m.write (cellAddress column row) (m.read (cellAddress column row)).cleared) m

/-- Clearing the columns of a list (R72). -/
def clearColumns (columns : List Nat) (s : State) : State :=
  s.updStore fun d => { d with cells := columns.foldl (fun m col => clearColumn col m) d.cells }

/-- Every tag EMPTY and every erased mark clear, the payloads as they were: a break reset (R70, R84). -/
def wipeTags : Memory → Memory
  | [] => []
  | (a, c) :: rest => if c.cleared = StoreCell.blank then wipeTags rest else (a, c.cleared) :: wipeTags rest

/-! ### The banks (R48 to R53) -/

def Bank.lane? (b : Bank) (x : Nat) : Option LaneEntry := b.lanes.find? (fun e => e.lane == x)
def Bank.service? (b : Bank) (v : Word16) : Option ServiceEntry := b.services.find? (fun e => e.service == v)

/-- The service entry of the active bank, or none; a bank without serial holds no entries (R48). -/
def activeService (s : State) (v : Word16) : Option ServiceEntry := s.laneMap.active.service? v

/-- The lane id that a service entry names for a role, if it names one (R49). -/
def ServiceEntry.lane? (e : ServiceEntry) (r : RoleIx) : Option Nat :=
  if r = 0 then e.primary else if r = 1 then e.twin else e.data[r.val - 2]?

/-- Insertion in ascending order of lane id, replacing an entry of the same id (R51). -/
def insertLane (x : LaneEntry) : List LaneEntry → List LaneEntry
  | [] => [x]
  | e :: rest => if x.lane < e.lane then x :: e :: rest else if x.lane = e.lane then x :: rest else e :: insertLane x rest

/-- Insertion in ascending order of service id, replacing an entry of the same id (R52). -/
def insertService (x : ServiceEntry) : List ServiceEntry → List ServiceEntry
  | [] => [x]
  | e :: rest =>
    if x.service < e.service then x :: e :: rest
    else if x.service = e.service then x :: rest
    else e :: insertService x rest

/-- The ranges of two lane entries share a position (R51). -/
def LaneEntry.overlaps (a b : LaneEntry) : Bool := decide (a.start < b.start + b.n ∧ b.start < a.start + a.n)

/-! ### The position index (R65) -/

/-- The context is FILLING or RUNNING. -/
def LaneContext.receiving (x : LaneContext) : Bool := x.state == .filling || x.state == .running

/-- The lane id a context holds. -/
def LaneContext.lane? (x : LaneContext) : Option Nat := x.shape.map LaneEntry.lane

/-- The index entries of one context: its lane's range in the active bank, tile index 0 at the start position. -/
def ctxIndex (b : Bank) (c : Fin 16) (x : LaneContext) : List IndexEntry :=
  if x.receiving then
    match x.lane?.bind b.lane? with
    | some e => (List.range e.n).map fun k => { position := e.start + k, ctx := c, tile := k }
    | none => []
  else []

/-- The position index built from the active bank and the lane contexts (R65). -/
def builtIndex (b : Bank) (ctxs : Vector LaneContext 16) : List IndexEntry :=
  ctxIds.flatMap fun c => ctxIndex b c ctxs[c]

/-- The index is rebuilt whole (R65). -/
def rebuildIndex (s : State) : State :=
  s.updLaneMap fun m => { m with index := builtIndex s.laneMap.active s.contexts }

/-- Entry t of the position index (R7). -/
def indexAt (s : State) (t : Nat) : Option IndexEntry := s.laneMap.index.find? (fun e => e.position == t)

/-! ### Lane contexts (R87 to R91) -/

/-- The context in FILLING or RUNNING that holds a lane, if any (R87). -/
def receivingLane (s : State) (x : Nat) : Option (Fin 16) :=
  ctxIds.find? fun c => (s.ctx c).receiving && (s.ctx c).lane? == some x

/-- The lowest-numbered FREE context (R88). -/
def freeCtx (s : State) : Option (Fin 16) := ctxIds.find? fun c => (s.ctx c).state == .free

/-- The answers to a request to open a lane context (R87). -/
inductive RequestAnswer where
  | shared (c : Fin 16)
  | noEntry
  | noContext
  | noColumns
  | opened (c : Fin 16)
  deriving DecidableEq, Repr

/-- A further reference to a context (R90). -/
def addRef (c : Fin 16) (s : State) : State := s.setCtx c { s.ctx c with refs := (s.ctx c).refs + 1 }

/-- Opening context c for a lane entry with first lane frame L0, its columns popped from the free column stack
(R77, R88). -/
def openCtx (c : Fin 16) (e : LaneEntry) (first : Count) (s : State) : State :=
  let columns := s.store.free.take e.n
  rebuildIndex
    ((s.updStore fun d => { d with free := d.free.drop e.n }).setCtx c
      { LaneContext.free with state := .filling, shape := some e, columns := columns, first := some first, refs := 1 })

/-- A request to open a lane context for lane x with first lane frame L0, answered by the first case of R87 that
applies. -/
def requestCtx (x : Nat) (first : Count) (s : State) : RequestAnswer × State :=
  match receivingLane s x with
  | some c => (.shared c, addRef c s)
  | none =>
    match s.laneMap.active.lane? x with
    | none => (.noEntry, s)
    | some e =>
      match freeCtx s with
      | none => (.noContext, s)
      | some c => if s.store.free.length < e.n then (.noColumns, s) else (.opened c, openCtx c e first s)

/-- Every slot that kept the context as an outgoing context drops it (R91 step 4). -/
def dropOutgoingCtx (c : Fin 16) (s : State) : State :=
  { s with
    slots := Vector.ofFn fun i =>
      { s.slots[i] with
        roles := Vector.ofFn fun r =>
          { s.slots[i].roles[r] with outgoing := s.slots[i].roles[r].outgoing.filter (fun d => decide (d ≠ c)) } } }

/-- Releasing a context (R91): its columns cleared and pushed in reverse order (R78), the context FREE, the index rebuilt,
and its outgoing places dropped. -/
def releaseCtx (c : Fin 16) (s : State) : State :=
  let columns := (s.ctx c).columns
  let s := clearColumns columns s
  let s := s.updStore fun d => { d with free := columns ++ d.free }
  dropOutgoingCtx c (rebuildIndex (s.setCtx c LaneContext.free))

/-- A slot gives up its reference to a context (R90): the count falls by 1, and a FILLING or RUNNING context whose count
falls to 0 is released at once. A context that is already FREE holds no count. -/
def dropRef (c : Fin 16) (s : State) : State :=
  if (s.ctx c).state = .free then s
  else
    let s' := s.setCtx c { s.ctx c with refs := (s.ctx c).refs - 1 }
    if (s'.ctx c).receiving ∧ (s'.ctx c).refs = 0 then releaseCtx c s' else s'

/-- Giving up a reference, whatever it is; only a reference to a context holds a count. -/
def dropReference (ref : Ref) (s : State) : State :=
  match ref with
  | .context c => dropRef c s
  | _ => s

/-- The references a slot holds, given up in the order of its roles (log 9). -/
def dropReferences (x : Slot) (s : State) : State :=
  roleIxs.foldl (fun s r => dropReference (x.roleRef r).ref s) s

/-- A slot refers to a context in one of its roles (R114). -/
def Slot.refersInRole (x : Slot) (c : Fin 16) : Bool := roleIxs.any fun r => (x.roleRef r).ref == .context c

/-- A slot refers to a context in one of its roles or as an outgoing context (R114). -/
def Slot.refersTo (x : Slot) (c : Fin 16) : Bool :=
  roleIxs.any fun r => (x.roleRef r).ref == .context c || (x.roleRef r).outgoing.contains c

end Sys2Proof.Machine
end

