-- ==== Sys2Proof/Machine/Flags.lean ====
section
/-! DEFINITION. The flags and levels that are computed from other state: the bank flags, the ATTN and ANNC lines, the
penalty, score and arm state of the Impairment Monitor, and the thresholds that govern a context. -/

namespace Sys2Proof.Machine

/-! ### Bank flags (R55) -/

/-- COMPLETE of an active bank under an active identity. -/
def bankComplete (identity : Option Word16) (b : Bank) : Bool :=
  match b.ident with
  | some c =>
    identity == some c.identity && c.lanes == b.lanes.length && c.services == b.services.length && !b.overfull
  | none => false

/-- READY of a pending bank. -/
def bankReady (b : Bank) : Bool :=
  match b.change with
  | some c => c.lanes == b.lanes.length && c.services == b.services.length && !b.overfull
  | none => false

/-- The flags evaluated afresh after a change to a bank (R55). -/
def evalFlags (s : State) : State :=
  s.updLaneMap fun m => { m with complete := bankComplete m.identity m.active, ready := bankReady m.pending }

/-! ### Output lines (R141, R173) -/

/-- The places of the nine causes. -/
def causePlaces : List (Fin 9) := [0, 1, 2, 3, 4, 5, 6, 7, 8]

/-- A cause is both pending and enabled (R173, R174). -/
def causeCounts (l : Link) (p : Fin 9) : Bool := l.causes[p].pending && l.enable.getLsbD p.val

/-- The level of ATTN while the part runs (R173). -/
def attnLevel (l : Link) : Bool := causePlaces.any (causeCounts l)

/-- The level of ANNC while the part runs (R141). -/
def anncLevel (t : Takeover) : Bool := t == .takeover || t == .inService

/-- ATTN and ANNC take their levels at the end of an event; both are low while the part is held (R141, R173, R175). -/
def driveLines (s : State) : State :=
  (s.updLink fun l => { l with attn := s.running && attnLevel l }).updAnnouncer
    fun a => { a with anncLine := s.running && anncLevel a.takeover }

/-! ### Impairment Monitor (chapter 6) -/

/-- The penalty P of a lane frame (R108). -/
def penalty (n u groups lost mismatch : Nat) : Nat :=
  min 4095 (2048 * u / n + 2048 * min groups (lost + mismatch) / groups)

/-- The score after an update (R109). -/
def nextScore (score p : Nat) : Nat := score - score / 8 + p / 8

/-- The crossings of R113. -/
inductive Crossing where
  | rise | fall | none
  deriving DecidableEq, Repr

/-- The crossing of an update, from the arm state before it, the new score and the governing thresholds (R113). -/
def crossingOf (arm : ArmState) (score thHi thLo : Nat) : Crossing :=
  match arm with
  | .high => if thHi ≤ score then .rise else .none
  | .low => if score ≤ thLo then .fall else .none

/-- The arm state after an update with this crossing (R113). -/
def armAfter (arm : ArmState) : Crossing → ArmState
  | .rise => .low
  | .fall => .high
  | .none => arm

/-- The thresholds that govern a context: those of the lowest-numbered slot that refers to it, else 1536 and 512 (R114). -/
def governing (s : State) (c : Fin 16) : Nat × Nat :=
  match allSlots.find? (fun i => (s.slot i).refersTo c) with
  | some i => ((s.slot i).thHi, (s.slot i).thLo)
  | none => (1536, 512)

/-- A context is usable (R115). -/
def LaneContext.usable (x : LaneContext) : Bool := x.state == .running && x.settle == 8 && x.arm == .high

/-! ### Profiles in use (R81) -/

/-- A profile is in use when some context that is not FREE holds its number. -/
def profileInUse (s : State) (p : Nat) : Bool :=
  ctxIds.any fun c => (s.ctx c).state != .free && ((s.ctx c).shape.map LaneEntry.profile) == some p

end Sys2Proof.Machine
end

