-- ==== Sys2Proof/Machine/Selection.lean ====
section
/-! DEFINITION. The Selection Controller: wanted roles and the fit test, opening and giving up the lanes of a slot, SELECT
and RELEASE, the retries, the state checks, suspension and resumption, and the early start (chapter 7). -/

namespace Sys2Proof.Machine

/-! ### Wanted roles (R120) -/

/-- A service of this kind makes a slot with these want flags want role r; slot 4 wants the primary alone. -/
def wantsRole (i : Fin 5) (kind : ServiceKind) (wantTwin wantData : Bool) (r : RoleIx) : Bool :=
  match kind with
  | .audio => r == 0 || (i != 4 && ((r == 1 && wantTwin) || (decide (2 ≤ r.val) && wantData)))
  | .dataOnly => i != 4 && decide (2 ≤ r.val)

/-- The roles a slot wants with the lane ids its service entry names for them, in the order of R62. -/
def wantedRoles (i : Fin 5) (e : ServiceEntry) (wantTwin wantData : Bool) : List (RoleIx × Nat) :=
  roleIxs.filterMap fun r =>
    if wantsRole i e.kind wantTwin wantData r then (e.lane? r).map fun l => (r, l) else none

/-- The lane of the required role: the primary of an AUDIO service, the first data lane of a DATA-ONLY one (R122). -/
def requiredLane (e : ServiceEntry) : Option Nat :=
  match e.kind with
  | .audio => e.primary
  | .dataOnly => e.data.head?

/-- The delivering role of a slot (R120). -/
def deliveringRole (kind : ServiceKind) (source : Source) : RoleIx :=
  match kind, source with
  | .audio, .primary => 0
  | .audio, .twin => 1
  | .dataOnly, _ => 2

/-- The kind of the service a slot holds, from the active bank. -/
def slotKind (s : State) (i : Fin 5) : Option ServiceKind :=
  ((s.slot i).service.bind (activeService s)).map ServiceEntry.kind

/-! ### The fit test (R122) -/

/-- The contexts X: FILLING or RUNNING contexts to which the slot alone refers and whose lane is not wanted. -/
def spareCtxs (s : State) (i : Fin 5) (wanted : List Nat) : List (Fin 16) :=
  ctxIds.filter fun c =>
    (s.ctx c).receiving && (s.ctx c).refs == 1 && (s.slot i).refersInRole c &&
      !(wanted.any fun l => (s.ctx c).lane? == some l)

/-- The number of FREE contexts (R169). -/
def freeCtxCount (s : State) : Nat := (ctxIds.filter fun c => (s.ctx c).state == .free).length

/-- The required lane fits, given the contexts X that the slot would free (R122). -/
def laneFits (s : State) (lane : Nat) (spare : List (Fin 16)) : Bool :=
  (receivingLane s lane).isSome ||
    match s.laneMap.active.lane? lane with
    | none => true
    | some e =>
      decide (1 ≤ freeCtxCount s + spare.length) &&
        decide (e.n ≤ s.store.free.length + (spare.map fun c => (s.ctx c).columns.length).sum)

/-- The required role of a service fits. -/
def serviceFits (s : State) (e : ServiceEntry) (spare : List (Fin 16)) : Bool :=
  match requiredLane e with
  | some l => laneFits s l spare
  | none => true

/-! ### Opening and giving up the lanes of a slot (R122, R124) -/

/-- The references of the five roles while they are being set. -/
abbrev Refs := Vector Ref 5

def noRefs : Refs := Vector.replicate 5 .notWanted

def Ref.isContext : Ref → Bool
  | .context _ => true
  | _ => false

/-- Sharing (R122 step 1): a wanted role whose lane a FILLING or RUNNING context holds refers to that context. -/
def shareStep (acc : State × Refs) (rl : RoleIx × Nat) : State × Refs :=
  match receivingLane acc.1 rl.2 with
  | some c => (addRef c acc.1, acc.2.set rl.1 (.context c))
  | none => acc

/-- The reference an answer to a request leaves in a role: a twin refused for room is ABSENT, any other refusal DEFERRED
(R122 step 3). -/
def refOfAnswer (ans : RequestAnswer) (r : RoleIx) (lane : Nat) : Ref :=
  match ans with
  | .shared c => .context c
  | .opened c => .context c
  | .noEntry => .deferred lane
  | .noContext => if r = 1 then .absent else .deferred lane
  | .noColumns => if r = 1 then .absent else .deferred lane

/-- Opening (R122 step 3): a wanted role without a context is requested. -/
def openStep (first : Count) (acc : State × Refs) (rl : RoleIx × Nat) : State × Refs :=
  if acc.2[rl.1].isContext then acc
  else
    let a := requestCtx rl.2 first acc.1
    (a.2, acc.2.set rl.1 (refOfAnswer a.1 rl.1 rl.2))

/-- A slot gives up every reference and drops its outgoing contexts, which hold no count (R124 step 1, log 15). -/
def giveUpSlot (i : Fin 5) (s : State) : State :=
  (dropReferences (s.slot i) s).updSlot i Slot.clearRoles

/-- A slot gives up every reference and keeps its outgoing contexts until their drains end (R61, R146). -/
def giveUpRefs (i : Fin 5) (s : State) : State :=
  (dropReferences (s.slot i) s).updSlot i Slot.clearRefs

/-- The fields of R123 for a slot that has opened its lanes; its label buffer and early flag are left to the caller. The outgoing
contexts that the slot has not given up stay until their drains end (R61), and no role counts as taken by an alarm any more (R150
step 4). -/
def openedSlot (s : State) (x : Slot) (service : Word16) (role : Option Role) (wantTwin wantData : Bool) (refs : Refs) : Slot :=
  { x with
    state := .opening
    role := role
    service := some service
    wantTwin := wantTwin
    wantData := wantData
    roles := Vector.ofFn fun r => { x.roles[r] with ref := refs[r] }
    source := .primary
    muted := false
    overridden := decide (role = some .foreground ∧ s.announcer.takeover = .takeover)
    dwell := 16
    cause := none
    parked := none
    taken := 0 }

/-- The slot takes these fields and enters OPENING (R123, R136). -/
def setOpened (i : Fin 5) (service : Word16) (role : Option Role) (wantTwin wantData : Bool) (refs : Refs) (s : State) : State :=
  raise (.selection i .opening) (s.updSlot i fun x => openedSlot s x service role wantTwin wantData refs)

/-- The steps of R122 and the fields of R123 for a slot whose required role fits; the references after the sharing step
and at the end are answered with the state. -/
def selectPresent (i : Fin 5) (e : ServiceEntry) (role : Option Role) (wantTwin wantData : Bool) (s : State) : Refs × Refs × State :=
  let wanted := wantedRoles i e wantTwin wantData
  let shared := wanted.foldl shareStep (s, noRefs)
  let given := removeSlotPackets i (giveUpSlot i shared.1)
  let opened := wanted.foldl (openStep (nextFrameCount s)) (given, shared.2)
  (shared.2, opened.2, emptyLabel i (setOpened i e.service role wantTwin wantData opened.2 opened.1))

/-- The lanes of a slot that holds nothing are opened: sharing, then requests with this first lane frame (R126). -/
def openHeldSlot (i : Fin 5) (e : ServiceEntry) (first : Count) (s : State) : State :=
  let x := s.slot i
  let wanted := wantedRoles i e x.wantTwin x.wantData
  let shared := wanted.foldl shareStep (s, noRefs)
  let opened := wanted.foldl (openStep first) shared
  setOpened i e.service x.role x.wantTwin x.wantData opened.2 opened.1

/-- A slot becomes SUSPENDED for want of room and holds no references (R126); outgoing contexts stay (R61). -/
def suspendRoom (i : Fin 5) (s : State) : State :=
  enterSlotState i .suspended (s.updSlot i fun x => { x.clearRefs with cause := some .room, parked := none })

/-- A slot becomes WAITING, keeping its service id, role and want flags (R63, R127, R154). -/
def becomeWaiting (i : Fin 5) (s : State) : State :=
  enterSlotState i .waiting (s.updSlot i fun x => { x.clearRoles with cause := none, parked := none })

/-- A slot that holds nothing is opened from its recorded service, role and want flags (R126, R150, R154): OPENING when
its required role fits, SUSPENDED with cause ROOM when not, WAITING when its service is absent. -/
def reopenSlot (i : Fin 5) (s : State) : State :=
  match (s.slot i).service.bind (activeService s) with
  | none => becomeWaiting i s
  | some e => if serviceFits s e [] then openHeldSlot i e (nextFrameCount s) s else suspendRoom i s

/-- The WAITING slots whose service is in the active bank open in ascending slot order (R126, log 12). -/
def openWaitingSlots (s : State) : State :=
  hostSlots.foldl (fun s i =>
    if (s.slot i).state = .waiting ∧ ((s.slot i).service.bind (activeService s)).isSome then reopenSlot i s else s) s

/-! ### State checks (R131) -/

/-- A role has a context in FILLING or RUNNING, or an outgoing context (R131). -/
def roleServed (s : State) (x : Slot) (r : RoleIx) : Bool :=
  (match (x.roleRef r).ref with
    | .context c => (s.ctx c).receiving
    | _ => false) || !(x.roleRef r).outgoing.isEmpty

/-- Source reversion (R131 step 1). -/
def revertSource (s : State) (x : Slot) : Slot :=
  if x.source = .twin ∧ !roleServed s x 1 then { x with source := .primary, dwell := 0 } else x

/-- Source reversion, which reaches a slot in any state, and demotion of a DELIVERING one (R131 steps 1 and 2). -/
def stateCheck (i : Fin 5) (s : State) : State :=
  let s := s.updSlot i (revertSource s)
  let y := s.slot i
  match slotKind s i with
  | some k => if y.state = .delivering ∧ !roleServed s y (deliveringRole k y.source) then enterSlotState i .opening s else s
  | none => s

/-- The check of every slot after an event that changes references (R131); the order of the slots is the model's choice
(log 29). -/
def stateChecks (s : State) : State := slotOrder.foldl (fun s i => stateCheck i s) s

/-! ### Retries (R64, R127) -/

/-- One DEFERRED role is requested again; a refusal leaves it DEFERRED (R62, R64). -/
def retryRole (i : Fin 5) (first : Count) (s : State) (r : RoleIx) : State :=
  match ((s.slot i).roleRef r).ref with
  | .deferred lane =>
    let a := requestCtx lane first s
    match a.1 with
    | .shared c => a.2.updSlot i fun x => x.setRef r (.context c)
    | .opened c => a.2.updSlot i fun x => x.setRef r (.context c)
    | _ => s
  | _ => s

/-- The DEFERRED roles of an OPENING or DELIVERING slot are retried with the next frame count (R64, R127). -/
def retryDeferred (i : Fin 5) (s : State) : State :=
  if (s.slot i).state = .opening ∨ (s.slot i).state = .delivering then
    roleIxs.foldl (retryRole i (s.intake.lastClosed + 1)) s
  else s

/-- A slot SUSPENDED with cause ROOM is retried: WAITING when its service is absent, OPENING when its required role now
fits, with first lane frame F + 1 of the count F just closed (R127). -/
def retryRoom (i : Fin 5) (s : State) : State :=
  if (s.slot i).state = .suspended ∧ (s.slot i).cause = some .room then
    match (s.slot i).service.bind (activeService s) with
    | none => becomeWaiting i s
    | some e => if serviceFits s e [] then openHeldSlot i e (s.intake.lastClosed + 1) s else s
  else s

/-- The one pass of retries at a frame close (R127). -/
def retryPass (s : State) : State := slotOrder.foldl (fun s i => if (s.slot i).state = .suspended then retryRoom i s else retryDeferred i s) s

/-! ### LOST (R129) -/

/-- Every slot in OPENING or DELIVERING becomes SUSPENDED with cause LOST, keeping its references (log 10). -/
def suspendLost (s : State) : State :=
  allSlots.foldl (fun s i =>
    if (s.slot i).state = .opening ∨ (s.slot i).state = .delivering then
      enterSlotState i .suspended (s.updSlot i fun x => { x with cause := some .lost })
    else s) s

/-- Every slot SUSPENDED with cause LOST becomes OPENING, in ascending slot order. -/
def resumeLost (s : State) : State :=
  allSlots.foldl (fun s i =>
    if (s.slot i).state = .suspended ∧ (s.slot i).cause = some .lost then
      enterSlotState i .opening
        (s.updSlot i fun x => { x with source := .primary, muted := false, dwell := 16, cause := none })
    else s) s

/-! ### SELECT (R121 to R123) -/

/-- The codes of the role outcomes in the answer to SELECT (Table 10-1), from the reference after the sharing step and
at the end. -/
def roleOutcome (shared final : Ref) : Byte :=
  match final with
  | .notWanted => 0
  | .context _ => if shared.isContext then 2 else 1
  | .deferred _ => 3
  | .absent => 4

/-- The answer data of a SELECT carried out (R123, Table 10-5). -/
def selectData (i : Fin 5) (state : SlotState) (shared final : Refs) : List Byte :=
  [BitVec.ofNat 8 i.val, (match state with | .opening => 2 | .waiting => 1 | _ => 5)] ++
    roleIxs.map (fun r => roleOutcome shared[r] final[r]) ++ [if final[(1 : Fin 5)] = .absent then 1 else 0]

/-- The slot as SELECT leaves it in the standby and absent cases (R121). -/
def heldSlot (x : Slot) (state : SlotState) (parked : Option SlotState) (service : Word16) (role : Role)
    (wantTwin wantData : Bool) : Slot :=
  { x.clearRoles with
    state := state, role := some role, service := some service, wantTwin := wantTwin, wantData := wantData,
    source := .primary, muted := false, overridden := false, dwell := 16, cause := none, parked := parked }

/-- SELECT in the standby and absent cases: the slot's references are given up, its packets removed, its label buffer
emptied, and it is set WAITING or PARKED (R121, R43). -/
def selectHeld (i : Fin 5) (state : SlotState) (parked : Option SlotState) (service : Word16) (role : Role)
    (wantTwin wantData : Bool) (s : State) : State :=
  let s := removeSlotPackets i (giveUpSlot i s)
  let s := s.updSlot i fun x => heldSlot x state parked service role wantTwin wantData
  raise (.selection i state) (emptyLabel i s)

/-- What every SELECT that is not refused does besides: the early start is consumed and the slot's early flag cleared
(R121, R123, R139). -/
def consumeEarly (i : Fin 5) (s : State) : State :=
  { s with earlyConsumed := true }.updSlot i fun x => { x with early := false }

/-- A slot other than this one has role FOREGROUND. -/
def otherForeground (s : State) (i : Fin 5) : Bool :=
  hostSlots.any fun j => j != i && (s.slot j).role == some .foreground

/-- The role that SELECT's role code names (Table 10-4). -/
def selectRole (code : Byte) : Option Role :=
  if code = 1 then some .foreground else if code = 2 then some .background else none

/-- SELECT, by the first case of R121 that applies: the result, the answer data and the state. The answer shows the slot as the
order leaves it, before the check of R148 at the end of the event: the model's choice (log 33). -/
def selectSlot (slot : Byte) (service : Word16) (roleCode wants : Byte) (s : State) : OrderResult × List Byte × State :=
  if h : slot.toNat < 4 then
    let i : Fin 5 := ⟨slot.toNat, Nat.lt_succ_of_lt h⟩
    match selectRole roleCode with
    | none => (.badValue, [slot], s)
    | some role =>
      let wantTwin := wants.getLsbD 0
      let wantData := wants.getLsbD 1
      if role = .foreground ∧ otherForeground s i then (.busy, [slot], s)
      else if s.announcer.power = .standby then
        (.accepted, selectData i .parked noRefs noRefs,
          consumeEarly i (selectHeld i .parked (some .waiting) service role wantTwin wantData s))
      else
        match activeService s service with
        | none =>
          (.accepted, selectData i .waiting noRefs noRefs,
            consumeEarly i (selectHeld i .waiting none service role wantTwin wantData s))
        | some e =>
          let wanted := (wantedRoles i e wantTwin wantData).map Prod.snd
          if serviceFits s e (spareCtxs s i wanted) then
            let a := selectPresent i e (some role) wantTwin wantData s
            (.accepted, selectData i .opening a.1 a.2.1, consumeEarly i (stateChecks a.2.2))
          else (.noRoom, [slot], s)
  else (.badSlot, [slot], s)

/-! ### RELEASE (R124) -/

/-- The fields of R124 step 4: reset values, the thresholds and masks kept. -/
def releasedSlot (i : Fin 5) (x : Slot) : Slot :=
  { Slot.reset (if i = 4 then some .announcement else none) with
    thHi := x.thHi, thLo := x.thLo, riseMask := x.riseMask, fallMask := x.fallMask }

/-- Any slot but an EMPTY one is released as one event. -/
def releaseSlot (i : Fin 5) (s : State) : State :=
  let s := emptyLabel i (removeSlotPackets i (giveUpSlot i s))
  raise (.selection i .empty) (s.updSlot i (releasedSlot i))

/-- RELEASE: the result, the answer data and the state. -/
def releaseOrder (slot : Byte) (s : State) : OrderResult × List Byte × State :=
  if h : slot.toNat < 4 then
    let i : Fin 5 := ⟨slot.toNat, Nat.lt_succ_of_lt h⟩
    if (s.slot i).state = .empty then (.accepted, [slot], s.updSlot i fun x => { x with early := false })
    else (.accepted, [slot], stateChecks (releaseSlot i s))
  else (.badSlot, [], s)

/-! ### Early start (R139) -/

/-- The AUDIO service of lowest id in the active bank: the first AUDIO entry in its ascending order. -/
def firstAudio (s : State) : Option ServiceEntry := s.laneMap.active.services.find? fun e => e.kind == .audio

/-- The conditions of R139, but for the AUDIO service. -/
def earlyConditions (s : State) : Bool :=
  s.running && s.earlyLow && !s.earlyConsumed && s.announcer.power == .active && s.intake.state == .locked &&
    s.laneMap.complete && (s.slot 0).state == .empty && !otherForeground s 0

/-- The early start, when its conditions hold (R139). -/
def earlyStart (s : State) : State :=
  match earlyConditions s, firstAudio s with
  | true, some e =>
    let s := { s with earlyConsumed := true }
    if serviceFits s e [] then
      (selectPresent 0 e (some .foreground) true false s).2.2.updSlot 0 fun x => { x with early := true }
    else s
  | _, _ => s

end Sys2Proof.Machine
end

