-- ==== Sys2Proof/Machine/Announce.lean ====
section
/-! DEFINITION. The Announcement Controller: onsets and ends, acceptance, preemption, the takeover, the return, standby and
warm restart, and what every event ends with (chapter 8, R139, R141, R173). -/

namespace Sys2Proof.Machine

/-- The slot among 0 to 3 with role FOREGROUND, if any. -/
def foreground (s : State) : Option (Fin 5) := hostSlots.find? fun i => (s.slot i).role == some .foreground

/-! ### The return (R150) -/

/-- The order in which the record's entries stand: ascending by slot (log 16). -/
def insertPreempted (p : Preempted) : List Preempted → List Preempted
  | [] => [p]
  | q :: rest => if p.slot < q.slot then p :: q :: rest else if p.slot = q.slot then p :: rest else q :: insertPreempted p rest

/-- A role noted in the preemption record is requested again if the slot still wants it and does not refer to it
(R150 step 4, log 17). -/
def reopenRole (i : Fin 5) (s : State) (r : RoleIx) : State :=
  let x := s.slot i
  match x.service.bind (activeService s) with
  | none => s
  | some e =>
    match e.lane? r with
    | none => s
    | some lane =>
      if wantsRole i e.kind x.wantTwin x.wantData r ∧ !(x.roleRef r).ref.isContext then
        let a := requestCtx lane (nextFrameCount s) s
        let ref := match a.1 with
          | .shared c => .context c
          | .opened c => .context c
          | _ => if r = 1 then .absent else .deferred lane
        a.2.updSlot i fun y => y.setRef r ref
      else s

/-- One entry of the preemption record is reopened, or dropped when its slot is in no state for it (R150 step 4). An entry can
note the whole slot and roles taken later from a new selection of it (R146), and a role noted before the slot was opened anew, as
by a SELECT, is dropped. The roles of one slot are requested in the order of R62, twin before data lanes: the model's choice
(log 31). -/
def reopenPreempted (s : State) (p : Preempted) : State :=
  let x := s.slot p.slot
  if p.whole ∧ x.state = .suspended ∧ x.cause = some .preempted then reopenSlot p.slot s
  else if x.state = .opening ∨ x.state = .delivering ∨ (x.state = .suspended ∧ x.cause = some .lost) then
    (roleIxs.filter fun r => (p.roles &&& x.taken).getLsbD r.val).foldl (reopenRole p.slot) s
  else s

/-- The preemption record is reopened in ascending slot order, and is then empty (R150 step 4). -/
def reopenRecord (s : State) : State :=
  let s' := s.announcer.preempted.foldl reopenPreempted s
  s'.updAnnouncer fun a => { a with preempted := [] }

/-- R150 steps 1 to 3: slot 4 is emptied, the override is cleared, nothing is held. -/
def endHeld (s : State) : State :=
  let s :=
    if (s.slot 4).state = .empty then s
    else raise (.selection 4 .empty) ((giveUpSlot 4 s).updSlot 4 (releasedSlot 4))
  let s := hostSlots.foldl (fun s i => s.updSlot i fun x => { x with overridden := false }) s
  let s := s.updAnnouncer fun a => { a with takeover := .idle, heldType := none, heldTarget := none, anchor := none }
  emptyLabel 4 s

/-- The return of the held announcement (R150); `keep` leaves the preemption record for the onset that follows
(R145, R149). -/
def returnHeld (keep : Bool) (s : State) : State :=
  let s := endHeld s
  let s := if keep then s else reopenRecord s
  raise (.announce .returned) (stateChecks s)

/-! ### Preemption for an alarm (R146) -/

/-- The roles in the order in which an alarm takes them. -/
def preemptionOrder (s : State) : List (Fin 5 × RoleIx) :=
  let background := ([3, 2, 1, 0] : List (Fin 5)).filter fun i => (s.slot i).role == some .background
  let own : List (Fin 5 × RoleIx) :=
    match foreground s with
    | some f => [(f, 4), (f, 3), (f, 2), (f, 1), (f, 0)]
    | none => []
  background.flatMap (fun i => ([(i, 4), (i, 3), (i, 2)] : List (Fin 5 × RoleIx))) ++ own

/-- The roles now taken are added to the slot's entry of the preemption record (R146). An entry that becomes whole keeps the
roles noted before: the model's choice (log 16). -/
def noteTaken (i : Fin 5) (whole : Bool) (r : RoleIx) (s : State) : State :=
  s.updAnnouncer fun a =>
    let old := (a.preempted.find? fun p => p.slot == i).getD { slot := i, whole := false, roles := 0 }
    let roles := if whole then old.roles else old.roles ||| (1#5 <<< r.val)
    let entry : Preempted := { slot := i, whole := old.whole || whole, roles := roles }
    { a with preempted := insertPreempted entry a.preempted }

/-- One role is taken, when its slot is OPENING or DELIVERING and it refers to a context of count 1 (R146). -/
def takeRole (i : Fin 5) (r : RoleIx) (s : State) : State :=
  let x := s.slot i
  if x.state = .opening ∨ x.state = .delivering then
    match (x.roleRef r).ref with
    | .context c =>
      if (s.ctx c).refs = 1 then
        if r = 0 ∨ (r = 2 ∧ slotKind s i = some .dataOnly) then
          enterSlotState i .suspended
            ((giveUpRefs i (noteTaken i true r s)).updSlot i fun y => { y with cause := some .preempted })
        else (dropRef c (noteTaken i false r s)).updSlot i fun y =>
          { y.setRef r .absent with taken := y.taken ||| (1#5 <<< r.val) }
      else s
    | _ => s
  else s

/-- Lanes of other slots are taken one role at a time until the lane fits (R146). -/
def preemptFor (lane : Nat) (s : State) : State :=
  stateChecks ((preemptionOrder s).foldl (fun s ir => if laneFits s lane [] then s else takeRole ir.1 ir.2 s) s)

/-! ### Acceptance (R144, R145, R147) -/

/-- Slot 4 opens its lane for the target (R145 step 4). -/
def openSlotFour (e : ServiceEntry) (s : State) : State :=
  let wanted := wantedRoles 4 e false false
  let shared := wanted.foldl shareStep (s, noRefs)
  let opened := wanted.foldl (openStep (nextFrameCount s)) shared
  let s := setOpened 4 e.service (some .announcement) false false opened.2 opened.1
  (emptyLabel 4 s).updAnnouncer fun a => { a with takeover := .opening }

/-- Slot 4 opens for an alarm, taking lanes from other slots when its own does not fit (R145 step 4, R146). A target that a correction
has made DATA-ONLY names no primary lane: slot 4 then opens with no role wanted, and nothing is taken, the model's choice (log 35). -/
def openSlotFourForAlarm (e : ServiceEntry) (s : State) : State :=
  match e.primary with
  | some lane => openSlotFour e (preemptFor lane s)
  | none => openSlotFour e s

/-- The anchor of an acceptance: none for ALARM, otherwise the foreground slot and its service (R140, R145). -/
def anchorFor (t : Fin 8) (s : State) : Option Anchor :=
  if t = 0 then none
  else
    match foreground s with
    | some f => (s.slot f).service.map fun v => { slot := f, service := v }
    | none => none

/-- What every acceptance that is not refused ends with (R145). -/
def setHeld (t : Fin 8) (target : Word16) (wake : Bool) (s : State) : State :=
  let s := s.updAnnouncer fun a => { a with heldType := some t, heldTarget := some target, anchor := anchorFor t s }
  if t = 0 then raise (.alarmOnset target wake) s else s

/-- The foreground slot carries service v in OPENING or DELIVERING (R145 step 3, R148). -/
def foregroundCarries (s : State) (v : Word16) : Bool :=
  hostSlots.any fun i =>
    (s.slot i).role == some .foreground && (s.slot i).service == some v &&
      ((s.slot i).state == .opening || (s.slot i).state == .delivering)

/-- Accepting an onset of type t for the AUDIO service e (R145). -/
def acceptOnset (t : Fin 8) (e : ServiceEntry) (wake : Bool) (s : State) : State :=
  if s.announcer.takeover ≠ .idle ∧ s.announcer.heldTarget = some e.service then setHeld t e.service wake s
  else
    let s := if s.announcer.takeover = .idle then s else returnHeld true s
    if foregroundCarries s e.service then
      let s := (emptyLabel 4 s).updAnnouncer fun a => { a with takeover := .inService }
      setHeld t e.service wake (raise (.announce .takeover) s)
    else if t = 0 then setHeld t e.service wake (openSlotFourForAlarm e s)
    else if serviceFits s e [] then setHeld t e.service wake (openSlotFour e s)
    else reopenRecord (raise (.announce .refusedRoom) s)

/-- The programme condition of R144. -/
def programmeAllows (t : Fin 8) (s : State) : Bool :=
  t == 0 || hostSlots.any fun i =>
    (s.slot i).role == some .foreground && ((s.slot i).state == .delivering || (s.slot i).overridden) &&
      (match (s.slot i).service.bind (activeService s) with
        | some e => e.support.getLsbD t.val
        | none => false)

/-- The priority condition of R144. -/
def priorityAllows (t : Fin 8) (s : State) : Bool :=
  s.announcer.takeover == .idle ||
    match s.announcer.heldType with
    | some h => decide (t < h)
    | none => false

/-- An onset is tested against the four conditions in the ACTIVE power state (R144). -/
def testOnset (t : Fin 8) (target : Word16) (wake : Bool) (s : State) : State :=
  if s.announcer.accept.getLsbD t.val ∧ programmeAllows t s ∧ priorityAllows t s then
    match activeService s target with
    | some e => if e.kind = .audio then acceptOnset t e wake s else raise (.announce .refusedTarget) s
    | none => raise (.announce .refusedTarget) s
  else s

/-- A warm restart (R154): every PARKED slot reopens in ascending slot order. -/
def warmRestart (s : State) : State :=
  hostSlots.foldl (fun s i => if (s.slot i).state = .parked then reopenSlot i s else s)
    (s.updAnnouncer fun a => { a with power := .active })

/-- An onset reported by the announcement table (R144, R153). -/
def onset (t : Fin 8) (target : Word16) (s : State) : State :=
  match s.announcer.power with
  | .active => testOnset t target false s
  | .standby =>
    if s.announcer.wake.getLsbD t.val then
      let s := s.updAnnouncer fun a => { a with wakeLine := true }
      if t = 0 then testOnset t target true (warmRestart (raise (.alarmOnset target true) s))
      else raise (.announce .wake) s
    else s

/-- The causes of an end (R42). -/
inductive EndCause where
  | off | expiry | replaced
  deriving DecidableEq, Repr

/-- An end reported by the announcement table (R149). -/
def annEnd (t : Fin 8) (target : Option Word16) (cause : EndCause) (s : State) : State :=
  if s.announcer.heldType = some t ∧ s.announcer.heldTarget = target ∧ s.announcer.takeover ≠ .idle then
    returnHeld (decide (cause = .replaced)) s
  else s

/-- The takeover begins when slot 4 is DELIVERING while the takeover state is OPENING (R147). -/
def beginTakeover (s : State) : State :=
  if s.announcer.takeover = .opening ∧ (s.slot 4).state = .delivering then
    let s := s.updAnnouncer fun a => { a with takeover := .takeover }
    let s := match foreground s with
      | some f => s.updSlot f fun x => { x with overridden := true }
      | none => s
    raise (.announce .takeover) s
  else s

/-! ### What is held is checked (R148) -/

/-- The anchored slot still has role FOREGROUND with the anchored service in OPENING, DELIVERING, or SUSPENDED with cause
LOST. -/
def anchorHolds (s : State) : Bool :=
  match s.announcer.anchor with
  | some a =>
    let x := s.slot a.slot
    x.role == some .foreground && x.service == some a.service &&
      (x.state == .opening || x.state == .delivering || (x.state == .suspended && x.cause == some .lost))
  | none => false

/-- The check of the held announcement: target gone, anchor gone, alarm losing its carrier (R148). An alarm held IN-SERVICE loses its
carrier when the intake enters LOST, too: the model's choice against R155 (log 34). -/
def checkHeld (s : State) : State :=
  if s.announcer.takeover = .idle then s
  else
    match s.announcer.heldTarget.bind (activeService s) with
    | none => returnHeld false s
    | some e =>
      if s.announcer.heldType ≠ some 0 then
        if anchorHolds s then s else returnHeld false s
      else if s.announcer.takeover = .inService ∧ !foregroundCarries s e.service then openSlotFourForAlarm e s
      else s

/-- Some slot among 0 to 3 has another state, role or service than before (R148). -/
def hostSlotsChanged (s s' : State) : Bool :=
  hostSlots.any fun i =>
    decide ((s.slot i).state ≠ (s'.slot i).state ∨ (s.slot i).role ≠ (s'.slot i).role ∨
      (s.slot i).service ≠ (s'.slot i).service)

/-- The check of what is held at the end of an event that changed a slot (R148). -/
def checkAfter (before after : State) : State :=
  if hostSlotsChanged before after then checkHeld after else after

/-- What the end of every event brings: the check of what is held (R148), the early start (R139), and the levels of the
lines (R141, R173). -/
def endEvent (before after : State) : State :=
  let s := checkAfter before after
  driveLines (checkAfter s (earlyStart s))

/-! ### Clearing and standby (R152, R155) -/

/-- The Announcement Controller goes to IDLE without a return (R155). -/
def clearAnnouncer (s : State) : State :=
  s.updAnnouncer fun a =>
    { a with takeover := .idle, heldType := none, heldTarget := none, anchor := none, preempted := [] }

/-- A slot that is not EMPTY is parked (R152 step 2). -/
def parkSlot (s : State) (i : Fin 5) : State :=
  if (s.slot i).state = .empty then s
  else
    raise (.selection i .parked)
      ((giveUpSlot i s).updSlot i fun x =>
        { x with
          parked := some x.state, state := .parked, source := .primary, muted := false, overridden := false,
          cause := none })

/-- STANDBY in the ACTIVE power state (R152). -/
def enterStandby (s : State) : State :=
  let s := if s.announcer.takeover = .idle then s else endHeld s
  let s := s.updAnnouncer fun a => { a with preempted := [], power := .standby, wakeLine := false }
  let s := hostSlots.foldl parkSlot s
  s.updLink fun l => { l with audio := [], data := [], labels := [] }

/-- STANDBY: in standby it only drives WAKE low (R152). -/
def standbyOrder (s : State) : OrderResult × List Byte × State :=
  match s.announcer.power with
  | .active => (.accepted, [], enterStandby s)
  | .standby => (.accepted, [], s.updAnnouncer fun a => { a with wakeLine := false })

/-- RESUME (R154). -/
def resumeOrder (s : State) : OrderResult × List Byte × State :=
  let s' := s.updAnnouncer fun a => { a with wakeLine := false }
  match s.announcer.power with
  | .active => (.notNow, [], s')
  | .standby => (.accepted, [], warmRestart s')

end Sys2Proof.Machine
end

