-- ==== Sys2Proof/Machine/Operands.lean ====
section
/-! DEFINITION. The byte forms of operands and results: the check of R2, the cells of Table 10-2, the order bodies of
Table 10-4, the codes of Table 10-1 and the packets of R183, R184 and R186. -/

namespace Sys2Proof.Machine

/-! ### The check (R2) -/

/-- One data bit enters the check register: it shifts towards its high-order end, and is combined with 0x1021 when the
bit that left differs from the data bit. -/
def crcBit (reg : Word16) (bit : Bool) : Word16 :=
  if (reg.getLsbD 15).xor bit then (reg <<< 1) ^^^ 0x1021 else reg <<< 1

/-- One byte enters the check register, most significant bit first. -/
def crcByte (reg : Word16) (b : Byte) : Word16 :=
  [7, 6, 5, 4, 3, 2, 1, 0].foldl (fun r i => crcBit r (b.getLsbD i)) reg

/-- The computed check of the bytes covered, from a register of all ones. -/
def crc (bytes : List Byte) : Word16 := bytes.foldl crcByte 0xFFFF

/-! ### Cells (R181) -/

/-- Offsets 1 to 5 of a HEAD: identity, frame count, layout serial, quality and the reserved bits. -/
def headBytes (identity : Word16) (count : Count) (serial quality reserved : BitVec 4) : List Byte :=
  wordBytes identity ++ [count.extractLsb' 4 8, count.extractLsb' 0 4 ++ serial, quality ++ reserved]

/-- The kind byte and the other bytes of each cell as the demodulator sends them. -/
def headCell (identity : Word16) (count : Count) (serial quality reserved : BitVec 4) (check : Word16) : List Byte :=
  0x51 :: headBytes identity count serial quality reserved ++ wordBytes check

def dirCell (index : Byte) (block : Bytes30) (check : Word16) : List Byte :=
  0x52 :: index :: bytes30 block ++ wordBytes check

def tileCell (erasure : Bool) (reserved : BitVec 5) (position : BitVec 10) (payload : Bytes30) (check : Word16) : List Byte :=
  0x53 :: (BitVec.ofBool erasure ++ reserved ++ position.extractLsb' 8 2) :: position.extractLsb' 0 8 ::
    bytes30 payload ++ wordBytes check

/-! ### Order bodies (R183, Table 10-4) -/

def selectBody (ref slot : Byte) (service : Word16) (role wants : Byte) : List Byte :=
  [ref, 0x01, slot] ++ wordBytes service ++ [role, wants]
def releaseBody (ref slot : Byte) : List Byte := [ref, 0x02, slot]
def setQualityBody (ref slot : Byte) (thHi thLo : Word16) (rise fall : Byte) : List Byte :=
  [ref, 0x03, slot] ++ wordBytes thHi ++ wordBytes thLo ++ [rise, fall]
def setAnnounceBody (ref accept wake : Byte) : List Byte := [ref, 0x04, accept, wake]
def loadPatternBody (ref number : Byte) (values : List Byte) : List Byte := [ref, 0x07, number] ++ values
def setHoldoverBody (ref limit : Byte) : List Byte := [ref, 0x08, limit]
def injectBody (ref : Byte) (record : List Byte) : List Byte := [ref, 0x09] ++ record
def queryBody (ref subject first second : Byte) : List Byte := [ref, 0x0B, subject, first, second]
def setAttentionBody (ref : Byte) (mask : Word16) : List Byte := [ref, 0x0D] ++ wordBytes mask
/-- The body of an order without parameters. -/
def plainBody (ref kind : Byte) : List Byte := [ref, kind]

/-- The bytes of an inbound packet of kind ORDER with this body (R183). -/
def orderFrame (body : List Byte) : List Byte := [0xC3, 0x10] ++ wordBytes (BitVec.ofNat 16 body.length) ++ body

/-! ### Codes (Table 10-1, R184) -/

def natByte (n : Nat) : Byte := BitVec.ofNat 8 n
def natWord (n : Nat) : List Byte := wordBytes (BitVec.ofNat 16 n)
def boolByte (b : Bool) : Byte := if b then 1 else 0
/-- Bits from bit 0 upward as one byte. -/
def flagsByte (bits : List Bool) : Byte :=
  bits.foldr (fun b acc => (acc <<< 1) ||| boolByte b) 0

def IntakeState.code : IntakeState → Byte
  | .search => 0 | .acquire => 1 | .locked => 2 | .holdover => 3 | .lost => 4
def PowerState.code : PowerState → Byte
  | .active => 0 | .standby => 1
def ResetCause.code : ResetCause → Byte
  | .power => 0 | .brk => 1
def LaneClass.code : LaneClass → Byte
  | .audio => 1 | .data => 2
def ServiceKind.code : ServiceKind → Nat
  | .audio => 1 | .dataOnly => 2
def CtxState.code : CtxState → Byte
  | .free => 0 | .filling => 1 | .running => 2 | .draining => 3
def ArmState.code : ArmState → Byte
  | .high => 0 | .low => 1
def SlotState.code : SlotState → Byte
  | .empty => 0 | .waiting => 1 | .opening => 2 | .delivering => 3 | .suspended => 4 | .parked => 5
def Role.code : Role → Byte
  | .foreground => 1 | .background => 2 | .announcement => 3
def causeCode : Option SuspendCause → Byte
  | none => 0 | some .lost => 1 | some .preempted => 2 | some .room => 3
def Source.code : Source → Byte
  | .primary => 0 | .twin => 1
def FrameSource.code : FrameSource → Byte
  | .primary => 0 | .twin => 1 | .data => 2 | .announcement => 3
def FrameStatus.code : FrameStatus → Byte
  | .clean => 0 | .repaired => 1 | .damaged => 2 | .lost => 3 | .muted => 4
def Takeover.code : Takeover → Byte
  | .idle => 0 | .opening => 1 | .takeover => 2 | .inService => 3
def OrderResult.code : OrderResult → Byte
  | .accepted => 0 | .unknownOrder => 1 | .badValue => 2 | .badSlot => 3 | .noRoom => 4 | .busy => 5 | .locked => 6
  | .notNow => 7

/-- The first detail of WHICH (R184). -/
def Attention.firstDetail : Attention → Byte
  | .alarmOnset _ wake => boolByte wake
  | .restart c => c.code
  | .syncChange .lock => 0 | .syncChange .realign => 1 | .syncChange .identity => 2 | .syncChange .lost => 3
  | .announce .refusedTarget => 0 | .announce .refusedRoom => 1 | .announce .takeover => 2 | .announce .returned => 3
  | .announce .wake => 4
  | .layout .corrected => 0 | .layout .stale => 1 | .layout .swapped => 2 | .layout .laneEnded => 3
  | .selection _ st => st.code
  | .quality _ .switch => 0 | .quality _ .mute => 1 | .quality _ .restore => 2 | .quality _ .unmute => 3
  | .quality _ .rise => 4 | .quality _ .fall => 5
  | .overrun .audio => 0 | .overrun .data => 1 | .overrun .label => 2 | .overrun .malformed => 3 | .overrun .order => 4
  | .label _ => 0

/-- The second detail of WHICH (R184). -/
def Attention.secondDetail : Attention → Word16
  | .alarmOnset target _ => target
  | .selection i _ => BitVec.ofNat 16 i.val
  | .quality i _ => BitVec.ofNat 16 i.val
  | .label i => BitVec.ofNat 16 i.val
  | _ => 0

/-! ### Outbound packets (R183, R184, R186) -/

def Answer.body (a : Answer) : List Byte := [a.ref, a.kind, a.result.code] ++ a.data

def FramePacket.body (p : FramePacket) : List Byte :=
  [natByte p.slot.val] ++ wordBytes p.service ++ [natByte p.lane, p.source.code] ++ natWord p.frame.toNat ++
    [p.status.code] ++ natWord p.score ++ natWord p.payload.length ++ p.payload

def LabelPacket.body (p : LabelPacket) : List Byte :=
  [natByte p.slot.val] ++ wordBytes p.service ++ [natByte p.text.length] ++ p.text

def Packet.kind : Packet → Byte
  | .frame _ => 0x01 | .answer _ => 0x02 | .label _ => 0x03

def Packet.body : Packet → List Byte
  | .answer a => a.body | .frame f => f.body | .label l => l.body

/-- The bytes of a packet on the outbound line: frame, then body (R183). -/
def Packet.bytes (p : Packet) : List Byte := [0xC3, p.kind] ++ natWord p.body.length ++ p.body

end Sys2Proof.Machine
end

