-- ==== Sys2Proof/Machine/Assembly.lean ====
section
/-! DEFINITION. The frame close: placing a tile, the assembly round with group repair and scoring, the hand-over to the
slots, the ends of drains and the retries (chapters 4 to 7). -/

namespace Sys2Proof.Machine

/-! ### Placing a tile (R73, R74) -/

/-- The pattern value of tile index k under profile p (R73). -/
def patternValue (s : State) (p k : Nat) : Nat := ((s.store.profiles.toList[p]?).getD [])[k % 8]?.getD 0

/-- A context admits a tile of lane frame L (R73). -/
def admits (x : LaneContext) (l : Count) : Bool :=
  match x.state, x.first with
  | .running, _ => true
  | .filling, some l0 => atOrAhead l l0
  | _, _ => false

/-- A tile handed over with its context, tile index, carrier frame count, payload and erased mark is written, or
discarded (R73, R74). -/
def placeTile (c : Fin 16) (k : Nat) (f : Count) (payload : Bytes30) (erased : Bool) (s : State) : State :=
  let x := s.ctx c
  match x.shape, x.columns[k]? with
  | some e, some column =>
    let l := f - BitVec.ofNat 12 (patternValue s e.profile k)
    let a := cellAddress column (rowOf l)
    if admits x l ∧ (s.store.cells.read a).tag ≠ some l then
      s.updStore fun d => { d with cells := d.cells.write a { payload := payload, tag := some l, erased := erased } }
    else s
  | _, _ => s

/-! ### Presence and group repair (R95 to R100) -/

/-- Tile k of lane frame L arrives before the change frame, the frame after the drain end, if the context is DRAINING: its
pattern value is below C - L (R60). A correction in mid-frame can follow tiles of frame C, which do not count (R95). -/
def beforeChange (s : State) (x : LaneContext) (l : Count) (k : Nat) : Bool :=
  match x.state, x.shape, x.drainEnd with
  | .draining, some e, some d => decide (patternValue s e.profile k < distance (d + 1) l)
  | _, _, _ => true

/-- Tile k of lane frame L: its payload when present, none when not (R95). -/
def tileAt (s : State) (x : LaneContext) (l : Count) (k : Nat) : Option Bytes30 :=
  match x.columns[k]? with
  | some column =>
    let cell := s.store.cells.read (cellAddress column (rowOf l))
    if cell.tag = some l ∧ cell.erased = false ∧ beforeChange s x l k then some cell.payload else none
  | none => none

/-- The n tiles of lane frame L. -/
def tilesOf (s : State) (x : LaneContext) (n : Nat) (l : Count) : List (Option Bytes30) :=
  (List.range n).map (tileAt s x l)

inductive GroupResult where
  | clean | mismatch | repaired | lost
  deriving DecidableEq, Repr

/-- The condition in which a data tile leaves the resolution of its group (R96). -/
inductive DataTile where
  | received (p : Bytes30)
  | rebuilt (p : Bytes30)
  | filled
  deriving DecidableEq, Repr

/-- The thirty bytes a data tile contributes to the payload (R102). -/
def DataTile.bytes : DataTile → List Byte
  | .received p => bytes30 p
  | .rebuilt p => bytes30 p
  | .filled => List.replicate 30 0

/-- The number of tiles that are not present. -/
def missingCount (tiles : List (Option Bytes30)) : Nat := (tiles.filter Option.isNone).length

/-- The bytewise exclusive or of the tiles that are present. -/
def xorPresent (tiles : List (Option Bytes30)) : Bytes30 := tiles.foldl (fun acc t => acc ^^^ t.getD 0) 0

/-- The result and the data tiles of a group of g data tiles and its parity tile (R97 to R99). -/
def resolveGroup (g : Nat) (tiles : List (Option Bytes30)) : GroupResult × List DataTile :=
  let sum := xorPresent tiles
  match missingCount tiles with
  | 0 => (if sum = 0 then .clean else .mismatch, (tiles.take g).map fun t => .received (t.getD 0))
  | 1 => (.repaired, (tiles.take g).map fun t => match t with | some p => .received p | none => .rebuilt sum)
  | _ => (.lost, (tiles.take g).map fun t => match t with | some p => .received p | none => .filled)

/-- The group of one tile of an unprotected lane (R100). -/
def resolveSingle (t : Option Bytes30) : GroupResult × List DataTile :=
  match t with
  | some p => (.clean, [.received p])
  | none => (.lost, [.filled])

/-- The groups of a lane frame in order (R96, R100). -/
def resolveGroups (n g : Nat) (tiles : List (Option Bytes30)) : List (GroupResult × List DataTile) :=
  if g = 0 then tiles.map resolveSingle
  else (List.range (n / (g + 1))).map fun j => resolveGroup g ((tiles.drop (j * (g + 1))).take (g + 1))

/-- The status of a lane frame from its group results and data tiles: the first line of R101 that applies. -/
def statusOf (groups : List (GroupResult × List DataTile)) : FrameStatus :=
  if groups.all fun x => x.1 == .clean then .clean
  else if groups.all fun x => x.1 == .clean || x.1 == .repaired then .repaired
  else if groups.all fun x => x.2.all fun t => t == .filled then .lost
  else .damaged

/-- The payload: the data tiles in order, less the trim (R102). -/
def payloadOf (groups : List (GroupResult × List DataTile)) (trim : Nat) : List Byte :=
  let bytes := groups.flatMap fun x => x.2.flatMap DataTile.bytes
  bytes.take (bytes.length - trim)

/-- The number of groups with a result. -/
def countResult (r : GroupResult) (groups : List (GroupResult × List DataTile)) : Nat :=
  (groups.filter fun x => x.1 == r).length

/-! ### The assembly round (R93, R94, R103) -/

/-- The record of one assembled lane frame (R103, R116). -/
structure LaneRecord where
  ctx : Fin 16
  lane : Nat
  cls : LaneClass
  frame : Count
  status : FrameStatus
  payload : List Byte
  missing : Nat
  lostGroups : Nat
  mismatchGroups : Nat
  groups : Nat
  score : Nat
  arm : ArmState
  crossing : Crossing
  deriving DecidableEq, Repr

/-- A context takes part in the round of lane frame L (R93, R94). -/
def takesPart (x : LaneContext) (l : Count) : Bool :=
  match x.state with
  | .free => false
  | .filling => x.first == some l
  | .running => true
  | .draining =>
    (match x.drainEnd with
      | some e => atOrBefore l e
      | none => false) && (decide (0 < x.assembled) || x.first == some l)

/-- One context in the round of lane frame L: skipped, or assembled, scored and recorded (R93, R107). -/
def assembleCtx (l : Count) (acc : State × List LaneRecord) (c : Fin 16) : State × List LaneRecord :=
  let s := acc.1
  let x := s.ctx c
  match x.shape with
  | none => acc
  | some e =>
    if takesPart x l then
      let tiles := tilesOf s x e.n l
      let groups := resolveGroups e.n e.g tiles
      let status := statusOf groups
      let u := missingCount tiles
      let r := countResult .lost groups
      let m := countResult .mismatch groups
      let score := nextScore x.score (penalty e.n u groups.length r m)
      let th := governing s c
      let crossing := crossingOf x.arm score th.1 th.2
      let y : LaneContext :=
        { x with
          state := if x.state = .filling then .running else x.state
          score := score
          arm := armAfter x.arm crossing
          settle := min 8 (x.settle + 1)
          assembled := min 65535 (x.assembled + 1)
          last := some (l, status) }
      let record : LaneRecord :=
        { ctx := c, lane := e.lane, cls := e.cls, frame := l, status := status, payload := payloadOf groups e.trim,
          missing := u, lostGroups := r, mismatchGroups := m, groups := groups.length, score := score, arm := y.arm,
          crossing := crossing }
      (s.setCtx c y, acc.2 ++ [record])
    else acc

/-- The assembly round of lane frame L over the contexts in ascending order of id (R93, R104). -/
def assemblyRound (l : Count) (s : State) : State × List LaneRecord := ctxIds.foldl (assembleCtx l) (s, [])

/-! ### The hand-over (R130 to R135) -/

/-- The record of a context in a round, if it assembled in it. -/
def recordOfCtx (recs : List LaneRecord) (c : Fin 16) : Option LaneRecord := recs.find? fun r => r.ctx == c

/-- The context serving a role in a round: the outgoing one that assembled, and the role's own when none did (R120). Where two
outgoing contexts of the role assembled, the one that went DRAINING first serves it: the model's choice (log 30). -/
def servingCtx (recs : List LaneRecord) (x : Slot) (r : RoleIx) : Option (Fin 16) :=
  match (x.roleRef r).outgoing.find? fun c => (recordOfCtx recs c).isSome with
  | some c => some c
  | none =>
    match (x.roleRef r).ref with
    | .context c => some c
    | _ => none

/-- The record of the context serving a role in a round. -/
def servingRecord (recs : List LaneRecord) (x : Slot) (r : RoleIx) : Option LaneRecord :=
  (servingCtx recs x r).bind (recordOfCtx recs)

/-- Promotion of an OPENING slot whose delivering role refers to a RUNNING context (R131 step 3); slot 4's entry into
DELIVERING begins the takeover (R147). -/
def promote (i : Fin 5) (s : State) : State :=
  let x := s.slot i
  match x.state, slotKind s i with
  | .opening, some k =>
    match (x.roleRef (deliveringRole k x.source)).ref with
    | .context c =>
      if (s.ctx c).state = .running then
        let s := enterSlotState i .delivering s
        if i = 4 then beginTakeover s else s
      else s
    | _ => s
  | _, _ => s

/-- The arm state of the context serving a role in a round (R132). -/
def servingArm (s : State) (recs : List LaneRecord) (x : Slot) (r : RoleIx) : Option ArmState :=
  (servingCtx recs x r).map fun c => (s.ctx c).arm

/-- The role's own context is usable (R115, R132). -/
def ownUsable (s : State) (x : Slot) (r : RoleIx) : Bool :=
  match (x.roleRef r).ref with
  | .context c => (s.ctx c).usable
  | _ => false

/-- The role named by the source of an AUDIO service. -/
def sourceRole (src : Source) : RoleIx := deliveringRole .audio src

/-- Step 1 of R132: switch to the twin. -/
def switchStep (i : Fin 5) (s : State) (recs : List LaneRecord) (x : Slot) : Slot × List QualityDetail :=
  if i ≠ 4 ∧ x.source = .primary ∧ servingArm s recs x 0 = some .low ∧ x.riseMask.getLsbD 1 ∧ ownUsable s x 1 ∧ 16 ≤ x.dwell then
    ({ x with source := .twin, dwell := 0 }, [.switch])
  else (x, [])

/-- Step 2 of R132: mute, if step 1 was not taken. -/
def muteStep (s : State) (recs : List LaneRecord) (a : Slot × List QualityDetail) : Slot × List QualityDetail :=
  let x := a.1
  if a.2 = [] ∧ servingArm s recs x (sourceRole x.source) = some .low ∧ x.riseMask.getLsbD 2 ∧ x.muted = false then
    ({ x with muted := true }, a.2 ++ [.mute])
  else a

/-- The context serving the primary role in a round is RUNNING and HIGH (R132). -/
def primaryGood (s : State) (recs : List LaneRecord) (x : Slot) : Bool :=
  match servingCtx recs x 0 with
  | some c => (s.ctx c).state == .running && (s.ctx c).arm == .high
  | none => false

/-- Step 3 of R132: restore the primary. -/
def restoreStep (i : Fin 5) (s : State) (recs : List LaneRecord) (a : Slot × List QualityDetail) : Slot × List QualityDetail :=
  let x := a.1
  if i ≠ 4 ∧ x.source = .twin ∧ primaryGood s recs x ∧ x.fallMask.getLsbD 1 ∧ 16 ≤ x.dwell then
    ({ x with source := .primary, dwell := 0 }, a.2 ++ [.restore])
  else a

/-- Step 4 of R132: unmute. -/
def unmuteStep (s : State) (recs : List LaneRecord) (a : Slot × List QualityDetail) : Slot × List QualityDetail :=
  let x := a.1
  if x.muted ∧ servingArm s recs x (sourceRole x.source) = some .high ∧ x.fallMask.getLsbD 2 then
    ({ x with muted := false }, a.2 ++ [.unmute])
  else a

/-- The quality decision of a DELIVERING slot of an AUDIO service: the slot after it and the actions taken, in order
(R132). -/
def qualityDecision (i : Fin 5) (s : State) (recs : List LaneRecord) (x : Slot) : Slot × List QualityDetail :=
  unmuteStep s recs (restoreStep i s recs (muteStep s recs (switchStep i s recs x)))

/-- The crossing of the context serving a role in a round. -/
def servingCrossing (recs : List LaneRecord) (x : Slot) (r : RoleIx) : Crossing :=
  match servingRecord recs x r with
  | some rec => rec.crossing
  | none => .none

/-- The crossings that R134 considers, the primary's first. -/
def consideredCrossings (recs : List LaneRecord) (x : Slot) (k : ServiceKind) : List Crossing :=
  match k with
  | .dataOnly => [servingCrossing recs x 2]
  | .audio => servingCrossing recs x 0 :: (if x.source = .twin then [servingCrossing recs x 1] else [])

/-- The detail of a crossing. -/
def crossingDetail : Crossing → Option QualityDetail
  | .rise => some .rise
  | .fall => some .fall
  | .none => none

/-- The detail of the QUALITY attention a slot raises in a round, if any (R134). -/
def qualityAttention (recs : List LaneRecord) (x : Slot) (k : ServiceKind) (actions : List QualityDetail) : Option QualityDetail :=
  let cs := consideredCrossings recs x k
  let raised := cs.any fun c => (c == .rise && x.riseMask.getLsbD 0) || (c == .fall && x.fallMask.getLsbD 0)
  if raised then (actions ++ cs.filterMap crossingDetail).head? else none

/-- The packet of a lane frame (R135, R162). -/
def framePacket (i : Fin 5) (service : Word16) (source : FrameSource) (muted : Bool) (rec : LaneRecord) : FramePacket :=
  { slot := i, service := service, lane := rec.lane, source := source, frame := rec.frame,
    status := if muted then .muted else rec.status, score := rec.score, payload := if muted then [] else rec.payload }

/-- The audio lane frame of a DELIVERING slot, that of the context serving the source role, is queued (R135). -/
def queueAudio (i : Fin 5) (recs : List LaneRecord) (x : Slot) (service : Word16) (s : State) : State :=
  match servingRecord recs x (sourceRole x.source) with
  | none => s
  | some rec =>
    let source := match x.source with
      | .primary => FrameSource.primary
      | .twin => FrameSource.twin
    match x.role with
    | some .announcement =>
      if s.announcer.takeover = .takeover then joinAudio (framePacket i service .announcement x.muted rec) s else s
    | some .foreground => if x.overridden then s else joinAudio (framePacket i service source x.muted rec) s
    | some .background => joinData (framePacket i service source x.muted rec) s
    | none => s

/-- The lane frames of the data roles are queued in the entry's order of data lanes (R135). -/
def queueData (i : Fin 5) (recs : List LaneRecord) (x : Slot) (service : Word16) (s : State) : State :=
  ([2, 3, 4] : List RoleIx).foldl (fun s r =>
    match servingRecord recs x r with
    | some rec => joinData (framePacket i service .data false rec) s
    | none => s) s

/-- Queueing and the dwell step of a DELIVERING slot (R133, R135). The audio of the source role is queued whatever the kind of
the service: an outgoing primary or twin still drains when the service has become DATA-ONLY (R61, log 32). -/
def queueSlot (i : Fin 5) (recs : List LaneRecord) (s : State) : State :=
  let x := s.slot i
  match x.state, x.service with
  | .delivering, some service =>
    let s := queueData i recs x service (queueAudio i recs x service s)
    s.updSlot i fun y => { y with dwell := min 255 (y.dwell + 1) }
  | _, _ => s

/-- The hand-over of a round to one slot in OPENING or DELIVERING (R130). -/
def handleSlot (recs : List LaneRecord) (s : State) (i : Fin 5) : State :=
  if (s.slot i).state = .opening ∨ (s.slot i).state = .delivering then
    let s := promote i (stateCheck i s)
    match slotKind s i with
    | none => s
    | some k =>
      let x := s.slot i
      let d := if x.state = .delivering ∧ k = .audio then qualityDecision i s recs x else (x, [])
      let s := s.setSlot i d.1
      let s := match qualityAttention recs d.1 k d.2 with
        | some q => raise (.quality i q) s
        | none => s
      queueSlot i recs s
  else s

/-- The hand-over of a round to the slots in the order 4, 0, 1, 2, 3 (R130). -/
def handOver (recs : List LaneRecord) (s : State) : State := slotOrder.foldl (handleSlot recs) s

/-! ### The ends of drains and the frame close (R5, R9, R94, R127) -/

/-- A DRAINING context has assembled its drain end frame (R94). -/
def drainDone (x : LaneContext) : Bool :=
  x.state == .draining && x.drainEnd.isSome && x.last.map Prod.fst == x.drainEnd

/-- Such a context is released with LAYOUT attention LANE-ENDED (R94). -/
def endDrain (s : State) (c : Fin 16) : State :=
  if drainDone (s.ctx c) then raise (.layout .laneEnded) (releaseCtx c s) else s

/-- The releases at the ends of drains, in ascending order of id, and the checks of the slots they leave (R94, R131). -/
def endDrains (s : State) : State := stateChecks (ctxIds.foldl endDrain s)

/-- The close of carrier frame F, real or virtual: the last closed count, the round of lane frame F - 7, its hand-over,
the ends of drains and the retries (R5, R9, R93, R130). -/
def frameClose (f : Count) (s : State) : State :=
  let round := assemblyRound (f - 7) (s.updIntake fun p => { p with lastClosed := f })
  retryPass (endDrains (handOver round.2 round.1))

end Sys2Proof.Machine
end

