-- ==== Sys2Proof/Machine/LaneMap.lean ====
section
/-! DEFINITION. The Lane Map: placing a commit, corrections, the swap trigger, lane outcomes, re-resolution, realignment
and the identity change (chapter 3, R22, R23). -/

namespace Sys2Proof.Machine

/-! ### Lane outcomes (R59, R60) -/

/-- The context has a first lane frame at or before a count. -/
def startsBy (x : LaneContext) (l : Count) : Bool :=
  match x.first with
  | some l0 => atOrBefore l0 l
  | none => false

/-- A FILLING or RUNNING context goes DRAINING at change frame C, or is released at once when it has nothing to deliver
(R60). -/
def drainCtx (frame : Count) (c : Fin 16) (s : State) : State :=
  let x := s.ctx c
  if x.assembled = 0 ∧ startsBy x (frame - 1) = false then raise (.layout .laneEnded) (releaseCtx c s)
  else s.setCtx c { x with state := .draining, drainEnd := some (frame - 1) }

/-- The outcome of one context against the active bank (R59). -/
def laneOutcome (frame : Count) (s : State) (c : Fin 16) : State :=
  let x := s.ctx c
  match x.receiving, x.shape with
  | true, some old =>
    match s.laneMap.active.lane? old.lane with
    | some e =>
      if e.n = old.n ∧ e.profile = old.profile ∧ e.g = old.g then s.setCtx c { x with shape := some e }
      else drainCtx frame c s
    | none => drainCtx frame c s
  | _, _ => s

/-- The outcomes of every context, in ascending order of id (R58); R54 gives no order for a correction, and the model takes the
same one (log 11). -/
def laneOutcomes (frame : Count) (s : State) : State := ctxIds.foldl (laneOutcome frame) s

/-! ### Re-resolution (R62, R63, R128) -/

/-- The slot takes part in re-resolution. -/
def takesPartInReResolution (x : Slot) : Bool := x.state == .opening || x.state == .delivering || x.state == .suspended

/-- The slot wants roles: it is OPENING, DELIVERING or SUSPENDED with cause LOST (R120). -/
def wantsRoles (x : Slot) : Bool :=
  x.state == .opening || x.state == .delivering || (x.state == .suspended && x.cause == some .lost)

/-- The lane a role of a slot resolves to: what the entry names for it, when the slot wants it (R62, R120). -/
def resolvedLane (i : Fin 5) (x : Slot) (e : ServiceEntry) (r : RoleIx) : Option Nat :=
  if wantsRoles x ∧ wantsRole i e.kind x.wantTwin x.wantData r then e.lane? r else none

/-- The reference left in a role that is given up: ABSENT for a twin the entry does not name, else not wanted until it is
requested (R62). -/
def givenUpRef (lane : Option Nat) (r : RoleIx) : Ref := if r = 1 ∧ lane = none then .absent else .notWanted

/-- The first pass for one role of a slot (R62). -/
def giveUpRole (i : Fin 5) (e : ServiceEntry) (s : State) (r : RoleIx) : State :=
  let x := s.slot i
  let lane := resolvedLane i x e r
  match (x.roleRef r).ref with
  | .context c =>
    let y := s.ctx c
    if y.state = .draining then (dropRef c s).updSlot i fun x => (x.setRef r (givenUpRef lane r)).addOutgoing r c
    else if y.state = .free ∨ lane = none ∨ y.lane? ≠ lane then
      (dropRef c s).updSlot i fun x => x.setRef r (givenUpRef lane r)
    else s
  | .deferred _ => if lane = none then s.updSlot i fun x => x.setRef r (givenUpRef lane r) else s
  | _ => s

/-- The first pass for one slot; a slot whose service is absent gives up everything it holds (R62, R63). -/
def giveUpPass (s : State) (i : Fin 5) : State :=
  if takesPartInReResolution (s.slot i) then
    match (s.slot i).service.bind (activeService s) with
    | some e => roleIxs.foldl (giveUpRole i e) s
    | none => giveUpSlot i s
  else s

/-- The second pass for one role of a slot (R62). -/
def requestRole (i : Fin 5) (e : ServiceEntry) (frame : Count) (s : State) (r : RoleIx) : State :=
  let x := s.slot i
  match resolvedLane i x e r with
  | some lane =>
    if (x.roleRef r).ref.isContext then s
    else
      let a := requestCtx lane frame s
      let ref := match a.1 with
        | .shared c => .context c
        | .opened c => .context c
        | _ => .deferred lane
      a.2.updSlot i fun x => x.setRef r ref
  | none => s

/-- The second pass for one slot. -/
def requestPass (frame : Count) (s : State) (i : Fin 5) : State :=
  if takesPartInReResolution (s.slot i) then
    match (s.slot i).service.bind (activeService s) with
    | some e => roleIxs.foldl (requestRole i e frame) s
    | none => s
  else s

/-- The settling of one slot that took part: WAITING when its service left the bank, and the check of R131 (R63, R128). -/
def settleSlot (s : State) (i : Fin 5) : State :=
  if takesPartInReResolution (s.slot i) then
    stateCheck i (if i ≠ 4 ∧ ((s.slot i).service.bind (activeService s)).isNone then becomeWaiting i s else s)
  else s

/-- Re-resolution at change frame C and the settling of the slots (R62, R63, R128). The order in which the slots are settled is
the model's choice (log 29). -/
def reResolve (frame : Count) (s : State) : State :=
  slotOrder.foldl settleSlot (slotOrder.foldl (requestPass frame) (slotOrder.foldl giveUpPass s))

/-- What a swap and a correction share: outcomes, re-resolution, the index, LAYOUT attention, the report of the added
services and the check of what is held (R54, R58, R63, R148). -/
def layoutChange (frame : Count) (d : LayoutDetail) (s : State) : State :=
  let s := rebuildIndex (reResolve frame (laneOutcomes frame s))
  checkHeld (openWaitingSlots (raise (.layout d) s))

/-- A correction (R54). -/
def correction (s : State) : State := layoutChange (correctionFrame s) .corrected s

/-! ### Placing a commit (R50 to R53) -/

/-- A bank after a commit has acted on it, whether that is a correction in an active bank, and whether an entry joined. -/
structure BankCommit where
  bank : Bank
  correction : Bool
  added : Bool
  deriving DecidableEq, Repr

/-- A LANE commit (R51). -/
def commitLane (e : LaneEntry) (b : Bank) : BankCommit :=
  let kept := b.lanes.filter fun o => o.lane == e.lane || !o.overlaps e
  let old := b.lane? e.lane
  { bank := { b with lanes := insertLane e kept }
    correction := decide (kept.length ≠ b.lanes.length) || (old.isSome && decide (old ≠ some e))
    added := old.isNone }

/-- A SERVICE commit (R52). -/
def commitService (e : ServiceEntry) (b : Bank) : BankCommit :=
  match b.service? e.service with
  | some old =>
    let new := { e with label := old.label }
    { bank := { b with services := insertService new b.services }, correction := decide (old ≠ new), added := false }
  | none =>
    if b.services.length < 32 then
      { bank := { b with services := insertService { e with label := none } b.services }, correction := false, added := true }
    else { bank := { b with overfull := true }, correction := false, added := false }

/-- A SERVICE-LABEL commit (R53). -/
def commitServiceLabel (v : Word16) (text : List Byte) (b : Bank) : BankCommit :=
  match b.service? v with
  | some e =>
    { bank := { b with services := insertService { e with label := some text } b.services }, correction := false, added := false }
  | none => { bank := b, correction := false, added := false }

/-- An IDENT commit (R53). -/
def commitIdent (c : IdentContents) (b : Bank) : BankCommit :=
  { bank := { b with ident := some c }, correction := false, added := false }

/-- A CHANGE commit (R53). -/
def commitChange (c : ChangeContents) (b : Bank) : BankCommit :=
  { bank := { b with change := some c }, correction := false, added := false }

/-- The pending bank that receives a commit of serial v (R50). -/
def pendingFor (v : Nat) (b : Bank) : Bank :=
  if b.serial = none ∨ b.serial = some v then { b with serial := some v } else { Bank.empty with serial := some v }

/-- A commit of serial v is placed and acts (R50, R54, R55). -/
def placeCommit (v : Nat) (f : Bank → BankCommit) (s : State) : State :=
  if s.laneMap.active.serial = some v then
    let c := f s.laneMap.active
    let s := evalFlags (s.updLaneMap fun m => { m with active := c.bank })
    if c.correction then correction s
    else if c.added then openWaitingSlots s
    else s
  else evalFlags (s.updLaneMap fun m => { m with pending := (f (pendingFor v m.pending)).bank })

/-! ### The swap trigger (R56 to R58) -/

/-- Adoption of serial h (R57). -/
def adopt (h : Nat) (s : State) : State :=
  openWaitingSlots (evalFlags (s.updLaneMap fun m =>
    if m.pending.serial = some h then { m with active := m.pending, pending := Bank.empty }
    else { m with active := { Bank.empty with serial := some h } }))

/-- The swap at the HEAD of count C (R58). -/
def swap (frame : Count) (s : State) : State :=
  layoutChange frame .swapped
    (evalFlags (s.updLaneMap fun m => { m with active := m.pending, pending := Bank.empty, stale := false }))

/-- The stale case (R57). -/
def staleHead (h : Nat) (s : State) : State :=
  let s' := if s.laneMap.stale then s else raise (.layout .stale) (s.updLaneMap fun m => { m with stale := true })
  evalFlags (s'.updLaneMap fun m =>
    if m.pending.serial = some h then m else { m with pending := { Bank.empty with serial := some h } })

/-- The swap trigger at a HEAD of serial h and count C (R56). -/
def swapTrigger (h : Nat) (frame : Count) (s : State) : State :=
  if s.laneMap.active.serial = none then adopt h s
  else if s.laneMap.active.serial = some h then
    (if s.laneMap.stale && s.laneMap.complete then s.updLaneMap fun m => { m with stale := false } else s)
  else if s.laneMap.pending.serial = some h ∧ s.laneMap.ready then swap frame s
  else staleHead h s

/-! ### Realignment (R22, R92) -/

/-- One context at a realignment with first lane frame h. -/
def realignCtx (h : Count) (s : State) (c : Fin 16) : State :=
  let x := s.ctx c
  match x.state with
  | .free => s
  | .draining => raise (.layout .laneEnded) (releaseCtx c s)
  | _ =>
    (clearColumns x.columns s).setCtx c
      { x with state := .filling, first := some h, settle := 0, assembled := 0, last := none }

/-- A realignment with first lane frame h, and the checks of the slots that lost an outgoing context (R22, R131). -/
def realign (h : Count) (s : State) : State := stateChecks (ctxIds.foldl (realignCtx h) s)

/-! ### The identity change (R23, R24, R67, R128, R155) -/

/-- A host slot at an identity change (R128). -/
def forgetSlot (x : Slot) : Slot :=
  match x.state with
  | .empty => x
  | .parked => { x with parked := some .waiting }
  | _ =>
    { x.clearRoles with
      state := .waiting, source := .primary, muted := false, overridden := false, cause := none, parked := none }

/-- Every context that is not FREE is released, in ascending order of id, without attention (R23). -/
def releaseAll (s : State) : State :=
  ctxIds.foldl (fun s c => if (s.ctx c).state = .free then s else releaseCtx c s) s

/-- The highest-numbered host slot whose state the identity change changes (R128, log 18). -/
def changedSlot (s : State) : Option (Fin 5) :=
  ([3, 2, 1, 0] : List (Fin 5)).find? fun i => decide ((forgetSlot (s.slot i)).state ≠ (s.slot i).state)

/-- The clearing of R23 with this active identity, none for FORGET (R24). SELECTION is raised when slot 4 enters EMPTY (R136) and
then once for the host slots (R128), whose detail stays: the model's reading of the two rules (log 18). -/
def identityChange (identity : Option Word16) (s : State) : State :=
  let changed := changedSlot s
  let s := releaseAll s
  let s := s.updLaneMap fun _ => { LaneMap.reset with identity := identity }
  let s := s.updDirectory fun _ => Directory.reset
  let s := clearAnnouncer s
  let s := if (s.slot 4).state = .empty then s else raise (.selection 4 .empty) (s.updSlot 4 (releasedSlot 4))
  let s := hostSlots.foldl (fun s i => s.updSlot i forgetSlot) s
  match changed with
  | some i => raise (.selection i .waiting) s
  | none => s

end Sys2Proof.Machine
end

