-- ==== Sys2Proof/Machine/Directory.lean ====
section
/-! DEFINITION. The Directory Acquirer: confirmation, the announcement table, the label buffers and INJECT (chapter 2). -/

namespace Sys2Proof.Machine

/-! ### Records and what is committed (R30, R31) -/

/-- Two records have the same key in the candidate list (R30). -/
def sameKey : Record → Record → Bool
  | .lane x _ _ _ _ _ _ v, .lane y _ _ _ _ _ _ w => decide (x = y ∧ v = w)
  | .service x v .., .service y w .. => decide (x = y ∧ v = w)
  | .serviceLabel x v _, .serviceLabel y w _ => decide (x = y ∧ v = w)
  | .ident v .., .ident w .. => decide (v = w)
  | .change v .., .change w .. => decide (v = w)
  | .announce t _ x, .announce u _ y => decide (t = u ∧ x = y)
  | _, _ => false

/-- The class of a well-formed LANE record (Table 10-1). -/
def laneClassOf (code : Nat) : LaneClass := if code = 1 then .audio else .data

/-- The kind of a well-formed SERVICE record (Table 10-1). -/
def serviceKindOf (code : Nat) : ServiceKind := if code = 1 then .audio else .dataOnly

/-- The bank whose serial is v (R31). -/
def bankOf (s : State) (v : Nat) : Option Bank :=
  if s.laneMap.active.serial = some v then some s.laneMap.active
  else if s.laneMap.pending.serial = some v then some s.laneMap.pending
  else none

/-- Entry t of the announcement table. -/
def annEntry (s : State) (t : Fin 8) : AnnEntry := s.directory.table[t]

def setAnnEntry (t : Fin 8) (e : AnnEntry) (s : State) : State :=
  s.updDirectory fun d => { d with table := d.table.set t e }

/-- The announcement type of a well-formed ANNOUNCE record. -/
def annType (t : Nat) : Fin 8 := Fin.ofNat 8 t

/-- The record equals what is committed (R31). -/
def equalsCommitted (s : State) : Record → Bool
  | .lane x start n profile g trim cls v =>
    (bankOf s v).any fun b => b.lane? x ==
      some { lane := x, start := start, n := n, profile := profile, g := g, trim := trim, cls := laneClassOf cls }
  | .service x v kind primary twin data support =>
    (bankOf s v).any fun b => (b.service? x).any fun e => decide (e.kind = serviceKindOf kind ∧ e.primary = primary ∧
      e.twin = twin ∧ e.data = data ∧ e.support = support)
  | .serviceLabel x v text => (bankOf s v).any fun b => (b.service? x).any fun e => e.label == some text
  | .ident v identity lanes services name =>
    (bankOf s v).any fun b => b.ident == some { identity := identity, lanes := lanes, services := services, name := name }
  | .change v frame lanes services =>
    (bankOf s v).any fun b => b.change == some { lanes := lanes, services := services, frame := frame }
  | .announce t state target =>
    let e := annEntry s (annType t)
    if state = 1 then e.on && e.target == some target else !e.on || e.target != some target
  | .labelSegment .. => false

/-! ### The announcement table (R38 to R41) -/

/-- A committed ANNOUNCE ON (R38, R149): an entry ON with another target first reports its end with cause REPLACED, and
the preemption record that the end kept is reopened when the onset did not take it over. -/
def commitOn (t : Fin 8) (target : Word16) (s : State) : State :=
  let e := annEntry s t
  let new : AnnEntry := { on := true, target := some target, age := 0 }
  if e.on then
    if e.target = some target then s
    else
      let s := onset t target (setAnnEntry t new (annEnd t e.target .replaced s))
      if s.announcer.takeover = .idle then reopenRecord s else s
  else onset t target (setAnnEntry t new s)

/-- A committed ANNOUNCE OFF (R40). -/
def commitOff (t : Fin 8) (target : Word16) (s : State) : State :=
  let e := annEntry s t
  if e.on ∧ e.target = some target then
    annEnd t (some target) .off (setAnnEntry t { e with on := false, age := 0 } s)
  else s

/-- A refresh of an ANNOUNCE ON record (R39); any other record refreshes nothing. -/
def refresh (r : Record) (s : State) : State :=
  match r with
  | .announce t 1 _ => setAnnEntry (annType t) { annEntry s (annType t) with age := 0 } s
  | _ => s

/-- The types in rising order. -/
def annTypes : List (Fin 8) := [0, 1, 2, 3, 4, 5, 6, 7]

/-- One more tick on the age of every ON entry (R41). -/
def ageTable (s : State) : State :=
  annTypes.foldl (fun s t =>
    if (annEntry s t).on then setAnnEntry t { annEntry s t with age := (annEntry s t).age + 1 } s else s) s

/-- An ON entry whose age has reached 64 ends by expiry (R41). -/
def expireEntry (s : State) (t : Fin 8) : State :=
  let e := annEntry s t
  if e.on ∧ 64 ≤ e.age then annEnd t e.target .expiry (setAnnEntry t { e with on := false, age := 0 } s) else s

/-- The ends by expiry, in rising order of type (R41). -/
def expireTable (s : State) : State := annTypes.foldl expireEntry s

/-! ### Commits (R35) -/

/-- Committing a record: to the Lane Map with its serial, or to the announcement table (R35). -/
def commitRecord (r : Record) (s : State) : State :=
  match r with
  | .lane x start n profile g trim cls v =>
    placeCommit v (commitLane
      { lane := x, start := start, n := n, profile := profile, g := g, trim := trim, cls := laneClassOf cls }) s
  | .service x v kind primary twin data support =>
    placeCommit v (commitService
      { service := x, kind := serviceKindOf kind, primary := primary, twin := twin, data := data, support := support,
        label := none }) s
  | .serviceLabel x v text => placeCommit v (commitServiceLabel x text) s
  | .ident v identity lanes services name =>
    placeCommit v (commitIdent { identity := identity, lanes := lanes, services := services, name := name }) s
  | .change v frame lanes services =>
    placeCommit v (commitChange { lanes := lanes, services := services, frame := frame }) s
  | .announce t state target => if state = 1 then commitOn (annType t) target s else commitOff (annType t) target s
  | .labelSegment .. => s

/-! ### Label buffers (R43 to R45) -/

/-- The service id that a label buffer follows (R43). -/
def followedService (s : State) (i : Fin 5) : Option Word16 :=
  if i = 4 then (if s.announcer.takeover = .idle then none else s.announcer.heldTarget)
  else if (s.slot i).state = .empty then none
  else (s.slot i).service

/-- Label buffer i. -/
def label (s : State) (i : Fin 5) : LabelBuffer := s.directory.labels[i]

def noSegments : Vector (Option (List Byte)) 8 := Vector.replicate 8 none

/-- A segment is taken by a buffer: toggle, count, store (R44). -/
def LabelBuffer.store (b : LabelBuffer) (toggle index count : Nat) (text : List Byte) : LabelBuffer :=
  let b :=
    if toggle ≠ b.toggle then { b with toggle := toggle, segments := noSegments, count := some count }
    else if b.count ≠ some count then { b with segments := noSegments, count := some count }
    else b
  { b with segments := b.segments.set (Fin.ofNat 8 index) (some text) }

/-- The candidate label of a complete buffer: the texts of its segments in rising order of index (R45). -/
def LabelBuffer.candidate (b : LabelBuffer) : Option (List Byte) :=
  match b.count with
  | some n =>
    let texts := b.segments.toList.take n
    if texts.all Option.isSome then some (texts.flatMap fun t => t.getD []) else none
  | none => none

/-- A complete buffer shows its candidate label, and queues it when it differs from the visible one (R45). -/
def completeLabel (i : Fin 5) (s : State) : State :=
  let b := label s i
  match b.candidate, followedService s i with
  | some text, some service =>
    let s :=
      if b.visible = some text then s
      else raise (.label i) (joinLabel { slot := i, service := service, text := text } s)
    setLabel i { b with segments := noSegments, visible := some text } s
  | _, _ => s

/-- The completion of every complete buffer (R45), in ascending slot order (log 28). -/
def completeLabels (s : State) : State := allSlots.foldl (fun s i => completeLabel i s) s

/-- A LABEL-SEGMENT is offered to every buffer that follows its service (R44). The buffers take it, and complete on it, in
ascending slot order: the model's choice (log 28). -/
def offerSegment (service : Word16) (toggle index count : Nat) (text : List Byte) (s : State) : State :=
  allSlots.foldl (fun s i =>
    if followedService s i = some service then
      completeLabel i (setLabel i ((label s i).store toggle index count text) s)
    else s) s

/-! ### Sightings (R32 to R34) -/

def candidateCapacity : Nat := 16

/-- Any candidate with the record's key is removed, the order of the others kept. -/
def removeCandidate (r : Record) (s : State) : State :=
  s.updDirectory fun d => { d with candidates := d.candidates.filter fun c => !sameKey c r }

/-- The candidate with the record's key. -/
def candidateOf (s : State) (r : Record) : Option Record := s.directory.candidates.find? fun c => sameKey c r

/-- A record joins the tail; a full list first drops its head (R33). -/
def addCandidate (r : Record) (s : State) : State :=
  s.updDirectory fun d =>
    { d with
      candidates :=
        (if candidateCapacity ≤ d.candidates.length then d.candidates.tail else d.candidates) ++ [r] }

/-- An equal record is refreshed, any other committed, after its candidate is removed (R34, R46). -/
def commitAtOnce (r : Record) (s : State) : State :=
  let s' := removeCandidate r s
  if equalsCommitted s' r then refresh r s' else commitRecord r s'

/-- A sighting under the two-sighting rule (R32). -/
def confirmSighting (r : Record) (s : State) : State :=
  if equalsCommitted s r then refresh r (removeCandidate r s)
  else
    match candidateOf s r with
    | some c => if c = r then commitRecord r (removeCandidate r s) else addCandidate r (removeCandidate r s)
    | none => addCandidate r s

/-- A sighting of a well-formed record (R32, R34). -/
def sighting (r : Record) (s : State) : State :=
  match r with
  | .labelSegment service toggle index count text => offerSegment service toggle index count text s
  | .announce 0 1 _ => commitAtOnce r s
  | _ => confirmSighting r s

/-- The records of a directory block are dealt with one after the other (R26). -/
def directoryBlock (index : Byte) (bytes : List Byte) (s : State) : State :=
  if index.toNat ≤ 3 then (parseBlock bytes).foldl (fun s r => sighting r s) s else s

/-- The second sighting of a record that waits as a candidate (R32 case 2). -/
def confirmRecord (r : Record) (s : State) : State :=
  if candidateOf s r = some r ∧ equalsCommitted s r = false then commitRecord r (removeCandidate r s) else s

/-! ### INJECT (R46) -/

/-- A record loaded by the host: a sighting for a LABEL-SEGMENT, a commit at once for any other. -/
def injectRecord (r : Record) (s : State) : State :=
  match r with
  | .labelSegment service toggle index count text => offerSegment service toggle index count text s
  | _ => commitAtOnce r s

/-- INJECT (R46): a record standing alone, whose length byte agrees with the record field. -/
def injectOrder (record : List Byte) (s : State) : OrderResult × List Byte × State :=
  match record with
  | kind :: len :: body =>
    if len.toNat = body.length then
      match wellFormedRecordOf kind body with
      | some r => (.accepted, [kind], injectRecord r s)
      | none => (.badValue, [], s)
    else (.badValue, [], s)
  | _ => (.badValue, [], s)

end Sys2Proof.Machine
end

