-- ==== Sys2Proof/Machine/Intake.lean ====
section
/-! DEFINITION. The Intake Port: cells, the open frame, the timers and the intake state machine (chapter 1, R180, R181). -/

namespace Sys2Proof.Machine

/-! ### Frames opening and closing (R4, R5, R9) -/

/-- The open frame, if any, closes; a stale one announces nothing (R5). -/
def closeOpen (s : State) : State :=
  match s.intake.openFrame with
  | none => s
  | some f =>
    let s := s.updIntake fun p => { p with openFrame := none }
    if f.stale then s else frameClose f.count s

/-- A virtual close of the count after the last closed one (R9). -/
def virtualClose (s : State) : State := frameClose (s.intake.lastClosed + 1) s

/-- So many virtual closes, at once and in rising count order. -/
def virtualCloses : Nat → State → State
  | 0, s => s
  | k + 1, s => virtualCloses k (virtualClose s)

/-- Frame h opens (R4). -/
def openFrameAt (h : Count) (stale : Bool) (s : State) : State :=
  s.updIntake fun p => { p with openFrame := some { count := h, stale := stale, suspended := false, lowest := 0 } }

/-- The HEAD goes to the Lane Map and its frame opens, not stale (R4). -/
def handOverHead (serial : BitVec 4) (h : Count) (s : State) : State :=
  openFrameAt h false (swapTrigger serial.toNat h s)

/-! ### The intake state machine (R12 to R20) -/

def setIntakeState (st : IntakeState) (s : State) : State := s.updIntake fun p => { p with state := st }

/-- An operation inside the event of a HEAD of count h, run with frame h as the next to close; the last closed count is kept. A lane
opened there gets first lane frame h, as in every band, so that the law of R75 holds (R89, log 20). -/
def withNextFrame (h : Count) (f : State → State) (s : State) : State :=
  (f (s.updIntake fun p => { p with lastClosed := h - 1 })).updIntake fun p => { p with lastClosed := s.intake.lastClosed }

/-- The distance rules for a HEAD of the active identity (R15, R19). -/
def followHead (serial : BitVec 4) (h : Count) (s : State) : State :=
  let d := distance h s.intake.lastClosed
  if d = 0 ∨ 4088 ≤ d then openFrameAt h true s
  else if d ≤ 8 then handOverHead serial h (virtualCloses (d - 1) s)
  else openFrameAt h false (withNextFrame h (swapTrigger serial.toNat h) (raise (.syncChange .realign) (realign h s)))

/-- Entry into HOLDOVER (R17). -/
def enterHoldover (s : State) : State :=
  virtualClose (s.updIntake fun p => { p with state := .holdover, holdoverCount := 0 })

/-- LOCKED is entered with the HEAD of count h: candidate cleared, last closed count h - 1, and the frame opens (R14,
R19). -/
def lockAt (serial : BitVec 4) (h : Count) (s : State) : State :=
  handOverHead serial h (s.updIntake fun p =>
    { p with state := .locked, foreign := none, remembered := none, lastClosed := h - 1 })

/-- The identity change and its attention (R14, R19, R23). -/
def changeIdentity (identity : Word16) (s : State) : State :=
  raise (.syncChange .identity) (identityChange (some identity) s)

/-- The comparison of R14 at the completion of an acquisition. -/
def completeAcquisition (identity : Word16) (h : Count) (origin : Origin) (s : State) : State :=
  match s.laneMap.identity with
  | none =>
    raise (.syncChange .lock) (realign h (s.updLaneMap fun m => { m with identity := some identity }))
  | some active =>
    if active = identity then
      let s := raise (.syncChange .realign) (realign h s)
      if origin = .lost then resumeLost s else s
    else changeIdentity identity s

/-- A HEAD begins or restarts an acquisition (R12, R13, R20). -/
def acquire (identity : Word16) (h : Count) (origin : Origin) (s : State) : State :=
  s.updIntake fun p =>
    { p with state := .acquire, remembered := some { identity := identity, count := h, origin := origin } }

/-- A HEAD that passed its check, with any open frame already closed, by intake state (R12 to R20). -/
def headByState (identity : Word16) (h : Count) (serial : BitVec 4) (s : State) : State :=
  match s.intake.state with
  | .search => if s.laneMap.identity = none ∨ s.laneMap.identity = some identity then acquire identity h .search s else s
  | .acquire =>
    match s.intake.remembered with
    | some m =>
      if identity = m.identity ∧ h = m.count + 1 then lockAt serial h (completeAcquisition identity h m.origin s)
      else acquire identity h m.origin s
    | none => s
  | .locked =>
    if s.laneMap.identity = some identity then followHead serial h s
    else enterHoldover (s.updIntake fun p => { p with foreign := some { identity := identity, count := h } })
  | .holdover =>
    if s.laneMap.identity = some identity then
      followHead serial h (s.updIntake fun p => { p with state := .locked, foreign := none })
    else if s.intake.foreign = some { identity := identity, count := h - 1 } then lockAt serial h (changeIdentity identity s)
    else s.updIntake fun p => { p with foreign := some { identity := identity, count := h } }
  | .lost => acquire identity h .lost s

/-! ### Cells (R1 to R8) -/

/-- A HEAD cell taken whole (R3, R4, R10, R11). -/
def headTaken (identity : Word16) (h : Count) (serial quality reserved : BitVec 4) (check : Word16) (s : State) : State :=
  if crc (headBytes identity h serial quality reserved) = check then
    headByState identity h serial
      (closeOpen (s.updIntake fun p => { p with watchRunning := true, timerRunning := true, quality := quality }))
  else s.updIntake fun p => { p with openFrame := p.openFrame.map fun f => { f with suspended := true } }

/-- A DIR cell taken whole (R3, R8). -/
def dirTaken (index : Byte) (block : Bytes30) (check : Word16) (s : State) : State :=
  match s.intake.openFrame with
  | some f =>
    if f.stale = false ∧ f.suspended = false ∧ crc (bytes30 block) = check then directoryBlock index (bytes30 block) s else s
  | none => s

/-- A TILE cell taken whole (R3, R6, R7). -/
def tileTaken (erasure : Bool) (position : BitVec 10) (payload : Bytes30) (check : Word16) (s : State) : State :=
  match s.intake.openFrame with
  | some f =>
    if f.stale = false ∧ f.suspended = false ∧ f.lowest ≤ position.toNat ∧ position.toNat ≤ 575 then
      let s := s.updIntake fun p => { p with openFrame := some { f with lowest := position.toNat + 1 } }
      let erased := erasure || crc (bytes30 payload) != check
      match indexAt s position.toNat with
      | some e => placeTile e.ctx e.tile f.count payload erased s
      | none => s
    else s
  | none => s

/-- A TAIL cell (R3, R5). -/
def tailTaken (s : State) : State :=
  match s.intake.openFrame with
  | some f => if f.suspended then s else closeOpen s
  | none => s

/-- The signal is lost: a GAP, or an expiry of the frame watch (R10, R13, R16). -/
def signalLost (s : State) : State :=
  match s.intake.state with
  | .locked => enterHoldover (closeOpen s)
  | .acquire =>
    match s.intake.remembered with
    | some m =>
      s.updIntake fun p =>
        { p with
          state := (match m.origin with | .search => IntakeState.search | .lost => IntakeState.lost)
          remembered := none }
    | none => s
  | _ => s

/-! ### Timers (R10, R11, R18) -/

/-- The frame watch expires; a stopped watch does not (R10). -/
def watchExpires (s : State) : State :=
  if s.intake.watchRunning then signalLost (s.updIntake fun p => { p with watchRunning := false }) else s

/-- The port enters LOST when the holdover count is at or above the limit (R18). -/
def checkHoldoverLimit (s : State) : State :=
  if s.intake.state = .holdover ∧ s.intake.holdoverLimit ≤ s.intake.holdoverCount then
    raise (.syncChange .lost) (suspendLost (setIntakeState .lost s))
  else s

/-- What a tick does in HOLDOVER (R18). -/
def holdoverTick (s : State) : State :=
  if s.intake.state = .holdover then
    checkHoldoverLimit ((virtualClose s).updIntake fun p => { p with holdoverCount := p.holdoverCount + 1 })
  else s

/-- A tick of the frame-period timer; a stopped timer does not tick (R11, R18, R41, log 8). -/
def tickTaken (s : State) : State :=
  if s.intake.timerRunning then holdoverTick (expireTable (ageTable s)) else s

/-! ### FORGET and SET-HOLDOVER (R21, R24) -/

/-- FORGET (R24, R167). -/
def forgetOrder (s : State) : OrderResult × List Byte × State :=
  (.accepted, [],
    (identityChange none s).updIntake fun p =>
      { p with state := .search, openFrame := none, foreign := none, remembered := none })

/-- SET-HOLDOVER (R21). -/
def setHoldoverOrder (limit : Byte) (s : State) : OrderResult × List Byte × State :=
  let h := max 1 limit.toNat
  (.accepted, [natByte h], s.updIntake fun p => { p with holdoverLimit := h })

/-! ### The intake link, byte by byte (R180) -/

def setCellRx (r : CellRx) (s : State) : State := s.updIntake fun p => { p with cellRx := r }

/-- One event: its effect, and what the end of every event brings. -/
def event (f : State → State) (s : State) : State := endEvent s (f s)

/-- The effect of a cell whose bytes have all arrived (R180, R181). -/
def cellTaken (bytes : List Byte) (s : State) : State :=
  match bytes with
  | [0x54#8] => tailTaken s
  | [0x55#8] => signalLost s
  | 0x51#8 :: [ih, il, fh, fs, q, ch, cl] =>
    headTaken (wordOf ih il) (fh ++ fs.extractLsb' 4 4) (fs.extractLsb' 0 4) (q.extractLsb' 4 4) (q.extractLsb' 0 4)
      (wordOf ch cl) s
  | 0x52#8 :: index :: rest =>
    match rest.drop 30 with
    | [ch, cl] => dirTaken index (bytes30Of (rest.take 30)) (wordOf ch cl) s
    | _ => s
  | 0x53#8 :: a :: b :: rest =>
    match rest.drop 30 with
    | [ch, cl] => tileTaken (a.getLsbD 7) (a.extractLsb' 0 2 ++ b) (bytes30Of (rest.take 30)) (wordOf ch cl) s
    | _ => s
  | _ => s

/-- The bytes of a cell so far are kept, or the cell is taken when its last byte has arrived. -/
def cellProgress (bytes : List Byte) (s : State) : State :=
  match bytes.head?.bind cellLength with
  | some n => if bytes.length < n then setCellRx (.taking bytes) s else event (cellTaken bytes) (setCellRx .idle s)
  | none => setCellRx .skipping s

/-- A byte clocked with the cell-start line low. -/
def cellByte (s : State) (b : Byte) : State :=
  match s.intake.cellRx with
  | .taking bytes => cellProgress (bytes ++ [b]) s
  | _ => s

/-- A cell start with its kind byte, and the bytes up to the next cell start. -/
def cellBytes (kind : Byte) (rest : List Byte) (s : State) : State := rest.foldl cellByte (cellProgress [kind] s)

end Sys2Proof.Machine
end

