-- ==== Sys2Proof/Machine/Queries.lean ====
section
/-! DEFINITION. The data of QUERY by subject (R68, R83, R105, R137, R156, R168 to R170, R185, Table 10-6). -/

namespace Sys2Proof.Machine

/-! ### The forms of absent items (R179) -/

def byteOr : Option Nat → Byte
  | some n => natByte n
  | none => 0xFF

def countOr : Option Count → List Byte
  | some c => natWord c.toNat
  | none => [0xFF, 0xFF]

/-- A service id or identity with its presence byte. -/
def presentWord : Option Word16 → List Byte
  | some w => 1 :: wordBytes w
  | none => [0, 0, 0]

/-- Sixteen characters, or 0x00 when absent. -/
def textOr : Option (List Byte) → List Byte
  | some t => t
  | none => List.replicate 16 0

def frameCountOr : Option ChangeContents → List Byte
  | some c => natWord c.frame
  | none => [0xFF, 0xFF]

/-! ### The subjects -/

/-- STATUS (R169). -/
def statusData (s : State) : List Byte :=
  let a := s.laneMap.active
  let p := s.laneMap.pending
  [s.announcer.power.code, s.link.resetCause.code, s.intake.state.code, s.intake.quality.setWidth 8] ++
    natWord s.intake.lastClosed.toNat ++ [natByte s.intake.holdoverLimit, natByte s.intake.holdoverCount,
      flagsByte [s.laneMap.identity.isSome, a.ident.isSome, a.change.isSome, p.change.isSome]] ++
    wordBytes (s.laneMap.identity.getD 0) ++ textOr (a.ident.map IdentContents.name) ++
    [byteOr a.serial, flagsByte [s.laneMap.complete, s.laneMap.stale, a.overfull], natByte a.lanes.length,
      natByte a.services.length] ++ frameCountOr a.change ++
    [byteOr p.serial, flagsByte [s.laneMap.ready, false, p.overfull], natByte p.lanes.length,
      natByte p.services.length] ++ frameCountOr p.change ++
    natWord s.store.free.length ++ [natByte (freeCtxCount s),
      flagsByte [s.announcer.lock, s.earlyLow, s.earlyConsumed, (s.slot 0).early]]

/-- The bank a QUERY names (Table 10-1). -/
def queriedBank (s : State) (code : Byte) : Option Bank :=
  if code = 0 then some s.laneMap.active else if code = 1 then some s.laneMap.pending else none

/-- The fields of a lane entry, or its absent form (log 7). -/
def laneEntryData : Option LaneEntry → List Byte
  | some e => [1] ++ natWord e.start ++ [natByte e.n, natByte e.profile, natByte e.g, natByte e.trim, e.cls.code]
  | none => [0] ++ wordBytes Config.absentLaneStart ++ [0xFF, 0xFF, 0xFF, 0xFF, 0xFF]

/-- LANE-ENTRY (R68). -/
def queryLaneEntryData (bank lane : Byte) (s : State) : Option (List Byte) :=
  match queriedBank s bank with
  | some b => if lane.toNat ≤ 63 then some ([bank, lane, byteOr b.serial] ++ laneEntryData (b.lane? lane.toNat)) else none
  | none => none

/-- The kind and presence byte of a service entry, as in the SERVICE record (Table 10-3). -/
def serviceFlags (e : ServiceEntry) : Byte :=
  natByte (64 * e.kind.code + (if e.primary.isSome then 32 else 0) + (if e.twin.isSome then 16 else 0) + e.data.length)

/-- The fields of a service entry, or its absent form (log 7). -/
def serviceEntryData : Option ServiceEntry → List Byte
  | some e =>
    [1] ++ wordBytes e.service ++ [serviceFlags e, byteOr e.primary, byteOr e.twin, byteOr e.data[0]?, byteOr e.data[1]?,
      byteOr e.data[2]?, e.support, boolByte e.label.isSome] ++ textOr e.label
  | none =>
    [0, 0, 0, Config.absentServiceKind ++ (0 : BitVec 6), 0xFF, 0xFF, 0xFF, 0xFF, 0xFF, Config.absentServiceSupport, 0] ++ textOr none

/-- SERVICE-ENTRY (R68). -/
def queryServiceEntryData (bank index : Byte) (s : State) : Option (List Byte) :=
  match queriedBank s bank with
  | some b =>
    if index.toNat ≤ 31 then some ([bank, index, byteOr b.serial] ++ serviceEntryData b.services[index.toNat]?) else none
  | none => none

/-- The score and arm state of a context: absent while FREE (R105, log 7). -/
def scoreData (x : LaneContext) : List Byte :=
  if x.state = .free then [0xFF, 0xFF, Config.absentArmState] else natWord x.score ++ [x.arm.code]

/-- CONTEXT (R105). -/
def contextData (c : Fin 16) (s : State) : List Byte :=
  let x := s.ctx c
  let e := x.shape
  [natByte c.val, x.state.code, byteOr (e.map LaneEntry.lane), byteOr (e.map LaneEntry.n), byteOr (e.map LaneEntry.g),
    byteOr (e.map LaneEntry.trim), byteOr (e.map LaneEntry.profile),
    (match e with | some e => e.cls.code | none => 0xFF), natByte x.columns.length] ++
    countOr x.first ++ countOr x.drainEnd ++ [natByte x.refs] ++ scoreData x ++ [natByte x.settle] ++
    natWord x.assembled ++ countOr (x.last.map Prod.fst) ++
    [match x.last with | some l => l.2.code | none => 0xFF]

def queryContextData (id : Byte) (s : State) : Option (List Byte) :=
  if h : id.toNat < 16 then some (contextData ⟨id.toNat, h⟩ s) else none

/-- One role of a slot: reference, context id, lane id and newest outgoing context (R137). -/
def roleData (s : State) (r : RoleRef) : List Byte :=
  let outgoing := byteOr (r.outgoing.getLast?.map Fin.val)
  match r.ref with
  | .notWanted => [0, 0xFF, 0xFF, outgoing]
  | .context c => [1, natByte c.val, byteOr (s.ctx c).lane?, outgoing]
  | .absent => [2, 0xFF, 0xFF, outgoing]
  | .deferred lane => [3, 0xFF, natByte lane, outgoing]

/-- SELECTION (R137). -/
def selectionData (i : Fin 5) (s : State) : List Byte :=
  let x := s.slot i
  [natByte i.val, x.state.code, (match x.role with | some r => r.code | none => Config.noRole)] ++
    presentWord x.service ++ [flagsByte [x.wantTwin, x.wantData]] ++
    roleIxs.flatMap (fun r => roleData s (x.roleRef r)) ++
    [x.source.code, flagsByte [x.muted, x.overridden], natByte x.dwell] ++ natWord x.thHi ++ natWord x.thLo ++
    [x.riseMask.setWidth 8, x.fallMask.setWidth 8, causeCode x.cause,
      (match x.parked with | some st => st.code | none => 0xFF), boolByte x.early]

def querySelectionData (slot : Byte) (s : State) : Option (List Byte) :=
  if h : slot.toNat < 5 then some (selectionData ⟨slot.toNat, h⟩ s) else none

/-- One entry of the announcement table. -/
def annEntryData (e : AnnEntry) : List Byte := [boolByte e.on] ++ presentWord e.target ++ [natByte e.age]

/-- One entry of the preemption record; bit k of the taken bits stands for data lane k (log 19). -/
def preemptedData (p : Preempted) : List Byte :=
  [natByte p.slot.val,
    flagsByte [p.roles.getLsbD 2, p.roles.getLsbD 3, p.roles.getLsbD 4, p.roles.getLsbD 1, p.whole]]

/-- The four places of the preemption record, used entries first. -/
def preemptionData (l : List Preempted) : List Byte :=
  ((l.flatMap preemptedData) ++ [0xFF, 0, 0xFF, 0, 0xFF, 0, 0xFF, 0]).take 8

/-- ANNOUNCEMENTS (R156). -/
def announcementsData (s : State) : List Byte :=
  let a := s.announcer
  s.directory.table.toList.flatMap annEntryData ++ [a.power.code, a.takeover.code, byteOr (a.heldType.map Fin.val)] ++
    presentWord a.heldTarget ++ [byteOr (a.anchor.map fun x => x.slot.val)] ++
    wordBytes ((a.anchor.map Anchor.service).getD 0) ++ [a.accept, a.wake, boolByte a.lock] ++
    preemptionData a.preempted ++ [flagsByte [a.anncLine, a.wakeLine]]

/-- The eight values of a profile. -/
def profileValues (s : State) (p : Nat) : List Nat := (s.store.profiles.toList[p]?).getD []

/-- PATTERN (R83). -/
def queryPatternData (number : Byte) (s : State) : Option (List Byte) :=
  if number.toNat ≤ 3 then
    some ([number] ++ (profileValues s number.toNat).map natByte ++ [boolByte (profileInUse s number.toNat)])
  else none

/-- LABEL (R170). -/
def labelData (i : Fin 5) (s : State) : List Byte :=
  let text := ((label s i).visible).getD []
  [natByte i.val] ++ presentWord (followedService s i) ++ [natByte text.length] ++ text

def queryLabelData (slot : Byte) (s : State) : Option (List Byte) :=
  if h : slot.toNat < 5 then some (labelData ⟨slot.toNat, h⟩ s) else none

/-! ### QUERY (R168) -/

/-- The data of a subject with its indices, none where either is outside its range. -/
def queryData (subject first second : Byte) (s : State) : Option (List Byte) :=
  if subject = 0 then some (statusData s)
  else if subject = 1 then queryLaneEntryData first second s
  else if subject = 2 then queryServiceEntryData first second s
  else if subject = 3 then queryContextData first s
  else if subject = 4 then querySelectionData first s
  else if subject = 5 then some (announcementsData s)
  else if subject = 6 then queryPatternData first s
  else if subject = 7 then queryLabelData first s
  else none

/-- QUERY: the subject and its data, or BAD-VALUE without data (R168, R185). -/
def queryOrder (subject first second : Byte) (s : State) : OrderResult × List Byte × State :=
  match queryData subject first second s with
  | some data => (.accepted, subject :: data, s)
  | none => (.badValue, [], s)

end Sys2Proof.Machine
end

