-- ==== Sys2Proof/Machine/Orders.lean ====
section
/-! DEFINITION. The orders with no block of their own above, and the order handler's dispatch by kind (R82, R125, R142,
R143, R151, R165, R172, R174, Table 9-1). -/

namespace Sys2Proof.Machine

/-! ### SET-QUALITY (R125) -/

/-- The high threshold after clamping. -/
def clampHi (hi : Nat) : Nat := if 4095 < hi then 4095 else if hi = 0 then 1 else hi

/-- The low threshold after clamping against the clamped high threshold. -/
def clampLo (lo hi : Nat) : Nat := if hi ≤ lo then hi - 1 else lo

def setQualityOrder (slot : Byte) (thHi thLo : Word16) (rise fall : Byte) (s : State) : OrderResult × List Byte × State :=
  if h : slot.toNat < 5 then
    let hi := clampHi thHi.toNat
    let lo := clampLo thLo.toNat hi
    let up := rise.extractLsb' 0 3
    let down := fall.extractLsb' 0 3
    (.accepted, [slot] ++ natWord hi ++ natWord lo ++ [up.setWidth 8, down.setWidth 8],
      s.updSlot ⟨slot.toNat, h⟩ fun x => { x with thHi := hi, thLo := lo, riseMask := up, fallMask := down })
  else (.badSlot, [], s)

/-! ### Masks and the alarm lock (R142, R143) -/

/-- A mask with type ALARM in it while the alarm lock is set. -/
def lockedMask (lock : Bool) (mask : Byte) : Byte := if lock then mask ||| 1 else mask

def setAnnounceOrder (accept wake : Byte) (s : State) : OrderResult × List Byte × State :=
  let a := lockedMask s.announcer.lock accept
  let w := lockedMask s.announcer.lock wake
  (.accepted, [a, w], s.updAnnouncer fun x => { x with accept := a, wake := w })

def lockAlarmOrder (s : State) : OrderResult × List Byte × State :=
  (.accepted, [], s.updAnnouncer fun a => { a with lock := true, accept := a.accept ||| 1, wake := a.wake ||| 1 })

/-! ### DISMISS (R151) -/

/-- The type and target held, as an answer carries them. -/
def heldData (s : State) : List Byte :=
  [byteOr (s.announcer.heldType.map Fin.val)] ++ wordBytes (s.announcer.heldTarget.getD 0)

def dismissOrder (s : State) : OrderResult × List Byte × State :=
  if s.announcer.takeover = .idle then (.notNow, [], s)
  else if s.announcer.heldType = some 0 ∧ s.announcer.lock then (.locked, heldData s, s)
  else (.accepted, heldData s, removeSlotPackets 4 (returnHeld false s))

/-! ### LOAD-PATTERN (R82) -/

/-- Eight values in 0..7, no two alike. -/
def isPermutation (values : List Nat) : Bool := decide (values.length = 8 ∧ (∀ v ∈ values, v ≤ 7) ∧ values.Nodup)

/-- The answer data: the profile number and its values as they stand after the order. -/
def patternData (number : Byte) (s : State) : List Byte := number :: (profileValues s number.toNat).map natByte

def loadPatternOrder (number : Byte) (values : List Byte) (s : State) : OrderResult × List Byte × State :=
  if h : number.toNat < 4 then
    let new := values.map BitVec.toNat
    if !isPermutation new then (.badValue, patternData number s, s)
    else if new = profileValues s number.toNat then (.accepted, patternData number s, s)
    else if profileInUse s number.toNat then (.busy, patternData number s, s)
    else
      let s' := s.updStore fun d => { d with profiles := d.profiles.set number.toNat new }
      (.accepted, patternData number s', s')
  else (.badValue, [], s)

/-! ### Attention (R172, R174) -/

/-- The set of causes pending, in the bit form of SET-ATTENTION. -/
def pendingSet (l : Link) : List Byte :=
  natWord ((causePlaces.map fun p => if l.causes[p].pending then 2 ^ p.val else 0).sum)

def setAttentionOrder (mask : Word16) (s : State) : OrderResult × List Byte × State :=
  let m := mask.extractLsb' 0 9
  (.accepted, wordBytes (m.setWidth 16) ++ pendingSet s.link, s.updLink fun l => { l with enable := m })

/-- The pending enabled cause of lowest code (R174). -/
def firstCause (l : Link) : Option (Fin 9) := causePlaces.find? (causeCounts l)

/-- The code and detail of a cause, as WHICH answers them. -/
def causeData (l : Link) (p : Fin 9) : List Byte :=
  [natByte (p.val + 1)] ++
    match l.causes[p].detail with
    | some d => d.firstDetail :: wordBytes d.secondDetail
    | none => [0, 0, 0]

def whichOrder (s : State) : OrderResult × List Byte × State :=
  match firstCause s.link with
  | some p =>
    (.accepted, causeData s.link p,
      s.updLink fun l => { l with causes := l.causes.set p { l.causes[p] with pending := false } })
  | none => (.accepted, [0, 0, 0, 0], s)

/-! ### Carrying out an order (R165) -/

/-- The body length that an order kind implies (Table 10-4); none for INJECT, which has a length of its own choosing, and
for an unknown kind. -/
def impliedLength (kind : Byte) : Option Nat :=
  if kind = 0x01 then some 7
  else if kind = 0x02 then some 3
  else if kind = 0x03 then some 9
  else if kind = 0x04 then some 4
  else if kind = 0x05 then some 2
  else if kind = 0x06 then some 2
  else if kind = 0x07 then some 11
  else if kind = 0x08 then some 3
  else if kind = 0x0A then some 2
  else if kind = 0x0B then some 5
  else if kind = 0x0C then some 2
  else if kind = 0x0D then some 4
  else if kind = 0x0E then some 2
  else if kind = 0x0F then some 2
  else none

/-- The third case of R165: the order acts at the block that owns the matter. -/
def orderEffect (kind : Byte) (params : List Byte) (s : State) : OrderResult × List Byte × State :=
  if kind = 0x01 then
    match params with
    | [slot, vh, vl, role, wants] => selectSlot slot (wordOf vh vl) role wants s
    | _ => (.badValue, [], s)
  else if kind = 0x02 then
    match params with
    | [slot] => releaseOrder slot s
    | _ => (.badValue, [], s)
  else if kind = 0x03 then
    match params with
    | [slot, hh, hl, lh, ll, rise, fall] => setQualityOrder slot (wordOf hh hl) (wordOf lh ll) rise fall s
    | _ => (.badValue, [], s)
  else if kind = 0x04 then
    match params with
    | [accept, wake] => setAnnounceOrder accept wake s
    | _ => (.badValue, [], s)
  else if kind = 0x05 then dismissOrder s
  else if kind = 0x06 then lockAlarmOrder s
  else if kind = 0x07 then
    match params with
    | number :: values => loadPatternOrder number values s
    | _ => (.badValue, [], s)
  else if kind = 0x08 then
    match params with
    | [limit] => setHoldoverOrder limit s
    | _ => (.badValue, [], s)
  else if kind = 0x09 then injectOrder params s
  else if kind = 0x0A then forgetOrder s
  else if kind = 0x0B then
    match params with
    | [subject, first, second] => queryOrder subject first second s
    | _ => (.badValue, [], s)
  else if kind = 0x0C then whichOrder s
  else if kind = 0x0D then
    match params with
    | [mh, ml] => setAttentionOrder (wordOf mh ml) s
    | _ => (.badValue, [], s)
  else if kind = 0x0E then standbyOrder s
  else resumeOrder s

/-- The result, the answer data and the state of an order, by the first case of R165 that applies. -/
def orderOutcome (kind : Byte) (params : List Byte) (s : State) : OrderResult × List Byte × State :=
  if kind ∉ orderKinds then (.unknownOrder, [], s)
  else if (impliedLength kind).any fun n => n != params.length + 2 then (.badValue, [], s)
  else orderEffect kind params s

/-- The order handler carries out one order body and queues its answer (R165). The queue holds only bodies of 2 bytes or
more (R163). -/
def carryOut (body : List Byte) (s : State) : State :=
  match body with
  | ref :: kind :: params =>
    let o := orderOutcome kind params s
    joinAnswer { ref := ref, kind := kind, result := o.1, data := o.2.1 } o.2.2
  | _ => s

end Sys2Proof.Machine
end

