-- ==== Sys2Proof/Machine/Link.lean ====
section
/-! DEFINITION. The Delivery Link: the inbound receiver, the order queue and its handler, the arbiter, and the resets
(chapter 9, R183). -/

namespace Sys2Proof.Machine

/-! ### The order queue and its handler (R164, R165) -/

/-- The head order leaves the queue and is carried out. -/
def carryOutHead (s : State) : State :=
  match s.link.orders with
  | [] => s
  | body :: rest => carryOut body (s.updLink fun l => { l with orders := rest })

/-- Orders are carried out, each as one event, while the ANSWER queue has room (R165). The fuel bounds the orders. -/
def handleOrders : Nat → State → State
  | 0, s => s
  | k + 1, s =>
    if s.link.orders ≠ [] ∧ s.link.answers.length < answerCapacity then handleOrders k (event carryOutHead s) else s

/-- The order handler takes what it can (R165). -/
def runHandler (s : State) : State := handleOrders s.link.orders.length s

/-- A complete ORDER packet joins the order queue, or is discarded when it is full (R164). -/
def orderArrives (body : List Byte) (s : State) : State :=
  if orderCapacity ≤ s.link.orders.length then event (raise (.overrun .order)) s
  else runHandler (s.updLink fun l => { l with orders := l.orders ++ [body] })

/-! ### The inbound receiver (R163) -/

def setReceiver (r : Receiver) (s : State) : State := s.updLink fun l => { l with receiver := r }

/-- A malformed packet is discarded and the receiver hunts (R163). -/
def packetMalformed (s : State) : State := event (raise (.overrun .malformed)) (setReceiver (.hunt false) s)

/-- One inbound byte (R163). -/
def receiveByte (s : State) (b : Byte) : State :=
  match s.link.receiver with
  | .hunt afterPacket => if b = 0xC3 then setReceiver .kind s else if afterPacket then packetMalformed s else s
  | .kind => if b = 0x10 then setReceiver (.length []) s else packetMalformed s
  | .length [] => setReceiver (.length [b]) s
  | .length (h :: _) =>
    let n := (wordOf h b).toNat
    if 2 ≤ n ∧ n ≤ 64 then setReceiver (.body [] n) s else packetMalformed s
  | .body bytes missing =>
    if missing ≤ 1 then orderArrives (bytes ++ [b]) (setReceiver (.hunt true) s)
    else setReceiver (.body (bytes ++ [b]) (missing - 1)) s

/-- The running clock ends the timing of a break (R175). -/
def abandonTiming (d : BreakDetector) : BreakDetector := if d = .timing then .idle else d

/-- Bytes clocked on the inbound line. -/
def receiveBytes (bytes : List Byte) (s : State) : State :=
  bytes.foldl receiveByte (s.updLink fun l => { l with breakDetector := abandonTiming l.breakDetector })

/-- An ORDER packet on the inbound line (R183). -/
def receiveOrder (body : List Byte) (s : State) : State := receiveBytes (orderFrame body) s

/-! ### The arbiter (R160) -/

/-- The packet the arbiter starts: the head of the first queue that is not empty, in the order ANSWER, AUDIO, DATA,
LABEL; it leaves its queue. -/
def startNext (l : Link) : Link :=
  match l.answers, l.audio, l.data, l.labels with
  | a :: rest, _, _, _ => { l with answers := rest, sending := some (.answer a) }
  | [], f :: rest, _, _ => { l with audio := rest, sending := some (.frame f) }
  | [], [], f :: rest, _ => { l with data := rest, sending := some (.frame f) }
  | [], [], [], x :: rest => { l with labels := rest, sending := some (.label x) }
  | [], [], [], [] => l

/-- A packet is started on the IDLE line, which may give a waiting order room (R160, R165). -/
def packetStarts (s : State) : State :=
  if s.link.sending.isNone then runHandler (event (fun s => s.updLink startNext) s) else s

/-- The packet in transmission completes; the next one starts, or the line becomes IDLE (R160). -/
def packetCompletes (s : State) : State :=
  if s.link.sending.isSome then
    runHandler (event (fun s => s.updLink fun l => startNext { l with sending := none }) s)
  else s

/-! ### Resets (R173, R175 to R178) -/

/-- Every cause clear. -/
def causesClear : Vector Cause 9 := Vector.replicate 9 { pending := false, detail := none }

/-- The part held in RESET: the power-on values, with what the release decides kept until then (R138, R173, R177). -/
def holdReset (s : State) : State :=
  { State.reset with
    earlyLow := s.earlyLow, earlyConsumed := s.earlyConsumed,
    link := { Link.reset with causes := causesClear, attn := false, resetHeld := true, resetCause := s.link.resetCause },
    pending := s.pending }

/-- RESET held and released, with EARLY sampled at the release (R138, R177, R178). -/
def powerOn (earlyLow : Bool) (s : State) : State := { State.reset with earlyLow := earlyLow, pending := s.pending }

/-- The break reset, and the part held in it (R175, R176). -/
def holdBreak (s : State) : State :=
  { State.reset with
    store := { DelayStore.reset with cells := wipeTags s.store.cells },
    earlyLow := s.earlyLow, earlyConsumed := s.earlyConsumed,
    announcer :=
      { Announcer.reset with
        lock := s.announcer.lock
        accept := lockedMask s.announcer.lock Announcer.reset.accept
        wake := lockedMask s.announcer.lock Announcer.reset.wake },
    link := { Link.reset with causes := causesClear, attn := false, breakDetector := .holding, resetCause := s.link.resetCause },
    pending := s.pending }

/-- The release from a break (R175, R177). -/
def releaseBreak (s : State) : State :=
  if s.link.breakDetector = .holding then
    driveLines (s.updLink fun l => { l with breakDetector := .idle, resetCause := .brk, causes := causesReset .brk })
  else s

end Sys2Proof.Machine
end

