-- ==== Sys2Proof/Machine/CellCommands.lean ====
section
/-! DEFINITION. The commands of the intake link and the timers: HEAD, DIR, TILE, TAIL, GAP, UNKNOWN_CELL,
FRAME_WATCH_EXPIRY, TICK. -/

namespace Sys2Proof.Machine

/-- What a command does outside resets: nothing while the part is held (R25, R173, R175). -/
def whenRunning (f : State → State) (s : State) : State := if s.running then f s else s

/-- A command that is one event. -/
def command (f : State → State) (s : State) : Host.Outcome State Fault Refusal := .next (whenRunning (event f) s)

/-- A cell taken whole: what was received of a cell before it is ignored (R180). -/
def cellCommand (f : State → State) (s : State) : Host.Outcome State Fault Refusal :=
  command (fun s => f (setCellRx .idle s)) s

/-- HEAD (R4). -/
def execHead (identity : Word16) (count : Count) (serial quality reserved : BitVec 4) (check : Word16) (s : State) :
    Host.Outcome State Fault Refusal :=
  cellCommand (headTaken identity count serial quality reserved check) s

/-- DIR (R26). -/
def execDir (index : Byte) (block : Bytes30) (check : Word16) (s : State) : Host.Outcome State Fault Refusal :=
  cellCommand (dirTaken index block check) s

/-- TILE (R7); its reserved bits are ignored (R179). -/
def execTile (erasure : Bool) (_reserved : BitVec 5) (position : BitVec 10) (payload : Bytes30) (check : Word16)
    (s : State) : Host.Outcome State Fault Refusal :=
  cellCommand (tileTaken erasure position payload check) s

/-- TAIL (R5). -/
def execTail (s : State) : Host.Outcome State Fault Refusal := cellCommand tailTaken s

/-- GAP (R17). -/
def execGap (s : State) : Host.Outcome State Fault Refusal := cellCommand signalLost s

/-- UNKNOWN_CELL (R1, R180). -/
def execUnknownCell (kind : Byte) (rest : List Byte) (s : State) : Host.Outcome State Fault Refusal :=
  .next (whenRunning (cellBytes kind rest) s)

/-- FRAME_WATCH_EXPIRY (R10). -/
def execFrameWatchExpiry (s : State) : Host.Outcome State Fault Refusal := command watchExpires s

/-- TICK (R11). -/
def execTick (s : State) : Host.Outcome State Fault Refusal := command tickTaken s

end Sys2Proof.Machine
end

