-- ==== Sys2Proof/Machine/InnerCommands.lean ====
section
/-! DEFINITION. The commands for steps that run inside other steps: as commands of their own they run the same definition
under its own condition (log 2). -/

namespace Sys2Proof.Machine

/-- HOLDOVER_LIMIT_REACHED (R18). -/
def execHoldoverLimitReached (s : State) : Host.Outcome State Fault Refusal := command checkHoldoverLimit s

/-- ANNOUNCEMENT_EXPIRY (R41). -/
def execAnnouncementExpiry (s : State) : Host.Outcome State Fault Refusal := command expireTable s

/-- EARLY_START (R139). -/
def execEarlyStart (s : State) : Host.Outcome State Fault Refusal := command earlyStart s

/-- DRAIN_END (R94). -/
def execDrainEnd (s : State) : Host.Outcome State Fault Refusal := command endDrains s

/-- DEFERRED_RETRY (R64): every DEFERRED role, in the slot order. -/
def retryAllDeferred (s : State) : State := slotOrder.foldl (fun s i => retryDeferred i s) s

def execDeferredRetry (s : State) : Host.Outcome State Fault Refusal := command retryAllDeferred s

/-- ROOM_RETRY (R127): every slot SUSPENDED with cause ROOM, in the slot order. -/
def retryAllRoom (s : State) : State := slotOrder.foldl (fun s i => retryRoom i s) s

def execRoomRetry (s : State) : Host.Outcome State Fault Refusal := command retryAllRoom s

/-- WAITING_SLOT_OPENS (R126). -/
def execWaitingSlotOpens (s : State) : Host.Outcome State Fault Refusal := command openWaitingSlots s

/-- TAKEOVER (R147). -/
def execTakeover (s : State) : Host.Outcome State Fault Refusal := command beginTakeover s

/-- LABEL_COMPLETE (R45). -/
def execLabelComplete (s : State) : Host.Outcome State Fault Refusal := command completeLabels s

/-- RECORD_CONFIRMED (R32). -/
def execRecordConfirmed (record : Record) (s : State) : Host.Outcome State Fault Refusal := command (confirmRecord record) s

end Sys2Proof.Machine
end

