-- ==== Sys2Proof/Machine/LineCommands.lean ====
section
/-! DEFINITION. The commands of the resets, of the arbiter and of the inbound line below the orders: POWER_ON_RESET,
RESET_HELD, BREAK_RESET, BREAK_RELEASE, PACKET_START, PACKET_COMPLETE, ORDER, MALFORMED, UNKNOWN_ORDER. -/

namespace Sys2Proof.Machine

/-- POWER_ON_RESET (R177). -/
def execPowerOnReset (earlyLow : Bool) (s : State) : Host.Outcome State Fault Refusal := .next (powerOn earlyLow s)

/-- RESET_HELD (R173). -/
def execResetHeld (s : State) : Host.Outcome State Fault Refusal := .next (holdReset s)

/-- BREAK_RESET (R175). -/
def execBreakReset (s : State) : Host.Outcome State Fault Refusal := .next (whenRunning holdBreak s)

/-- BREAK_RELEASE (R177). -/
def execBreakRelease (s : State) : Host.Outcome State Fault Refusal := .next (releaseBreak s)

/-- PACKET_START (R160). -/
def execPacketStart (s : State) : Host.Outcome State Fault Refusal := .next (whenRunning packetStarts s)

/-- PACKET_COMPLETE (R160). -/
def execPacketComplete (s : State) : Host.Outcome State Fault Refusal := .next (whenRunning packetCompletes s)

/-- ORDER (R164): a packet of kind ORDER with this body. -/
def execOrder (body : List Byte) (s : State) : Host.Outcome State Fault Refusal := .next (whenRunning (receiveOrder body) s)

/-- MALFORMED (R163): the bytes of a packet that the receiver finds malformed. -/
def execMalformed (bytes : List Byte) (s : State) : Host.Outcome State Fault Refusal :=
  .next (whenRunning (receiveBytes bytes) s)

/-- UNKNOWN_ORDER (R165). -/
def execUnknownOrder (ref kind : Byte) (params : List Byte) (s : State) : Host.Outcome State Fault Refusal :=
  .next (whenRunning (receiveOrder (ref :: kind :: params)) s)

end Sys2Proof.Machine
end

