-- ==== Sys2Proof/Machine/OrderCommands.lean ====
section
/-! DEFINITION. The fifteen orders as commands: each is its ORDER packet on the inbound line (R163 to R165, Table 10-4). -/

namespace Sys2Proof.Machine

/-- An order sent as its packet. -/
def orderCommand (body : List Byte) (s : State) : Host.Outcome State Fault Refusal :=
  .next (whenRunning (receiveOrder body) s)

/-- SELECT (R121 to R123). -/
def execSelect (ref slot : Byte) (service : Word16) (role wants : Byte) (s : State) : Host.Outcome State Fault Refusal :=
  orderCommand (selectBody ref slot service role wants) s

/-- RELEASE (R124). -/
def execRelease (ref slot : Byte) (s : State) : Host.Outcome State Fault Refusal := orderCommand (releaseBody ref slot) s

/-- SET_QUALITY (R125). -/
def execSetQuality (ref slot : Byte) (thHi thLo : Word16) (rise fall : Byte) (s : State) : Host.Outcome State Fault Refusal :=
  orderCommand (setQualityBody ref slot thHi thLo rise fall) s

/-- SET_ANNOUNCE (R142). -/
def execSetAnnounce (ref accept wake : Byte) (s : State) : Host.Outcome State Fault Refusal :=
  orderCommand (setAnnounceBody ref accept wake) s

/-- DISMISS (R151). -/
def execDismiss (ref : Byte) (s : State) : Host.Outcome State Fault Refusal := orderCommand (plainBody ref 0x05) s

/-- LOCK_ALARM (R143). -/
def execLockAlarm (ref : Byte) (s : State) : Host.Outcome State Fault Refusal := orderCommand (plainBody ref 0x06) s

/-- LOAD_PATTERN (R82). -/
def execLoadPattern (ref number : Byte) (values : List Byte) (s : State) : Host.Outcome State Fault Refusal :=
  orderCommand (loadPatternBody ref number values) s

/-- SET_HOLDOVER (R21). -/
def execSetHoldover (ref limit : Byte) (s : State) : Host.Outcome State Fault Refusal :=
  orderCommand (setHoldoverBody ref limit) s

/-- INJECT (R46). -/
def execInject (ref : Byte) (record : List Byte) (s : State) : Host.Outcome State Fault Refusal :=
  orderCommand (injectBody ref record) s

/-- FORGET (R24). -/
def execForget (ref : Byte) (s : State) : Host.Outcome State Fault Refusal := orderCommand (plainBody ref 0x0A) s

/-- QUERY of subject STATUS (R169); the index bytes are ignored. -/
def execQueryStatus (ref first second : Byte) (s : State) : Host.Outcome State Fault Refusal :=
  orderCommand (queryBody ref 0 first second) s

/-- QUERY of subject LANE-ENTRY (R68). -/
def execQueryLaneEntry (ref bank lane : Byte) (s : State) : Host.Outcome State Fault Refusal :=
  orderCommand (queryBody ref 1 bank lane) s

/-- QUERY of subject SERVICE-ENTRY (R68). -/
def execQueryServiceEntry (ref bank index : Byte) (s : State) : Host.Outcome State Fault Refusal :=
  orderCommand (queryBody ref 2 bank index) s

/-- QUERY of subject CONTEXT (R105). -/
def execQueryContext (ref id second : Byte) (s : State) : Host.Outcome State Fault Refusal :=
  orderCommand (queryBody ref 3 id second) s

/-- QUERY of subject SELECTION (R137). -/
def execQuerySelection (ref slot second : Byte) (s : State) : Host.Outcome State Fault Refusal :=
  orderCommand (queryBody ref 4 slot second) s

/-- QUERY of subject ANNOUNCEMENTS (R156). -/
def execQueryAnnouncements (ref first second : Byte) (s : State) : Host.Outcome State Fault Refusal :=
  orderCommand (queryBody ref 5 first second) s

/-- QUERY of subject PATTERN (R83). -/
def execQueryPattern (ref number second : Byte) (s : State) : Host.Outcome State Fault Refusal :=
  orderCommand (queryBody ref 6 number second) s

/-- QUERY of subject LABEL (R170). -/
def execQueryLabel (ref slot second : Byte) (s : State) : Host.Outcome State Fault Refusal :=
  orderCommand (queryBody ref 7 slot second) s

/-- WHICH (R174). -/
def execWhich (ref : Byte) (s : State) : Host.Outcome State Fault Refusal := orderCommand (plainBody ref 0x0C) s

/-- SET_ATTENTION (R172). -/
def execSetAttention (ref : Byte) (mask : Word16) (s : State) : Host.Outcome State Fault Refusal :=
  orderCommand (setAttentionBody ref mask) s

/-- STANDBY (R152). -/
def execStandby (ref : Byte) (s : State) : Host.Outcome State Fault Refusal := orderCommand (plainBody ref 0x0E) s

/-- RESUME (R154). -/
def execResume (ref : Byte) (s : State) : Host.Outcome State Fault Refusal := orderCommand (plainBody ref 0x0F) s

end Sys2Proof.Machine
end

