-- ==== Sys2Proof/Machine/Dispatch.lean ====
section
/-! DEFINITION. The dispatch of every command to its meaning. -/

namespace Sys2Proof.Machine

def exec (i : Instr) (s : State) : Host.Outcome State Fault Refusal :=
  match i with
  | .head identity count serial quality reserved check => Sys2Proof.Machine.execHead identity count serial quality reserved check s
  | .dir index block check => Sys2Proof.Machine.execDir index block check s
  | .tile erasure reserved position payload check => Sys2Proof.Machine.execTile erasure reserved position payload check s
  | .tail => Sys2Proof.Machine.execTail s
  | .gap => Sys2Proof.Machine.execGap s
  | .unknownCell kind rest => Sys2Proof.Machine.execUnknownCell kind rest s
  | .frameWatchExpiry => Sys2Proof.Machine.execFrameWatchExpiry s
  | .tick => Sys2Proof.Machine.execTick s
  | .holdoverLimitReached => Sys2Proof.Machine.execHoldoverLimitReached s
  | .announcementExpiry => Sys2Proof.Machine.execAnnouncementExpiry s
  | .powerOnReset earlyLow => Sys2Proof.Machine.execPowerOnReset earlyLow s
  | .breakReset => Sys2Proof.Machine.execBreakReset s
  | .breakRelease => Sys2Proof.Machine.execBreakRelease s
  | .order body => Sys2Proof.Machine.execOrder body s
  | .malformed bytes => Sys2Proof.Machine.execMalformed bytes s
  | .unknownOrder ref kind params => Sys2Proof.Machine.execUnknownOrder ref kind params s
  | .select ref slot service role wants => Sys2Proof.Machine.execSelect ref slot service role wants s
  | .release ref slot => Sys2Proof.Machine.execRelease ref slot s
  | .setQuality ref slot thHi thLo rise fall => Sys2Proof.Machine.execSetQuality ref slot thHi thLo rise fall s
  | .setAnnounce ref accept wake => Sys2Proof.Machine.execSetAnnounce ref accept wake s
  | .dismiss ref => Sys2Proof.Machine.execDismiss ref s
  | .lockAlarm ref => Sys2Proof.Machine.execLockAlarm ref s
  | .loadPattern ref number values => Sys2Proof.Machine.execLoadPattern ref number values s
  | .setHoldover ref limit => Sys2Proof.Machine.execSetHoldover ref limit s
  | .inject ref record => Sys2Proof.Machine.execInject ref record s
  | .forget ref => Sys2Proof.Machine.execForget ref s
  | .queryStatus ref first second => Sys2Proof.Machine.execQueryStatus ref first second s
  | .queryLaneEntry ref bank lane => Sys2Proof.Machine.execQueryLaneEntry ref bank lane s
  | .queryServiceEntry ref bank index => Sys2Proof.Machine.execQueryServiceEntry ref bank index s
  | .queryContext ref id second => Sys2Proof.Machine.execQueryContext ref id second s
  | .querySelection ref slot second => Sys2Proof.Machine.execQuerySelection ref slot second s
  | .queryAnnouncements ref first second => Sys2Proof.Machine.execQueryAnnouncements ref first second s
  | .queryPattern ref number second => Sys2Proof.Machine.execQueryPattern ref number second s
  | .queryLabel ref slot second => Sys2Proof.Machine.execQueryLabel ref slot second s
  | .which ref => Sys2Proof.Machine.execWhich ref s
  | .setAttention ref mask => Sys2Proof.Machine.execSetAttention ref mask s
  | .standby ref => Sys2Proof.Machine.execStandby ref s
  | .resume ref => Sys2Proof.Machine.execResume ref s
  | .packetStart => Sys2Proof.Machine.execPacketStart s
  | .packetComplete => Sys2Proof.Machine.execPacketComplete s
  | .earlyStart => Sys2Proof.Machine.execEarlyStart s
  | .drainEnd => Sys2Proof.Machine.execDrainEnd s
  | .deferredRetry => Sys2Proof.Machine.execDeferredRetry s
  | .roomRetry => Sys2Proof.Machine.execRoomRetry s
  | .waitingSlotOpens => Sys2Proof.Machine.execWaitingSlotOpens s
  | .takeover => Sys2Proof.Machine.execTakeover s
  | .labelComplete => Sys2Proof.Machine.execLabelComplete s
  | .recordConfirmed record => Sys2Proof.Machine.execRecordConfirmed record s
  | .resetHeld => Sys2Proof.Machine.execResetHeld s

end Sys2Proof.Machine
end

