-- ==== Sys2Proof/Safety.lean ====
section
/-! DEFINITION. The laws of the part as predicates on a state, and the conditions under which an order is carried out at
once. -/

namespace Sys2Proof.Machine

/-! ### Laws of the part -/

/-- No queue holds more than its capacity (R158). -/
def Link.withinCapacity (l : Link) : Prop :=
  l.answers.length ≤ 4 ∧ l.audio.length ≤ 6 ∧ l.data.length ≤ 12 ∧ l.labels.length ≤ 2 ∧ l.orders.length ≤ 4

/-- While the alarm lock is set, ALARM is in both masks (R143). -/
def Announcer.lockHolds (a : Announcer) : Prop :=
  a.lock = true → a.accept.getLsbD 0 = true ∧ a.wake.getLsbD 0 = true

/-- The pending serial, when present, differs from the active serial (R50). -/
def LaneMap.serialsApart (m : LaneMap) : Prop := ∀ v, m.pending.serial = some v → m.active.serial ≠ some v

/-- The lane entries of a bank stand in ascending order of lane id and no two share a position (R48, R51). -/
def Bank.lanesApart (b : Bank) : Prop := b.lanes.Pairwise fun x y => x.lane < y.lane ∧ x.overlaps y = false

/-- The lane ranges of each bank are apart (R51). -/
def LaneMap.lanesApart (m : LaneMap) : Prop := m.active.lanesApart ∧ m.pending.lanesApart

/-- At most 32 service entries, in ascending order of service id, no two with the same id (R48). -/
def Bank.servicesOrdered (b : Bank) : Prop := b.services.length ≤ 32 ∧ b.services.Pairwise fun x y => x.service < y.service

/-- The service entries of each bank are in order (R48). -/
def LaneMap.servicesOrdered (m : LaneMap) : Prop := m.active.servicesOrdered ∧ m.pending.servicesOrdered

/-- At most 16 candidates, no two with the same key (R30). -/
def Directory.candidatesApart (d : Directory) : Prop :=
  d.candidates.length ≤ 16 ∧ d.candidates.Pairwise fun x y => sameKey x y = false

/-- Slot 4 never has role FOREGROUND, and at most one slot does (R118, R121). -/
def oneForeground (s : State) : Prop :=
  (s.slot 4).role ≠ some .foreground ∧ ∀ i j : Fin 5, (s.slot i).role = some .foreground → (s.slot j).role = some .foreground → i = j

/-- At most one context in FILLING or RUNNING holds each lane id (R87). -/
def oneContextPerLane (s : State) : Prop :=
  ∀ c d : Fin 16, (s.ctx c).receiving = true → (s.ctx d).receiving = true → (s.ctx c).lane? = (s.ctx d).lane? → c = d

/-- Score 0..4095, settle count 0..8 and assembled count 0..65535 in every context (R85). -/
def countersInRange (s : State) : Prop :=
  ∀ c : Fin 16, (s.ctx c).score ≤ 4095 ∧ (s.ctx c).settle ≤ 8 ∧ (s.ctx c).assembled ≤ 65535

/-- Th_lo is below Th_hi, Th_hi is at most 4095, and the dwell at most 255 in every slot (R118). -/
def slotsInRange (s : State) : Prop :=
  ∀ i : Fin 5, (s.slot i).thLo < (s.slot i).thHi ∧ (s.slot i).thHi ≤ 4095 ∧ (s.slot i).dwell ≤ 255

/-- A FREE context has every field at its value while FREE (R85). -/
def freeContextsClear (s : State) : Prop := ∀ c : Fin 16, (s.ctx c).state = .free → s.ctx c = LaneContext.free

/-- The column lists of the contexts, in order of id. -/
def heldColumns (s : State) : List Nat := ctxIds.flatMap fun c => (s.ctx c).columns

/-- Each column number appears exactly once among the free column stack and the column lists of the contexts, and a FREE
context holds none (R76, R85). -/
def columnsConserved (s : State) : Prop :=
  freeContextsClear s ∧ (s.store.free ++ heldColumns s).Perm (List.range 384)

/-- The banks' laws: the serials are apart (R50), lane ranges are apart (R51), service entries are in order (R48). -/
def LaneMap.inOrder (m : LaneMap) : Prop := m.serialsApart ∧ m.lanesApart ∧ m.servicesOrdered

/-- ATTN is high just while the part runs with a cause pending and enabled, ANNC just while it runs with an announcement
taken over or in service (R141, R173). -/
def linesShow (s : State) : Prop :=
  s.link.attn = (s.running && attnLevel s.link) ∧ s.announcer.anncLine = (s.running && anncLevel s.announcer.takeover)

/-- Every step that answers a next state keeps a law. -/
def keptByStep (P : State → Prop) : Prop := ∀ s t : State, P s → step s = .next t → P t

/-! ### The first effects of a cell -/

/-- A HEAD that passes its check restarts both timers, its quality is kept, and any open frame closes (R3, R5, R10, R11). -/
def headHeard (quality : BitVec 4) (s : State) : State :=
  closeOpen (s.updIntake fun p => { p with cellRx := .idle, watchRunning := true, timerRunning := true, quality := quality })

/-- A frame opens at count h, not stale (R4). -/
def opensAt (h : Count) (s : State) : State :=
  s.updIntake fun p => { p with openFrame := some { count := h, stale := false, suspended := false, lowest := 0 } }

/-- What the opening of the lanes of slot i leaves: OPENING, with the service, role and want flags given (R123, R126). -/
def openedAs (u : State) (i : Fin 5) (service : Word16) (role : Option Role) (wantTwin wantData : Bool) : Prop :=
  (u.slot i).state = .opening ∧ (u.slot i).service = some service ∧ (u.slot i).role = role ∧ (u.slot i).wantTwin = wantTwin ∧
    (u.slot i).wantData = wantData ∧ (u.slot i).source = .primary ∧ (u.slot i).muted = false ∧ (u.slot i).dwell = 16 ∧
    (u.slot i).cause = none ∧ (u.slot i).parked = none ∧ (u.slot i).taken = 0

/-- The references slot i gets when its lanes open with this first lane frame (R122, R126). A wanted role whose lane a FILLING or
RUNNING context holds refers to that context, whose count rises; what the slot held before is then given up; the other wanted roles are
requested in order, each in the state the ones before it left; a role that is not wanted refers to nothing. -/
def rolesOpened (s u : State) (i : Fin 5) (e : ServiceEntry) (wantTwin wantData : Bool) (first : Count)
    (givingUp : State → State) : Prop :=
  let wanted := wantedRoles i e wantTwin wantData
  let asked := wanted.filter fun q => (receivingLane s q.2).isNone
  let shared := wanted.foldl (fun v q =>
    (receivingLane s q.2).elim v fun c => v.setCtx c { v.ctx c with refs := (v.ctx c).refs + 1 }) s
  let before (k : Nat) : State := (asked.take k).foldl (fun v q => (requestCtx q.2 first v).2) (givingUp shared)
  let ref (r : RoleIx) : Ref := ((u.slot i).roleRef r).ref
  (∀ r, (∀ lane, (r, lane) ∉ wanted) → ref r = .notWanted) ∧
  (∀ r lane c, (r, lane) ∈ wanted → receivingLane s lane = some c → ref r = .context c) ∧
  (∀ k r lane, asked[k]? = some (r, lane) → ref r =
    match (requestCtx lane first (before k)).1 with
    | .shared c => .context c
    | .opened c => .context c
    | .noEntry => .deferred lane
    | _ => if r = 1 then .absent else .deferred lane) ∧
  u.contexts = (before asked.length).contexts ∧ u.store = (before asked.length).store

/-- No lane frame or label of slot i is queued (R161). -/
def noPacketsOf (u : State) (i : Fin 5) : Prop :=
  (∀ p ∈ u.link.audio, p.slot ≠ i) ∧ (∀ p ∈ u.link.data, p.slot ≠ i) ∧ ∀ p ∈ u.link.labels, p.slot ≠ i

/-- The thresholds and masks of every slot are as they were. -/
def thresholdsKept (s u : State) : Prop :=
  ∀ i : Fin 5, (u.slot i).thHi = (s.slot i).thHi ∧ (u.slot i).thLo = (s.slot i).thLo ∧
    (u.slot i).riseMask = (s.slot i).riseMask ∧ (u.slot i).fallMask = (s.slot i).fallMask

/-- What an order of the Selection Controller leaves alone: the intake, the banks, the candidates and the announcement
table, the profiles, the thresholds and masks, what is held, the answers, orders and enable mask, and the packet in
transmission. -/
def selectionFrame (s u : State) : Prop :=
  u.intake = s.intake ∧ u.laneMap = { s.laneMap with index := u.laneMap.index } ∧
    u.directory = { s.directory with labels := u.directory.labels } ∧ u.store.profiles = s.store.profiles ∧
    thresholdsKept s u ∧ u.announcer = s.announcer ∧ u.earlyLow = s.earlyLow ∧
    u.link = { s.link with
      audio := u.link.audio, data := u.link.data, labels := u.link.labels, causes := u.link.causes } ∧
    u.pending = s.pending

/-! ### When an order is carried out at once (R163 to R165) -/

/-- The receiver hunts for a sync byte. -/
def Receiver.hunting : Receiver → Bool
  | .hunt _ => true
  | _ => false

/-- The part runs, expects the sync byte of a packet, holds no order, and has room for an answer. -/
def readyForOrder (s : State) : Prop :=
  s.running = true ∧ s.link.receiver.hunting = true ∧ s.link.orders = [] ∧ s.link.answers.length < 4

/-- The state in which the order of a packet received whole is carried out: the receiver expects the next sync byte, and
no break is being timed (R163, R175). -/
def heard (s : State) : State :=
  s.updLink fun l => { l with receiver := .hunt true, breakDetector := abandonTiming l.breakDetector }

/-- The outcome of an order carried out at once with this result and data and this state before its answer joins:
the answer is queued within the same event (R165). -/
def carriedOut (s : State) (ref kind : Byte) (result : OrderResult) (data : List Byte) (t : State) :
    Host.Outcome State Fault Refusal :=
  .next (endEvent (heard s) (joinAnswer { ref := ref, kind := kind, result := result, data := data } t))

end Sys2Proof.Machine
end

