-- ==== Sys2Proof/WellFormed.lean ====
section
/-! DEFINITION. The operand ranges that the types of `Instr` do not give. -/

namespace Sys2Proof

/-- The bytes, from the start of a packet, that the receiver of R163 finds malformed at the last of them. -/
def malformedFromStart (bytes : List Byte) : Bool :=
  match bytes with
  | [b] => b != 0xC3
  | [s, k] => s == 0xC3 && k != 0x10
  | [s, k, h, l] => s == 0xC3 && k == 0x10 && (decide ((wordOf h l).toNat < 2) || decide (64 < (wordOf h l).toNat))
  | _ => false

/-- The operands are ones that the event they stand for can carry. -/
def Instr.wellFormed : Instr → Bool
  | .unknownCell kind rest =>
    match cellLength kind with
    | none => true
    | some n => decide (rest.length + 1 < n)
  | .order body => decide (2 ≤ body.length ∧ body.length ≤ 64)
  | .malformed bytes => malformedFromStart bytes
  | .unknownOrder _ kind params => decide (kind ∉ orderKinds ∧ params.length ≤ 62)
  | .loadPattern _ _ values => decide (values.length = 8)
  | .inject _ record => decide (record.length ≤ 62)
  | .recordConfirmed r =>
    match r with
    | .labelSegment .. => false
    | .announce type state _ => r.wellFormed && !(type == 0 && state == 1)
    | _ => r.wellFormed
  | _ => true

end Sys2Proof
end

