-- ==== Sys2Proof/Certificates/Slice0/Obligations.lean ====
section
/-! DEFINITION. The statements for the provers. `endEvent s u` is what the end of an event that began in s makes of u (R139,
R141, R148, R173); `heard s` and `carriedOut` are the state in which an order is carried out and the outcome with its answer
queued (R163 to R165). -/

section Statements

open Sys2Proof Sys2Proof.Machine

/-! ### The step and its laws -/

/-- A step takes the command at the front of the queue; on an empty queue the part idles, and no table word spells a command
(log 1). -/
def Obligations.StepTakesFrontCommand : Prop :=
  (∀ (c : Instr) (rest : List Instr) (s : State), step { s with pending := c :: rest } = exec c { s with pending := rest }) ∧
    (∀ s : State, s.pending = [] → step s = .next s) ∧
    ∀ (s : State) (nbits w : Nat), decodeTableWord nbits w = none ∧ s.withFetchWord nbits w = s

/-- Every command answers a next state, in which the queue is as it was; while the part is held in RESET or in a break, a
command other than a reset and the release changes nothing (log 6). -/
def Obligations.EveryCommandAnswersNext : Prop :=
  (∀ (c : Instr) (s : State), ∃ t, exec c s = .next t ∧ t.pending = s.pending) ∧
    ∀ (c : Instr) (s : State), s.running = false → (∀ e, c ≠ .powerOnReset e) → c ≠ .resetHeld →
      (c = .breakRelease → s.link.breakDetector ≠ .holding) → exec c s = .next s

def Obligations.StepKeepsStoreCanonical : Prop := keptByStep fun s => s.store.cells.wf = true

def Obligations.StepKeepsQueueCapacities : Prop := keptByStep fun s => s.link.withinCapacity

def Obligations.StepKeepsAlarmInMasks : Prop := keptByStep fun s => s.announcer.lockHolds

def Obligations.StepKeepsColumnsConserved : Prop := keptByStep columnsConserved

def Obligations.StepKeepsOneForeground : Prop := keptByStep oneForeground

def Obligations.StepKeepsBanksInOrder : Prop := keptByStep fun s => s.laneMap.inOrder ∧ s.directory.candidatesApart

def Obligations.StepKeepsOneContextPerLane : Prop := keptByStep oneContextPerLane

def Obligations.StepKeepsCountersInRange : Prop := keptByStep fun s => countersInRange s ∧ slotsInRange s

def Obligations.StepKeepsLinesShown : Prop := keptByStep linesShow

/-- The state after a power-on reset meets every law the statements above say a step keeps. -/
def Obligations.ResetMeetsEveryLaw : Prop :=
  State.reset.store.cells.wf = true ∧ State.reset.link.withinCapacity ∧ State.reset.announcer.lockHolds ∧
    columnsConserved State.reset ∧ oneForeground State.reset ∧ State.reset.laneMap.inOrder ∧ oneContextPerLane State.reset ∧
    countersInRange State.reset ∧ slotsInRange State.reset ∧ State.reset.directory.candidatesApart ∧ linesShow State.reset

/-! ### Resets -/

/-- POWER_ON_RESET leaves the power-on values of every block, field by field, with EARLY as sampled at the release. That a cause
has no detail before its first raise (log 27), and that what waits in the queue stays (log 1), is the model's own. -/
def Obligations.PowerOnResetValues : Prop :=
  ∀ (earlyLow : Bool) (s : State), ∃ t, exec (.powerOnReset earlyLow) s = .next t ∧ t.running = true ∧
    t.intake = {
      state := .search, openFrame := none, lastClosed := 0, remembered := none, foreign := none,
      holdoverLimit := 47, holdoverCount := 0, watchRunning := false, timerRunning := false, quality := 0, cellRx := .idle } ∧
    t.directory.candidates = [] ∧ (∀ k : Fin 8, t.directory.table[k] = { on := false, target := none, age := 0 }) ∧
    (∀ i : Fin 5, label t i = { toggle := 0, segments := Vector.replicate 8 none, count := none, visible := none }) ∧
    t.laneMap = {
      active := Bank.empty, pending := Bank.empty, complete := false, stale := false, ready := false, identity := none,
      index := [] } ∧
    t.store.free = List.range 384 ∧ (∀ k, t.store.cells.read k = { payload := 0, tag := none, erased := false }) ∧
    (∀ p : Fin 4, t.store.profiles[p] = [0, 3, 6, 1, 4, 7, 2, 5]) ∧
    (∀ c : Fin 16, t.ctx c = {
      state := .free, shape := none, columns := [], first := none, drainEnd := none, refs := 0, score := 0, arm := .high,
      settle := 0, assembled := 0, last := none }) ∧
    (∀ i : Fin 5, t.slot i = {
      state := .empty, role := if i = 4 then some .announcement else none, service := none, wantTwin := false,
      wantData := false, roles := Vector.replicate 5 { ref := .notWanted, outgoing := [] }, source := .primary,
      muted := false, overridden := false, dwell := 0, thHi := 1536, thLo := 512, riseMask := 0b011, fallMask := 0b110,
      cause := none, parked := none, early := false, taken := 0 }) ∧
    t.earlyLow = earlyLow ∧ t.earlyConsumed = false ∧
    t.announcer = {
      power := .active, accept := 0x03, wake := 0x01, lock := false, takeover := .idle, heldType := none,
      heldTarget := none, anchor := none, preempted := [], anncLine := false, wakeLine := false } ∧
    t.link.answers = [] ∧ t.link.audio = [] ∧ t.link.data = [] ∧ t.link.labels = [] ∧ t.link.sending = none ∧
    t.link.receiver = .hunt false ∧ t.link.orders = [] ∧ t.link.enable = 0x1FF ∧ t.link.attn = true ∧
    t.link.breakDetector = .idle ∧ t.link.resetCause = .power ∧
    (∀ p : Fin 9, t.link.causes[p] =
      if p = 1 then { pending := true, detail := some (.restart .power) } else { pending := false, detail := none }) ∧
    t.pending = s.pending

/-- RESET_HELD gives the part its power-on values and holds it: every line is low, and EARLY and the reset cause wait for the
release (log 6). -/
def Obligations.ResetHeldHoldsThePart : Prop :=
  ∀ s : State, ∃ t, exec .resetHeld s = .next t ∧ t.running = false ∧ t.link.attn = false ∧ t.announcer = Announcer.reset ∧
    t.intake = Intake.reset ∧ t.directory = Directory.reset ∧ t.laneMap = LaneMap.reset ∧ t.store = DelayStore.reset ∧
    (∀ c : Fin 16, t.ctx c = LaneContext.free) ∧ t.slots = slotsReset ∧ t.link.answers = [] ∧ t.link.audio = [] ∧
    t.link.data = [] ∧ t.link.labels = [] ∧ t.link.sending = none ∧ t.link.orders = [] ∧ t.earlyLow = s.earlyLow ∧
    t.earlyConsumed = s.earlyConsumed ∧ t.link.resetCause = s.link.resetCause ∧ t.pending = s.pending

/-- BREAK_RESET gives every block its power-on values but for the alarm lock with ALARM in both masks, the EARLY latch and
the consumed flag, and the payloads of the Delay Store, and holds the part. BREAK_RELEASE lets it run with reset cause BREAK, every cause clear but RESTART,
which carries it, and ATTN high when RESTART is enabled. That the other causes have no detail until they are raised (log 27), and
that what waits in the queue stays (log 1), is the model's own. -/
def Obligations.BreakResetKeepsThree : Prop :=
  (∀ s : State, s.running = true → s.store.cells.wf = true → ∃ t, exec .breakReset s = .next t ∧ t.running = false ∧
    t.link.breakDetector = .holding ∧ t.link.attn = false ∧ t.announcer = { Announcer.reset with lock := s.announcer.lock } ∧
    t.earlyLow = s.earlyLow ∧ t.earlyConsumed = s.earlyConsumed ∧
    (∀ k, t.store.cells.read k = { payload := (s.store.cells.read k).payload, tag := none, erased := false }) ∧
    t.store.free = List.range 384 ∧ t.store.profiles = DelayStore.reset.profiles ∧ t.intake = Intake.reset ∧
    t.directory = Directory.reset ∧ t.laneMap = LaneMap.reset ∧ (∀ c : Fin 16, t.ctx c = LaneContext.free) ∧
    t.slots = slotsReset ∧ t.link.answers = [] ∧ t.link.audio = [] ∧ t.link.data = [] ∧ t.link.labels = [] ∧
    t.link.sending = none ∧ t.link.receiver = .hunt false ∧ t.link.orders = [] ∧ t.link.enable = 0x1FF ∧
    t.pending = s.pending) ∧
  ∀ s : State, s.link.breakDetector = .holding → s.link.resetHeld = false →
    ∃ t, exec .breakRelease s = .next t ∧ t.running = true ∧ t.link.resetCause = .brk ∧ t.link.attn = s.link.enable.getLsbD 1 ∧
      (∀ p : Fin 9, t.link.causes[p] =
        if p = 1 then { pending := true, detail := some (.restart .brk) } else { pending := false, detail := none }) ∧
      t.link = { s.link with
        breakDetector := .idle, resetCause := .brk, causes := t.link.causes, attn := t.link.attn } ∧
      t.announcer = { s.announcer with anncLine := anncLevel s.announcer.takeover } ∧
      t = { s with link := t.link, announcer := t.announcer }

/-! ### The Intake Port -/

/-- A HEAD that fails its check suspends any open frame and does nothing else; it restarts no timer. -/
def Obligations.HeadFailingItsCheckSuspends : Prop :=
  ∀ (identity : Word16) (h : Count) (serial quality reserved : BitVec 4) (check : Word16) (s : State), s.running = true →
    crc (headBytes identity h serial quality reserved) ≠ check →
    exec (.head identity h serial quality reserved check) s = .next (endEvent s (s.updIntake fun p =>
      { p with cellRx := .idle, openFrame := p.openFrame.map fun f => { f with suspended := true } }))

/-- In SEARCH a HEAD of the active identity, or any while there is none, begins an acquisition, and another one is ignored;
in LOST every HEAD begins one. -/
def Obligations.HeadBeginsAcquisition : Prop :=
  ∀ (identity : Word16) (h : Count) (serial quality reserved : BitVec 4) (s : State), s.running = true →
    let c := Instr.head identity h serial quality reserved (crc (headBytes identity h serial quality reserved))
    let u := headHeard quality s
    let acquiring (o : Origin) := u.updIntake fun p =>
      { p with state := .acquire, remembered := some { identity := identity, count := h, origin := o } }
    (s.intake.state = .search → (s.laneMap.identity = none ∨ s.laneMap.identity = some identity) →
      exec c s = .next (endEvent s (acquiring .search))) ∧
    (s.intake.state = .search → s.laneMap.identity ≠ none → s.laneMap.identity ≠ some identity →
      exec c s = .next (endEvent s u)) ∧
    (s.intake.state = .lost → exec c s = .next (endEvent s (acquiring .lost)))

/-- In ACQUIRE the HEAD that continues the remembered one locks the port: the active identity becomes the HEAD's, the last
closed count is the one before it, and its frame opens. With no active identity, or the HEAD's, every context is realigned with
SYNC-CHANGE LOCK or REALIGN, and after a LOST the slots SUSPENDED for it resume; with another identity the multiplex changes. Any
other HEAD is remembered in its place. That the lock forgets what was remembered is the model's reading (log 21). -/
def Obligations.HeadInSequenceLocks : Prop :=
  (∀ (identity : Word16) (h : Count) (serial quality reserved : BitVec 4) (m : Remembered) (s : State), s.running = true →
    s.intake.state = .acquire → s.intake.remembered = some m →
    let c := Instr.head identity h serial quality reserved (crc (headBytes identity h serial quality reserved))
    let u := headHeard quality s
    let locksAs (v : State) := exec c s = .next (endEvent s (opensAt h (swapTrigger serial.toNat h (v.updIntake fun p =>
      { p with state := .locked, foreign := none, remembered := none, lastClosed := h - 1 }))))
    (identity = m.identity → h = m.count + 1 →
      (s.laneMap.identity = none →
        locksAs (raise (.syncChange .lock) (realign h (u.updLaneMap fun l => { l with identity := some identity })))) ∧
      (s.laneMap.identity = some identity → m.origin = .search → locksAs (raise (.syncChange .realign) (realign h u))) ∧
      (s.laneMap.identity = some identity → m.origin = .lost →
        locksAs (resumeLost (raise (.syncChange .realign) (realign h u)))) ∧
      (s.laneMap.identity ≠ none → s.laneMap.identity ≠ some identity →
        locksAs (raise (.syncChange .identity) (identityChange (some identity) u))) ∧
      ∃ t, exec c s = .next t ∧ t.laneMap.identity = some identity ∧
        t.intake = { s.intake with
          state := .locked, openFrame := some { count := h, stale := false, suspended := false, lowest := 0 },
          lastClosed := h - 1, remembered := none, foreign := none, watchRunning := true, timerRunning := true,
          quality := quality, cellRx := .idle }) ∧
    (¬(identity = m.identity ∧ h = m.count + 1) → exec c s = .next (endEvent s (u.updIntake fun p =>
      { p with remembered := some { identity := identity, count := h, origin := m.origin } })))) ∧
  (∀ (h : Count) (s : State),
    (∀ c : Fin 16, (realign h s).ctx c =
      match (s.ctx c).state with
      | .free => s.ctx c
      | .draining => LaneContext.free
      | _ => { s.ctx c with state := .filling, first := some h, settle := 0, assembled := 0, last := none }) ∧
    (s.store.cells.wf = true → ∀ (c : Fin 16) (column row : Nat), (s.ctx c).state ≠ .free → column ∈ (s.ctx c).columns →
      column < 384 → row < 8 →
      (realign h s).store.cells.read (cellAddress column row) = (s.store.cells.read (cellAddress column row)).cleared) ∧
    ((∃ c : Fin 16, (s.ctx c).state = .draining) →
      (realign h s).link.causes[(4 : Fin 9)] = { pending := true, detail := some (.layout .laneEnded) })) ∧
  ∀ (s : State) (i : Fin 5), (resumeLost s).slot i =
    if (s.slot i).state = .suspended ∧ (s.slot i).cause = some .lost then
      { s.slot i with state := .opening, source := .primary, muted := false, dwell := 16, cause := none }
    else s.slot i

/-- A HEAD of the active identity in LOCKED, or in HOLDOVER, which it ends, follows the distance from the last closed count: a
stale frame, a frame after so many virtual closes, or a frame after a realignment. That a realignment leaves the last closed count
as it was, and that a lane opened inside its event gets first lane frame h, is the model's reading (log 20). A frame that is not
stale goes to the swap trigger: adoption, the same serial, a swap, or STALE. A virtual close is the frame close of its count. A swap
gives every receiving context its outcome and looks the slots 4, 0, 1, 2, 3 up again in two passes over all roles, giving up and then
requesting, after which each slot is settled: checked, or WAITING where its service is gone. That a role which the slot does not want
is given up as one the entry does not name (log 26), that a slot which becomes WAITING has suspend cause none (log 14), the order in
which the slots are settled (log 29), and the order inside a swap of LAYOUT attention, the slots that open and the check of what is
held (log 13), is the model's reading. -/
def Obligations.HeadFollowsDistanceBands : Prop :=
  (∀ (identity : Word16) (h : Count) (serial quality reserved : BitVec 4) (s u : State), s.running = true →
    s.laneMap.identity = some identity →
    (s.intake.state = .locked ∧ u = headHeard quality s) ∨ (s.intake.state = .holdover ∧
      u = (headHeard quality s).updIntake fun p => { p with state := .locked, foreign := none }) →
    let c := Instr.head identity h serial quality reserved (crc (headBytes identity h serial quality reserved))
    let d := distance h u.intake.lastClosed
    (d = 0 ∨ 4088 ≤ d → exec c s = .next (endEvent s (u.updIntake fun p =>
      { p with openFrame := some { count := h, stale := true, suspended := false, lowest := 0 } }))) ∧
    (1 ≤ d ∧ d ≤ 8 → exec c s = .next (endEvent s (opensAt h (swapTrigger serial.toNat h (virtualCloses (d - 1) u))))) ∧
    (9 ≤ d ∧ d ≤ 4087 → exec c s =
      .next (endEvent s (opensAt h ((swapTrigger serial.toNat h ((raise (.syncChange .realign) (realign h u)).updIntake fun p =>
        { p with lastClosed := h - 1 })).updIntake fun p => { p with lastClosed := u.intake.lastClosed }))))) ∧
  (∀ (k : Nat) (s : State), virtualCloses k s =
    ((List.range k).map fun j => s.intake.lastClosed + 1 + BitVec.ofNat 12 j).foldl (fun v count => frameClose count v) s) ∧
  (∀ (h : Nat) (frame : Count) (s : State),
    let m := s.laneMap
    let awaited := if m.pending.serial = some h then m.pending else { Bank.empty with serial := some h }
    let swapped := s.updLaneMap fun m => { m with
      active := m.pending, pending := Bank.empty, stale := false, complete := bankComplete m.identity m.pending, ready := false }
    (m.active.serial = none → m.pending.serial = some h →
      swapTrigger h frame s = openWaitingSlots (s.updLaneMap fun m => { m with
        active := m.pending, pending := Bank.empty, complete := bankComplete m.identity m.pending, ready := false })) ∧
    (m.active.serial = none → m.pending.serial ≠ some h →
      swapTrigger h frame s = openWaitingSlots (s.updLaneMap fun m => { m with
        active := { Bank.empty with serial := some h }, complete := false, ready := bankReady m.pending })) ∧
    (m.active.serial = some h → swapTrigger h frame s =
      s.updLaneMap fun m => { m with stale := if m.complete then false else m.stale }) ∧
    (m.active.serial ≠ none → m.active.serial ≠ some h → m.pending.serial = some h → m.ready = true →
      swapTrigger h frame s =
        checkHeld (openWaitingSlots (raise (.layout .swapped) (rebuildIndex (reResolve frame (laneOutcomes frame swapped)))))) ∧
    (m.active.serial ≠ none → m.active.serial ≠ some h → ¬(m.pending.serial = some h ∧ m.ready = true) →
      let v := s.updLaneMap fun m => { m with
        stale := true, pending := awaited, complete := bankComplete m.identity m.active, ready := bankReady awaited }
      swapTrigger h frame s = if m.stale then v else raise (.layout .stale) v)) ∧
  (∀ (frame : Count) (s : State) (c : Fin 16),
    let x := s.ctx c
    let continues (old e : LaneEntry) := e.n = old.n ∧ e.profile = old.profile ∧ e.g = old.g
    (x.receiving = false → (laneOutcomes frame s).ctx c = x) ∧
    ∀ old, x.receiving = true → x.shape = some old →
      (∀ e, s.laneMap.active.lane? old.lane = some e → continues old e →
        (laneOutcomes frame s).ctx c = { x with shape := some e }) ∧
      ((∀ e, s.laneMap.active.lane? old.lane = some e → ¬continues old e) →
        (0 < x.assembled ∨ (∃ l, x.first = some l ∧ atOrBefore l (frame - 1) = true) →
          (laneOutcomes frame s).ctx c = { x with state := .draining, drainEnd := some (frame - 1) }) ∧
        (x.assembled = 0 → (∀ l, x.first = some l → atOrBefore l (frame - 1) = false) →
          (laneOutcomes frame s).ctx c = LaneContext.free))) ∧
  (∀ (i : Fin 5) (x : Slot) (e : ServiceEntry) (r : RoleIx), resolvedLane i x e r =
    if (x.state = .opening ∨ x.state = .delivering ∨ (x.state = .suspended ∧ x.cause = some .lost)) ∧
      ((e.kind = .audio ∧ (r = 0 ∨ (i ≠ 4 ∧ ((r = 1 ∧ x.wantTwin = true) ∨ (2 ≤ r.val ∧ x.wantData = true))))) ∨
        (e.kind = .dataOnly ∧ i ≠ 4 ∧ 2 ≤ r.val)) then
      (if r = 0 then e.primary else if r = 1 then e.twin else e.data[r.val - 2]?)
    else none) ∧
  (∀ (i : Fin 5) (e : ServiceEntry) (frame : Count) (s : State) (r : RoleIx),
    let x := s.slot i
    let lane := resolvedLane i x e r
    let left : Ref := if r = 1 ∧ lane = none then .absent else .notWanted
    (∀ c, (x.roleRef r).ref = .context c →
      ((s.ctx c).state = .draining →
        giveUpRole i e s r = (dropRef c s).updSlot i fun x => (x.setRef r left).addOutgoing r c) ∧
      ((s.ctx c).receiving = true → lane ≠ none → (s.ctx c).lane? = lane → giveUpRole i e s r = s) ∧
      ((s.ctx c).receiving = true → (lane = none ∨ (s.ctx c).lane? ≠ lane) →
        giveUpRole i e s r = (dropRef c s).updSlot i fun x => x.setRef r left) ∧
      ((s.ctx c).state = .free →
        giveUpRole i e s r = (dropRef c s).updSlot i fun x => x.setRef r left) ∧
      requestRole i e frame s r = s) ∧
    (∀ l, (x.roleRef r).ref = .deferred l →
      giveUpRole i e s r = if lane = none then s.updSlot i fun x => x.setRef r left else s) ∧
    ((x.roleRef r).ref = .notWanted ∨ (x.roleRef r).ref = .absent → giveUpRole i e s r = s) ∧
    ((∀ c, (x.roleRef r).ref ≠ .context c) →
      (lane = none → requestRole i e frame s r = s) ∧
      ∀ l, lane = some l → ∀ a u, requestCtx l frame s = (a, u) →
        requestRole i e frame s r = u.updSlot i fun x => x.setRef r
          (match a with | .shared c => .context c | .opened c => .context c | _ => .deferred l))) ∧
  (∀ (frame : Count) (s : State), reResolve frame s = ([4, 0, 1, 2, 3] : List (Fin 5)).foldl settleSlot
    (([4, 0, 1, 2, 3] : List (Fin 5)).foldl (requestPass frame) (([4, 0, 1, 2, 3] : List (Fin 5)).foldl giveUpPass s))) ∧
  (∀ (frame : Count) (s : State) (i : Fin 5),
    let x := s.slot i
    let takesPart := x.state = .opening ∨ x.state = .delivering ∨ x.state = .suspended
    (¬takesPart → giveUpPass s i = s ∧ requestPass frame s i = s ∧ settleSlot s i = s) ∧
    (takesPart → ∀ e, x.service.bind (activeService s) = some e →
      giveUpPass s i = ([0, 1, 2, 3, 4] : List RoleIx).foldl (giveUpRole i e) s ∧
      requestPass frame s i = ([0, 1, 2, 3, 4] : List RoleIx).foldl (requestRole i e frame) s ∧
      settleSlot s i = stateCheck i s) ∧
    (takesPart → x.service.bind (activeService s) = none →
      giveUpPass s i = (dropReferences x s).updSlot i (fun y => { y with roles := Vector.replicate 5 RoleRef.none }) ∧
      requestPass frame s i = s ∧
      settleSlot s i = stateCheck i (if i = 4 then s else raise (.selection i .waiting) (s.updSlot i fun y =>
        { y with state := .waiting, roles := Vector.replicate 5 RoleRef.none, cause := none, parked := none })))) ∧
  ∀ (frame : Count) (s : State) (i : Fin 5), i ≠ 4 →
    ((s.slot i).state = .opening ∨ (s.slot i).state = .delivering ∨ (s.slot i).state = .suspended) →
    (s.slot i).service.bind (activeService s) = none →
    ((reResolve frame s).slot i).state = .waiting ∧ ((reResolve frame s).slot i).service = (s.slot i).service ∧
      ((reResolve frame s).slot i).cause = none ∧ ((reResolve frame s).slot i).roles = Vector.replicate 5 RoleRef.none ∧
      ((reResolve frame s).slot i).source = .primary

/-- A HEAD of another identity: in LOCKED it becomes the foreign candidate and the port enters HOLDOVER; in HOLDOVER the one
that continues the candidate brings the identity change with SYNC-CHANGE IDENTITY and locks, any other becomes the candidate. The
identity change clears what belongs to the multiplex, makes the occupied host slots wait and empties slot 4, each with SELECTION
attention. That the lock forgets what was remembered (log 21), which slots SELECTION counts as changed and whose detail stays (log 18),
and that a slot keeps its dwell and has parked state none (log 14), is the model's reading. -/
def Obligations.ForeignHead : Prop :=
  (∀ (identity : Word16) (h : Count) (serial quality reserved : BitVec 4) (s : State), s.running = true →
    s.laneMap.identity ≠ some identity →
    let c := Instr.head identity h serial quality reserved (crc (headBytes identity h serial quality reserved))
    let u := headHeard quality s
    (s.intake.state = .locked → exec c s = .next (endEvent s (virtualClose (u.updIntake fun p =>
      { p with state := .holdover, holdoverCount := 0, foreign := some { identity := identity, count := h } })))) ∧
    (s.intake.state = .holdover → s.intake.foreign = some { identity := identity, count := h - 1 } →
      exec c s = .next (endEvent s (opensAt h (swapTrigger serial.toNat h
        ((raise (.syncChange .identity) (identityChange (some identity) u)).updIntake fun p =>
          { p with state := .locked, foreign := none, remembered := none, lastClosed := h - 1 })))) ∧
      ∃ t, exec c s = .next t ∧ t.laneMap.identity = some identity ∧ t.laneMap.active.serial = some serial.toNat ∧
        (∀ x : Fin 16, (t.ctx x).state = .free) ∧
        t.intake = { s.intake with
          state := .locked, openFrame := some { count := h, stale := false, suspended := false, lowest := 0 },
          lastClosed := h - 1, remembered := none, foreign := none, watchRunning := true, timerRunning := true,
          quality := quality, cellRx := .idle }) ∧
    (s.intake.state = .holdover → s.intake.foreign ≠ some { identity := identity, count := h - 1 } →
      exec c s = .next (endEvent s (u.updIntake fun p => { p with foreign := some { identity := identity, count := h } })))) ∧
  ∀ (identity : Option Word16) (s : State),
    let u := identityChange identity s
    u.laneMap = { LaneMap.reset with identity := identity } ∧ u.directory = Directory.reset ∧
    (∀ c : Fin 16, (u.ctx c).state = .free) ∧ u.store.profiles = s.store.profiles ∧ u.intake = s.intake ∧
    u.announcer = { s.announcer with
      takeover := .idle, heldType := none, heldTarget := none, anchor := none, preempted := [] } ∧
    (∀ i : Fin 5, i ≠ 4 →
      ((s.slot i).state = .empty → (u.slot i).state = .empty) ∧
      ((s.slot i).state = .parked → (u.slot i).state = .parked ∧ (u.slot i).parked = some .waiting ∧
        (u.slot i).service = (s.slot i).service ∧ (u.slot i).role = (s.slot i).role) ∧
      ((s.slot i).state ≠ .empty → (s.slot i).state ≠ .parked → u.slot i = { s.slot i with
        state := .waiting, roles := Vector.replicate 5 RoleRef.none, source := .primary, muted := false, overridden := false,
        cause := none, parked := none })) ∧
    (u.slot 4).state = .empty ∧ thresholdsKept s u ∧ u.link = { s.link with causes := u.link.causes } ∧
    ((s.slot 4).state ≠ .empty → u.slot 4 = { Slot.reset (some .announcement) with
      thHi := (s.slot 4).thHi, thLo := (s.slot 4).thLo, riseMask := (s.slot 4).riseMask, fallMask := (s.slot 4).fallMask }) ∧
    ((∀ i : Fin 5, i ≠ 4 → (s.slot i).state = .empty ∨ (s.slot i).state = .parked ∨ (s.slot i).state = .waiting) →
      ((s.slot 4).state ≠ .empty →
        u.link.causes[(5 : Fin 9)] = { pending := true, detail := some (.selection 4 .empty) }) ∧
      ((s.slot 4).state = .empty → u.link = s.link)) ∧
    ∀ i : Fin 5, i ≠ 4 → (s.slot i).state ≠ .empty → (s.slot i).state ≠ .parked → (s.slot i).state ≠ .waiting →
      (∀ j : Fin 5, i < j → j ≠ 4 → (s.slot j).state = .empty ∨ (s.slot j).state = .parked ∨ (s.slot j).state = .waiting) →
      u.link.causes[(5 : Fin 9)] = { pending := true, detail := some (.selection i .waiting) }

/-- A GAP, and an expiry of a running frame watch: LOCKED closes its frame and enters HOLDOVER with a virtual close, ACQUIRE
returns to its origin, the other states are not touched; a stopped watch does not expire. -/
def Obligations.LossOfSignalByState : Prop :=
  (∀ (c : Instr) (s u : State), s.running = true →
    (c = .gap ∧ u = s.updIntake fun p => { p with cellRx := .idle }) ∨
      (c = .frameWatchExpiry ∧ s.intake.watchRunning = true ∧ u = s.updIntake fun p => { p with watchRunning := false }) →
    (s.intake.state = .locked → exec c s = .next (endEvent s (virtualClose ((closeOpen u).updIntake fun p =>
      { p with state := .holdover, holdoverCount := 0 })))) ∧
    (∀ m, s.intake.state = .acquire → s.intake.remembered = some m → exec c s = .next (endEvent s (u.updIntake fun p =>
      { p with state := (match m.origin with | .search => .search | .lost => .lost), remembered := none }))) ∧
    (s.intake.state ≠ .locked → s.intake.state ≠ .acquire → exec c s = .next (endEvent s u))) ∧
  ∀ s : State, s.running = true → s.intake.watchRunning = false → exec .frameWatchExpiry s = .next (endEvent s s)

/-- A TAIL closes the open frame: a stale one without an announcement, any other with its frame close; a suspended frame and
an empty record are left as they are. The frame close of F assembles and scores lane frame F - 7 in every context that takes part,
from the tiles that are present, then hands the records to the slots, ends the drains and retries the slots 4, 0, 1, 2, 3 in one pass
(slot by slot: the statements of DEFERRED_RETRY and ROOM_RETRY). The thresholds of the lowest slot that refers to a context govern it,
and an outgoing context that assembled serves its role before the role's own. A slot in OPENING or DELIVERING is checked (source reversion, demotion) and promoted, makes its quality decision, raises QUALITY at a crossing and, while DELIVERING,
queues its lane frames. Which outgoing context serves a role where two assembled (log 30) is the model's choice; that QUALITY looks at the
source as the decision leaves it (log 26), and that the source role's audio is queued whatever the kind of the service (log 32), is its
reading. -/
def Obligations.TailClosesTheFrame : Prop :=
  (∀ s : State, s.running = true →
    let u := s.updIntake fun p => { p with cellRx := .idle }
    let v := u.updIntake fun p => { p with openFrame := none }
    (s.intake.openFrame = none → exec .tail s = .next (endEvent s u)) ∧
    ∀ f, s.intake.openFrame = some f →
      (f.suspended = true → exec .tail s = .next (endEvent s u)) ∧
      (f.suspended = false → f.stale = true → exec .tail s = .next (endEvent s v)) ∧
      (f.suspended = false → f.stale = false → exec .tail s = .next (endEvent s (frameClose f.count v)))) ∧
  (∀ (f : Count) (s : State), ∃ u recs, frameClose f s = retryPass (endDrains (handOver recs u)) ∧
    u = { s with intake := { s.intake with lastClosed := f }, contexts := u.contexts } ∧
    ∀ c : Fin 16,
      let l := f - 7
      let x := s.ctx c
      let takes := (x.state = .filling ∧ x.first = some l) ∨ x.state = .running ∨
        (x.state = .draining ∧ (∃ d, x.drainEnd = some d ∧ atOrBefore l d = true) ∧ (0 < x.assembled ∨ x.first = some l))
      (¬takes → u.ctx c = x ∧ recordOfCtx recs c = none) ∧
      ∀ e, x.shape = some e → takes →
        let tiles := (List.range e.n).map (tileAt s x l)
        let groups := resolveGroups e.n e.g tiles
        let missing := (tiles.filter Option.isNone).length
        let lost := (groups.filter fun g => g.1 == .lost).length
        let mismatch := (groups.filter fun g => g.1 == .mismatch).length
        let penalty := min 4095 (2048 * missing / e.n + 2048 * min groups.length (lost + mismatch) / groups.length)
        let score := x.score - x.score / 8 + penalty / 8
        let rises := x.arm = .high ∧ (governing s c).1 ≤ score
        let falls := x.arm = .low ∧ score ≤ (governing s c).2
        let arm := if rises then ArmState.low else if falls then .high else x.arm
        u.ctx c = { x with
          state := if x.state = .filling then .running else x.state, score := score, arm := arm,
          settle := min 8 (x.settle + 1), assembled := min 65535 (x.assembled + 1), last := some (l, statusOf groups) } ∧
        recordOfCtx recs c = some {
          ctx := c, lane := e.lane, cls := e.cls, frame := l, status := statusOf groups, payload := payloadOf groups e.trim,
          missing := missing, lostGroups := lost, mismatchGroups := mismatch, groups := groups.length, score := score,
          arm := arm, crossing := if rises then .rise else if falls then .fall else .none }) ∧
  (∀ (s : State) (x : LaneContext) (l : Count) (k : Nat), tileAt s x l k =
    match x.columns[k]? with
    | some column =>
      let cell := s.store.cells.read (8 * column + l.toNat % 8)
      let inTime : Bool := match x.state, x.shape, x.drainEnd with
        | .draining, some e, some d => decide (patternValue s e.profile k < distance (d + 1) l)
        | _, _, _ => true
      if cell.tag = some l ∧ cell.erased = false ∧ inTime = true then some cell.payload else none
    | none => none) ∧
  (∀ groups : List (GroupResult × List DataTile),
    statusOf groups = (if ∀ g ∈ groups, g.1 = .clean then .clean
      else if ∀ g ∈ groups, g.1 = .clean ∨ g.1 = .repaired then .repaired
      else if ∀ g ∈ groups, ∀ t ∈ g.2, t = .filled then .lost else .damaged) ∧
    ∀ trim, let bytes := groups.flatMap fun g => g.2.flatMap DataTile.bytes
      payloadOf groups trim = bytes.take (bytes.length - trim)) ∧
  (∀ (recs : List LaneRecord) (s : State), handOver recs s = [4, 0, 1, 2, 3].foldl (handleSlot recs) s ∧ ∀ i : Fin 5,
    ((s.slot i).state ≠ .opening → (s.slot i).state ≠ .delivering → handleSlot recs s i = s) ∧
    (((s.slot i).state = .opening ∨ (s.slot i).state = .delivering) → slotKind (promote i (stateCheck i s)) i = none →
      handleSlot recs s i = promote i (stateCheck i s)) ∧
    (∀ k, ((s.slot i).state = .opening ∨ (s.slot i).state = .delivering) →
      let t := promote i (stateCheck i s)
      let x := t.slot i
      let d := if x.state = .delivering ∧ k = .audio then qualityDecision i t recs x else (x, [])
      let v := t.setSlot i d.1
      slotKind t i = some k → handleSlot recs s i = queueSlot i recs
        (match qualityAttention recs d.1 k d.2 with | some q => raise (.quality i q) v | none => v)) ∧
    (let served (y : Slot) (r : RoleIx) : Prop :=
        (∃ c, (y.roleRef r).ref = .context c ∧ (s.ctx c).receiving = true) ∨ (y.roleRef r).outgoing ≠ []
      ∀ y, ((s.slot i).source = .twin → ¬served (s.slot i) 1 → y = { s.slot i with source := .primary, dwell := 0 }) →
        ((s.slot i).source = .primary ∨ served (s.slot i) 1 → y = s.slot i) →
        ((s.slot i).state ≠ .delivering ∨ slotKind s i = none → stateCheck i s = s.setSlot i y) ∧
        ∀ k, (s.slot i).state = .delivering → slotKind s i = some k →
          (¬served y (deliveringRole k y.source) →
            stateCheck i s = raise (.selection i .opening) (s.setSlot i { y with state := .opening })) ∧
          (served y (deliveringRole k y.source) → stateCheck i s = s.setSlot i y)) ∧
    ((s.slot i).state ≠ .opening → promote i s = s) ∧ (slotKind s i = none → promote i s = s) ∧
    (∀ k, slotKind s i = some k →
      (∀ c, ((s.slot i).roleRef (deliveringRole k (s.slot i).source)).ref ≠ .context c) → promote i s = s) ∧
    ∀ k c, (s.slot i).state = .opening → slotKind s i = some k →
      ((s.slot i).roleRef (deliveringRole k (s.slot i).source)).ref = .context c →
      let u := raise (.selection i .delivering) (s.updSlot i fun x => { x with state := .delivering })
      ((s.ctx c).state = .running → promote i s = if i = 4 then beginTakeover u else u) ∧
      ((s.ctx c).state ≠ .running → promote i s = s)) ∧
  (∀ s : State, retryPass s = ([4, 0, 1, 2, 3] : List (Fin 5)).foldl (fun v i =>
    if (v.slot i).state = .suspended then retryRoom i v else retryDeferred i v) s) ∧
  (∀ (s : State) (c : Fin 16),
    let refers (i : Fin 5) : Prop := ∃ r : RoleIx, ((s.slot i).roleRef r).ref = .context c ∨ c ∈ ((s.slot i).roleRef r).outgoing
    (∀ i, refers i → (∀ j, j < i → ¬refers j) → governing s c = ((s.slot i).thHi, (s.slot i).thLo)) ∧
    ((∀ i, ¬refers i) → governing s c = (1536, 512))) ∧
  (∀ x : LaneContext, x.usable = true ↔ x.state = .running ∧ x.settle = 8 ∧ x.arm = .high) ∧
  ((∀ source, deliveringRole .dataOnly source = 2) ∧ deliveringRole .audio .primary = 0 ∧ deliveringRole .audio .twin = 1 ∧
    ∀ (s : State) (i : Fin 5), slotKind s i = ((s.slot i).service.bind (activeService s)).map fun e => e.kind) ∧
  (∀ (recs : List LaneRecord) (x : Slot) (r : RoleIx),
    let y := x.roleRef r
    let assembled (c : Fin 16) : Prop := ∃ q ∈ recs, q.ctx = c
    (∀ sooner c later, y.outgoing = sooner ++ c :: later → assembled c → (∀ d ∈ sooner, ¬assembled d) →
      servingCtx recs x r = some c) ∧
    ((∀ d ∈ y.outgoing, ¬assembled d) → servingCtx recs x r = match y.ref with | .context c => some c | _ => none) ∧
    servingRecord recs x r = (servingCtx recs x r).bind (fun c => recs.find? fun q => q.ctx == c) ∧
    ∀ s : State, servingArm s recs x r = (servingCtx recs x r).map fun c => (s.ctx c).arm) ∧
  (∀ (i : Fin 5) (s : State) (recs : List LaneRecord) (x : Slot),
    let own (y : Slot) := servingArm s recs y (if y.source = .primary then 0 else 1)
    let switches := i ≠ 4 ∧ x.source = .primary ∧ servingArm s recs x 0 = some .low ∧ x.riseMask.getLsbD 1 = true ∧
      (∃ c, (x.roleRef 1).ref = .context c ∧ (s.ctx c).usable = true) ∧ 16 ≤ x.dwell
    let x1 := if switches then { x with source := .twin, dwell := 0 } else x
    let mutes := ¬switches ∧ own x1 = some .low ∧ x1.riseMask.getLsbD 2 = true ∧ x1.muted = false
    let x2 := if mutes then { x1 with muted := true } else x1
    let restores := i ≠ 4 ∧ x2.source = .twin ∧ (∃ c, servingCtx recs x2 0 = some c ∧ (s.ctx c).state = .running ∧
      (s.ctx c).arm = .high) ∧ x2.fallMask.getLsbD 1 = true ∧ 16 ≤ x2.dwell
    let x3 := if restores then { x2 with source := .primary, dwell := 0 } else x2
    let unmutes := x3.muted = true ∧ own x3 = some .high ∧ x3.fallMask.getLsbD 2 = true
    qualityDecision i s recs x = (if unmutes then { x3 with muted := false } else x3,
      (if switches then [.switch] else []) ++ (if mutes then [.mute] else []) ++ (if restores then [.restore] else []) ++
        if unmutes then [.unmute] else [])) ∧
  (∀ (recs : List LaneRecord) (x : Slot) (k : ServiceKind) (actions : List QualityDetail),
    let crossing (r : RoleIx) : Crossing := match servingRecord recs x r with | some q => q.crossing | none => .none
    let first := crossing (if k = .dataOnly then 2 else 0)
    let second := if k = .audio ∧ x.source = .twin then crossing 1 else .none
    let raises (c : Crossing) := (c = .rise ∧ x.riseMask.getLsbD 0 = true) ∨ (c = .fall ∧ x.fallMask.getLsbD 0 = true)
    (¬(raises first ∨ raises second) → qualityAttention recs x k actions = none) ∧
    (raises first ∨ raises second → qualityAttention recs x k actions =
      match actions, first, second with
      | action :: _, _, _ => some action
      | [], .rise, _ => some .rise
      | [], .fall, _ => some .fall
      | [], .none, .rise => some .rise
      | [], .none, .fall => some .fall
      | [], .none, .none => none)) ∧
  (∀ (i : Fin 5) (recs : List LaneRecord) (s : State) (service : Word16), (s.slot i).state = .delivering →
    (s.slot i).service = some service →
    let x := s.slot i
    let audio := servingRecord recs x (if x.source = .primary then 0 else 1)
    let packet (source : FrameSource) (muted : Bool) (r : LaneRecord) : FramePacket :=
      { slot := i, service := service, lane := r.lane, source := source, frame := r.frame,
        status := if muted then .muted else r.status, score := r.score, payload := if muted then [] else r.payload }
    let played := packet (if x.source = .primary then .primary else .twin) x.muted
    let handsData (q : RoleIx) (v : State) :=
      match servingRecord recs x q with
      | some r => joinData (packet .data false r) v
      | none => v
    let rest (v : State) := (handsData 4 (handsData 3 (handsData 2 v))).updSlot i fun y => { y with dwell := min 255 (y.dwell + 1) }
    (audio = none → queueSlot i recs s = rest s) ∧
    ∀ r, audio = some r →
      (x.role = some .foreground → x.overridden = true → queueSlot i recs s = rest s) ∧
      (x.role = some .foreground → x.overridden = false → queueSlot i recs s = rest (joinAudio (played r) s)) ∧
      (x.role = some .background → queueSlot i recs s = rest (joinData (played r) s)) ∧
      (x.role = some .announcement → s.announcer.takeover = .takeover →
        queueSlot i recs s = rest (joinAudio (packet .announcement x.muted r) s)) ∧
      (x.role = some .announcement → s.announcer.takeover ≠ .takeover → queueSlot i recs s = rest s)) ∧
  ∀ (p : FramePacket) (s : State),
    joinAudio p s = (if s.link.audio.length < 6 then s.updLink fun l => { l with audio := l.audio ++ [p] }
      else raise (.overrun .audio) (s.updLink fun l => { l with audio := l.audio.tail ++ [p] })) ∧
    joinData p s = if s.link.data.length < 12 then s.updLink fun l => { l with data := l.data ++ [p] }
      else raise (.overrun .data) s

/-- A tick of the running timer adds 1 to the age of every ON entry and turns OFF those that reach 64. In HOLDOVER the frame after
the last closed one then closes virtually and the holdover count rises by 1; at the limit the port enters LOST, the slots in
OPENING or DELIVERING become SUSPENDED with cause LOST, and SYNC-CHANGE LOST is raised. A stopped timer does not tick. The order of
the ageing and the virtual close (log 8), and the fields a slot keeps when it is suspended (log 14), are the model's reading. -/
def Obligations.TickAgesAndCloses : Prop :=
  (∀ s : State, ∀ k : Fin 8, (ageTable s).directory.table[k] =
    if (s.directory.table[k]).on then { s.directory.table[k] with age := (s.directory.table[k]).age + 1 }
    else s.directory.table[k]) ∧
  (∀ s : State, ∀ k : Fin 8, (expireTable s).directory.table[k] =
    if (s.directory.table[k]).on = true ∧ 64 ≤ (s.directory.table[k]).age then
      { s.directory.table[k] with on := false, age := 0 }
    else s.directory.table[k]) ∧
  (∀ (s : State) (i : Fin 5), (suspendLost s).slot i =
    if (s.slot i).state = .opening ∨ (s.slot i).state = .delivering then
      { s.slot i with state := .suspended, cause := some .lost }
    else s.slot i) ∧
  ∀ s : State, s.running = true →
    let u := expireTable (ageTable s)
    let v := (frameClose (s.intake.lastClosed + 1) u).updIntake fun p => { p with holdoverCount := p.holdoverCount + 1 }
    (s.intake.timerRunning = false → exec .tick s = .next (endEvent s s)) ∧
    (s.intake.timerRunning = true → s.intake.state ≠ .holdover → exec .tick s = .next (endEvent s u)) ∧
    (s.intake.timerRunning = true → s.intake.state = .holdover →
      (s.intake.holdoverCount + 1 < s.intake.holdoverLimit → exec .tick s = .next (endEvent s v)) ∧
      (s.intake.holdoverLimit ≤ s.intake.holdoverCount + 1 → exec .tick s = .next (endEvent s
        (raise (.syncChange .lost) (suspendLost (v.updIntake fun p => { p with state := .lost }))))) ∧
      ∃ t, exec .tick s = .next t ∧ t.intake = { s.intake with
        lastClosed := s.intake.lastClosed + 1, holdoverCount := s.intake.holdoverCount + 1,
        state := if s.intake.holdoverLimit ≤ s.intake.holdoverCount + 1 then .lost else .holdover })

/-- HOLDOVER_LIMIT_REACHED: in HOLDOVER with the count at or above the limit the port enters LOST, the slots in OPENING or
DELIVERING become SUSPENDED with cause LOST and keep the rest, and SYNC-CHANGE LOST is raised; otherwise nothing. That the row
acts apart from a tick, and does nothing otherwise, is the model's choice (log 2), and the fields kept its reading (log 14). -/
def Obligations.HoldoverLimitEntersLost : Prop :=
  ∀ s : State, s.running = true →
    (s.intake.state = .holdover → s.intake.holdoverLimit ≤ s.intake.holdoverCount →
      ∃ u, exec .holdoverLimitReached s = .next (endEvent s u) ∧ u.intake = { s.intake with state := .lost } ∧
        (∀ i : Fin 5, u.slot i =
          if (s.slot i).state = .opening ∨ (s.slot i).state = .delivering then
            { s.slot i with state := .suspended, cause := some .lost }
          else s.slot i) ∧
        u.link.causes[(2 : Fin 9)] = { pending := true, detail := some (.syncChange .lost) } ∧
        u = { s with intake := u.intake, slots := u.slots, link := { s.link with causes := u.link.causes } }) ∧
    (¬(s.intake.state = .holdover ∧ s.intake.holdoverLimit ≤ s.intake.holdoverCount) →
      exec .holdoverLimitReached s = .next (endEvent s s))

/-- A TILE in order in a good frame raises the lowest acceptable position and is written, with its lane frame as tag, to the
cell of its context, tile index and row, unless the index, the context or the tag refuses it; any other TILE is ignored. The lane frame
is the carrier frame less entry k mod 8 of the context's profile; a RUNNING context admits every lane frame, a FILLING one those at or
ahead of its first, and no other context any. -/
def Obligations.TilePlacement : Prop :=
  (∀ (s : State) (p k : Nat) (h : p < 4), patternValue s p k = ((s.store.profiles[p])[k % 8]?).getD 0) ∧
  (∀ (x : LaneContext) (l : Count), admits x l = true ↔
    x.state = .running ∨ (x.state = .filling ∧ ∃ l0, x.first = some l0 ∧ (l - l0).toNat ≤ 2047)) ∧
  (∀ (s : State) (t : Nat),
    (∀ e, indexAt s t = some e → e ∈ s.laneMap.index ∧ e.position = t) ∧
    (indexAt s t = none ↔ ∀ e ∈ s.laneMap.index, e.position ≠ t)) ∧
  ∀ (erasure : Bool) (reserved : BitVec 5) (position : BitVec 10) (payload : Bytes30) (check : Word16) (s : State),
    s.running = true →
    let c := Instr.tile erasure reserved position payload check
    let u := s.updIntake fun p => { p with cellRx := .idle }
    (∀ f, s.intake.openFrame = some f → f.stale = false → f.suspended = false → f.lowest ≤ position.toNat →
      position.toNat ≤ 575 →
      let v := u.updIntake fun p => { p with openFrame := some { f with lowest := position.toNat + 1 } }
      (indexAt s position.toNat = none → exec c s = .next (endEvent s v)) ∧
      ∀ e lane column, indexAt s position.toNat = some e → (s.ctx e.ctx).shape = some lane →
        (s.ctx e.ctx).columns[e.tile]? = some column →
        let l := f.count - BitVec.ofNat 12 (patternValue s lane.profile e.tile)
        let a := cellAddress column (rowOf l)
        (admits (s.ctx e.ctx) l = true → (s.store.cells.read a).tag ≠ some l →
          exec c s = .next (endEvent s (v.updStore fun d =>
            { d with
              cells := d.cells.write a
                { payload := payload, tag := some l, erased := erasure || crc (bytes30 payload) != check } }))) ∧
        (admits (s.ctx e.ctx) l = false ∨ (s.store.cells.read a).tag = some l → exec c s = .next (endEvent s v))) ∧
    ((∀ f, s.intake.openFrame = some f → f.stale = true ∨ f.suspended = true ∨ position.toNat < f.lowest ∨
      575 < position.toNat) → exec c s = .next (endEvent s u))

/-- A DIR cell that passes its check in a good frame is taken record by record; an index above 3, a failed check, a stale or
suspended frame and an empty record leave everything as it is. An ALARM ON record is refreshed or committed at its first sighting, and
a label segment is stored in every buffer that follows its service, in ascending slot order, the model's choice (log 28), each
buffer completing on it. A new candidate joins the tail, and a full list first drops its oldest; a refresh sets the age of an
ANNOUNCE ON entry to 0 and nothing else. -/
def Obligations.DirCellIsSightedRecordByRecord : Prop :=
  (∀ (index : Byte) (block : Bytes30) (check : Word16) (s : State), s.running = true →
    let c := Instr.dir index block check
    let u := s.updIntake fun p => { p with cellRx := .idle }
    let good := (∃ f, s.intake.openFrame = some f ∧ f.stale = false ∧ f.suspended = false) ∧ crc (bytes30 block) = check
    (good → index.toNat ≤ 3 →
      exec c s = .next (endEvent s ((parseBlock (bytes30 block)).foldl (fun s r => sighting r s) u))) ∧
    (good → 3 < index.toNat → exec c s = .next (endEvent s u)) ∧ (¬good → exec c s = .next (endEvent s u))) ∧
  (∀ (target : Word16) (s : State),
    let r := Record.announce 0 1 target
    let without := s.updDirectory fun d => { d with candidates := d.candidates.filter fun c => !sameKey c r }
    let entry := s.directory.table[(0 : Fin 8)]
    (entry.on = true ∧ entry.target = some target → sighting r s = refresh r without) ∧
    (¬(entry.on = true ∧ entry.target = some target) → sighting r s = commitRecord r without)) ∧
  (∀ (service : Word16) (toggle index count : Nat) (text : List Byte) (s : State) (h : index < 8),
    let empty : Vector (Option (List Byte)) 8 := Vector.replicate 8 none
    let readied (b : LabelBuffer) : LabelBuffer :=
      if toggle ≠ b.toggle then { b with toggle := toggle, segments := empty, count := some count }
      else if b.count ≠ some count then { b with segments := empty, count := some count }
      else b
    let stored (b : LabelBuffer) : LabelBuffer :=
      { readied b with segments := (readied b).segments.set index (some text) }
    sighting (.labelSegment service toggle index count text) s = ([0, 1, 2, 3, 4] : List (Fin 5)).foldl (fun v i =>
      if followedService v i = some service then
        completeLabel i (v.updDirectory fun d => { d with labels := d.labels.set i (stored (label v i)) })
      else v) s) ∧
  (∀ (r : Record) (s : State),
    (s.directory.candidates.length < 16 →
      addCandidate r s = s.updDirectory fun d => { d with candidates := d.candidates ++ [r] }) ∧
    (16 ≤ s.directory.candidates.length →
      addCandidate r s = s.updDirectory fun d => { d with candidates := d.candidates.tail ++ [r] }) ∧
    ((∀ t target, r ≠ .announce t 1 target) → refresh r s = s)) ∧
  ∀ (t : Fin 8) (target : Word16) (s : State), refresh (.announce t.val 1 target) s =
    s.updDirectory fun d => { d with table := d.table.set t { s.directory.table[t] with age := 0 } }

/-- A cell of unknown kind, and a cell cut short, change nothing but the receiver of intake cells. -/
def Obligations.UnknownCellIsIgnored : Prop :=
  ∀ (kind : Byte) (rest : List Byte) (s : State), s.running = true →
    (cellLength kind = none →
      exec (.unknownCell kind rest) s = .next (s.updIntake fun p => { p with cellRx := .skipping })) ∧
    ∀ n, cellLength kind = some n → rest.length + 1 < n →
      exec (.unknownCell kind rest) s = .next (s.updIntake fun p => { p with cellRx := .taking (kind :: rest) })

/-! ### The Directory Acquirer and the Lane Map -/

/-- The two-sighting rule, case by case. -/
def Obligations.SightingNeedsTwoInARow : Prop :=
  ∀ (r : Record) (s : State), (∀ v g k n x, r ≠ .labelSegment v g k n x) → (∀ v, r ≠ .announce 0 1 v) →
    let without := s.updDirectory fun d => { d with candidates := d.candidates.filter fun c => !sameKey c r }
    (equalsCommitted s r = true → sighting r s = refresh r without) ∧
    (equalsCommitted s r = false →
      (candidateOf s r = some r → sighting r s = commitRecord r without) ∧
      (∀ c, candidateOf s r = some c → c ≠ r → sighting r s = addCandidate r without) ∧
      (candidateOf s r = none → sighting r s = addCandidate r s))

/-- RECORD_CONFIRMED commits a record that waits as a candidate and is not committed yet; any other changes nothing, and that the
row acts by itself is the model's choice (log 2). A LANE, SERVICE, SERVICE-LABEL, IDENT or CHANGE commit goes to the bank of its
serial and the flags are evaluated afresh; in the active bank it may be a correction, or let WAITING slots open. An ANNOUNCE
commit turns its entry ON or OFF and reports the end and the onset. The order inside a correction of LAYOUT attention, the slots
that open and the check of what is held is the model's reading (log 13). -/
def Obligations.RecordConfirmedCommits : Prop :=
  (∀ s : State, s.running = true →
    let without (r : Record) := s.updDirectory fun d => { d with candidates := d.candidates.filter fun c => !sameKey c r }
    (∀ r, candidateOf s r = some r → equalsCommitted s r = false →
      exec (.recordConfirmed r) s = .next (endEvent s (commitRecord r (without r)))) ∧
    (∀ r, (candidateOf s r ≠ some r ∨ equalsCommitted s r = true) → exec (.recordConfirmed r) s = .next (endEvent s s)) ∧
    ∀ v identity lanes services name, s.laneMap.active.serial = some v →
      candidateOf s (.ident v identity lanes services name) = some (.ident v identity lanes services name) →
      s.laneMap.active.ident ≠ some { identity := identity, lanes := lanes, services := services, name := name } →
      let b := { s.laneMap.active with
        ident := some { identity := identity, lanes := lanes, services := services, name := name } }
      exec (.recordConfirmed (.ident v identity lanes services name)) s = .next (endEvent s
        ((without (.ident v identity lanes services name)).updLaneMap fun m =>
          { m with active := b, complete := bankComplete m.identity b, ready := bankReady m.pending }))) ∧
  (∀ (v : Nat) (s : State),
    (∀ x start n profile g trim cls, commitRecord (.lane x start n profile g trim cls v) s = placeCommit v (commitLane
      { lane := x, start := start, n := n, profile := profile, g := g, trim := trim,
        cls := if cls = 1 then .audio else .data }) s) ∧
    (∀ x kind primary twin data support, commitRecord (.service x v kind primary twin data support) s = placeCommit v (commitService
      { service := x, kind := if kind = 1 then .audio else .dataOnly, primary := primary, twin := twin, data := data,
        support := support, label := none }) s) ∧
    (∀ x text, commitRecord (.serviceLabel x v text) s = placeCommit v (commitServiceLabel x text) s) ∧
    (∀ identity lanes services name, commitRecord (.ident v identity lanes services name) s = placeCommit v (commitIdent
      { identity := identity, lanes := lanes, services := services, name := name }) s) ∧
    ∀ frame lanes services, commitRecord (.change v frame lanes services) s = placeCommit v (commitChange
      { lanes := lanes, services := services, frame := frame }) s) ∧
  (∀ (v : Nat) (f : Bank → BankCommit) (s : State),
    let m := s.laneMap
    let c := f m.active
    let w := s.updLaneMap fun m =>
      { m with active := c.bank, complete := bankComplete m.identity c.bank, ready := bankReady m.pending }
    let changeFrame : Count := match s.intake.openFrame with
      | some o => if o.stale then s.intake.lastClosed + 1 else o.count
      | none => s.intake.lastClosed + 1
    (m.active.serial = some v →
      (c.correction = true → placeCommit v f s = checkHeld (openWaitingSlots (raise (.layout .corrected)
        (rebuildIndex (reResolve changeFrame (laneOutcomes changeFrame w)))))) ∧
      (c.correction = false → c.added = true → placeCommit v f s = openWaitingSlots w) ∧
      (c.correction = false → c.added = false → placeCommit v f s = w)) ∧
    (m.active.serial ≠ some v →
      let received := if m.pending.serial = none ∨ m.pending.serial = some v then { m.pending with serial := some v }
        else { Bank.empty with serial := some v }
      placeCommit v f s = s.updLaneMap fun m =>
        { m with
          pending := (f received).bank, complete := bankComplete m.identity m.active, ready := bankReady (f received).bank })) ∧
  ∀ (t : Fin 8) (target : Word16) (s : State),
    let e := s.directory.table[t]
    let with' (n : AnnEntry) (v : State) := v.updDirectory fun d => { d with table := d.table.set t n }
    let on : AnnEntry := { on := true, target := some target, age := 0 }
    let replaced := onset t target (with' on (annEnd t e.target .replaced s))
    (e.on = true → e.target = some target → commitRecord (.announce t.val 1 target) s = s) ∧
    (e.on = true → e.target ≠ some target → commitRecord (.announce t.val 1 target) s =
      if replaced.announcer.takeover = .idle then reopenRecord replaced else replaced) ∧
    (e.on = false → commitRecord (.announce t.val 1 target) s = onset t target (with' on s)) ∧
    (e.on = true → e.target = some target → commitRecord (.announce t.val 0 target) s =
      annEnd t (some target) .off (with' { e with on := false, age := 0 } s)) ∧
    (¬(e.on = true ∧ e.target = some target) → commitRecord (.announce t.val 0 target) s = s) ∧
    ∀ (held : Option Word16) (cause : EndCause), annEnd t held cause s =
      if s.announcer.heldType = some t ∧ s.announcer.heldTarget = held ∧ s.announcer.takeover ≠ .idle then
        returnHeld (decide (cause = .replaced)) s
      else s

/-- A LANE commit gives its lane exactly the record's entry, and another lane keeps its entry just when the ranges share no
position; it is a correction when it removes an entry or replaces one with different content. A SERVICE commit sets its entry and keeps
the static label, and is a correction when the content differs; a new one past 32 sets OVERFULL instead. A SERVICE-LABEL commit fills the label of an
entry there is; IDENT and CHANGE commits fill their contents. -/
def Obligations.LaneCommitRemovesOverlaps : Prop :=
  (∀ (e : LaneEntry) (b : Bank), b.lanesApart →
    (commitLane e b).bank.lane? e.lane = some e ∧
    (∀ x, x ≠ e.lane → (commitLane e b).bank.lane? x = (b.lane? x).filter fun o => !o.overlaps e) ∧
    (commitLane e b).bank.lanesApart ∧ (commitLane e b).bank.services = b.services ∧
    (commitLane e b).bank.serial = b.serial ∧
    ((commitLane e b).correction = true ↔
      (∃ o ∈ b.lanes, o.lane ≠ e.lane ∧ o.overlaps e = true) ∨ ∃ o, b.lane? e.lane = some o ∧ o ≠ e) ∧
    ((commitLane e b).added = true ↔ b.lane? e.lane = none)) ∧
  (∀ (e : ServiceEntry) (b : Bank),
    let c := commitService e b
    (∀ old, b.service? e.service = some old →
      let new := { e with label := old.label }
      c.bank.service? e.service = some new ∧ (∀ v, v ≠ e.service → c.bank.service? v = b.service? v) ∧
        c.bank = { b with services := c.bank.services } ∧ (c.correction = true ↔ old ≠ new) ∧ c.added = false) ∧
    (b.service? e.service = none → b.services.length < 32 →
      c.bank.service? e.service = some { e with label := none } ∧ (∀ v, v ≠ e.service → c.bank.service? v = b.service? v) ∧
        c.bank = { b with services := c.bank.services } ∧ c.correction = false ∧ c.added = true) ∧
    (b.service? e.service = none → 32 ≤ b.services.length →
      c = { bank := { b with overfull := true }, correction := false, added := false })) ∧
  ∀ b : Bank,
    (∀ (v : Word16) (text : List Byte),
      let c := commitServiceLabel v text b
      (∀ old, b.service? v = some old →
        c.bank.service? v = some { old with label := some text } ∧ (∀ w, w ≠ v → c.bank.service? w = b.service? w) ∧
          c.bank = { b with services := c.bank.services } ∧ c.correction = false ∧ c.added = false) ∧
      (b.service? v = none → c = { bank := b, correction := false, added := false })) ∧
    (∀ x, commitIdent x b = { bank := { b with ident := some x }, correction := false, added := false }) ∧
    ∀ x, commitChange x b = { bank := { b with change := some x }, correction := false, added := false }

/-- ANNOUNCEMENT_EXPIRY turns OFF, with age 0 and its target kept, every ON entry whose age has reached 64, and no other, and
reports their ends with cause EXPIRY in rising order of type: the end of what is held returns it, and any other end does nothing. That
the row acts apart from a tick, on whatever table it finds, is the model's choice (log 2). -/
def Obligations.AnnouncementExpiryTurnsOff : Prop :=
  ∀ s : State, s.running = true → ∃ u, exec .announcementExpiry s = .next (endEvent s u) ∧
    (∀ k : Fin 8, u.directory.table[k] =
      if (s.directory.table[k]).on = true ∧ 64 ≤ (s.directory.table[k]).age then
        { s.directory.table[k] with on := false, age := 0 }
      else s.directory.table[k]) ∧
    u.directory.candidates = s.directory.candidates ∧ u.intake = s.intake ∧ u = expireTable s ∧
    u = ([0, 1, 2, 3, 4, 5, 6, 7] : List (Fin 8)).foldl (fun v t =>
      let e := v.directory.table[t]
      if e.on = true ∧ 64 ≤ e.age then
        annEnd t e.target .expiry (v.updDirectory fun d => { d with table := d.table.set t { e with on := false, age := 0 } })
      else v) s ∧
    (∀ (t : Fin 8) (target : Option Word16) (v : State), annEnd t target .expiry v =
      if v.announcer.heldType = some t ∧ v.announcer.heldTarget = target ∧ v.announcer.takeover ≠ .idle then returnHeld false v
      else v) ∧
    ((∀ k : Fin 8, (s.directory.table[k]).on = true → (s.directory.table[k]).age < 64) → u = s)

/-- A buffer is complete when every segment below its count is present, and their texts joined are its candidate label.
LABEL_COMPLETE shows the candidate label of every complete buffer and empties its present set; a buffer whose label differs from the
visible one raises LABEL attention and, where it alone is complete, its LABEL packet joins the queue; a full queue first gives up its
oldest packet with OVERRUN LABEL. Where every complete buffer repeats its visible label nothing is queued and nothing is raised. That
the row acts apart from the segment that completes a label is the model's choice (log 2). -/
def Obligations.LabelCompletesWhenEverySegmentIsPresent : Prop :=
  (∀ (b : LabelBuffer) (text : List Byte), b.candidate = some text ↔ ∃ n, b.count = some n ∧
    (∀ t ∈ b.segments.toList.take n, t ≠ none) ∧ text = (b.segments.toList.take n).flatMap fun t => t.getD []) ∧
  ∀ s : State, s.running = true → ∃ u, exec .labelComplete s = .next (endEvent s u) ∧
    (∀ i : Fin 5, label u i =
      match (label s i).candidate, followedService s i with
      | some text, some _ => { label s i with segments := Vector.replicate 8 none, visible := some text }
      | _, _ => label s i) ∧
    u.directory.candidates = s.directory.candidates ∧ u.directory.table = s.directory.table ∧ u.intake = s.intake ∧
    (∀ i text service, (label s i).candidate = some text → followedService s i = some service →
      (label s i).visible ≠ some text → (∀ j, j ≠ i → (label s j).candidate = none) →
      u.link.labels = (if s.link.labels.length < 2 then s.link.labels else s.link.labels.tail) ++
        [{ slot := i, service := service, text := text }] ∧
      (2 ≤ s.link.labels.length → u.link.causes[(7 : Fin 9)] = { pending := true, detail := some (.overrun .label) }) ∧
      u.link.causes[(8 : Fin 9)] = { pending := true, detail := some (.label i) }) ∧
    ((∀ i text, (label s i).candidate = some text → followedService s i ≠ none → (label s i).visible = some text) →
      u.link = s.link)

/-! ### Assembly -/

/-- The resolution of a group of g data tiles and a parity tile, by the number of its tiles that are not present; the split of a
lane frame into its groups, and the unprotected lane, whose tiles stand alone. -/
def Obligations.GroupResolution : Prop :=
  (∀ (g : Nat) (tiles : List (Option Bytes30)), 1 ≤ g → tiles.length = g + 1 →
    let sum := tiles.foldl (fun acc t => acc ^^^ t.getD 0) 0
    let received := fun t : Option Bytes30 => match t with
      | some p => DataTile.received p
      | none => DataTile.filled
    ((∀ t ∈ tiles, t ≠ none) →
      resolveGroup g tiles = (if sum = 0 then .clean else .mismatch, (tiles.take g).map received)) ∧
    (∀ k, k ≤ g → tiles[k]? = some none → (∀ j, j ≤ g → j ≠ k → tiles[j]? ≠ some none) →
      (resolveGroup g tiles).1 = .repaired ∧
      ∀ j, j < g → (resolveGroup g tiles).2[j]? = some (if j = k then .rebuilt sum else received (tiles[j]?.join))) ∧
    (∀ k j, k < j → j ≤ g → tiles[k]? = some none → tiles[j]? = some none →
      resolveGroup g tiles = (.lost, (tiles.take g).map received))) ∧
  ∀ (n g : Nat) (tiles : List (Option Bytes30)),
    (1 ≤ g → resolveGroups n g tiles =
      (List.range (n / (g + 1))).map fun j => resolveGroup g ((tiles.drop (j * (g + 1))).take (g + 1))) ∧
    resolveGroups n 0 tiles = tiles.map fun t => match t with
      | some p => (.clean, [.received p])
      | none => (.lost, [.filled])

/-- DRAIN_END frees every DRAINING context that has assembled its drain end frame, in ascending order of id, so that the
columns of the highest end on top of the stack; LAYOUT LANE-ENDED is raised if there is one, and the slots are checked. It is the
ending of drains of a frame close. That the row acts apart from one is the model's choice (log 2), and the order in which the slots are
checked too (log 29). -/
def Obligations.DrainEndReleases : Prop :=
  (∀ x : LaneContext, drainDone x = true ↔ x.state = .draining ∧ ∃ d status, x.drainEnd = some d ∧ x.last = some (d, status)) ∧
  (∀ s : State, endDrains s = stateChecks ((List.finRange 16).foldl (fun v c =>
    if drainDone (v.ctx c) = true then raise (.layout .laneEnded) (releaseCtx c v) else v) s)) ∧
  (∀ s : State, stateChecks s = ([4, 0, 1, 2, 3] : List (Fin 5)).foldl (fun v i => stateCheck i v) s) ∧
  ∀ s : State, s.running = true → ∃ u, exec .drainEnd s = .next (endEvent s u) ∧ u = endDrains s ∧
    (∀ c : Fin 16, u.ctx c = if drainDone (s.ctx c) = true then LaneContext.free else s.ctx c) ∧
    u.store.free = ((ctxIds.filter fun c => drainDone (s.ctx c)).reverse.flatMap fun c => (s.ctx c).columns) ++ s.store.free ∧
    ((∃ c : Fin 16, drainDone (s.ctx c) = true) →
      u.link.causes[(4 : Fin 9)] = { pending := true, detail := some (.layout .laneEnded) }) ∧
    u.intake = s.intake ∧ u.announcer = s.announcer ∧ u.laneMap.active = s.laneMap.active ∧ thresholdsKept s u

/-- A request to open a lane context is answered by the first case that applies, and the position index after an opening is the
one built from the active bank and the contexts: the positions of the lane of every FILLING or RUNNING context, tile by tile, and no
other. -/
def Obligations.RequestAnswersFirstCase : Prop :=
  (∀ (b : Bank) (ctxs : Vector LaneContext 16) (p k : Nat) (c : Fin 16),
    ({ position := p, ctx := c, tile := k } : IndexEntry) ∈ builtIndex b ctxs ↔
      ((ctxs[c]).state = .filling ∨ (ctxs[c]).state = .running) ∧
        ∃ held e, (ctxs[c]).shape = some held ∧ b.lane? held.lane = some e ∧ k < e.n ∧ p = e.start + k) ∧
  (∀ (s : State) (x : Nat),
    let holds (c : Fin 16) : Prop := ((s.ctx c).state = .filling ∨ (s.ctx c).state = .running) ∧
      ∃ e, (s.ctx c).shape = some e ∧ e.lane = x
    (∀ c, receivingLane s x = some c ↔ holds c ∧ ∀ d, d < c → ¬holds d) ∧
    ∀ c, freeCtx s = some c ↔ (s.ctx c).state = .free ∧ ∀ d, d < c → (s.ctx d).state ≠ .free) ∧
  ∀ (x : Nat) (first : Count) (s : State),
    (∀ c, receivingLane s x = some c →
      requestCtx x first s = (.shared c, s.setCtx c { s.ctx c with refs := (s.ctx c).refs + 1 })) ∧
    (receivingLane s x = none →
      (s.laneMap.active.lane? x = none → requestCtx x first s = (.noEntry, s)) ∧
      ∀ e, s.laneMap.active.lane? x = some e →
        (freeCtx s = none → requestCtx x first s = (.noContext, s)) ∧
        ∀ c, freeCtx s = some c →
          (s.store.free.length < e.n → requestCtx x first s = (.noColumns, s)) ∧
          (e.n ≤ s.store.free.length → ∃ u, requestCtx x first s = (.opened c, u) ∧
            u.ctx c = { LaneContext.free with
              state := .filling, shape := some e, columns := s.store.free.take e.n, first := some first, refs := 1 } ∧
            (∀ d, d ≠ c → u.ctx d = s.ctx d) ∧ u.store = { s.store with free := s.store.free.drop e.n } ∧
            u.laneMap = { s.laneMap with index := builtIndex s.laneMap.active u.contexts } ∧
            u = { s with contexts := u.contexts, store := u.store, laneMap := u.laneMap }))

/-- DEFERRED_RETRY takes the slots 4, 0, 1, 2, 3 and their roles in order, as a frame close does for the slots that are not
SUSPENDED, each DEFERRED role requesting its lane with the count after the last close. Where one role alone is DEFERRED it takes the
context that the request answers, and a refusal changes nothing; where no role is DEFERRED nothing changes. That the row acts apart from a frame close is
the model's choice (log 2). -/
def Obligations.DeferredRoleIsRetried : Prop :=
  (∀ s : State, s.running = true → exec .deferredRetry s =
    .next (endEvent s (([4, 0, 1, 2, 3] : List (Fin 5)).foldl (fun v i => retryDeferred i v) s))) ∧
  (∀ (i : Fin 5) (s : State),
    ((s.slot i).state = .opening ∨ (s.slot i).state = .delivering →
      retryDeferred i s = ([0, 1, 2, 3, 4] : List RoleIx).foldl (retryRole i (s.intake.lastClosed + 1)) s) ∧
    ((s.slot i).state ≠ .opening → (s.slot i).state ≠ .delivering → retryDeferred i s = s)) ∧
  (∀ (i : Fin 5) (first : Count) (s : State) (r : RoleIx),
    ((∀ lane, ((s.slot i).roleRef r).ref ≠ .deferred lane) → retryRole i first s r = s) ∧
    ∀ lane, ((s.slot i).roleRef r).ref = .deferred lane → ∀ a u, requestCtx lane first s = (a, u) → retryRole i first s r =
      match a with
      | .shared c => u.updSlot i fun x => x.setRef r (.context c)
      | .opened c => u.updSlot i fun x => x.setRef r (.context c)
      | _ => s) ∧
  (∀ (i : Fin 5) (r : RoleIx) (lane : Nat) (s : State), s.running = true →
    ((s.slot i).state = .opening ∨ (s.slot i).state = .delivering) → ((s.slot i).roleRef r).ref = .deferred lane →
    (∀ j q x, ((s.slot j).roleRef q).ref = .deferred x → j = i ∧ q = r) →
    let first := s.intake.lastClosed + 1
    (∀ c u, requestCtx lane first s = (.shared c, u) →
      exec .deferredRetry s = .next (endEvent s (u.updSlot i fun x => x.setRef r (.context c)))) ∧
    (∀ c u, requestCtx lane first s = (.opened c, u) →
      exec .deferredRetry s = .next (endEvent s (u.updSlot i fun x => x.setRef r (.context c)))) ∧
    ((∀ c, (requestCtx lane first s).1 ≠ .shared c) → (∀ c, (requestCtx lane first s).1 ≠ .opened c) → exec .deferredRetry s = .next (endEvent s s))) ∧
  ∀ s : State, s.running = true → (∀ j q x, ((s.slot j).roleRef q).ref ≠ .deferred x) →
    exec .deferredRetry s = .next (endEvent s s)

/-! ### Slots that open by themselves -/

/-- ROOM_RETRY takes the slots 4, 0, 1, 2, 3, as a frame close does for the SUSPENDED ones. A slot SUSPENDED with cause ROOM
becomes WAITING when its service is absent, OPENING when its required role fits, its roles referring as a SELECT would have them with the
count after the last close as first lane frame, and stays as it is when not. Any other slot is left. That the row acts apart from a frame close is the model's choice (log 2);
the fields a WAITING slot keeps (log 14), and that a failed retry enters no state (log 23), are its reading. -/
def Obligations.SuspendedForRoomIsRetried : Prop :=
  (∀ s : State, s.running = true → exec .roomRetry s =
    .next (endEvent s (([4, 0, 1, 2, 3] : List (Fin 5)).foldl (fun v i => retryRoom i v) s))) ∧
  (∀ (i : Fin 5) (s : State),
    let room := (s.slot i).state = .suspended ∧ (s.slot i).cause = some .room
    (¬room → retryRoom i s = s) ∧
    (room → (s.slot i).service.bind (activeService s) = none → retryRoom i s = raise (.selection i .waiting) (s.updSlot i fun x =>
      { x with state := .waiting, roles := Vector.replicate 5 RoleRef.none, cause := none, parked := none })) ∧
    (room → ∀ e, (s.slot i).service.bind (activeService s) = some e →
      (serviceFits s e [] = false → retryRoom i s = s) ∧
      (serviceFits s e [] = true →
        openedAs (retryRoom i s) i e.service (s.slot i).role (s.slot i).wantTwin (s.slot i).wantData ∧
        rolesOpened s (retryRoom i s) i e (s.slot i).wantTwin (s.slot i).wantData (s.intake.lastClosed + 1) id ∧
        (∀ j : Fin 5, j ≠ i → (retryRoom i s).slot j = s.slot j) ∧
        (retryRoom i s).link.causes[(5 : Fin 9)] = { pending := true, detail := some (.selection i .opening) }))) ∧
  ∀ (i : Fin 5) (s : State), s.running = true → (s.slot i).state = .suspended → (s.slot i).cause = some .room →
    (∀ j, j ≠ i → ¬((s.slot j).state = .suspended ∧ (s.slot j).cause = some .room)) →
    ((s.slot i).service.bind (activeService s) = none →
      exec .roomRetry s = .next (endEvent s (raise (.selection i .waiting) (s.updSlot i fun x =>
        { x with state := .waiting, roles := Vector.replicate 5 RoleRef.none, cause := none, parked := none })))) ∧
    ∀ e, (s.slot i).service.bind (activeService s) = some e →
      (serviceFits s e [] = false → exec .roomRetry s = .next (endEvent s s)) ∧
      (serviceFits s e [] = true → ∃ u, exec .roomRetry s = .next (endEvent s u) ∧
        openedAs u i e.service (s.slot i).role (s.slot i).wantTwin (s.slot i).wantData ∧
        rolesOpened s u i e (s.slot i).wantTwin (s.slot i).wantData (s.intake.lastClosed + 1) id ∧
        (∀ j, j ≠ i → u.slot j = s.slot j) ∧ selectionFrame s u ∧ u.directory = s.directory ∧
        u.store.cells = s.store.cells ∧ u.link = { s.link with causes := u.link.causes } ∧
        u.link.causes[(5 : Fin 9)] = { pending := true, detail := some (.selection i .opening) })

/-- WAITING_SLOT_OPENS reopens, in ascending slot order, the WAITING host slots whose service the active bank holds. Where one
alone waits it becomes OPENING when its required role fits, its roles referring as a SELECT would have them with the next frame count,
SUSPENDED with cause ROOM when not; where no slot waits for one nothing changes. That the row acts by itself is the model's
choice (log 2), and the fields a SUSPENDED slot keeps its reading (log 14). -/
def Obligations.WaitingSlotOpens : Prop :=
  (∀ s : State, s.running = true → exec .waitingSlotOpens s = .next (endEvent s (openWaitingSlots s))) ∧
  (∀ s : State, openWaitingSlots s = ([0, 1, 2, 3] : List (Fin 5)).foldl (fun v i =>
    if (v.slot i).state = .waiting ∧ (v.slot i).service.bind (activeService v) ≠ none then reopenSlot i v else v) s) ∧
  (∀ (i : Fin 5) (e : ServiceEntry) (s : State), s.running = true → i ≠ 4 → (s.slot i).state = .waiting →
    (s.slot i).service.bind (activeService s) = some e → (∀ j, j ≠ i → (s.slot j).state ≠ .waiting) →
    (serviceFits s e [] = true → ∃ u, exec .waitingSlotOpens s = .next (endEvent s u) ∧
      openedAs u i e.service (s.slot i).role (s.slot i).wantTwin (s.slot i).wantData ∧
      rolesOpened s u i e (s.slot i).wantTwin (s.slot i).wantData (nextFrameCount s) id ∧
      (∀ j, j ≠ i → u.slot j = s.slot j) ∧ selectionFrame s u ∧ u.directory = s.directory ∧
      u.store.cells = s.store.cells ∧ u.link = { s.link with causes := u.link.causes } ∧
      u.link.causes[(5 : Fin 9)] = { pending := true, detail := some (.selection i .opening) }) ∧
    (serviceFits s e [] = false →
      exec .waitingSlotOpens s = .next (endEvent s (raise (.selection i .suspended) (s.updSlot i fun x =>
        { x with
          state := .suspended, roles := Vector.ofFn fun r => { x.roles[r] with ref := .notWanted }, cause := some .room,
          parked := none }))))) ∧
  ∀ s : State, s.running = true →
    (∀ j : Fin 5, j ≠ 4 → (s.slot j).state = .waiting → (s.slot j).service.bind (activeService s) = none) →
    exec .waitingSlotOpens s = .next (endEvent s s)

/-- EARLY_START: with the EARLY latch low and not consumed, in ACTIVE, LOCKED with a COMPLETE active bank, slot 0 EMPTY and no other
slot the foreground, slot 0 opens as the foreground on the AUDIO service of lowest id, its roles referring as a SELECT with want-twin
would have them (what an EMPTY slot still held is given up first, log 9), and the early start is consumed; where the
service does not fit it is consumed alone; otherwise, or without an AUDIO service, nothing changes. The row runs the same early start
as the end of every event. That the entries of the bank
are in order is the law of another statement. That the row acts as a command of its own is the model's choice (log 2), and that a
slot which opens has parked state none its reading (log 14). -/
def Obligations.EarlyStartOpensSlotZero : Prop :=
  ∀ s : State, s.running = true →
    let services := s.laneMap.active.services
    let conditions : Prop := s.earlyLow = true ∧ s.earlyConsumed = false ∧ s.announcer.power = .active ∧
      s.intake.state = .locked ∧ s.laneMap.complete = true ∧ (s.slot 0).state = .empty ∧
      ∀ j : Fin 5, j ≠ 0 → j ≠ 4 → (s.slot j).role ≠ some .foreground
    (∀ e, conditions → s.laneMap.active.servicesOrdered → e ∈ services → e.kind = .audio →
      (∀ x ∈ services, x.kind = .audio → e.service ≤ x.service) →
      (serviceFits s e [] = true → ∃ u, exec .earlyStart s = .next (endEvent s u) ∧
        openedAs u 0 e.service (some .foreground) true false ∧ (u.slot 0).early = true ∧ u.earlyConsumed = true ∧
        rolesOpened { s with earlyConsumed := true } u 0 e true false (nextFrameCount s) (giveUpSlot 0) ∧
        (∀ j, j ≠ 0 → (u.slot j).state = (s.slot j).state) ∧ selectionFrame s u ∧ u.link.answers = s.link.answers ∧
        u.link.causes[(5 : Fin 9)] = { pending := true, detail := some (.selection 0 .opening) }) ∧
      (serviceFits s e [] = false → exec .earlyStart s = .next (endEvent s { s with earlyConsumed := true }))) ∧
    ((¬conditions ∨ ∀ x ∈ services, x.kind ≠ .audio) → exec .earlyStart s = .next (endEvent s s)) ∧
    exec .earlyStart s = .next (endEvent s (Machine.earlyStart s))

/-- TAKEOVER: with the takeover OPENING and slot 4 DELIVERING the takeover begins, the foreground slot is overridden and ANNOUNCE
TAKEOVER is raised; otherwise nothing changes. That the row acts apart from a round is the model's choice (log 2). An onset comes
to be held by the tests of mask, programme, priority and target, and by the steps of the acceptance; in standby it drives WAKE
high, and an alarm restarts the part. An alarm takes lanes of other slots one role at a time until its own fits. That an entry of
the preemption record that becomes whole keeps the roles noted before is the model's choice (log 16). The fields that a slot keeps
when it is preempted, and that a slot which opens has parked state none, are its reading (log 14). -/
def Obligations.TakeoverOverridesForeground : Prop :=
  (∀ s : State, s.running = true →
    let u := s.updAnnouncer fun a => { a with takeover := .takeover }
    (s.announcer.takeover = .opening → (s.slot 4).state = .delivering →
      (∀ f, foreground s = some f → exec .takeover s = .next (endEvent s (raise (.announce .takeover)
        (u.updSlot f fun x => { x with overridden := true })))) ∧
      (foreground s = none → exec .takeover s = .next (endEvent s (raise (.announce .takeover) u)))) ∧
    (¬(s.announcer.takeover = .opening ∧ (s.slot 4).state = .delivering) → exec .takeover s = .next (endEvent s s)) ∧
    exec .takeover s = .next (endEvent s (beginTakeover s))) ∧
  (∀ (t : Fin 8) (target : Word16) (s : State),
    let wakes := s.announcer.wake.getLsbD t.val
    let u := s.updAnnouncer fun a => { a with wakeLine := true }
    (s.announcer.power = .active → onset t target s = testOnset t target false s) ∧
    (s.announcer.power = .standby → wakes = false → onset t target s = s) ∧
    (s.announcer.power = .standby → wakes = true → t ≠ 0 → onset t target s = raise (.announce .wake) u) ∧
    (s.announcer.power = .standby → wakes = true → t = 0 →
      onset t target s = testOnset t target true (warmRestart (raise (.alarmOnset target true) u)))) ∧
  (∀ (t : Fin 8) (target : Word16) (wake : Bool) (s : State),
    let programme := t = 0 ∨ ∃ i : Fin 5, i ≠ 4 ∧ (s.slot i).role = some .foreground ∧
      ((s.slot i).state = .delivering ∨ (s.slot i).overridden = true) ∧
      ∃ e, (s.slot i).service.bind (activeService s) = some e ∧ e.support.getLsbD t.val = true
    let priority := s.announcer.takeover = .idle ∨ ∃ h, s.announcer.heldType = some h ∧ t < h
    let passes := s.announcer.accept.getLsbD t.val = true ∧ programme ∧ priority
    (¬passes → testOnset t target wake s = s) ∧
    (passes → ∀ e, activeService s target = some e → e.kind = .audio → testOnset t target wake s = acceptOnset t e wake s) ∧
    (passes → (∀ e, activeService s target = some e → e.kind ≠ .audio) →
      testOnset t target wake s = raise (.announce .refusedTarget) s)) ∧
  (∀ (t : Fin 8) (e : ServiceEntry) (wake : Bool) (s : State),
    let held (v : State) : State :=
      let w := v.updAnnouncer fun a => { a with
        heldType := some t, heldTarget := some e.service
        anchor := if t = 0 then none else
          (foreground v).bind fun f => (v.slot f).service.map fun x => { slot := f, service := x } }
      if t = 0 then raise (.alarmOnset e.service wake) w else w
    let sameTarget := s.announcer.takeover ≠ .idle ∧ s.announcer.heldTarget = some e.service
    let v := if s.announcer.takeover = .idle then s else returnHeld true s
    let carries := ∃ i : Fin 5, i ≠ 4 ∧ (v.slot i).role = some .foreground ∧ (v.slot i).service = some e.service ∧
      ((v.slot i).state = .opening ∨ (v.slot i).state = .delivering)
    (sameTarget → acceptOnset t e wake s = held s) ∧
    (¬sameTarget → carries → acceptOnset t e wake s = held (raise (.announce .takeover)
      ((emptyLabel 4 v).updAnnouncer fun a => { a with takeover := .inService }))) ∧
    (¬sameTarget → ¬carries → t ≠ 0 → serviceFits v e [] = true → acceptOnset t e wake s = held (openSlotFour e v)) ∧
    (¬sameTarget → ¬carries → t ≠ 0 → serviceFits v e [] = false →
      acceptOnset t e wake s = reopenRecord (raise (.announce .refusedRoom) v)) ∧
    (¬sameTarget → ¬carries → t = 0 → ∀ lane, e.primary = some lane →
      acceptOnset t e wake s = held (openSlotFour e (preemptFor lane v)))) ∧
  (∀ (e : ServiceEntry) (lane : Nat) (s : State), e.kind = .audio → e.primary = some lane →
    let u := openSlotFour e s
    let answer := requestCtx lane (nextFrameCount s) s
    openedAs u 4 e.service (some .announcement) false false ∧ u.announcer = { s.announcer with takeover := .opening } ∧
      ((u.slot 4).roleRef 0).ref =
        (match answer.1 with | .shared c => .context c | .opened c => .context c | _ => .deferred lane) ∧
      u.contexts = answer.2.contexts ∧ u.store = answer.2.store ∧ label u 4 = LabelBuffer.reset ∧
      (∀ j : Fin 5, j ≠ 4 → u.slot j = s.slot j) ∧
      u.link.causes[(5 : Fin 9)] = { pending := true, detail := some (.selection 4 .opening) }) ∧
  (∀ (lane : Nat) (s : State),
    let background := ([3, 2, 1, 0] : List (Fin 5)).filter fun i => (s.slot i).role == some .background
    let order := background.flatMap (fun i => ([(i, 4), (i, 3), (i, 2)] : List (Fin 5 × RoleIx))) ++
      match foreground s with
      | some f => [(f, 4), (f, 3), (f, 2), (f, 1), (f, 0)]
      | none => []
    preemptFor lane s = stateChecks
      (order.foldl (fun v ir => if laneFits v lane [] then v else takeRole ir.1 ir.2 v) s)) ∧
  ∀ (i : Fin 5) (r : RoleIx) (s : State),
    let noted (whole : Bool) : State := s.updAnnouncer fun a =>
      let old := (a.preempted.find? fun p => p.slot == i).getD { slot := i, whole := false, roles := 0 }
      let new : Preempted :=
        { slot := i, whole := old.whole || whole, roles := if whole then old.roles else old.roles ||| (1#5 <<< r.val) }
      { a with preempted := insertPreempted new a.preempted }
    let required := r = 0 ∨ (r = 2 ∧ slotKind s i = some .dataOnly)
    let opens := (s.slot i).state = .opening ∨ (s.slot i).state = .delivering
    (∀ c, opens → ((s.slot i).roleRef r).ref = .context c → (s.ctx c).refs = 1 →
      (required → takeRole i r s = raise (.selection i .suspended) ((dropReferences (s.slot i) (noted true)).updSlot i fun x =>
        { x with
          state := .suspended, cause := some .preempted
          roles := Vector.ofFn fun q => { x.roles[q] with ref := .notWanted } })) ∧
      (¬required → takeRole i r s = (dropRef c (noted false)).updSlot i fun x =>
        { x.setRef r .absent with taken := x.taken ||| (1#5 <<< r.val) })) ∧
    ((¬opens ∨ ∀ c, ((s.slot i).roleRef r).ref = .context c → (s.ctx c).refs ≠ 1) → takeRole i r s = s)

/-! ### Orders -/

/-- Every QUERY answers its subject's data, or BAD-VALUE for an index outside its range, and changes nothing. The data is laid out
as Table 10-6 says, byte by byte (PATTERN: the next statement), absent items as R179 shows them; where R179 names no form a free
value of Config stands (log 7), and that taken bit k stands for data lane k is the model's reading (log 19). -/
def Obligations.QueriesChangeNothing : Prop :=
  (∀ (ref first second : Byte) (s : State), readyForOrder s →
    let answers (subject : Byte) (c : Instr) := exec c s =
      match queryData subject first second s with
      | some data => carriedOut s ref 0x0B .accepted (subject :: data) (heard s)
      | none => carriedOut s ref 0x0B .badValue [] (heard s)
    answers 0 (.queryStatus ref first second) ∧ answers 1 (.queryLaneEntry ref first second) ∧
      answers 2 (.queryServiceEntry ref first second) ∧ answers 3 (.queryContext ref first second) ∧
      answers 4 (.querySelection ref first second) ∧ answers 5 (.queryAnnouncements ref first second) ∧
      answers 6 (.queryPattern ref first second) ∧ answers 7 (.queryLabel ref first second) ∧
      ∀ subject : Byte, 7 < subject.toNat →
        exec (.order [ref, 0x0B, subject, first, second]) s = carriedOut s ref 0x0B .badValue [] (heard s)) ∧
  ∀ (first second : Byte) (s : State),
    let num (n : Nat) : Byte := BitVec.ofNat 8 n
    let word (n : Nat) : List Byte := wordBytes (BitVec.ofNat 16 n)
    let bit (b : Bool) (k : Nat) : Nat := if b then 2 ^ k else 0
    let orFF (o : Option Nat) : Byte := match o with | some n => num n | none => 0xFF
    let orFFFF (o : Option Count) : List Byte := match o with | some c => word c.toNat | none => [0xFF, 0xFF]
    let withPresence (o : Option Word16) : List Byte := match o with | some w => 1 :: wordBytes w | none => [0, 0, 0]
    let text (o : Option (List Byte)) : List Byte := match o with | some x => x | none => List.replicate 16 0
    let changeFrame (b : Bank) : List Byte := match b.change with | some c => word c.frame | none => [0xFF, 0xFF]
    let bankOfCode (b : Bank) : Prop := (first = 0 ∧ b = s.laneMap.active) ∨ (first = 1 ∧ b = s.laneMap.pending)
    (let a := s.laneMap.active
      let p := s.laneMap.pending
      queryData 0 first second s = some (
        [s.announcer.power.code, s.link.resetCause.code, s.intake.state.code, num s.intake.quality.toNat] ++
        word s.intake.lastClosed.toNat ++ [num s.intake.holdoverLimit, num s.intake.holdoverCount,
          num (bit s.laneMap.identity.isSome 0 + bit a.ident.isSome 1 + bit a.change.isSome 2 + bit p.change.isSome 3)] ++
        wordBytes (s.laneMap.identity.getD 0) ++ text (a.ident.map fun c => c.name) ++
        [orFF a.serial, num (bit s.laneMap.complete 0 + bit s.laneMap.stale 1 + bit a.overfull 2), num a.lanes.length,
          num a.services.length] ++ changeFrame a ++
        [orFF p.serial, num (bit s.laneMap.ready 0 + bit p.overfull 2), num p.lanes.length, num p.services.length] ++
        changeFrame p ++ word s.store.free.length ++ [num (ctxIds.filter fun c => (s.ctx c).state == .free).length,
          num (bit s.announcer.lock 0 + bit s.earlyLow 1 + bit s.earlyConsumed 2 + bit (s.slot 0).early 3)])) ∧
    (∀ b, bankOfCode b → second.toNat ≤ 63 → queryData 1 first second s = some ([first, second, orFF b.serial] ++
      match b.lane? second.toNat with
      | some e => [1] ++ word e.start ++ [num e.n, num e.profile, num e.g, num e.trim, e.cls.code]
      | none => [0] ++ wordBytes Config.absentLaneStart ++ [0xFF, 0xFF, 0xFF, 0xFF, 0xFF])) ∧
    (∀ b, bankOfCode b → second.toNat ≤ 31 → queryData 2 first second s = some ([first, second, orFF b.serial] ++
      match b.services[second.toNat]? with
      | some e => [1] ++ wordBytes e.service ++
          [num (64 * e.kind.code + bit e.primary.isSome 5 + bit e.twin.isSome 4 + e.data.length), orFF e.primary, orFF e.twin,
            orFF e.data[0]?, orFF e.data[1]?, orFF e.data[2]?, e.support, num (bit e.label.isSome 0)] ++ text e.label
      | none => [0, 0, 0, Config.absentServiceKind ++ (0 : BitVec 6), 0xFF, 0xFF, 0xFF, 0xFF, 0xFF, Config.absentServiceSupport, 0] ++
          List.replicate 16 0)) ∧
    ((1 < first.toNat ∨ 63 < second.toNat) → queryData 1 first second s = none) ∧
    ((1 < first.toNat ∨ 31 < second.toNat) → queryData 2 first second s = none) ∧
    (∀ c : Fin 16, first.toNat = c.val →
      let x := s.ctx c
      let ofShape (f : LaneEntry → Nat) : Byte := orFF (x.shape.map f)
      queryData 3 first second s = some (
        [first, x.state.code, ofShape LaneEntry.lane, ofShape LaneEntry.n, ofShape LaneEntry.g, ofShape LaneEntry.trim,
          ofShape LaneEntry.profile, (match x.shape with | some e => e.cls.code | none => 0xFF), num x.columns.length] ++
        orFFFF x.first ++ orFFFF x.drainEnd ++ [num x.refs] ++
        (if x.state = .free then [0xFF, 0xFF, Config.absentArmState] else word x.score ++ [x.arm.code]) ++
        [num x.settle] ++ word x.assembled ++
        match x.last with | some (l, status) => word l.toNat ++ [status.code] | none => [0xFF, 0xFF, 0xFF])) ∧
    (15 < first.toNat → queryData 3 first second s = none) ∧
    (∀ i : Fin 5, first.toNat = i.val →
      let x := s.slot i
      let role (r : RoleIx) : List Byte :=
        (match (x.roleRef r).ref with
          | .notWanted => [0, 0xFF, 0xFF]
          | .context c => [1, num c.val, orFF ((s.ctx c).shape.map LaneEntry.lane)]
          | .absent => [2, 0xFF, 0xFF]
          | .deferred lane => [3, 0xFF, num lane]) ++ [orFF ((x.roleRef r).outgoing.getLast?.map Fin.val)]
      queryData 4 first second s = some (
        [first, x.state.code, (match x.role with | some r => r.code | none => Config.noRole)] ++ withPresence x.service ++
        [num (bit x.wantTwin 0 + bit x.wantData 1)] ++ role 0 ++ role 1 ++ role 2 ++ role 3 ++ role 4 ++
        [x.source.code, num (bit x.muted 0 + bit x.overridden 1), num x.dwell] ++ word x.thHi ++ word x.thLo ++
        [num x.riseMask.toNat, num x.fallMask.toNat, causeCode x.cause,
          (match x.parked with | some st => st.code | none => 0xFF), num (bit x.early 0)])) ∧
    (let a := s.announcer
      let entry (t : Fin 8) : List Byte :=
        [num (bit (s.directory.table[t]).on 0)] ++ withPresence (s.directory.table[t]).target ++ [num (s.directory.table[t]).age]
      let taken (q : Preempted) : List Byte := [num q.slot.val, num (bit (q.roles.getLsbD 2) 0 + bit (q.roles.getLsbD 3) 1 +
        bit (q.roles.getLsbD 4) 2 + bit (q.roles.getLsbD 1) 3 + bit q.whole 4)]
      a.preempted.length ≤ 4 → queryData 5 first second s = some (
        entry 0 ++ entry 1 ++ entry 2 ++ entry 3 ++ entry 4 ++ entry 5 ++ entry 6 ++ entry 7 ++
        [a.power.code, a.takeover.code, orFF (a.heldType.map Fin.val)] ++ withPresence a.heldTarget ++
        [orFF (a.anchor.map fun x => x.slot.val)] ++ wordBytes ((a.anchor.map fun x => x.service).getD 0) ++
        [a.accept, a.wake, num (bit a.lock 0)] ++ (a.preempted.map taken).flatten ++
        (List.replicate (4 - a.preempted.length) ([0xFF, 0] : List Byte)).flatten ++
        [num (bit a.anncLine 0 + bit a.wakeLine 1)])) ∧
    (∀ i : Fin 5, first.toNat = i.val →
      let shown := ((label s i).visible).getD []
      queryData 7 first second s = some ([first] ++ withPresence (followedService s i) ++ [num shown.length] ++ shown)) ∧
    (4 < first.toNat → queryData 4 first second s = none ∧ queryData 7 first second s = none)

/-- A QUERY of subject PATTERN answers the eight values of a profile 0 to 3, entry 0 first, and whether it is in use. -/
def Obligations.QueryPatternAnswers : Prop :=
  ∀ (ref number second : Byte) (s : State), readyForOrder s →
    (∀ h : number.toNat < 4, exec (.queryPattern ref number second) s =
      carriedOut s ref 0x0B .accepted
        ([6, number] ++ (s.store.profiles[number.toNat]).map (BitVec.ofNat 8) ++
          [if ∃ c : Fin 16, (s.ctx c).state ≠ .free ∧ (s.ctx c).shape.map LaneEntry.profile = some number.toNat then 1 else 0])
        (heard s)) ∧
    (3 < number.toNat → exec (.queryPattern ref number second) s = carriedOut s ref 0x0B .badValue [] (heard s))

/-- SET_QUALITY clamps its thresholds and replaces those and the masks of a slot 0 to 4, and refuses another slot number;
SET_HOLDOVER replaces the holdover limit, a value of 0 taken as 1. Both answer the values in force. -/
def Obligations.SetQualityAndHoldoverClamp : Prop :=
  (∀ (ref slot : Byte) (thHi thLo : Word16) (rise fall : Byte) (s : State), readyForOrder s →
    let hi := if 4095 < thHi.toNat then 4095 else if thHi.toNat = 0 then 1 else thHi.toNat
    let lo := if hi ≤ thLo.toNat then hi - 1 else thLo.toNat
    (∀ i : Fin 5, slot.toNat = i.val →
      exec (.setQuality ref slot thHi thLo rise fall) s =
        carriedOut s ref 0x03 .accepted
          ([slot] ++ wordBytes (BitVec.ofNat 16 hi) ++ wordBytes (BitVec.ofNat 16 lo) ++ [rise &&& 7, fall &&& 7])
          ((heard s).updSlot i fun x =>
            { x with thHi := hi, thLo := lo, riseMask := rise.setWidth 3, fallMask := fall.setWidth 3 })) ∧
    (4 < slot.toNat → exec (.setQuality ref slot thHi thLo rise fall) s = carriedOut s ref 0x03 .badSlot [] (heard s))) ∧
  ∀ (ref limit : Byte) (s : State), readyForOrder s →
    exec (.setHoldover ref limit) s = carriedOut s ref 0x08 .accepted [if limit = 0 then 1 else limit]
      ((heard s).updIntake fun p => { p with holdoverLimit := if limit = 0 then 1 else limit.toNat })

/-- SET_ANNOUNCE replaces both masks and LOCK_ALARM sets the alarm lock; while the lock is set ALARM stays in both masks. -/
def Obligations.MasksAndAlarmLock : Prop :=
  ∀ (ref accept wake : Byte) (s : State), readyForOrder s →
    (s.announcer.lock = false → exec (.setAnnounce ref accept wake) s = carriedOut s ref 0x04 .accepted [accept, wake]
      ((heard s).updAnnouncer fun a => { a with accept := accept, wake := wake })) ∧
    (s.announcer.lock = true →
      exec (.setAnnounce ref accept wake) s = carriedOut s ref 0x04 .accepted [accept ||| 1, wake ||| 1]
        ((heard s).updAnnouncer fun a => { a with accept := accept ||| 1, wake := wake ||| 1 })) ∧
    exec (.lockAlarm ref) s = carriedOut s ref 0x06 .accepted []
      ((heard s).updAnnouncer fun a => { a with lock := true, accept := a.accept ||| 1, wake := a.wake ||| 1 })

/-- DISMISS, by the first case that applies, and what else ends an announcement. The return empties slot 4, clears every override,
holds nothing, and reopens the preemption record in ascending slot order: a slot still SUSPENDED for it is opened again, and a slot that
was not opened anew since is given its noted roles again. That the record stands in ascending order of slots (log 16), that a role
the slot refers to is left (log 17), that the roles of one slot are requested twin first (log 31), and the fields a reopened slot keeps
(log 14), is the model's. Every event ends with the check of what is held when it changed a host slot, the
early start with that check again, and the levels of the lines (log 22): the announcement returns when its target or its anchor is gone,
and an ALARM held IN-SERVICE without its carrier opens slot 4, when the intake enters LOST, too (log 34), and with no lane to take when its
target has become DATA-ONLY (log 35). -/
def Obligations.DismissByCase : Prop :=
  (∀ (ref : Byte) (s : State), readyForOrder s →
    let held := [byteOr (s.announcer.heldType.map Fin.val)] ++ wordBytes (s.announcer.heldTarget.getD 0)
    (s.announcer.takeover = .idle → exec (.dismiss ref) s = carriedOut s ref 0x05 .notNow [] (heard s)) ∧
    (s.announcer.takeover ≠ .idle → s.announcer.heldType = some 0 → s.announcer.lock = true →
      exec (.dismiss ref) s = carriedOut s ref 0x05 .locked held (heard s)) ∧
    (s.announcer.takeover ≠ .idle → ¬(s.announcer.heldType = some 0 ∧ s.announcer.lock = true) →
      ∃ u, exec (.dismiss ref) s = carriedOut s ref 0x05 .accepted held u ∧
        u.announcer = { s.announcer with
          takeover := .idle, heldType := none, heldTarget := none, anchor := none, preempted := [] } ∧
        (u.slot 4).state = .empty ∧ label u 4 = LabelBuffer.reset ∧ noPacketsOf u 4 ∧
        (∀ i : Fin 5, i ≠ 4 → (u.slot i).overridden = false) ∧ u.link.sending = s.link.sending ∧ u.link.causes[(3 : Fin 9)] = { pending := true, detail := some (.announce .returned) } ∧
        u.directory.table = s.directory.table ∧ u.intake = s.intake ∧ thresholdsKept s u)) ∧
  (∀ (keep : Bool) (s : State), returnHeld keep s = raise (.announce .returned)
    (stateChecks (if keep then endHeld s else reopenRecord (endHeld s)))) ∧
  (∀ s : State,
    let emptied := if (s.slot 4).state = .empty then s
      else raise (.selection 4 .empty) ((dropReferences (s.slot 4) s).updSlot 4 fun x => { Slot.reset (some .announcement) with
        thHi := x.thHi, thLo := x.thLo, riseMask := x.riseMask, fallMask := x.fallMask })
    let u := endHeld s
    u.slot 4 = emptied.slot 4 ∧ (∀ i : Fin 5, i ≠ 4 → u.slot i = { emptied.slot i with overridden := false }) ∧
    u.announcer = { s.announcer with takeover := .idle, heldType := none, heldTarget := none, anchor := none } ∧
    label u 4 = LabelBuffer.reset ∧ (∀ i : Fin 5, i ≠ 4 → label u i = label s i) ∧
    u = { emptied with slots := u.slots, announcer := u.announcer, directory := { s.directory with labels := u.directory.labels } }) ∧
  (∀ s : State, reopenRecord s =
    (s.announcer.preempted.foldl reopenPreempted s).updAnnouncer fun a => { a with preempted := [] }) ∧
  (∀ (p : Preempted) (l : List Preempted), l.Pairwise (fun a b => a.slot < b.slot) →
    (insertPreempted p l).Pairwise fun a b => a.slot < b.slot) ∧
  (∀ (p : Preempted) (s : State),
    let x := s.slot p.slot
    let preempted := x.state = .suspended ∧ x.cause = some .preempted
    let given := x.state = .opening ∨ x.state = .delivering ∨ (x.state = .suspended ∧ x.cause = some .lost)
    (p.whole = true → preempted → reopenPreempted s p = reopenSlot p.slot s) ∧
    (given → reopenPreempted s p = (([0, 1, 2, 3, 4] : List RoleIx).filter fun r =>
      p.roles.getLsbD r.val && x.taken.getLsbD r.val).foldl (reopenRole p.slot) s) ∧
    (¬(p.whole = true ∧ preempted) → ¬given → reopenPreempted s p = s)) ∧
  (∀ (i : Fin 5) (s : State),
    ((s.slot i).service.bind (activeService s) = none → reopenSlot i s = raise (.selection i .waiting) (s.updSlot i fun x =>
      { x with state := .waiting, roles := Vector.replicate 5 RoleRef.none, cause := none, parked := none })) ∧
    ∀ e, (s.slot i).service.bind (activeService s) = some e →
      (serviceFits s e [] = false → reopenSlot i s = raise (.selection i .suspended) (s.updSlot i fun x =>
        { x with
          state := .suspended, roles := Vector.ofFn fun r => { x.roles[r] with ref := .notWanted }, cause := some .room,
          parked := none })) ∧
      (serviceFits s e [] = true →
        openedAs (reopenSlot i s) i e.service (s.slot i).role (s.slot i).wantTwin (s.slot i).wantData ∧
        rolesOpened s (reopenSlot i s) i e (s.slot i).wantTwin (s.slot i).wantData (nextFrameCount s) id ∧
        (∀ j : Fin 5, j ≠ i → (reopenSlot i s).slot j = s.slot j) ∧
        (reopenSlot i s).link.causes[(5 : Fin 9)] = { pending := true, detail := some (.selection i .opening) })) ∧
  (∀ (i : Fin 5) (r : RoleIx) (s : State),
    let x := s.slot i
    (∀ e lane, x.service.bind (activeService s) = some e → e.lane? r = some lane →
      wantsRole i e.kind x.wantTwin x.wantData r = true → (∀ c, (x.roleRef r).ref ≠ .context c) →
      ∀ a u, requestCtx lane (nextFrameCount s) s = (a, u) → reopenRole i s r = u.updSlot i fun y => y.setRef r
        (match a with
          | .shared c => .context c
          | .opened c => .context c
          | _ => if r = 1 then .absent else .deferred lane)) ∧
    ((∀ e, x.service.bind (activeService s) = some e →
      e.lane? r = none ∨ wantsRole i e.kind x.wantTwin x.wantData r = false ∨ ∃ c, (x.roleRef r).ref = .context c) →
      reopenRole i s r = s)) ∧
  (∀ s : State,
    let a := s.announcer
    let entry := a.heldTarget.bind (activeService s)
    let anchored := ∃ x, a.anchor = some x ∧ (s.slot x.slot).role = some .foreground ∧
      (s.slot x.slot).service = some x.service ∧ ((s.slot x.slot).state = .opening ∨ (s.slot x.slot).state = .delivering ∨
        ((s.slot x.slot).state = .suspended ∧ (s.slot x.slot).cause = some .lost))
    let carried (e : ServiceEntry) := ∃ i : Fin 5, i ≠ 4 ∧ (s.slot i).role = some .foreground ∧
      (s.slot i).service = some e.service ∧ ((s.slot i).state = .opening ∨ (s.slot i).state = .delivering)
    (a.takeover = .idle → checkHeld s = s) ∧
    (a.takeover ≠ .idle → entry = none → checkHeld s = returnHeld false s) ∧
    (a.takeover ≠ .idle → ∀ e, entry = some e →
      (a.heldType ≠ some 0 → ¬anchored → checkHeld s = returnHeld false s) ∧ (a.heldType ≠ some 0 → anchored → checkHeld s = s) ∧
      (a.heldType = some 0 → a.takeover = .inService → ¬carried e → checkHeld s = match e.primary with
        | some lane => openSlotFour e (preemptFor lane s)
        | none => openSlotFour e s) ∧
      (a.heldType = some 0 → (a.takeover ≠ .inService ∨ carried e) → checkHeld s = s))) ∧
  ∀ before after : State,
    let changed (a b : State) := ∃ i : Fin 5, i ≠ 4 ∧ ((a.slot i).state ≠ (b.slot i).state ∨ (a.slot i).role ≠ (b.slot i).role ∨
      (a.slot i).service ≠ (b.slot i).service)
    ∀ v w : State, (changed before after → v = checkHeld after) → (¬changed before after → v = after) →
      (changed v (Machine.earlyStart v) → w = checkHeld (Machine.earlyStart v)) →
      (¬changed v (Machine.earlyStart v) → w = Machine.earlyStart v) →
      endEvent before after = { w with
        link := { w.link with
          attn := w.running && (causePlaces.any fun p => (w.link.causes[p]).pending && w.link.enable.getLsbD p.val) }
        announcer := { w.announcer with
          anncLine := w.running && (w.announcer.takeover == .takeover || w.announcer.takeover == .inService) } }

/-- LOAD_PATTERN, by the first case that applies; a profile number above 3 is refused without data (R184). -/
def Obligations.LoadPatternByCase : Prop :=
  ∀ (ref number : Byte) (values : List Byte) (s : State), readyForOrder s → values.length = 8 →
    let c := Instr.loadPattern ref number values
    let new := values.map BitVec.toNat
    (3 < number.toNat → exec c s = carriedOut s ref 0x07 .badValue [] (heard s)) ∧
    ∀ h : number.toNat < 4,
      let old := number :: (s.store.profiles[number.toNat]).map (BitVec.ofNat 8)
      let permutation := (∀ v ∈ new, v ≤ 7) ∧ new.Nodup
      (¬permutation → exec c s = carriedOut s ref 0x07 .badValue old (heard s)) ∧
      (permutation → new = s.store.profiles[number.toNat] → exec c s = carriedOut s ref 0x07 .accepted old (heard s)) ∧
      (permutation → new ≠ s.store.profiles[number.toNat] → profileInUse s number.toNat = true →
        exec c s = carriedOut s ref 0x07 .busy old (heard s)) ∧
      (permutation → new ≠ s.store.profiles[number.toNat] → profileInUse s number.toNat = false →
        exec c s = carriedOut s ref 0x07 .accepted (number :: values)
          ((heard s).updStore fun d => { d with profiles := d.profiles.set number.toNat new }))

/-- INJECT refuses a record whose kind is unknown, whose length disagrees or that is not well-formed; a label segment is
offered to the label buffers, and any other record refreshes what it equals or is committed at once. -/
def Obligations.InjectCommitsAtOnce : Prop :=
  ∀ (ref : Byte) (record : List Byte) (s : State), readyForOrder s → record.length ≤ 62 →
    let c := Instr.inject ref record
    let without (r : Record) := (heard s).updDirectory fun d =>
      { d with candidates := d.candidates.filter fun x => !sameKey x r }
    (record.length < 2 → exec c s = carriedOut s ref 0x09 .badValue [] (heard s)) ∧
    ∀ kind len body, record = kind :: len :: body →
      ((len.toNat ≠ body.length ∨ wellFormedRecordOf kind body = none) →
        exec c s = carriedOut s ref 0x09 .badValue [] (heard s)) ∧
      (len.toNat = body.length → ∀ r, wellFormedRecordOf kind body = some r →
        (∀ v g k n x, r = .labelSegment v g k n x →
          exec c s = carriedOut s ref 0x09 .accepted [kind] (offerSegment v g k n x (heard s))) ∧
        ((∀ v g k n x, r ≠ .labelSegment v g k n x) →
          (equalsCommitted s r = true → exec c s = carriedOut s ref 0x09 .accepted [kind] (refresh r (without r))) ∧
          (equalsCommitted s r = false →
            exec c s = carriedOut s ref 0x09 .accepted [kind] (commitRecord r (without r)))))

/-- FORGET clears the multiplex state, sets the port to SEARCH without a frame close, and makes every occupied host slot wait;
the timers, the holdover count and limit, the masks, the lock and the outbound queues are kept. SELECTION is raised when a slot,
slot 4 included, enters another state. That what an acquisition remembers is forgotten (log 21), and that slot 4 counts (log 18), is
the model's reading. -/
def Obligations.ForgetClearsTheMultiplex : Prop :=
  ∀ (ref : Byte) (s : State), readyForOrder s → ∃ u, exec (.forget ref) s = carriedOut s ref 0x0A .accepted [] u ∧
    u.intake = { s.intake with state := .search, openFrame := none, foreign := none, remembered := none } ∧
    u.laneMap = LaneMap.reset ∧ u.directory = Directory.reset ∧ (∀ c : Fin 16, (u.ctx c).state = .free) ∧
    u.store.profiles = s.store.profiles ∧
    u.announcer = { s.announcer with
      takeover := .idle, heldType := none, heldTarget := none, anchor := none, preempted := [] } ∧
    (∀ i : Fin 5, i ≠ 4 → (u.slot i).service = (s.slot i).service ∧ (u.slot i).role = (s.slot i).role ∧
      (u.slot i).state = (match (s.slot i).state with | .empty => .empty | .parked => .parked | _ => .waiting) ∧
      ((s.slot i).state = .parked → (u.slot i).parked = some .waiting)) ∧
    (u.slot 4).state = .empty ∧ thresholdsKept s u ∧
    ((s.slot 4).state ≠ .empty ∨ (∃ i : Fin 5, i ≠ 4 ∧ (s.slot i).state ≠ .empty ∧ (s.slot i).state ≠ .parked ∧
      (s.slot i).state ≠ .waiting) → (u.link.causes[(5 : Fin 9)]).pending = true) ∧
    u.link = { (heard s).link with causes := u.link.causes } ∧ u.earlyConsumed = s.earlyConsumed

/-- WHICH answers and clears the pending enabled cause of lowest code; with none it answers code 0. -/
def Obligations.WhichTakesLowestCode : Prop :=
  ∀ (ref : Byte) (s : State), readyForOrder s →
    let counts (p : Fin 9) := (s.link.causes[p]).pending = true ∧ s.link.enable.getLsbD p.val = true
    (∀ p d, counts p → (∀ q, q < p → ¬counts q) → (s.link.causes[p]).detail = some d →
      exec (.which ref) s =
        carriedOut s ref 0x0C .accepted (BitVec.ofNat 8 (p.val + 1) :: d.firstDetail :: wordBytes d.secondDetail)
          ((heard s).updLink fun l => { l with causes := l.causes.set p { l.causes[p] with pending := false } })) ∧
    ((∀ p, ¬counts p) → exec (.which ref) s = carriedOut s ref 0x0C .accepted [0, 0, 0, 0] (heard s))

/-- SET_ATTENTION replaces the enable mask by the nine low bits of the order's, keeps the causes, and answers the mask and
the causes pending; both resets enable all nine. -/
def Obligations.SetAttentionReplacesEnable : Prop :=
  (∀ (ref : Byte) (mask : Word16) (s : State), readyForOrder s →
    exec (.setAttention ref mask) s =
      carriedOut s ref 0x0D .accepted
        (wordBytes (mask &&& 0x1FF) ++
          wordBytes (BitVec.ofNat 16 (causePlaces.map fun p => if (s.link.causes[p]).pending then 2 ^ p.val else 0).sum))
        ((heard s).updLink fun l => { l with enable := mask.setWidth 9 })) ∧
  (∀ (ref : Byte) (mask : Word16) (s t : State), readyForOrder s → exec (.setAttention ref mask) s = .next t →
    t.link.enable = mask.setWidth 9 ∧ (t.link.attn = causePlaces.any fun p =>
      (t.link.causes[p]).pending && t.link.enable.getLsbD p.val) ∧ (t.link.attn = false ↔ firstCause t.link = none)) ∧
  State.reset.link.enable = 0x1FF ∧ ∀ s, (holdBreak s).link.enable = 0x1FF

/-- STANDBY ends what is held, parks every host slot that is not EMPTY with no references left, empties the AUDIO, DATA and LABEL queues and drives
WAKE low; in standby it drives WAKE low alone. -/
def Obligations.StandbyParksTheSlots : Prop :=
  ∀ (ref : Byte) (s : State), readyForOrder s →
    (s.announcer.power = .standby → exec (.standby ref) s = carriedOut s ref 0x0E .accepted []
      ((heard s).updAnnouncer fun a => { a with wakeLine := false })) ∧
    (s.announcer.power = .active → ∃ u, exec (.standby ref) s = carriedOut s ref 0x0E .accepted [] u ∧
      u.announcer.power = .standby ∧ u.announcer.takeover = .idle ∧ u.announcer.preempted = [] ∧
      u.announcer.wakeLine = false ∧ u.announcer.accept = s.announcer.accept ∧ u.announcer.wake = s.announcer.wake ∧
      u.announcer.lock = s.announcer.lock ∧
      (∀ i : Fin 5, i ≠ 4 → (u.slot i).service = (s.slot i).service ∧ (u.slot i).role = (s.slot i).role ∧
        (u.slot i).wantTwin = (s.slot i).wantTwin ∧ (u.slot i).wantData = (s.slot i).wantData ∧
        ((s.slot i).state = .empty → (u.slot i).state = .empty) ∧
        ((s.slot i).state ≠ .empty → (u.slot i).state = .parked ∧ (u.slot i).parked = some (s.slot i).state ∧
          (u.slot i).source = .primary ∧ (u.slot i).muted = false ∧ (u.slot i).overridden = false ∧
          (u.slot i).cause = none ∧ (u.slot i).roles = Vector.replicate 5 RoleRef.none)) ∧
      (s.announcer.takeover ≠ .idle → (u.slot 4).state = .empty) ∧ u.link.audio = [] ∧ u.link.data = [] ∧
      u.link.labels = [] ∧ u.link.answers = s.link.answers ∧ u.link.sending = s.link.sending ∧ u.intake = s.intake ∧
      u.laneMap.active = s.laneMap.active ∧ u.directory.table = s.directory.table ∧ thresholdsKept s u)

/-- RESUME in standby returns the part to ACTIVE and reopens its PARKED host slots in ascending order, so that none is left
PARKED: WAITING without its service in the active bank, with it OPENING or SUSPENDED with cause ROOM, as its required role fits where one
slot alone is PARKED, whose roles then refer as a SELECT would have them. Both in standby and in
ACTIVE, where it answers NOT-NOW, it drives WAKE low. That a slot leaving PARKED has parked state none is the model's reading (log 14). -/
def Obligations.ResumeReopensTheSlots : Prop :=
  ∀ (ref : Byte) (s : State), readyForOrder s →
    (s.announcer.power = .active → exec (.resume ref) s = carriedOut s ref 0x0F .notNow []
      ((heard s).updAnnouncer fun a => { a with wakeLine := false })) ∧
    let active := (heard s).updAnnouncer fun a => { a with power := .active, wakeLine := false }
    (s.announcer.power = .standby → ∃ u, exec (.resume ref) s = carriedOut s ref 0x0F .accepted [] u ∧
      u = ([0, 1, 2, 3] : List (Fin 5)).foldl (fun v i => if (v.slot i).state = .parked then reopenSlot i v else v) active ∧
      u.announcer = { s.announcer with power := .active, wakeLine := false } ∧
      (∀ i : Fin 5, i ≠ 4 → (s.slot i).state = .parked →
        ((s.slot i).service.bind (activeService s) = none → (u.slot i).state = .waiting ∧
          (u.slot i).service = (s.slot i).service ∧ (u.slot i).roles = Vector.replicate 5 RoleRef.none) ∧
        (∀ e, (s.slot i).service.bind (activeService s) = some e →
          openedAs u i e.service (s.slot i).role (s.slot i).wantTwin (s.slot i).wantData ∨
            ((u.slot i).state = .suspended ∧ (u.slot i).cause = some .room ∧ (u.slot i).parked = none ∧
              (u.slot i).roles = Vector.ofFn fun r => { (s.slot i).roles[r] with ref := .notWanted })) ∧
        ((∀ j : Fin 5, j ≠ 4 → j ≠ i → (s.slot j).state ≠ .parked) →
          ∀ e, (s.slot i).service.bind (activeService s) = some e →
            ((u.slot i).state = .opening ↔ serviceFits s e [] = true) ∧
            (serviceFits s e [] = true →
              rolesOpened active u i e (s.slot i).wantTwin (s.slot i).wantData (nextFrameCount s) id) ∧
            u.link.causes[(5 : Fin 9)] = { pending := true, detail := some (.selection i (u.slot i).state) })) ∧
      (∀ i : Fin 5, (i = 4 ∨ (s.slot i).state ≠ .parked) → u.slot i = s.slot i) ∧
      u.intake = s.intake ∧ u.directory = s.directory ∧ u.laneMap.active = s.laneMap.active ∧
      u.store.profiles = s.store.profiles ∧ u.store.cells = s.store.cells ∧ thresholdsKept s u ∧
      u.link = { (heard s).link with causes := u.link.causes })

/-- SELECT is refused, with nothing changed, for a slot of 4 or above, a role code of no role, a second foreground, and in
the present case for want of room: when the required role, the primary of an AUDIO service and the first data lane of a DATA-ONLY
one, has a lane entry but no FILLING or RUNNING context, and the FREE contexts and free columns with those of the contexts X that the
slot alone refers to and the new selection does not want are too few. The wanted roles, in the order primary, twin, data lanes, are those
of R120 for which the entry names a lane. -/
def Obligations.SelectRefusals : Prop :=
  (∀ (ref slot : Byte) (service : Word16) (role wants : Byte) (s : State), readyForOrder s →
    let c := Instr.select ref slot service role wants
    (4 ≤ slot.toNat → exec c s = carriedOut s ref 0x01 .badSlot [slot] (heard s)) ∧
    ∀ i : Fin 5, i ≠ 4 → slot.toNat = i.val →
      (role ≠ 1 → role ≠ 2 → exec c s = carriedOut s ref 0x01 .badValue [slot] (heard s)) ∧
      (role = 1 → (∃ j : Fin 5, j ≠ 4 ∧ j ≠ i ∧ (s.slot j).role = some .foreground) →
        exec c s = carriedOut s ref 0x01 .busy [slot] (heard s)) ∧
      ((role = 2 ∨ (role = 1 ∧ ∀ j : Fin 5, j ≠ 4 → j ≠ i → (s.slot j).role ≠ some .foreground)) →
        s.announcer.power = .active → ∀ e, activeService s service = some e →
        serviceFits s e (spareCtxs s i ((wantedRoles i e (wants.getLsbD 0) (wants.getLsbD 1)).map Prod.snd)) = false →
        exec c s = carriedOut s ref 0x01 .noRoom [slot] (heard s))) ∧
  (∀ (s : State) (e : ServiceEntry) (spare : List (Fin 16)), serviceFits s e spare = true ↔
    ∀ lane, (match e.kind with | .audio => e.primary | .dataOnly => e.data[0]?) = some lane →
      (∃ c : Fin 16, (s.ctx c).receiving = true ∧ (s.ctx c).lane? = some lane) ∨
      ∀ x, s.laneMap.active.lane? lane = some x →
        1 ≤ ((List.finRange 16).filter fun c => (s.ctx c).state == .free).length + spare.length ∧
        x.n ≤ s.store.free.length + (spare.map fun c => (s.ctx c).columns.length).sum) ∧
  (∀ (i : Fin 5) (e : ServiceEntry) (wantTwin wantData : Bool),
    let wants (r : RoleIx) : Prop := (e.kind = .audio ∧
      (r = 0 ∨ (i ≠ 4 ∧ ((r = 1 ∧ wantTwin = true) ∨ (2 ≤ r.val ∧ wantData = true))))) ∨
      (e.kind = .dataOnly ∧ i ≠ 4 ∧ 2 ≤ r.val)
    let lane (r : RoleIx) := if r = 0 then e.primary else if r = 1 then e.twin else e.data[r.val - 2]?
    (∀ r, wantsRole i e.kind wantTwin wantData r = true ↔ wants r) ∧
    (∀ r l, (r, l) ∈ wantedRoles i e wantTwin wantData ↔ wants r ∧ lane r = some l) ∧
    (wantedRoles i e wantTwin wantData).Pairwise fun a b => a.1 < b.1) ∧
  ∀ (s : State) (i : Fin 5) (wanted : List Nat), (spareCtxs s i wanted).Nodup ∧ ∀ c : Fin 16, c ∈ spareCtxs s i wanted ↔
    (s.ctx c).receiving = true ∧ (s.ctx c).refs = 1 ∧ (∃ r : RoleIx, ((s.slot i).roleRef r).ref = .context c) ∧
      ∀ lane ∈ wanted, (s.ctx c).lane? ≠ some lane

/-- SELECT in standby leaves the slot PARKED with parked state WAITING, and of a service the active bank lacks WAITING: it
holds no references, its packets leave the queues, its label buffer is emptied and the early start is consumed. That these cases
too clear the early flag and raise SELECTION is the model's reading (log 25). -/
def Obligations.SelectHeldWithoutLanes : Prop :=
  ∀ (ref slot : Byte) (service : Word16) (code wants : Byte) (role : Role) (i : Fin 5) (s : State), readyForOrder s → i ≠ 4 →
    slot.toNat = i.val →
    (code = 2 ∧ role = .background) ∨
      (code = 1 ∧ role = .foreground ∧ ∀ j : Fin 5, j ≠ 4 → j ≠ i → (s.slot j).role ≠ some .foreground) →
    ∀ (st : SlotState) (parked : Option SlotState) (stCode : Byte),
      (s.announcer.power = .standby ∧ st = .parked ∧ parked = some .waiting ∧ stCode = 5) ∨
        (s.announcer.power = .active ∧ activeService s service = none ∧ st = .waiting ∧ parked = none ∧ stCode = 1) →
      ∃ u, exec (.select ref slot service code wants) s =
          carriedOut s ref 0x01 .accepted [slot, stCode, 0, 0, 0, 0, 0, 0] u ∧
        u.slot i = { s.slot i with
          state := st, role := some role, service := some service, wantTwin := wants.getLsbD 0, wantData := wants.getLsbD 1,
          roles := Vector.replicate 5 RoleRef.none, source := .primary, muted := false, overridden := false, dwell := 16,
          cause := none, parked := parked, early := false } ∧
        u.earlyConsumed = true ∧ label u i = LabelBuffer.reset ∧ noPacketsOf u i ∧ selectionFrame (heard s) u ∧
        u.link.causes[(5 : Fin 9)] = { pending := true, detail := some (.selection i st) } ∧
        ∀ j : Fin 5, j ≠ i → (u.slot j).state = (s.slot j).state ∧ (u.slot j).service = (s.slot j).service

/-- SELECT in the present case with room: the slot is OPENING with the order's fields and the references the answer reports, its
packets leave the queues, its label buffer is emptied and the early start is consumed. A wanted role shares the FILLING or RUNNING
context that holds its lane; the slot then gives up what it held, in an order of the model's choice (log 9), and the other wanted roles
are requested in order, each waiting, or a twin ABSENT, when refused. That the answer shows the slot before the check at the end of the event is the model's
choice (log 33). That a slot which opens has parked state none is its reading (log 14). -/
def Obligations.SelectOpensTheSlot : Prop :=
  ∀ (ref slot : Byte) (service : Word16) (code wants : Byte) (role : Role) (i : Fin 5) (e : ServiceEntry) (s : State),
    readyForOrder s → i ≠ 4 → slot.toNat = i.val →
    (code = 2 ∧ role = .background) ∨
      (code = 1 ∧ role = .foreground ∧ ∀ j : Fin 5, j ≠ 4 → j ≠ i → (s.slot j).role ≠ some .foreground) →
    s.announcer.power = .active → activeService s service = some e →
    serviceFits s e (spareCtxs s i ((wantedRoles i e (wants.getLsbD 0) (wants.getLsbD 1)).map Prod.snd)) = true →
    let wanted := wantedRoles i e (wants.getLsbD 0) (wants.getLsbD 1)
    let opened := selectPresent i e (some role) (wants.getLsbD 0) (wants.getLsbD 1) (heard s)
    let shared := opened.1
    let final := opened.2.1
    (∀ r lane, (r, lane) ∈ wanted →
      shared[r] = (match receivingLane s lane with | some c => .context c | none => .notWanted) ∧
      (∀ c, shared[r] = .context c → final[r] = .context c) ∧
      ((∃ c, final[r] = .context c) ∨ final[r] = .deferred lane ∨ (r = 1 ∧ final[r] = .absent)) ∧
      (receivingLane s lane = none → (∀ q x, (q, x) ∈ wanted → q ≠ r → receivingLane s x ≠ none) →
        let sharing := wanted.foldl (fun v q => match receivingLane v q.2 with | some c => addRef c v | none => v) (heard s)
        let answer := requestCtx lane (nextFrameCount s) (giveUpSlot i sharing)
        final[r] = (match answer.1 with
          | .shared c => .context c
          | .opened c => .context c
          | .noEntry => .deferred lane
          | _ => if r = 1 then .absent else .deferred lane) ∧
        opened.2.2.contexts = answer.2.contexts ∧ opened.2.2.store = answer.2.store)) ∧
    ∃ u, exec (.select ref slot service code wants) s =
        carriedOut s ref 0x01 .accepted (selectData i .opening shared final) u ∧
      u = consumeEarly i (stateChecks opened.2.2) ∧
      openedAs u i service (some role) (wants.getLsbD 0) (wants.getLsbD 1) ∧ (u.slot i).early = false ∧
      (u.slot i).overridden = decide (role = .foreground ∧ s.announcer.takeover = .takeover) ∧
      (∀ r : RoleIx, (u.slot i).roleRef r = { ref := final[r], outgoing := [] }) ∧
      rolesOpened (heard s) u i e (wants.getLsbD 0) (wants.getLsbD 1) (nextFrameCount s) (giveUpSlot i) ∧
      (∀ r : RoleIx, wantsRole i e.kind (wants.getLsbD 0) (wants.getLsbD 1) r = false → final[r] = .notWanted) ∧
      u.earlyConsumed = true ∧ label u i = LabelBuffer.reset ∧ noPacketsOf u i ∧ selectionFrame (heard s) u

/-- RELEASE empties a slot 0 to 3, keeping its thresholds and masks, and removes its packets and its label; an EMPTY slot
only loses its early flag; another slot number is refused. Every context loses one count for each reference the slot had to it: a
FILLING or RUNNING one whose count falls to 0 is released, its columns cleared and pushed in reverse order, and a DRAINING one stays.
The slot's outgoing contexts are dropped, and SELECTION is raised. The order in which a slot gives up its references is the model's
choice (log 9). -/
def Obligations.ReleaseEmptiesTheSlot : Prop :=
  (∀ (ref slot : Byte) (s : State), readyForOrder s →
    (4 ≤ slot.toNat → exec (.release ref slot) s = carriedOut s ref 0x02 .badSlot [] (heard s)) ∧
    ∀ i : Fin 5, i ≠ 4 → slot.toNat = i.val →
      ((s.slot i).state = .empty → exec (.release ref slot) s =
        carriedOut s ref 0x02 .accepted [slot] ((heard s).updSlot i fun x => { x with early := false })) ∧
      ((s.slot i).state ≠ .empty → ∃ u, exec (.release ref slot) s = carriedOut s ref 0x02 .accepted [slot] u ∧
        let held (c : Fin 16) : Nat := (roleIxs.filter fun r => ((s.slot i).roleRef r).ref == .context c).length
        u.slot i = { Slot.reset none with
          thHi := (s.slot i).thHi, thLo := (s.slot i).thLo, riseMask := (s.slot i).riseMask, fallMask := (s.slot i).fallMask } ∧
        (∀ c : Fin 16, u.ctx c =
          if (s.ctx c).receiving = true ∧ 0 < held c ∧ (s.ctx c).refs ≤ held c then LaneContext.free
          else if (s.ctx c).state = .free then s.ctx c
          else { s.ctx c with refs := (s.ctx c).refs - held c }) ∧
        u.store = (dropReferences (s.slot i) (heard s)).store ∧ (u.link.causes[(5 : Fin 9)]).pending = true ∧
        ((∀ j : Fin 5, j ≠ i → (s.slot j).state ≠ .delivering) →
          u.link.causes[(5 : Fin 9)] = { pending := true, detail := some (.selection i .empty) }) ∧
        label u i = LabelBuffer.reset ∧ noPacketsOf u i ∧ selectionFrame (heard s) u ∧ u.earlyConsumed = s.earlyConsumed ∧
        ∀ j : Fin 5, j ≠ i → (u.slot j).role = (s.slot j).role ∧ (u.slot j).service = (s.slot j).service)) ∧
  (∀ (x : Slot) (s : State), dropReferences x s = ([0, 1, 2, 3, 4] : List RoleIx).foldl (fun v r =>
    match (x.roleRef r).ref with
    | .context c => dropRef c v
    | _ => v) s) ∧
  (∀ (i : Fin 5) (s : State), giveUpSlot i s = (dropReferences (s.slot i) s).updSlot i fun x =>
    { x with roles := Vector.replicate 5 RoleRef.none }) ∧
  (∀ (c : Fin 16) (s : State),
    let lowered := s.setCtx c { s.ctx c with refs := (s.ctx c).refs - 1 }
    ((s.ctx c).state = .free → dropRef c s = s) ∧
    ((s.ctx c).state = .draining ∨ ((s.ctx c).receiving = true ∧ 1 < (s.ctx c).refs) → dropRef c s = lowered) ∧
    ((s.ctx c).receiving = true → (s.ctx c).refs ≤ 1 → dropRef c s = releaseCtx c lowered)) ∧
  ∀ (c : Fin 16) (s : State),
    let u := releaseCtx c s
    (∀ d : Fin 16, u.ctx d = if d = c then LaneContext.free else s.ctx d) ∧
    u.store = { s.store with cells := u.store.cells, free := (s.ctx c).columns ++ s.store.free } ∧
    (s.store.cells.wf = true → ∀ column row, column < 384 → row < 8 → u.store.cells.read (cellAddress column row) =
      if column ∈ (s.ctx c).columns then (s.store.cells.read (cellAddress column row)).cleared
      else s.store.cells.read (cellAddress column row)) ∧
    u.laneMap = { s.laneMap with index := builtIndex s.laneMap.active u.contexts } ∧
    (∀ i : Fin 5, u.slot i = { s.slot i with
      roles := Vector.ofFn fun r =>
        { (s.slot i).roles[r] with outgoing := (s.slot i).roles[r].outgoing.filter fun d => decide (d ≠ c) } }) ∧
    u = { s with contexts := u.contexts, store := u.store, laneMap := u.laneMap, slots := u.slots }

/-- An order of unknown kind is answered UNKNOWN-ORDER and one of a wrong length BAD-VALUE, with nothing changed. -/
def Obligations.UnknownOrderChangesNothing : Prop :=
  ∀ (ref kind : Byte) (params : List Byte) (s : State), readyForOrder s → params.length ≤ 62 →
    (kind ∉ orderKinds →
      exec (.unknownOrder ref kind params) s = carriedOut s ref kind .unknownOrder [] (heard s)) ∧
    (∀ n, kind ∈ orderKinds → impliedLength kind = some n → n ≠ params.length + 2 →
      exec (.order (ref :: kind :: params)) s = carriedOut s ref kind .badValue [] (heard s))

/-! ### The Delivery Link -/

/-- A complete ORDER packet is carried out at once as one event, waits while the ANSWER queue is full, or is discarded with
OVERRUN ORDER when the order queue is full. -/
def Obligations.OrderIsTakenWaitsOrIsDiscarded : Prop :=
  ∀ (body : List Byte) (s : State), s.running = true → s.link.receiver.hunting = true → 2 ≤ body.length → body.length ≤ 64 →
    (s.link.orders = [] → s.link.answers.length < 4 →
      exec (.order body) s = .next (endEvent (heard s) (carryOut body (heard s)))) ∧
    (s.link.orders.length < 4 → 4 ≤ s.link.answers.length →
      exec (.order body) s = .next ((heard s).updLink fun l => { l with orders := l.orders ++ [body] })) ∧
    (4 ≤ s.link.orders.length →
      exec (.order body) s = .next (endEvent (heard s) (raise (.overrun .order) (heard s))))

/-- A malformed packet is discarded with OVERRUN MALFORMED and the receiver hunts; a lone byte that is no sync byte is one
right after a complete packet, and is only discarded in any other hunt. -/
def Obligations.MalformedPacketIsDiscarded : Prop :=
  ∀ (bytes : List Byte) (afterPacket : Bool) (s : State), s.running = true → s.link.receiver = .hunt afterPacket →
    malformedFromStart bytes = true →
    let u := s.updLink fun l => { l with receiver := .hunt false, breakDetector := abandonTiming l.breakDetector }
    (afterPacket = true ∨ 1 < bytes.length →
      exec (.malformed bytes) s = .next (endEvent u (raise (.overrun .malformed) u))) ∧
    (afterPacket = false → bytes.length = 1 → exec (.malformed bytes) s = .next u)

/-- PACKET_START on the idle line and PACKET_COMPLETE on the busy one start the head of the first queue that is not empty, in
the order ANSWER, AUDIO, DATA, LABEL; with none the line is idle. An answer that leaves lets a waiting order be carried out.
Either command on the line's other state changes nothing (log 2). -/
def Obligations.ArbiterStartsInPriority : Prop :=
  (∀ (c : Instr) (s : State), s.running = true →
    (c = .packetStart ∧ s.link.sending = none) ∨ (c = .packetComplete ∧ s.link.sending ≠ none) →
    (s.link.orders = [] →
      (∀ a rest, s.link.answers = a :: rest →
        exec c s = .next (endEvent s (s.updLink fun l => { l with answers := rest, sending := some (.answer a) }))) ∧
      (s.link.answers = [] →
        (∀ f rest, s.link.audio = f :: rest →
          exec c s = .next (endEvent s (s.updLink fun l => { l with audio := rest, sending := some (.frame f) }))) ∧
        (s.link.audio = [] →
          (∀ f rest, s.link.data = f :: rest →
            exec c s = .next (endEvent s (s.updLink fun l => { l with data := rest, sending := some (.frame f) }))) ∧
          (s.link.data = [] →
            (∀ p rest, s.link.labels = p :: rest →
              exec c s = .next (endEvent s (s.updLink fun l => { l with labels := rest, sending := some (.label p) }))) ∧
            (s.link.labels = [] → exec c s = .next (endEvent s (s.updLink fun l => { l with sending := none }))))))) ∧
    (∀ a rest body more, s.link.answers = a :: rest → rest.length = 3 → s.link.orders = body :: more →
      let u := endEvent s (s.updLink fun l => { l with answers := rest, sending := some (.answer a) })
      2 ≤ body.length →
        exec c s = .next (endEvent u (carryOut body (u.updLink fun l => { l with orders := more }))))) ∧
  ∀ s : State, (s.link.sending ≠ none → exec .packetStart s = .next s) ∧
    (s.link.sending = none → exec .packetComplete s = .next s)

end Statements
end

