-- ==== Sys2Proof/Laws/State.lean ====
section
/-! SUPPORT. One lemma for each field of the state under each update, and reading a context or a slot after a write. -/

namespace Sys2Proof.Machine

/-! ### updIntake -/

@[simp] theorem updIntake_intake (s : State) (f : Intake → Intake) : (s.updIntake f).intake = f s.intake := rfl
@[simp] theorem updIntake_directory (s : State) (f : Intake → Intake) : (s.updIntake f).directory = s.directory := rfl
@[simp] theorem updIntake_laneMap (s : State) (f : Intake → Intake) : (s.updIntake f).laneMap = s.laneMap := rfl
@[simp] theorem updIntake_store (s : State) (f : Intake → Intake) : (s.updIntake f).store = s.store := rfl
@[simp] theorem updIntake_contexts (s : State) (f : Intake → Intake) : (s.updIntake f).contexts = s.contexts := rfl
@[simp] theorem updIntake_slots (s : State) (f : Intake → Intake) : (s.updIntake f).slots = s.slots := rfl
@[simp] theorem updIntake_earlyLow (s : State) (f : Intake → Intake) : (s.updIntake f).earlyLow = s.earlyLow := rfl
@[simp] theorem updIntake_earlyConsumed (s : State) (f : Intake → Intake) : (s.updIntake f).earlyConsumed = s.earlyConsumed := rfl
@[simp] theorem updIntake_announcer (s : State) (f : Intake → Intake) : (s.updIntake f).announcer = s.announcer := rfl
@[simp] theorem updIntake_link (s : State) (f : Intake → Intake) : (s.updIntake f).link = s.link := rfl
@[simp] theorem updIntake_pending (s : State) (f : Intake → Intake) : (s.updIntake f).pending = s.pending := rfl
@[simp] theorem updIntake_ctx (s : State) (f : Intake → Intake) (c : Fin 16) : (s.updIntake f).ctx c = s.ctx c := rfl
@[simp] theorem updIntake_slot (s : State) (f : Intake → Intake) (i : Fin 5) : (s.updIntake f).slot i = s.slot i := rfl

/-! ### updDirectory -/

@[simp] theorem updDirectory_intake (s : State) (f : Directory → Directory) : (s.updDirectory f).intake = s.intake := rfl
@[simp] theorem updDirectory_directory (s : State) (f : Directory → Directory) : (s.updDirectory f).directory = f s.directory := rfl
@[simp] theorem updDirectory_laneMap (s : State) (f : Directory → Directory) : (s.updDirectory f).laneMap = s.laneMap := rfl
@[simp] theorem updDirectory_store (s : State) (f : Directory → Directory) : (s.updDirectory f).store = s.store := rfl
@[simp] theorem updDirectory_contexts (s : State) (f : Directory → Directory) : (s.updDirectory f).contexts = s.contexts := rfl
@[simp] theorem updDirectory_slots (s : State) (f : Directory → Directory) : (s.updDirectory f).slots = s.slots := rfl
@[simp] theorem updDirectory_earlyLow (s : State) (f : Directory → Directory) : (s.updDirectory f).earlyLow = s.earlyLow := rfl
@[simp] theorem updDirectory_earlyConsumed (s : State) (f : Directory → Directory) : (s.updDirectory f).earlyConsumed = s.earlyConsumed := rfl
@[simp] theorem updDirectory_announcer (s : State) (f : Directory → Directory) : (s.updDirectory f).announcer = s.announcer := rfl
@[simp] theorem updDirectory_link (s : State) (f : Directory → Directory) : (s.updDirectory f).link = s.link := rfl
@[simp] theorem updDirectory_pending (s : State) (f : Directory → Directory) : (s.updDirectory f).pending = s.pending := rfl
@[simp] theorem updDirectory_ctx (s : State) (f : Directory → Directory) (c : Fin 16) : (s.updDirectory f).ctx c = s.ctx c := rfl
@[simp] theorem updDirectory_slot (s : State) (f : Directory → Directory) (i : Fin 5) : (s.updDirectory f).slot i = s.slot i := rfl

/-! ### updLaneMap -/

@[simp] theorem updLaneMap_intake (s : State) (f : LaneMap → LaneMap) : (s.updLaneMap f).intake = s.intake := rfl
@[simp] theorem updLaneMap_directory (s : State) (f : LaneMap → LaneMap) : (s.updLaneMap f).directory = s.directory := rfl
@[simp] theorem updLaneMap_laneMap (s : State) (f : LaneMap → LaneMap) : (s.updLaneMap f).laneMap = f s.laneMap := rfl
@[simp] theorem updLaneMap_store (s : State) (f : LaneMap → LaneMap) : (s.updLaneMap f).store = s.store := rfl
@[simp] theorem updLaneMap_contexts (s : State) (f : LaneMap → LaneMap) : (s.updLaneMap f).contexts = s.contexts := rfl
@[simp] theorem updLaneMap_slots (s : State) (f : LaneMap → LaneMap) : (s.updLaneMap f).slots = s.slots := rfl
@[simp] theorem updLaneMap_earlyLow (s : State) (f : LaneMap → LaneMap) : (s.updLaneMap f).earlyLow = s.earlyLow := rfl
@[simp] theorem updLaneMap_earlyConsumed (s : State) (f : LaneMap → LaneMap) : (s.updLaneMap f).earlyConsumed = s.earlyConsumed := rfl
@[simp] theorem updLaneMap_announcer (s : State) (f : LaneMap → LaneMap) : (s.updLaneMap f).announcer = s.announcer := rfl
@[simp] theorem updLaneMap_link (s : State) (f : LaneMap → LaneMap) : (s.updLaneMap f).link = s.link := rfl
@[simp] theorem updLaneMap_pending (s : State) (f : LaneMap → LaneMap) : (s.updLaneMap f).pending = s.pending := rfl
@[simp] theorem updLaneMap_ctx (s : State) (f : LaneMap → LaneMap) (c : Fin 16) : (s.updLaneMap f).ctx c = s.ctx c := rfl
@[simp] theorem updLaneMap_slot (s : State) (f : LaneMap → LaneMap) (i : Fin 5) : (s.updLaneMap f).slot i = s.slot i := rfl

/-! ### updStore -/

@[simp] theorem updStore_intake (s : State) (f : DelayStore → DelayStore) : (s.updStore f).intake = s.intake := rfl
@[simp] theorem updStore_directory (s : State) (f : DelayStore → DelayStore) : (s.updStore f).directory = s.directory := rfl
@[simp] theorem updStore_laneMap (s : State) (f : DelayStore → DelayStore) : (s.updStore f).laneMap = s.laneMap := rfl
@[simp] theorem updStore_store (s : State) (f : DelayStore → DelayStore) : (s.updStore f).store = f s.store := rfl
@[simp] theorem updStore_contexts (s : State) (f : DelayStore → DelayStore) : (s.updStore f).contexts = s.contexts := rfl
@[simp] theorem updStore_slots (s : State) (f : DelayStore → DelayStore) : (s.updStore f).slots = s.slots := rfl
@[simp] theorem updStore_earlyLow (s : State) (f : DelayStore → DelayStore) : (s.updStore f).earlyLow = s.earlyLow := rfl
@[simp] theorem updStore_earlyConsumed (s : State) (f : DelayStore → DelayStore) : (s.updStore f).earlyConsumed = s.earlyConsumed := rfl
@[simp] theorem updStore_announcer (s : State) (f : DelayStore → DelayStore) : (s.updStore f).announcer = s.announcer := rfl
@[simp] theorem updStore_link (s : State) (f : DelayStore → DelayStore) : (s.updStore f).link = s.link := rfl
@[simp] theorem updStore_pending (s : State) (f : DelayStore → DelayStore) : (s.updStore f).pending = s.pending := rfl
@[simp] theorem updStore_ctx (s : State) (f : DelayStore → DelayStore) (c : Fin 16) : (s.updStore f).ctx c = s.ctx c := rfl
@[simp] theorem updStore_slot (s : State) (f : DelayStore → DelayStore) (i : Fin 5) : (s.updStore f).slot i = s.slot i := rfl

/-! ### updAnnouncer -/

@[simp] theorem updAnnouncer_intake (s : State) (f : Announcer → Announcer) : (s.updAnnouncer f).intake = s.intake := rfl
@[simp] theorem updAnnouncer_directory (s : State) (f : Announcer → Announcer) : (s.updAnnouncer f).directory = s.directory := rfl
@[simp] theorem updAnnouncer_laneMap (s : State) (f : Announcer → Announcer) : (s.updAnnouncer f).laneMap = s.laneMap := rfl
@[simp] theorem updAnnouncer_store (s : State) (f : Announcer → Announcer) : (s.updAnnouncer f).store = s.store := rfl
@[simp] theorem updAnnouncer_contexts (s : State) (f : Announcer → Announcer) : (s.updAnnouncer f).contexts = s.contexts := rfl
@[simp] theorem updAnnouncer_slots (s : State) (f : Announcer → Announcer) : (s.updAnnouncer f).slots = s.slots := rfl
@[simp] theorem updAnnouncer_earlyLow (s : State) (f : Announcer → Announcer) : (s.updAnnouncer f).earlyLow = s.earlyLow := rfl
@[simp] theorem updAnnouncer_earlyConsumed (s : State) (f : Announcer → Announcer) : (s.updAnnouncer f).earlyConsumed = s.earlyConsumed := rfl
@[simp] theorem updAnnouncer_announcer (s : State) (f : Announcer → Announcer) : (s.updAnnouncer f).announcer = f s.announcer := rfl
@[simp] theorem updAnnouncer_link (s : State) (f : Announcer → Announcer) : (s.updAnnouncer f).link = s.link := rfl
@[simp] theorem updAnnouncer_pending (s : State) (f : Announcer → Announcer) : (s.updAnnouncer f).pending = s.pending := rfl
@[simp] theorem updAnnouncer_ctx (s : State) (f : Announcer → Announcer) (c : Fin 16) : (s.updAnnouncer f).ctx c = s.ctx c := rfl
@[simp] theorem updAnnouncer_slot (s : State) (f : Announcer → Announcer) (i : Fin 5) : (s.updAnnouncer f).slot i = s.slot i := rfl

/-! ### updLink -/

@[simp] theorem updLink_intake (s : State) (f : Link → Link) : (s.updLink f).intake = s.intake := rfl
@[simp] theorem updLink_directory (s : State) (f : Link → Link) : (s.updLink f).directory = s.directory := rfl
@[simp] theorem updLink_laneMap (s : State) (f : Link → Link) : (s.updLink f).laneMap = s.laneMap := rfl
@[simp] theorem updLink_store (s : State) (f : Link → Link) : (s.updLink f).store = s.store := rfl
@[simp] theorem updLink_contexts (s : State) (f : Link → Link) : (s.updLink f).contexts = s.contexts := rfl
@[simp] theorem updLink_slots (s : State) (f : Link → Link) : (s.updLink f).slots = s.slots := rfl
@[simp] theorem updLink_earlyLow (s : State) (f : Link → Link) : (s.updLink f).earlyLow = s.earlyLow := rfl
@[simp] theorem updLink_earlyConsumed (s : State) (f : Link → Link) : (s.updLink f).earlyConsumed = s.earlyConsumed := rfl
@[simp] theorem updLink_announcer (s : State) (f : Link → Link) : (s.updLink f).announcer = s.announcer := rfl
@[simp] theorem updLink_link (s : State) (f : Link → Link) : (s.updLink f).link = f s.link := rfl
@[simp] theorem updLink_pending (s : State) (f : Link → Link) : (s.updLink f).pending = s.pending := rfl
@[simp] theorem updLink_ctx (s : State) (f : Link → Link) (c : Fin 16) : (s.updLink f).ctx c = s.ctx c := rfl
@[simp] theorem updLink_slot (s : State) (f : Link → Link) (i : Fin 5) : (s.updLink f).slot i = s.slot i := rfl

/-! ### setCtx and setSlot -/

@[simp] theorem setCtx_intake (s : State) (c : Fin 16) (x : LaneContext) : (s.setCtx c x).intake = s.intake := rfl
@[simp] theorem setCtx_directory (s : State) (c : Fin 16) (x : LaneContext) : (s.setCtx c x).directory = s.directory := rfl
@[simp] theorem setCtx_laneMap (s : State) (c : Fin 16) (x : LaneContext) : (s.setCtx c x).laneMap = s.laneMap := rfl
@[simp] theorem setCtx_store (s : State) (c : Fin 16) (x : LaneContext) : (s.setCtx c x).store = s.store := rfl
@[simp] theorem setCtx_slots (s : State) (c : Fin 16) (x : LaneContext) : (s.setCtx c x).slots = s.slots := rfl
@[simp] theorem setCtx_earlyLow (s : State) (c : Fin 16) (x : LaneContext) : (s.setCtx c x).earlyLow = s.earlyLow := rfl
@[simp] theorem setCtx_earlyConsumed (s : State) (c : Fin 16) (x : LaneContext) : (s.setCtx c x).earlyConsumed = s.earlyConsumed := rfl
@[simp] theorem setCtx_announcer (s : State) (c : Fin 16) (x : LaneContext) : (s.setCtx c x).announcer = s.announcer := rfl
@[simp] theorem setCtx_link (s : State) (c : Fin 16) (x : LaneContext) : (s.setCtx c x).link = s.link := rfl
@[simp] theorem setCtx_pending (s : State) (c : Fin 16) (x : LaneContext) : (s.setCtx c x).pending = s.pending := rfl
@[simp] theorem setCtx_slot (s : State) (c : Fin 16) (x : LaneContext) (i : Fin 5) : (s.setCtx c x).slot i = s.slot i := rfl
@[simp] theorem setSlot_intake (s : State) (i : Fin 5) (x : Slot) : (s.setSlot i x).intake = s.intake := rfl
@[simp] theorem setSlot_directory (s : State) (i : Fin 5) (x : Slot) : (s.setSlot i x).directory = s.directory := rfl
@[simp] theorem setSlot_laneMap (s : State) (i : Fin 5) (x : Slot) : (s.setSlot i x).laneMap = s.laneMap := rfl
@[simp] theorem setSlot_store (s : State) (i : Fin 5) (x : Slot) : (s.setSlot i x).store = s.store := rfl
@[simp] theorem setSlot_contexts (s : State) (i : Fin 5) (x : Slot) : (s.setSlot i x).contexts = s.contexts := rfl
@[simp] theorem setSlot_earlyLow (s : State) (i : Fin 5) (x : Slot) : (s.setSlot i x).earlyLow = s.earlyLow := rfl
@[simp] theorem setSlot_earlyConsumed (s : State) (i : Fin 5) (x : Slot) : (s.setSlot i x).earlyConsumed = s.earlyConsumed := rfl
@[simp] theorem setSlot_announcer (s : State) (i : Fin 5) (x : Slot) : (s.setSlot i x).announcer = s.announcer := rfl
@[simp] theorem setSlot_link (s : State) (i : Fin 5) (x : Slot) : (s.setSlot i x).link = s.link := rfl
@[simp] theorem setSlot_pending (s : State) (i : Fin 5) (x : Slot) : (s.setSlot i x).pending = s.pending := rfl
@[simp] theorem setSlot_ctx (s : State) (i : Fin 5) (x : Slot) (c : Fin 16) : (s.setSlot i x).ctx c = s.ctx c := rfl

/-- Reading a context after a write. -/
theorem ctx_setCtx (s : State) (c d : Fin 16) (x : LaneContext) : (s.setCtx c x).ctx d = if d = c then x else s.ctx d := by
  unfold State.setCtx State.ctx
  by_cases h : d = c
  · subst h
    simp
  · have : (c : Nat) ≠ d := fun e => h (Fin.ext e.symm)
    simp [h, this]

@[simp] theorem ctx_setCtx_self (s : State) (c : Fin 16) (x : LaneContext) : (s.setCtx c x).ctx c = x := by simp [ctx_setCtx]

/-- Reading a slot after a write. -/
theorem slot_setSlot (s : State) (i j : Fin 5) (x : Slot) : (s.setSlot i x).slot j = if j = i then x else s.slot j := by
  unfold State.setSlot State.slot
  by_cases h : j = i
  · subst h
    simp
  · have : (i : Nat) ≠ j := fun e => h (Fin.ext e.symm)
    simp [h, this]

@[simp] theorem slot_setSlot_self (s : State) (i : Fin 5) (x : Slot) : (s.setSlot i x).slot i = x := by simp [slot_setSlot]

theorem slot_updSlot (s : State) (i j : Fin 5) (f : Slot → Slot) :
    (s.updSlot i f).slot j = if j = i then f (s.slot i) else s.slot j := slot_setSlot _ _ _ _

@[simp] theorem slot_updSlot_self (s : State) (i : Fin 5) (f : Slot → Slot) : (s.updSlot i f).slot i = f (s.slot i) := by
  simp [slot_updSlot]

@[simp] theorem updSlot_intake (s : State) (i : Fin 5) (f : Slot → Slot) : (s.updSlot i f).intake = s.intake := rfl
@[simp] theorem updSlot_directory (s : State) (i : Fin 5) (f : Slot → Slot) : (s.updSlot i f).directory = s.directory := rfl
@[simp] theorem updSlot_laneMap (s : State) (i : Fin 5) (f : Slot → Slot) : (s.updSlot i f).laneMap = s.laneMap := rfl
@[simp] theorem updSlot_store (s : State) (i : Fin 5) (f : Slot → Slot) : (s.updSlot i f).store = s.store := rfl
@[simp] theorem updSlot_contexts (s : State) (i : Fin 5) (f : Slot → Slot) : (s.updSlot i f).contexts = s.contexts := rfl
@[simp] theorem updSlot_earlyLow (s : State) (i : Fin 5) (f : Slot → Slot) : (s.updSlot i f).earlyLow = s.earlyLow := rfl
@[simp] theorem updSlot_earlyConsumed (s : State) (i : Fin 5) (f : Slot → Slot) : (s.updSlot i f).earlyConsumed = s.earlyConsumed := rfl
@[simp] theorem updSlot_announcer (s : State) (i : Fin 5) (f : Slot → Slot) : (s.updSlot i f).announcer = s.announcer := rfl
@[simp] theorem updSlot_link (s : State) (i : Fin 5) (f : Slot → Slot) : (s.updSlot i f).link = s.link := rfl
@[simp] theorem updSlot_pending (s : State) (i : Fin 5) (f : Slot → Slot) : (s.updSlot i f).pending = s.pending := rfl
@[simp] theorem updSlot_ctx (s : State) (i : Fin 5) (f : Slot → Slot) (c : Fin 16) : (s.updSlot i f).ctx c = s.ctx c := rfl

/-! ### raise -/

@[simp] theorem raise_intake (a : Attention) (s : State) : (raise a s).intake = s.intake := rfl
@[simp] theorem raise_directory (a : Attention) (s : State) : (raise a s).directory = s.directory := rfl
@[simp] theorem raise_laneMap (a : Attention) (s : State) : (raise a s).laneMap = s.laneMap := rfl
@[simp] theorem raise_store (a : Attention) (s : State) : (raise a s).store = s.store := rfl
@[simp] theorem raise_contexts (a : Attention) (s : State) : (raise a s).contexts = s.contexts := rfl
@[simp] theorem raise_slots (a : Attention) (s : State) : (raise a s).slots = s.slots := rfl
@[simp] theorem raise_earlyLow (a : Attention) (s : State) : (raise a s).earlyLow = s.earlyLow := rfl
@[simp] theorem raise_earlyConsumed (a : Attention) (s : State) : (raise a s).earlyConsumed = s.earlyConsumed := rfl
@[simp] theorem raise_announcer (a : Attention) (s : State) : (raise a s).announcer = s.announcer := rfl
@[simp] theorem raise_pending (a : Attention) (s : State) : (raise a s).pending = s.pending := rfl
@[simp] theorem raise_ctx (a : Attention) (s : State) (c : Fin 16) : (raise a s).ctx c = s.ctx c := rfl
@[simp] theorem raise_slot (a : Attention) (s : State) (i : Fin 5) : (raise a s).slot i = s.slot i := rfl
@[simp] theorem raise_link_answers (a : Attention) (s : State) : (raise a s).link.answers = s.link.answers := rfl
@[simp] theorem raise_link_audio (a : Attention) (s : State) : (raise a s).link.audio = s.link.audio := rfl
@[simp] theorem raise_link_data (a : Attention) (s : State) : (raise a s).link.data = s.link.data := rfl
@[simp] theorem raise_link_labels (a : Attention) (s : State) : (raise a s).link.labels = s.link.labels := rfl
@[simp] theorem raise_link_sending (a : Attention) (s : State) : (raise a s).link.sending = s.link.sending := rfl
@[simp] theorem raise_link_receiver (a : Attention) (s : State) : (raise a s).link.receiver = s.link.receiver := rfl
@[simp] theorem raise_link_orders (a : Attention) (s : State) : (raise a s).link.orders = s.link.orders := rfl
@[simp] theorem raise_link_enable (a : Attention) (s : State) : (raise a s).link.enable = s.link.enable := rfl
@[simp] theorem raise_link_attn (a : Attention) (s : State) : (raise a s).link.attn = s.link.attn := rfl
@[simp] theorem raise_link_breakDetector (a : Attention) (s : State) : (raise a s).link.breakDetector = s.link.breakDetector := rfl
@[simp] theorem raise_link_resetHeld (a : Attention) (s : State) : (raise a s).link.resetHeld = s.link.resetHeld := rfl
@[simp] theorem raise_link_resetCause (a : Attention) (s : State) : (raise a s).link.resetCause = s.link.resetCause := rfl

end Sys2Proof.Machine
end

