-- ==== Sys2Proof/Laws/Memory.lean ====
section
/-! SUPPORT. The cells of the Delay Store: reading after a write, and the canonical form under every operation. -/

namespace Sys2Proof.Machine

theorem wfFrom_weaken {m : Memory} {low high : Nat} (h : low ≤ high) (hm : Memory.wfFrom high m = true) :
    Memory.wfFrom low m = true := by
  cases m with
  | nil => rfl
  | cons p rest =>
    obtain ⟨a, c⟩ := p
    simp only [Memory.wfFrom, Bool.and_eq_true, decide_eq_true_eq] at hm ⊢
    exact ⟨⟨⟨by omega, hm.1.1.2⟩, hm.1.2⟩, hm.2⟩

/-- An address below the bound of a well-formed memory reads as the blank cell. -/
theorem read_below {m : Memory} {low k : Nat} (hm : Memory.wfFrom low m = true) (hk : k < low) : m.read k = StoreCell.blank := by
  induction m generalizing low with
  | nil => rfl
  | cons p rest ih =>
    obtain ⟨a, c⟩ := p
    simp only [Memory.wfFrom, Bool.and_eq_true, decide_eq_true_eq] at hm
    have : a ≠ k := by omega
    simp only [Memory.read, this, if_false]
    exact ih hm.2 (by omega)

theorem wfFrom_put {m : Memory} {low k : Nat} {x : StoreCell} (hm : Memory.wfFrom low m = true) (hlow : low ≤ k)
    (hk : k < cellCount) : Memory.wfFrom low (m.put k x) = true := by
  induction m generalizing low with
  | nil =>
    unfold Memory.put
    split
    · rfl
    · simp_all [Memory.wfFrom]
  | cons p rest ih =>
    obtain ⟨a, c⟩ := p
    have hm' := hm
    simp only [Memory.wfFrom, Bool.and_eq_true, decide_eq_true_eq] at hm
    unfold Memory.put
    split
    · split
      · exact hm'
      · rename_i h1 h2
        simp only [Memory.wfFrom, Bool.and_eq_true, decide_eq_true_eq]
        exact ⟨⟨⟨hlow, hk⟩, h2⟩, ⟨⟨by omega, hm.1.1.2⟩, hm.1.2⟩, hm.2⟩
    · split
      · rename_i h1 h2
        subst h2
        split
        · exact wfFrom_weaken (by omega) hm.2
        · rename_i h3
          simp only [Memory.wfFrom, Bool.and_eq_true, decide_eq_true_eq]
          exact ⟨⟨⟨hlow, hk⟩, h3⟩, hm.2⟩
      · simp only [Memory.wfFrom, Bool.and_eq_true, decide_eq_true_eq]
        exact ⟨⟨⟨hm.1.1.1, hm.1.1.2⟩, hm.1.2⟩, ih hm.2 (by omega)⟩

/-- A write keeps the canonical form. -/
theorem wf_write {m : Memory} {k : Nat} {x : StoreCell} (hm : m.wf = true) : (m.write k x).wf = true := by
  unfold Memory.write
  split
  · exact wfFrom_put hm (Nat.zero_le _) (by assumption)
  · exact hm

theorem read_put {m : Memory} {low k : Nat} {x : StoreCell} (hm : Memory.wfFrom low m = true) (j : Nat) :
    (m.put k x).read j = if j = k then x else m.read j := by
  induction m generalizing low with
  | nil =>
    unfold Memory.put
    by_cases hx : x = StoreCell.blank <;> by_cases hj : j = k <;> simp [hx, hj, Memory.read, eq_comm]
    intro h
    exact absurd h.symm hj
  | cons p rest ih =>
    obtain ⟨a, c⟩ := p
    simp only [Memory.wfFrom, Bool.and_eq_true, decide_eq_true_eq] at hm
    unfold Memory.put
    by_cases h1 : k < a
    · rw [if_pos h1]
      by_cases hx : x = StoreCell.blank
      · rw [if_pos hx]
        by_cases hj : j = k
        · subst hj
          have hne : a ≠ j := by omega
          simp only [Memory.read, hne, if_false, if_true, hx]
          exact read_below hm.2 (by omega)
        · simp [hj]
      · rw [if_neg hx]
        by_cases hj : j = k
        · subst hj
          simp [Memory.read]
        · have : k ≠ j := fun e => hj e.symm
          simp [Memory.read, hj, this]
    · rw [if_neg h1]
      by_cases h2 : k = a
      · rw [if_pos h2]
        by_cases hx : x = StoreCell.blank
        · rw [if_pos hx]
          by_cases hj : j = k
          · subst hj
            simp only [if_true, hx]
            exact read_below hm.2 (by omega)
          · have : a ≠ j := fun e => hj (by omega)
            simp [Memory.read, hj, this]
        · rw [if_neg hx]
          by_cases hj : j = k
          · subst hj
            simp [Memory.read]
          · have h3 : k ≠ j := fun e => hj e.symm
            have h4 : a ≠ j := fun e => hj (by omega)
            simp [Memory.read, hj, h3, h4]
      · rw [if_neg h2]
        by_cases ha : a = j
        · have : j ≠ k := by omega
          simp [Memory.read, ha, this]
        · simp only [Memory.read, ha, if_false]
          exact ih hm.2

/-- Reading after a write. -/
theorem read_write {m : Memory} (hm : m.wf = true) (k j : Nat) (x : StoreCell) :
    (m.write k x).read j = if j = k ∧ k < cellCount then x else m.read j := by
  unfold Memory.write
  by_cases hk : k < cellCount
  · rw [if_pos hk, read_put hm]
    simp [hk]
  · simp [hk]

theorem wf_foldl_write {α : Type} (f : Memory → α → Memory) (hf : ∀ m x, m.wf = true → (f m x).wf = true) (l : List α)
    (m : Memory) (hm : m.wf = true) : (l.foldl f m).wf = true := by
  induction l generalizing m with
  | nil => exact hm
  | cons x rest ih => exact ih _ (hf _ _ hm)

theorem wf_clearColumn {m : Memory} (column : Nat) (hm : m.wf = true) : (clearColumn column m).wf = true :=
  wf_foldl_write _ (fun _ _ h => wf_write h) _ _ hm

/-- Clearing columns keeps the canonical form. -/
theorem wf_clearColumns {s : State} (columns : List Nat) (hs : s.store.cells.wf = true) :
    (clearColumns columns s).store.cells.wf = true := by
  show (columns.foldl (fun m col => clearColumn col m) s.store.cells).wf = true
  exact wf_foldl_write _ (fun _ c h => wf_clearColumn c h) _ _ hs

/-- Clearing a column clears its eight cells and no other (R72). -/
theorem read_clearColumn {m : Memory} (hm : m.wf = true) (c column row : Nat) (hc : column < 384) (hr : row < 8) :
    (clearColumn c m).read (cellAddress column row) =
      if column = c then (m.read (cellAddress column row)).cleared else m.read (cellAddress column row) := by
  have rows : ∀ (l : List Nat) (m : Memory), m.wf = true → (∀ x ∈ l, x < 8) → l.Nodup →
      (l.foldl (fun m r => m.write (cellAddress c r) (m.read (cellAddress c r)).cleared) m).read (cellAddress column row) =
        if column = c ∧ row ∈ l then (m.read (cellAddress column row)).cleared else m.read (cellAddress column row) := by
    intro l
    induction l with
    | nil => intros; simp
    | cons r rest ih =>
      intro m hm hl hd
      have hr8 := hl r List.mem_cons_self
      have hrest := (List.nodup_cons.1 hd).1
      rw [List.foldl_cons, ih _ (wf_write hm) (fun x hx => hl x (List.mem_cons_of_mem _ hx)) (List.nodup_cons.1 hd).2,
        read_write hm]
      unfold cellAddress cellCount
      by_cases h1 : column = c
      · subst h1
        by_cases h2 : row = r
        · subst h2
          simp [hrest]
          omega
        · rw [if_neg (show ¬(8 * column + row = 8 * column + r ∧ _) by omega)]
          simp [h2]
      · rw [if_neg (show ¬(8 * column + row = 8 * c + r ∧ _) by omega)]
        simp [h1]
  unfold clearColumn
  rw [rows _ m hm (fun x hx => List.mem_range.1 hx) List.nodup_range]
  simp [hr]

/-- Clearing columns clears their cells and no other (R72). -/
theorem read_clearColumns {s : State} (columns : List Nat) (hs : s.store.cells.wf = true) {column row : Nat}
    (hc : column < 384) (hr : row < 8) :
    (clearColumns columns s).store.cells.read (cellAddress column row) =
      if column ∈ columns then (s.store.cells.read (cellAddress column row)).cleared
      else s.store.cells.read (cellAddress column row) := by
  show (columns.foldl (fun m col => clearColumn col m) s.store.cells).read _ = _
  generalize s.store.cells = m at *
  induction columns generalizing m with
  | nil => simp
  | cons a rest ih =>
    rw [List.foldl_cons, ih _ (wf_clearColumn a hs), read_clearColumn hs a column row hc hr]
    by_cases h1 : column = a <;> by_cases h2 : column ∈ rest <;> simp [h1, h2, StoreCell.cleared]

theorem wfFrom_wipeTags {m : Memory} {low : Nat} (hm : Memory.wfFrom low m = true) : Memory.wfFrom low (wipeTags m) = true := by
  induction m generalizing low with
  | nil => rfl
  | cons p rest ih =>
    obtain ⟨a, c⟩ := p
    simp only [Memory.wfFrom, Bool.and_eq_true, decide_eq_true_eq] at hm
    unfold wipeTags
    split
    · exact wfFrom_weaken (by omega) (ih hm.2)
    · rename_i h
      simp only [Memory.wfFrom, Bool.and_eq_true, decide_eq_true_eq]
      exact ⟨⟨⟨hm.1.1.1, hm.1.1.2⟩, h⟩, ih hm.2⟩

/-- A break reset keeps the canonical form. -/
theorem wf_wipeTags {m : Memory} (hm : m.wf = true) : (wipeTags m).wf = true := wfFrom_wipeTags hm

/-- After a break reset every cell reads as it did, its tag EMPTY and its erased mark clear. -/
theorem read_wipeTags {m : Memory} {low : Nat} (hm : Memory.wfFrom low m = true) (k : Nat) :
    (wipeTags m).read k = (m.read k).cleared := by
  induction m generalizing low with
  | nil => rfl
  | cons p rest ih =>
    obtain ⟨a, c⟩ := p
    simp only [Memory.wfFrom, Bool.and_eq_true, decide_eq_true_eq] at hm
    unfold wipeTags
    by_cases hc : c.cleared = StoreCell.blank
    · rw [if_pos hc]
      by_cases ha : a = k
      · subst ha
        simp only [Memory.read, if_true, hc]
        exact read_below (wfFrom_wipeTags hm.2) (by omega)
      · simp only [Memory.read, ha, if_false]
        exact ih hm.2
    · rw [if_neg hc]
      by_cases ha : a = k
      · simp [Memory.read, ha]
      · simp only [Memory.read, ha, if_false]
        exact ih hm.2

end Sys2Proof.Machine
end

