-- ==== Sys2Proof/Laws/Change.lean ====
section
/-! SUPPORT. What the inside of a step can do: `Change n` lists the elementary changes up to rank n, `Eff n` is any run of
them. Every operation of the model has one lemma that says it is such a run, from which its frame and the laws follow. The
ranks: 0 contexts, store, index and attention; 1 slots, labels, the held announcement, outbound queues and lines; 2 the power
state; 3 the banks; 4 the candidates and the announcement table; 5 the intake; 6 what only orders change. -/

namespace Sys2Proof.Machine

/-- A context that stays open: it keeps its columns and lane, never starts receiving again, and its counters stay in
range. -/
structure CtxStep (x y : LaneContext) : Prop where
  wasOpen : x.state ≠ .free
  stays : y.state ≠ .free
  columns : y.columns = x.columns
  lane : y.lane? = x.lane?
  receiving : y.receiving = true → x.receiving = true
  score : x.score ≤ 4095 → y.score ≤ 4095
  settle : x.settle ≤ 8 → y.settle ≤ 8
  assembled : x.assembled ≤ 65535 → y.assembled ≤ 65535

/-- A slot whose thresholds and masks are kept, and which takes role FOREGROUND only when no other slot has it. -/
structure SlotStep (s : State) (i : Fin 5) (y : Slot) : Prop where
  thHi : y.thHi = (s.slot i).thHi
  thLo : y.thLo = (s.slot i).thLo
  riseMask : y.riseMask = (s.slot i).riseMask
  fallMask : y.fallMask = (s.slot i).fallMask
  dwell : (s.slot i).dwell ≤ 255 → y.dwell ≤ 255
  role : y.role = some .foreground → (s.slot i).role = some .foreground ∨ (i ≠ 4 ∧ otherForeground s i = false)

/-- A bank after one commit. -/
inductive BankStep (b : Bank) : Bank → Prop
  | lane (e : LaneEntry) : BankStep b (commitLane e b).bank
  | service (e : ServiceEntry) : BankStep b (commitService e b).bank
  | serviceLabel (v : Word16) (text : List Byte) : BankStep b (commitServiceLabel v text b).bank
  | ident (c : IdentContents) : BankStep b (commitIdent c b).bank
  | change (c : ChangeContents) : BankStep b (commitChange c b).bank

/-- The Lane Map's banks, flags and identity after one commit, adoption, swap, stale HEAD or clearing. -/
inductive MapStep (m : LaneMap) : LaneMap → Prop
  | flags (complete ready stale : Bool) (identity : Option Word16) :
    MapStep m { m with complete := complete, ready := ready, stale := stale, identity := identity }
  | active (v : Nat) (h : m.active.serial = some v) (b : Bank) (hb : BankStep m.active b) : MapStep m { m with active := b }
  | pending (v : Nat) (h : m.active.serial ≠ some v) (b : Bank) (hb : BankStep (pendingFor v m.pending) b) :
    MapStep m { m with pending := b }
  | adoptPending (v : Nat) (h : m.active.serial = none) (hp : m.pending.serial = some v) :
    MapStep m { m with active := m.pending, pending := Bank.empty }
  | adoptEmpty (v : Nat) (h : m.active.serial = none) (hp : m.pending.serial ≠ some v) :
    MapStep m { m with active := { Bank.empty with serial := some v } }
  | swap (stale : Bool) : MapStep m { m with active := m.pending, pending := Bank.empty, stale := stale }
  | await (v : Nat) (h : m.active.serial ≠ some v) : MapStep m { m with pending := { Bank.empty with serial := some v } }
  | clear (identity : Option Word16) : MapStep m { LaneMap.reset with identity := identity }

/-- One elementary change of rank at most n. -/
inductive Change (n : Nat) : State → State → Prop
  | raise (a : Attention) (s : State) : Change n s (Machine.raise a s)
  | index (ix : List IndexEntry) (s : State) : Change n s (s.updLaneMap fun m => { m with index := ix })
  | cell (a : Nat) (x : StoreCell) (s : State) :
    Change n s (s.updStore fun d => { d with cells := d.cells.write a x })
  | clear (columns : List Nat) (s : State) : Change n s (clearColumns columns s)
  | ctx (c : Fin 16) (y : LaneContext) (s : State) (h : CtxStep (s.ctx c) y) : Change n s (s.setCtx c y)
  | opened (c : Fin 16) (e : LaneEntry) (first : Count) (s : State) (hfree : (s.ctx c).state = .free)
    (hlane : receivingLane s e.lane = none) (hn : e.n ≤ s.store.free.length) : Change n s (openCtx c e first s)
  | released (c : Fin 16) (s : State) (h : (s.ctx c).state ≠ .free) : Change n s (releaseCtx c s)
  | slot (hn : 1 ≤ n) (i : Fin 5) (y : Slot) (s : State) (h : SlotStep s i y) : Change n s (s.setSlot i y)
  | label (hn : 1 ≤ n) (i : Fin 5) (b : LabelBuffer) (s : State) : Change n s (setLabel i b s)
  | held (hn : 1 ≤ n) (f : Announcer → Announcer) (s : State)
    (h : ∀ a, (f a).power = a.power ∧ (f a).accept = a.accept ∧ (f a).wake = a.wake ∧ (f a).lock = a.lock ∧
      (f a).wakeLine = a.wakeLine) : Change n s (s.updAnnouncer f)
  | audioJoins (hn : 1 ≤ n) (p : FramePacket) (s : State) : Change n s (joinAudio p s)
  | dataJoins (hn : 1 ≤ n) (p : FramePacket) (s : State) : Change n s (joinData p s)
  | labelJoins (hn : 1 ≤ n) (p : LabelPacket) (s : State) : Change n s (joinLabel p s)
  | packetsLeave (hn : 1 ≤ n) (au da : List FramePacket) (la : List LabelPacket) (s : State) (hau : au.Sublist s.link.audio)
    (hda : da.Sublist s.link.data) (hla : la.Sublist s.link.labels) :
    Change n s (s.updLink fun l => { l with audio := au, data := da, labels := la })
  | lines (hn : 1 ≤ n) (s : State) : Change n s (driveLines s)
  | early (hn : 1 ≤ n) (s : State) : Change n s { s with earlyConsumed := true }
  | power (hn : 2 ≤ n) (p : PowerState) (w : Bool) (s : State) :
    Change n s (s.updAnnouncer fun a => { a with power := p, wakeLine := w })
  | banks (hn : 3 ≤ n) (m : LaneMap) (s : State) (h : MapStep s.laneMap m) : Change n s (s.updLaneMap fun _ => m)
  | table (hn : 4 ≤ n) (t : Vector AnnEntry 8) (s : State) : Change n s (s.updDirectory fun d => { d with table := t })
  | candidateLeaves (hn : 4 ≤ n) (r : Record) (s : State) : Change n s (removeCandidate r s)
  | candidateJoins (hn : 4 ≤ n) (r : Record) (s : State) (h : candidateOf s r = none) : Change n s (addCandidate r s)
  | directoryCleared (hn : 4 ≤ n) (s : State) : Change n s (s.updDirectory fun _ => Directory.reset)
  | intake (hn : 5 ≤ n) (f : Intake → Intake) (s : State) (h : (f s.intake).holdoverLimit = s.intake.holdoverLimit) :
    Change n s (s.updIntake f)
  | holdoverLimit (hn : 6 ≤ n) (h : Nat) (hh : 1 ≤ h ∧ h ≤ 255) (s : State) :
    Change n s (s.updIntake fun p => { p with holdoverLimit := h })
  | masks (hn : 6 ≤ n) (a w : Byte) (lock : Bool) (s : State)
    (h : s.announcer.lock = true → lock = true) (ha : lock = true → a.getLsbD 0 = true ∧ w.getLsbD 0 = true) :
    Change n s (s.updAnnouncer fun x => { x with accept := a, wake := w, lock := lock })
  | quality (hn : 6 ≤ n) (i : Fin 5) (hi lo : Nat) (up down : BitVec 3) (s : State) (h : lo < hi ∧ hi ≤ 4095) :
    Change n s (s.updSlot i fun x => { x with thHi := hi, thLo := lo, riseMask := up, fallMask := down })
  | profiles (hn : 6 ≤ n) (p : Vector (List Nat) 4) (s : State) : Change n s (s.updStore fun d => { d with profiles := p })
  | causes (hn : 6 ≤ n) (cs : Vector Cause 9) (e : BitVec 9) (s : State) :
    Change n s (s.updLink fun l => { l with causes := cs, enable := e })

/-- A run of elementary changes of rank at most n. -/
def Eff (n : Nat) : State → State → Prop := Relation.ReflTransGen (Change n)

namespace Eff

variable {n : Nat} {s t u : State}

protected theorem refl (s : State) : Eff n s s := Relation.ReflTransGen.refl

protected theorem trans (h : Eff n s t) (k : Eff n t u) : Eff n s u := Relation.ReflTransGen.trans h k

theorem of (h : Change n s t) : Eff n s t := Relation.ReflTransGen.single h

theorem foldl {α : Type} (f : State → α → State) (hf : ∀ s x, Eff n s (f s x)) (l : List α) (s : State) : Eff n s (l.foldl f s) := by
  induction l generalizing s with
  | nil => exact Eff.refl _
  | cons x rest ih => exact (hf s x).trans (ih _)

theorem foldlFst {α β : Type} (f : State × β → α → State × β) (hf : ∀ a x, Eff n a.1 (f a x).1) (l : List α) (a : State × β) :
    Eff n a.1 (l.foldl f a).1 := by
  induction l generalizing a with
  | nil => exact Eff.refl _
  | cons x rest ih => exact (hf a x).trans (ih _)

/-- What every change of rank at most n keeps, a run keeps. -/
theorem keeps {α : Type} {f : State → α} (hc : ∀ s t, Change n s t → f t = f s) (h : Eff n s t) : f t = f s := by
  induction h with
  | refl => rfl
  | tail _ k ih => exact (hc _ _ k).trans ih

/-- What every change of rank at most n preserves, a run preserves. -/
theorem preserves {P : State → Prop} (hc : ∀ s t, Change n s t → P s → P t) (h : Eff n s t) (hs : P s) : P t := by
  induction h with
  | refl => exact hs
  | tail _ k ih => exact hc _ _ k ih

end Eff

/-! ### What the ranks keep -/

theorem Change.mono {m n : Nat} {s t : State} (hmn : m ≤ n) (h : Change m s t) : Change n s t := by
  cases h with
  | raise a => exact .raise a _
  | index ix => exact .index ix _
  | cell a x => exact .cell a x _
  | clear columns => exact .clear columns _
  | ctx c y _ h => exact .ctx c y _ h
  | opened c e first _ hfree hlane h => exact .opened c e first _ hfree hlane h
  | released c _ h => exact .released c _ h
  | slot hn i y _ h => exact .slot (hn.trans hmn) i y _ h
  | label hn i b => exact .label (hn.trans hmn) i b _
  | held hn f _ h => exact .held (hn.trans hmn) f _ h
  | audioJoins hn p => exact .audioJoins (hn.trans hmn) p _
  | dataJoins hn p => exact .dataJoins (hn.trans hmn) p _
  | labelJoins hn p => exact .labelJoins (hn.trans hmn) p _
  | packetsLeave hn au da la _ hau hda hla => exact .packetsLeave (hn.trans hmn) au da la _ hau hda hla
  | lines hn => exact .lines (hn.trans hmn) _
  | early hn => exact .early (hn.trans hmn) _
  | power hn p w => exact .power (hn.trans hmn) p w _
  | banks hn m _ h => exact .banks (hn.trans hmn) m _ h
  | table hn t => exact .table (hn.trans hmn) t _
  | candidateLeaves hn r => exact .candidateLeaves (hn.trans hmn) r _
  | candidateJoins hn r _ h => exact .candidateJoins (hn.trans hmn) r _ h
  | directoryCleared hn => exact .directoryCleared (hn.trans hmn) _
  | intake hn f _ h => exact .intake (hn.trans hmn) f _ h
  | holdoverLimit hn h hh => exact .holdoverLimit (hn.trans hmn) h hh _
  | masks hn a w lock _ h ha => exact .masks (hn.trans hmn) a w lock _ h ha
  | quality hn i hi lo up down _ h => exact .quality (hn.trans hmn) i hi lo up down _ h
  | profiles hn p => exact .profiles (hn.trans hmn) p _
  | causes hn cs e => exact .causes (hn.trans hmn) cs e _

theorem Eff.mono {m n : Nat} {s t : State} (hmn : m ≤ n) (h : Eff m s t) : Eff n s t :=
  Relation.ReflTransGen.mono (fun _ _ => Change.mono hmn) _ _ h

theorem joinAudio_fields (p : FramePacket) (s : State) :
    ∃ au cs, joinAudio p s = s.updLink fun l => { l with audio := au, causes := cs } := by
  unfold joinAudio
  split
  · exact ⟨_, _, rfl⟩
  · exact ⟨_, s.link.causes, rfl⟩

theorem joinData_fields (p : FramePacket) (s : State) :
    ∃ da cs, joinData p s = s.updLink fun l => { l with data := da, causes := cs } := by
  unfold joinData
  split
  · exact ⟨s.link.data, _, rfl⟩
  · exact ⟨_, s.link.causes, rfl⟩

theorem joinLabel_fields (p : LabelPacket) (s : State) :
    ∃ la cs, joinLabel p s = s.updLink fun l => { l with labels := la, causes := cs } := by
  unfold joinLabel
  split
  · exact ⟨_, _, rfl⟩
  · exact ⟨_, s.link.causes, rfl⟩

/-- The parts of the Delivery Link that no change inside a step touches. -/
theorem Change.link {n : Nat} {s t : State} (h : Change n s t) :
    t.link.answers = s.link.answers ∧ t.link.orders = s.link.orders ∧ t.link.sending = s.link.sending ∧
      t.link.receiver = s.link.receiver ∧ t.link.breakDetector = s.link.breakDetector ∧
      t.link.resetHeld = s.link.resetHeld ∧ t.link.resetCause = s.link.resetCause := by
  cases h with
  | audioJoins _ p => obtain ⟨_, _, e⟩ := joinAudio_fields p s; rw [e]; simp
  | dataJoins _ p => obtain ⟨_, _, e⟩ := joinData_fields p s; rw [e]; simp
  | labelJoins _ p => obtain ⟨_, _, e⟩ := joinLabel_fields p s; rw [e]; simp
  | _ => exact ⟨rfl, rfl, rfl, rfl, rfl, rfl, rfl⟩

theorem Change.pending {n : Nat} {s t : State} (h : Change n s t) : t.pending = s.pending := by
  cases h with
  | audioJoins _ p => obtain ⟨_, _, e⟩ := joinAudio_fields p s; rw [e]; rfl
  | dataJoins _ p => obtain ⟨_, _, e⟩ := joinData_fields p s; rw [e]; rfl
  | labelJoins _ p => obtain ⟨_, _, e⟩ := joinLabel_fields p s; rw [e]; rfl
  | _ => rfl

theorem Change.earlyLow {n : Nat} {s t : State} (h : Change n s t) : t.earlyLow = s.earlyLow := by
  cases h with
  | audioJoins _ p => obtain ⟨_, _, e⟩ := joinAudio_fields p s; rw [e]; rfl
  | dataJoins _ p => obtain ⟨_, _, e⟩ := joinData_fields p s; rw [e]; rfl
  | labelJoins _ p => obtain ⟨_, _, e⟩ := joinLabel_fields p s; rw [e]; rfl
  | _ => rfl

/-- Below rank 5 the intake is kept. -/
theorem Change.intake_eq {n : Nat} {s t : State} (hn : n < 5) (h : Change n s t) : t.intake = s.intake := by
  cases h with
  | audioJoins _ p => obtain ⟨_, _, e⟩ := joinAudio_fields p s; rw [e]; rfl
  | dataJoins _ p => obtain ⟨_, _, e⟩ := joinData_fields p s; rw [e]; rfl
  | labelJoins _ p => obtain ⟨_, _, e⟩ := joinLabel_fields p s; rw [e]; rfl
  | intake => omega
  | holdoverLimit => omega
  | _ => rfl

/-- Below rank 4 the candidates and the announcement table are kept. -/
theorem Change.directory_eq {n : Nat} {s t : State} (hn : n < 4) (h : Change n s t) :
    t.directory.candidates = s.directory.candidates ∧ t.directory.table = s.directory.table := by
  cases h with
  | audioJoins _ p => obtain ⟨_, _, e⟩ := joinAudio_fields p s; rw [e]; exact ⟨rfl, rfl⟩
  | dataJoins _ p => obtain ⟨_, _, e⟩ := joinData_fields p s; rw [e]; exact ⟨rfl, rfl⟩
  | labelJoins _ p => obtain ⟨_, _, e⟩ := joinLabel_fields p s; rw [e]; exact ⟨rfl, rfl⟩
  | table => omega
  | candidateLeaves => omega
  | candidateJoins => omega
  | directoryCleared => omega
  | _ => exact ⟨rfl, rfl⟩

/-- Below rank 3 the Lane Map is kept but for its index. -/
theorem Change.laneMap_eq {n : Nat} {s t : State} (hn : n < 3) (h : Change n s t) :
    { t.laneMap with index := s.laneMap.index } = s.laneMap := by
  cases h with
  | audioJoins _ p => obtain ⟨_, _, e⟩ := joinAudio_fields p s; rw [e]; rfl
  | dataJoins _ p => obtain ⟨_, _, e⟩ := joinData_fields p s; rw [e]; rfl
  | labelJoins _ p => obtain ⟨_, _, e⟩ := joinLabel_fields p s; rw [e]; rfl
  | banks => omega
  | _ => rfl

/-- At rank 0 the announcer, the directory and the outbound queues are kept. -/
theorem Change.rank0 {s t : State} (h : Change 0 s t) :
    t.announcer = s.announcer ∧ t.directory = s.directory ∧ t.earlyConsumed = s.earlyConsumed ∧
      t.link = { s.link with causes := t.link.causes } := by
  cases h with
  | slot => omega
  | label => omega
  | held => omega
  | audioJoins => omega
  | dataJoins => omega
  | labelJoins => omega
  | packetsLeave => omega
  | lines => omega
  | early => omega
  | power => omega
  | banks => omega
  | table => omega
  | candidateLeaves => omega
  | candidateJoins => omega
  | directoryCleared => omega
  | intake => omega
  | holdoverLimit => omega
  | masks => omega
  | quality => omega
  | profiles => omega
  | causes => omega
  | _ => exact ⟨rfl, rfl, rfl, rfl⟩

/-- A slot without its roles. -/
def Slot.outline (x : Slot) : Slot := { x with roles := Vector.replicate 5 RoleRef.none }

@[simp] theorem dropOutgoingCtx_outline (c : Fin 16) (s : State) (i : Fin 5) :
    ((dropOutgoingCtx c s).slot i).outline = (s.slot i).outline := by
  simp [dropOutgoingCtx, State.slot, Slot.outline]

/-- At rank 0 every slot is kept but for its roles. -/
theorem Change.outline {s t : State} (h : Change 0 s t) (i : Fin 5) : (t.slot i).outline = (s.slot i).outline := by
  cases h with
  | released c => exact dropOutgoingCtx_outline c _ i
  | slot => omega
  | label => omega
  | held => omega
  | audioJoins => omega
  | dataJoins => omega
  | labelJoins => omega
  | packetsLeave => omega
  | lines => omega
  | early => omega
  | power => omega
  | banks => omega
  | table => omega
  | candidateLeaves => omega
  | candidateJoins => omega
  | directoryCleared => omega
  | intake => omega
  | holdoverLimit => omega
  | masks => omega
  | quality => omega
  | profiles => omega
  | causes => omega
  | _ => rfl

theorem Eff.outline {s t : State} (h : Eff 0 s t) (i : Fin 5) : (t.slot i).outline = (s.slot i).outline :=
  h.keeps (f := fun s => (s.slot i).outline) fun _ _ k => k.outline i

theorem Eff.intake {n : Nat} {s t : State} (hn : n < 5) (h : Eff n s t) : t.intake = s.intake :=
  h.keeps (f := State.intake) fun _ _ k => k.intake_eq hn

theorem Eff.candidates {n : Nat} {s t : State} (hn : n < 4) (h : Eff n s t) : t.directory.candidates = s.directory.candidates :=
  h.keeps (f := fun s => s.directory.candidates) fun _ _ k => (k.directory_eq hn).1

theorem Eff.table {n : Nat} {s t : State} (hn : n < 4) (h : Eff n s t) : t.directory.table = s.directory.table :=
  h.keeps (f := fun s => s.directory.table) fun _ _ k => (k.directory_eq hn).2

theorem Eff.earlyLow {n : Nat} {s t : State} (h : Eff n s t) : t.earlyLow = s.earlyLow :=
  h.keeps (f := State.earlyLow) fun _ _ k => k.earlyLow

theorem Eff.pending {n : Nat} {s t : State} (h : Eff n s t) : t.pending = s.pending :=
  h.keeps (f := State.pending) fun _ _ k => k.pending

theorem Eff.answers {n : Nat} {s t : State} (h : Eff n s t) : t.link.answers = s.link.answers :=
  h.keeps (f := fun s => s.link.answers) fun _ _ k => k.link.1

theorem Eff.orders {n : Nat} {s t : State} (h : Eff n s t) : t.link.orders = s.link.orders :=
  h.keeps (f := fun s => s.link.orders) fun _ _ k => k.link.2.1

theorem Eff.sending {n : Nat} {s t : State} (h : Eff n s t) : t.link.sending = s.link.sending :=
  h.keeps (f := fun s => s.link.sending) fun _ _ k => k.link.2.2.1

theorem Eff.receiver {n : Nat} {s t : State} (h : Eff n s t) : t.link.receiver = s.link.receiver :=
  h.keeps (f := fun s => s.link.receiver) fun _ _ k => k.link.2.2.2.1

theorem Eff.running {n : Nat} {s t : State} (h : Eff n s t) : t.running = s.running :=
  h.keeps (f := State.running) fun _ _ k => by simp [State.running, k.link.2.2.2.2.1, k.link.2.2.2.2.2.1]

/-- The Lane Map but for its position index. -/
def LaneMap.withoutIndex (m : LaneMap) : LaneMap := { m with index := [] }

theorem Eff.laneMap {n : Nat} {s t : State} (hn : n < 3) (h : Eff n s t) : t.laneMap.withoutIndex = s.laneMap.withoutIndex :=
  h.keeps (f := fun s => s.laneMap.withoutIndex) fun _ _ k => by
    have := congrArg LaneMap.withoutIndex (k.laneMap_eq hn)
    exact this

theorem Eff.active {n : Nat} {s t : State} (hn : n < 3) (h : Eff n s t) : t.laneMap.active = s.laneMap.active :=
  by
    have := congrArg LaneMap.active (h.laneMap hn)
    exact this

theorem Eff.announcer0 {s t : State} (h : Eff 0 s t) : t.announcer = s.announcer :=
  h.keeps (f := State.announcer) fun _ _ k => k.rank0.1

theorem Eff.directory0 {s t : State} (h : Eff 0 s t) : t.directory = s.directory :=
  h.keeps (f := State.directory) fun _ _ k => k.rank0.2.1

end Sys2Proof.Machine
end

