-- ==== Sys2Proof/Laws/Ops.lean ====
section
/-! SUPPORT. The shared operations of Ops as runs of elementary changes, and what the searches over contexts and entries
find. -/

namespace Sys2Proof.Machine

variable {n : Nat}

theorem raise_eff (a : Attention) (s : State) : Eff n s (raise a s) := .of (.raise a s)

theorem rebuildIndex_eff (s : State) : Eff n s (rebuildIndex s) := .of (.index _ s)

theorem clearColumns_eff (columns : List Nat) (s : State) : Eff n s (clearColumns columns s) := .of (.clear columns s)

theorem joinAudio_eff (hn : 1 ≤ n) (p : FramePacket) (s : State) : Eff n s (joinAudio p s) := .of (.audioJoins hn p s)

theorem joinData_eff (hn : 1 ≤ n) (p : FramePacket) (s : State) : Eff n s (joinData p s) := .of (.dataJoins hn p s)

theorem joinLabel_eff (hn : 1 ≤ n) (p : LabelPacket) (s : State) : Eff n s (joinLabel p s) := .of (.labelJoins hn p s)

theorem setLabel_eff (hn : 1 ≤ n) (i : Fin 5) (b : LabelBuffer) (s : State) : Eff n s (setLabel i b s) := .of (.label hn i b s)

theorem emptyLabel_eff (hn : 1 ≤ n) (i : Fin 5) (s : State) : Eff n s (emptyLabel i s) := setLabel_eff hn i _ s

theorem removeSlotPackets_eff (hn : 1 ≤ n) (i : Fin 5) (s : State) : Eff n s (removeSlotPackets i s) :=
  .of (.packetsLeave hn _ _ _ s List.filter_sublist List.filter_sublist List.filter_sublist)

theorem updSlot_eff (hn : 1 ≤ n) {i : Fin 5} {f : Slot → Slot} {s : State} (h : SlotStep s i (f (s.slot i))) :
    Eff n s (s.updSlot i f) := .of (.slot hn i _ s h)

/-- A slot update that keeps thresholds, masks and role, and keeps the dwell or sets it within its range. -/
theorem SlotStep.kept {s : State} {i : Fin 5} {y : Slot} (h1 : y.thHi = (s.slot i).thHi) (h2 : y.thLo = (s.slot i).thLo)
    (h3 : y.riseMask = (s.slot i).riseMask) (h4 : y.fallMask = (s.slot i).fallMask)
    (hd : y.dwell = (s.slot i).dwell ∨ y.dwell ≤ 255) (hr : y.role = (s.slot i).role ∨ y.role ≠ some .foreground) :
    SlotStep s i y :=
  ⟨h1, h2, h3, h4, fun h => hd.elim (fun e => e ▸ h) id, fun h => hr.elim (fun e => .inl (e ▸ h)) (fun k => absurd h k)⟩

theorem enterSlotState_eff (hn : 1 ≤ n) (i : Fin 5) (st : SlotState) (s : State) : Eff n s (enterSlotState i st s) :=
  (updSlot_eff hn (.kept rfl rfl rfl rfl (.inl rfl) (.inl rfl))).trans (raise_eff _ _)

theorem receiving_ne_free {x : LaneContext} (h : x.receiving = true) : x.state ≠ .free := by
  intro e
  simp [LaneContext.receiving, e] at h

theorem receivingLane_some {s : State} {x : Nat} {c : Fin 16} (h : receivingLane s x = some c) :
    (s.ctx c).receiving = true ∧ (s.ctx c).lane? = some x := by
  have := List.find?_some h
  simpa using this

theorem mem_ctxIds (c : Fin 16) : c ∈ ctxIds := by
  revert c
  decide

/-- No context in FILLING or RUNNING holds the lane when none is found. -/
theorem receivingLane_none {s : State} {x : Nat} (h : receivingLane s x = none) (c : Fin 16)
    (hc : (s.ctx c).receiving = true) : (s.ctx c).lane? ≠ some x := by
  have := List.find?_eq_none.1 h c (mem_ctxIds c)
  simpa [hc] using this

theorem freeCtx_some {s : State} {c : Fin 16} (h : freeCtx s = some c) : (s.ctx c).state = .free := by
  have := List.find?_some h
  simpa using this

theorem lane?_some {b : Bank} {x : Nat} {e : LaneEntry} (h : b.lane? x = some e) : e.lane = x := by
  have := List.find?_some h
  simpa using this

theorem service?_some {b : Bank} {v : Word16} {e : ServiceEntry} (h : b.service? v = some e) : e.service = v := by
  have := List.find?_some h
  simpa using this

theorem addRef_eff {c : Fin 16} {s : State} (h : (s.ctx c).state ≠ .free) : Eff n s (addRef c s) :=
  .of (.ctx c _ s ⟨h, h, rfl, rfl, id, id, id, id⟩)

/-- A request changes nothing, adds a reference, or opens a context (R87). -/
theorem requestCtx_eff (x : Nat) (first : Count) (s : State) : Eff n s (requestCtx x first s).2 := by
  unfold requestCtx
  split
  · rename_i c h
    exact addRef_eff (receiving_ne_free (receivingLane_some h).1)
  · rename_i h
    split
    · exact .refl _
    · rename_i e he
      split
      · exact .refl _
      · rename_i c hc
        split
        · exact .refl _
        · rename_i hcols
          exact .of (.opened c e first s (freeCtx_some hc) (by rw [lane?_some he]; exact h) (by omega))

theorem dropRef_eff (c : Fin 16) (s : State) : Eff n s (dropRef c s) := by
  unfold dropRef
  split
  · exact .refl _
  · rename_i h
    have h1 : Eff n s (s.setCtx c { s.ctx c with refs := (s.ctx c).refs - 1 }) :=
      .of (.ctx c _ s ⟨h, h, rfl, rfl, id, id, id, id⟩)
    dsimp only
    split
    · refine h1.trans (.of (.released c _ ?_))
      rw [ctx_setCtx_self]
      exact h
    · exact h1

theorem dropReference_eff (ref : Ref) (s : State) : Eff n s (dropReference ref s) := by
  unfold dropReference
  split
  · exact dropRef_eff _ _
  · exact .refl _

theorem dropReferences_eff (x : Slot) (s : State) : Eff n s (dropReferences x s) :=
  Eff.foldl _ (fun _ _ => dropReference_eff _ _) _ _

/-- At rank 0 the role of a slot is kept. -/
theorem Eff.role0 {s t : State} (h : Eff 0 s t) (i : Fin 5) : (t.slot i).role = (s.slot i).role :=
  by
    have := congrArg Slot.role (h.outline i)
    exact this

/-! ### What each operation does to one context, one slot or one cause -/

/-- Raising a cause sets its place and no other (R171). -/
theorem raise_cause (a : Attention) (s : State) (p : Fin 9) :
    (raise a s).link.causes[p] = if p = a.place then { pending := true, detail := some a } else s.link.causes[p] := by
  unfold raise
  simp only [updLink_link, Fin.getElem_fin]
  rw [Vector.getElem_set]
  by_cases h : p = a.place
  · subst h
    simp
  · rw [if_neg h, if_neg fun e => h (Fin.ext e.symm)]

@[simp] theorem dropOutgoingCtx_ctx (c d : Fin 16) (s : State) : (dropOutgoingCtx c s).ctx d = s.ctx d := rfl

@[simp] theorem rebuildIndex_ctx (d : Fin 16) (s : State) : (rebuildIndex s).ctx d = s.ctx d := rfl

@[simp] theorem clearColumns_ctx (columns : List Nat) (d : Fin 16) (s : State) : (clearColumns columns s).ctx d = s.ctx d := rfl

/-- A release frees its context and leaves every other (R91). -/
theorem releaseCtx_ctx (c d : Fin 16) (s : State) :
    (releaseCtx c s).ctx d = if d = c then LaneContext.free else s.ctx d := by
  unfold releaseCtx
  dsimp only
  rw [dropOutgoingCtx_ctx, rebuildIndex_ctx, ctx_setCtx]
  rfl

/-- What every step of a fold keeps, the fold keeps. -/
theorem foldl_keeps {α β : Type} (p : State → β) (f : State → α → State) (hf : ∀ s a, p (f s a) = p s) (l : List α)
    (s : State) : p (l.foldl f s) = p s := by
  induction l generalizing s with
  | nil => rfl
  | cons a rest ih => exact (ih _).trans (hf s a)

/-- A fold whose every step changes its own item alone, by g, changes just the items of the list. -/
theorem foldl_own {ι β : Type} [DecidableEq ι] (get : State → ι → β) (f : State → ι → State) (g : β → β)
    (hf : ∀ s x y, get (f s y) x = if x = y then g (get s x) else get s x) (l : List ι) (hl : l.Nodup) (s : State) (x : ι) :
    get (l.foldl f s) x = if x ∈ l then g (get s x) else get s x := by
  induction l generalizing s with
  | nil => simp
  | cons y rest ih =>
    rw [List.foldl_cons, ih (List.nodup_cons.1 hl).2, hf]
    by_cases h : x = y
    · subst h
      simp [(List.nodup_cons.1 hl).1]
    · simp [h]

theorem ctxIds_nodup : ctxIds.Nodup := by decide

/-! ### Giving up references (R90) -/

/-- A reference given up touches its own context alone: a FREE one stays, a FILLING or RUNNING one whose count falls to 0 is
released, any other loses one count. -/
theorem dropRef_ctx (c d : Fin 16) (s : State) : (dropRef c s).ctx d =
    if d ≠ c ∨ (s.ctx c).state = .free then s.ctx d
    else if (s.ctx c).receiving = true ∧ (s.ctx c).refs ≤ 1 then LaneContext.free
    else { s.ctx c with refs := (s.ctx c).refs - 1 } := by
  unfold dropRef
  by_cases hf : (s.ctx c).state = .free
  · rw [if_pos hf, if_pos (.inr hf)]
  · rw [if_neg hf]
    dsimp only
    rw [ctx_setCtx_self]
    by_cases hd : d = c
    · subst hd
      have hn : ¬(d ≠ d ∨ (s.ctx d).state = .free) := by simp [hf]
      rw [if_neg hn]
      by_cases hr : (s.ctx d).receiving = true ∧ (s.ctx d).refs ≤ 1
      · have h0 : (s.ctx d).refs - 1 = 0 := by omega
        rw [if_pos hr, if_pos ⟨hr.1, h0⟩, releaseCtx_ctx, if_pos rfl]
      · rw [if_neg hr, if_neg ?_, ctx_setCtx_self]
        rintro ⟨k, h⟩
        have h0 : (s.ctx d).refs - 1 = 0 := h
        exact hr ⟨k, by omega⟩
    · rw [if_pos (Or.inl hd)]
      have kept : (s.setCtx c { s.ctx c with refs := (s.ctx c).refs - 1 }).ctx d = s.ctx d := by rw [ctx_setCtx, if_neg hd]
      by_cases hr : LaneContext.receiving { s.ctx c with refs := (s.ctx c).refs - 1 } = true ∧ (s.ctx c).refs - 1 = 0
      · rw [if_pos hr, releaseCtx_ctx, if_neg hd, kept]
      · rw [if_neg hr, kept]

/-- What a slot's references, given up one after another, leave of a context: so many counts less, or FREE. -/
theorem dropAll_ctx (x : Slot) (c : Fin 16) (l : List RoleIx) (s : State) :
    (l.foldl (fun s r => dropReference (x.roleRef r).ref s) s).ctx c =
      let held := (l.filter fun r => (x.roleRef r).ref == .context c).length
      if (s.ctx c).receiving = true ∧ 0 < held ∧ (s.ctx c).refs ≤ held then LaneContext.free
      else if (s.ctx c).state = .free then s.ctx c
      else { s.ctx c with refs := (s.ctx c).refs - held } := by
  induction l generalizing s with
  | nil =>
    dsimp only [List.foldl_nil, List.filter_nil, List.length_nil]
    rw [if_neg (by omega)]
    split <;> rfl
  | cons r rest ih =>
    rw [List.foldl_cons, ih]
    by_cases hr : (x.roleRef r).ref = .context c
    · have hstep := dropRef_ctx c c s
      rw [show dropReference (x.roleRef r).ref s = dropRef c s by rw [hr]; rfl, hstep, List.filter_cons_of_pos (by simpa using hr), List.length_cons]
      dsimp only
      by_cases hf : (s.ctx c).state = .free
      · have hn : (s.ctx c).receiving = false := by simp [LaneContext.receiving, hf]
        simp [hf, hn]
      · by_cases hk : (s.ctx c).receiving = true ∧ (s.ctx c).refs ≤ 1
        · simp only [hf, ne_eq, not_true_eq_false, or_self, if_false, if_pos hk]
          rw [if_neg (by simp [LaneContext.receiving, LaneContext.free]), if_pos (show LaneContext.free.state = .free from rfl),
            if_pos ⟨hk.1, by omega, by omega⟩]
        · simp only [hf, ne_eq, not_true_eq_false, or_self, if_false, if_neg hk]
          by_cases hrec : (s.ctx c).receiving = true
          · have : 1 < (s.ctx c).refs := by
              by_contra h
              exact hk ⟨hrec, by omega⟩
            have e : LaneContext.receiving { s.ctx c with refs := (s.ctx c).refs - 1 } = true := hrec
            simp only [e, hrec, true_and]
            split <;> split
            · rfl
            · omega
            · omega
            · simp [Nat.sub_sub, Nat.add_comm]
          · have e : LaneContext.receiving { s.ctx c with refs := (s.ctx c).refs - 1 } = false := Bool.eq_false_iff.2 hrec
            rw [if_neg (by simp [e]), if_neg (by simp [hrec])]
            simp [Nat.sub_sub, Nat.add_comm]
    · have hstep : (dropReference (x.roleRef r).ref s).ctx c = s.ctx c := by
        unfold dropReference
        split
        · rename_i d hd
          rw [dropRef_ctx, if_pos (.inl fun h => hr (by rw [hd, h]))]
        · rfl
      rw [hstep, List.filter_cons_of_neg (by simpa using hr)]

/-- What giving up a slot's references leaves of a context (R124 step 1). -/
theorem dropReferences_ctx (x : Slot) (c : Fin 16) (s : State) : (dropReferences x s).ctx c =
    let held := (roleIxs.filter fun r => (x.roleRef r).ref == .context c).length
    if (s.ctx c).receiving = true ∧ 0 < held ∧ (s.ctx c).refs ≤ held then LaneContext.free
    else if (s.ctx c).state = .free then s.ctx c
    else { s.ctx c with refs := (s.ctx c).refs - held } := dropAll_ctx x c roleIxs s

end Sys2Proof.Machine
end

