-- ==== Sys2Proof/Laws/Selection.lean ====
section
/-! SUPPORT. The operations of the Selection Controller as runs of elementary changes. -/

namespace Sys2Proof.Machine

variable {n : Nat}

theorem shareStep_eff (acc : State × Refs) (rl : RoleIx × Nat) : Eff n acc.1 (shareStep acc rl).1 := by
  unfold shareStep
  split
  · rename_i c h
    exact addRef_eff (receiving_ne_free (receivingLane_some h).1)
  · exact .refl _

theorem openStep_eff (first : Count) (acc : State × Refs) (rl : RoleIx × Nat) : Eff n acc.1 (openStep first acc rl).1 := by
  unfold openStep
  split
  · exact .refl _
  · exact requestCtx_eff _ _ _

theorem giveUpSlot_eff (hn : 1 ≤ n) (i : Fin 5) (s : State) : Eff n s (giveUpSlot i s) :=
  (dropReferences_eff _ _).trans (updSlot_eff hn (.kept rfl rfl rfl rfl (.inl rfl) (.inl rfl)))

theorem giveUpRefs_eff (hn : 1 ≤ n) (i : Fin 5) (s : State) : Eff n s (giveUpRefs i s) :=
  (dropReferences_eff _ _).trans (updSlot_eff hn (.kept rfl rfl rfl rfl (.inl rfl) (.inl rfl)))

theorem giveUpSlot_role (i j : Fin 5) (s : State) : ((giveUpSlot i s).slot j).role = (s.slot j).role := by
  unfold giveUpSlot
  rw [slot_updSlot]
  have h := (dropReferences_eff (n := 0) (s.slot i) s).role0
  split
  · rename_i e
    rw [e]
    exact h i
  · exact h j

/-- The foreground test depends on the roles alone. -/
theorem otherForeground_congr {s t : State} (h : ∀ j, (t.slot j).role = (s.slot j).role) (i : Fin 5) :
    otherForeground t i = otherForeground s i := by
  simp [otherForeground, h]

theorem setOpened_eff (hn : 1 ≤ n) (i : Fin 5) (service : Word16) (role : Option Role) (wantTwin wantData : Bool) (refs : Refs)
    (s : State)
    (hr : role = some .foreground → (s.slot i).role = some .foreground ∨ (i ≠ 4 ∧ otherForeground s i = false)) :
    Eff n s (setOpened i service role wantTwin wantData refs s) :=
  (updSlot_eff hn ⟨rfl, rfl, rfl, rfl, fun _ => by simp [openedSlot], hr⟩).trans (raise_eff _ _)

theorem selectPresent_eff (hn : 1 ≤ n) (i : Fin 5) (e : ServiceEntry) (role : Option Role) (wantTwin wantData : Bool) (s : State)
    (hr : role = some .foreground → (s.slot i).role = some .foreground ∨ (i ≠ 4 ∧ otherForeground s i = false)) :
    Eff n s (selectPresent i e role wantTwin wantData s).2.2 := by
  have hshared : ∀ m, Eff m s ((wantedRoles i e wantTwin wantData).foldl shareStep (s, noRefs)).1 := fun m =>
    Eff.foldlFst (a := (s, noRefs)) shareStep (fun _ _ => shareStep_eff _ _) _
  unfold selectPresent
  dsimp only
  generalize (wantedRoles i e wantTwin wantData).foldl shareStep (s, noRefs) = shared at *
  have hopen : ∀ m, Eff m (removeSlotPackets i (giveUpSlot i shared.1))
      ((wantedRoles i e wantTwin wantData).foldl (openStep (nextFrameCount s)) (removeSlotPackets i (giveUpSlot i shared.1), shared.2)).1 :=
    fun m => Eff.foldlFst (a := (removeSlotPackets i (giveUpSlot i shared.1), shared.2)) _ (fun _ _ => openStep_eff _ _ _) _
  generalize (wantedRoles i e wantTwin wantData).foldl (openStep (nextFrameCount s))
    (removeSlotPackets i (giveUpSlot i shared.1), shared.2) = opened at *
  have hroles : ∀ j, (opened.1.slot j).role = (s.slot j).role := fun j =>
    ((hopen 0).role0 j).trans ((giveUpSlot_role i j shared.1).trans ((hshared 0).role0 j))
  refine (hshared n).trans ((giveUpSlot_eff hn _ _).trans ((removeSlotPackets_eff hn _ _).trans ((hopen n).trans
    ((setOpened_eff hn _ _ _ _ _ _ _ fun h => ?_).trans (emptyLabel_eff hn _ _)))))
  rw [hroles, otherForeground_congr hroles]
  exact hr h

theorem openHeldSlot_eff (hn : 1 ≤ n) (i : Fin 5) (e : ServiceEntry) (first : Count) (s : State) :
    Eff n s (openHeldSlot i e first s) := by
  have hopened : ∀ m, Eff m s ((wantedRoles i e (s.slot i).wantTwin (s.slot i).wantData).foldl (openStep first)
      ((wantedRoles i e (s.slot i).wantTwin (s.slot i).wantData).foldl shareStep (s, noRefs))).1 := fun m =>
    (Eff.foldlFst (a := (s, noRefs)) shareStep (fun _ _ => shareStep_eff _ _) _).trans
      (Eff.foldlFst _ (fun _ _ => openStep_eff _ _ _) _ _)
  refine (hopened n).trans (setOpened_eff hn _ _ _ _ _ _ _ fun h => .inl ?_)
  rw [(hopened 0).role0]
  exact h

theorem suspendRoom_eff (hn : 1 ≤ n) (i : Fin 5) (s : State) : Eff n s (suspendRoom i s) :=
  (updSlot_eff hn (.kept rfl rfl rfl rfl (.inl rfl) (.inl rfl))).trans (enterSlotState_eff hn _ _ _)

theorem becomeWaiting_eff (hn : 1 ≤ n) (i : Fin 5) (s : State) : Eff n s (becomeWaiting i s) :=
  (updSlot_eff hn (.kept rfl rfl rfl rfl (.inl rfl) (.inl rfl))).trans (enterSlotState_eff hn _ _ _)

theorem reopenSlot_eff (hn : 1 ≤ n) (i : Fin 5) (s : State) : Eff n s (reopenSlot i s) := by
  unfold reopenSlot
  split
  · exact becomeWaiting_eff hn _ _
  · split
    · exact openHeldSlot_eff hn _ _ _ _
    · exact suspendRoom_eff hn _ _

theorem openWaitingSlots_eff (hn : 1 ≤ n) (s : State) : Eff n s (openWaitingSlots s) :=
  Eff.foldl _ (fun s i => by
    split
    · exact reopenSlot_eff hn _ _
    · exact .refl _) _ _

theorem revertSource_step (s : State) (i : Fin 5) : SlotStep s i (revertSource s (s.slot i)) := by
  unfold revertSource
  split
  · exact .kept rfl rfl rfl rfl (.inr (by simp)) (.inl rfl)
  · exact .kept rfl rfl rfl rfl (.inl rfl) (.inl rfl)

theorem stateCheck_eff (hn : 1 ≤ n) (i : Fin 5) (s : State) : Eff n s (stateCheck i s) := by
  have h1 : Eff n s (s.updSlot i (revertSource s)) := updSlot_eff hn (revertSource_step s i)
  unfold stateCheck
  dsimp only
  split
  · split
    · exact h1.trans (enterSlotState_eff hn _ _ _)
    · exact h1
  · exact h1

theorem stateChecks_eff (hn : 1 ≤ n) (s : State) : Eff n s (stateChecks s) :=
  Eff.foldl _ (fun _ _ => stateCheck_eff hn _ _) _ _

/-- The state checks touch no context and no cell (R131). -/
theorem stateChecks_outside (s : State) : (stateChecks s).contexts = s.contexts ∧ (stateChecks s).store = s.store := by
  have one : ∀ (v : State) (i : Fin 5), (stateCheck i v).contexts = v.contexts ∧ (stateCheck i v).store = v.store := by
    intro v i
    unfold stateCheck
    dsimp only
    split
    · split <;> exact ⟨rfl, rfl⟩
    · exact ⟨rfl, rfl⟩
  exact ⟨foldl_keeps State.contexts _ (fun v i => (one v i).1) _ _, foldl_keeps State.store _ (fun v i => (one v i).2) _ _⟩

/-- Setting one reference of a slot keeps what a slot change must keep. -/
theorem setRef_step (s : State) (i : Fin 5) (r : RoleIx) (ref : Ref) : SlotStep s i ((s.slot i).setRef r ref) :=
  .kept rfl rfl rfl rfl (.inl rfl) (.inl rfl)

theorem setRef_eff (hn : 1 ≤ n) (i : Fin 5) (r : RoleIx) (ref : Ref) (s : State) :
    Eff n s (s.updSlot i fun x => x.setRef r ref) := updSlot_eff hn (setRef_step s i r ref)

theorem retryRole_eff (hn : 1 ≤ n) (i : Fin 5) (first : Count) (s : State) (r : RoleIx) : Eff n s (retryRole i first s r) := by
  unfold retryRole
  split
  · dsimp only
    split
    · exact (requestCtx_eff _ _ _).trans (setRef_eff hn _ _ _ _)
    · exact (requestCtx_eff _ _ _).trans (setRef_eff hn _ _ _ _)
    · exact .refl _
  · exact .refl _

theorem retryDeferred_eff (hn : 1 ≤ n) (i : Fin 5) (s : State) : Eff n s (retryDeferred i s) := by
  unfold retryDeferred
  split
  · exact Eff.foldl _ (fun _ _ => retryRole_eff hn _ _ _ _) _ _
  · exact .refl _

theorem retryRoom_eff (hn : 1 ≤ n) (i : Fin 5) (s : State) : Eff n s (retryRoom i s) := by
  unfold retryRoom
  split
  · split
    · exact becomeWaiting_eff hn _ _
    · split
      · exact openHeldSlot_eff hn _ _ _ _
      · exact .refl _
  · exact .refl _

theorem retryPass_eff (hn : 1 ≤ n) (s : State) : Eff n s (retryPass s) :=
  Eff.foldl _ (fun _ _ => by
    split
    · exact retryRoom_eff hn _ _
    · exact retryDeferred_eff hn _ _) _ _

theorem suspendLost_eff (hn : 1 ≤ n) (s : State) : Eff n s (suspendLost s) :=
  Eff.foldl _ (fun _ _ => by
    split
    · exact (updSlot_eff hn (.kept rfl rfl rfl rfl (.inl rfl) (.inl rfl))).trans (enterSlotState_eff hn _ _ _)
    · exact .refl _) _ _

theorem resumeLost_eff (hn : 1 ≤ n) (s : State) : Eff n s (resumeLost s) :=
  Eff.foldl _ (fun _ _ => by
    split
    · exact (updSlot_eff hn (.kept rfl rfl rfl rfl (.inr (by simp)) (.inl rfl))).trans (enterSlotState_eff hn _ _ _)
    · exact .refl _) _ _

theorem setEarly_eff (hn : 1 ≤ n) (i : Fin 5) (b : Bool) (s : State) :
    Eff n s (s.updSlot i fun x => { x with early := b }) := updSlot_eff hn (.kept rfl rfl rfl rfl (.inl rfl) (.inl rfl))

theorem consumeEarly_eff (hn : 1 ≤ n) (i : Fin 5) (s : State) : Eff n s (consumeEarly i s) :=
  (Eff.of (.early hn s)).trans (setEarly_eff hn _ _ _)

theorem selectHeld_eff (hn : 1 ≤ n) (i : Fin 5) (state : SlotState) (parked : Option SlotState) (service : Word16) (role : Role)
    (wantTwin wantData : Bool) (s : State)
    (hr : role = .foreground → (s.slot i).role = some .foreground ∨ (i ≠ 4 ∧ otherForeground s i = false)) :
    Eff n s (selectHeld i state parked service role wantTwin wantData s) := by
  unfold selectHeld
  refine ((giveUpSlot_eff hn _ _).trans (removeSlotPackets_eff hn _ _)).trans
    ((updSlot_eff hn ⟨rfl, rfl, rfl, rfl, fun _ => by simp [heldSlot], fun h => ?_⟩).trans
      ((emptyLabel_eff hn _ _).trans (raise_eff _ _)))
  have hroles : ∀ j, ((removeSlotPackets i (giveUpSlot i s)).slot j).role = (s.slot j).role := fun j => giveUpSlot_role i j s
  rw [hroles, otherForeground_congr hroles]
  exact hr (by simpa [heldSlot] using h)

/-- SELECT keeps to the changes inside a step (R121 to R123). -/
theorem selectSlot_eff (hn : 1 ≤ n) (slot : Byte) (service : Word16) (roleCode wants : Byte) (s : State) :
    Eff n s (selectSlot slot service roleCode wants s).2.2 := by
  unfold selectSlot
  split
  · rename_i hslot
    dsimp only
    split
    · exact .refl _
    · rename_i role _
      split
      · exact .refl _
      · rename_i hbusy
        have hne : (⟨slot.toNat, Nat.lt_succ_of_lt hslot⟩ : Fin 5) ≠ 4 := by
          intro h
          have : slot.toNat = 4 := congrArg Fin.val h
          omega
        have hr : role = .foreground → (s.slot ⟨slot.toNat, Nat.lt_succ_of_lt hslot⟩).role = some .foreground ∨
            ((⟨slot.toNat, Nat.lt_succ_of_lt hslot⟩ : Fin 5) ≠ 4 ∧
              otherForeground s ⟨slot.toNat, Nat.lt_succ_of_lt hslot⟩ = false) := fun h =>
          .inr ⟨hne, by simpa [h] using hbusy⟩
        split
        · exact (selectHeld_eff hn _ _ _ _ _ _ _ _ hr).trans (consumeEarly_eff hn _ _)
        · split
          · exact (selectHeld_eff hn _ _ _ _ _ _ _ _ hr).trans (consumeEarly_eff hn _ _)
          · split
            · exact ((selectPresent_eff hn _ _ _ _ _ _ fun h => hr (by simpa using h)).trans (stateChecks_eff hn _)).trans
                (consumeEarly_eff hn _ _)
            · exact .refl _
  · exact .refl _

theorem releasedSlot_step (i : Fin 5) (s : State) : SlotStep s i (releasedSlot i (s.slot i)) :=
  .kept rfl rfl rfl rfl (.inr (by simp [releasedSlot, Slot.reset])) (.inr (by
    simp only [releasedSlot, Slot.reset]
    split <;> simp))

theorem releaseSlot_eff (hn : 1 ≤ n) (i : Fin 5) (s : State) : Eff n s (releaseSlot i s) :=
  ((giveUpSlot_eff hn _ _).trans ((removeSlotPackets_eff hn _ _).trans (emptyLabel_eff hn _ _))).trans
    ((updSlot_eff hn (releasedSlot_step _ _)).trans (raise_eff _ _))

/-- RELEASE keeps to the changes inside a step (R124). -/
theorem releaseOrder_eff (hn : 1 ≤ n) (slot : Byte) (s : State) : Eff n s (releaseOrder slot s).2.2 := by
  unfold releaseOrder
  split
  · dsimp only
    split
    · exact setEarly_eff hn _ _ _
    · dsimp only
      exact (releaseSlot_eff hn _ _).trans (stateChecks_eff hn _)
  · exact .refl _

/-- The early start keeps to the changes inside a step (R139). -/
theorem earlyStart_eff (hn : 1 ≤ n) (s : State) : Eff n s (earlyStart s) := by
  unfold earlyStart
  split
  · rename_i e hc _
    have h0 : Eff n s { s with earlyConsumed := true } := .of (.early hn s)
    have hf : otherForeground { s with earlyConsumed := true } 0 = false := by
      simp only [earlyConditions, Bool.and_eq_true, Bool.not_eq_true'] at hc
      exact (otherForeground_congr (s := s) (t := { s with earlyConsumed := true }) (fun _ => rfl) 0).trans hc.2
    dsimp only
    split
    · exact h0.trans ((selectPresent_eff hn _ _ _ _ _ _ fun _ => .inr ⟨by decide, hf⟩).trans (setEarly_eff hn _ _ _))
    · exact h0
  · exact .refl _

end Sys2Proof.Machine
end

