-- ==== Sys2Proof/Laws/Announce.lean ====
section
/-! SUPPORT. The operations of the Announcement Controller, and the end of an event, as runs of elementary changes. -/

namespace Sys2Proof.Machine

variable {n : Nat}

/-- An announcer update that keeps the power state, the masks, the lock and WAKE. -/
theorem held_eff (hn : 1 ≤ n) {f : Announcer → Announcer} (s : State)
    (h : ∀ a, (f a).power = a.power ∧ (f a).accept = a.accept ∧ (f a).wake = a.wake ∧ (f a).lock = a.lock ∧
      (f a).wakeLine = a.wakeLine) : Eff n s (s.updAnnouncer f) := .of (.held hn f s h)

theorem Eff.held (hn : 1 ≤ n) {s t : State} {f : Announcer → Announcer} (h : Eff n s t)
    (k : ∀ a, (f a).power = a.power ∧ (f a).accept = a.accept ∧ (f a).wake = a.wake ∧ (f a).lock = a.lock ∧
      (f a).wakeLine = a.wakeLine) : Eff n s (t.updAnnouncer f) := h.trans (held_eff hn t k)

theorem Eff.slot (hn : 1 ≤ n) {s t : State} {i : Fin 5} {f : Slot → Slot} (h : Eff n s t)
    (k : SlotStep t i (f (t.slot i))) : Eff n s (t.updSlot i f) := h.trans (updSlot_eff hn k)

theorem Eff.raised {s t : State} {a : Attention} (h : Eff n s t) : Eff n s (raise a t) := h.trans (raise_eff a t)

theorem reopenRole_eff (hn : 1 ≤ n) (i : Fin 5) (s : State) (r : RoleIx) : Eff n s (reopenRole i s r) := by
  unfold reopenRole
  dsimp only
  split
  · exact .refl _
  · split
    · exact .refl _
    · split
      · exact (requestCtx_eff _ _ _).trans (setRef_eff hn _ _ _ _)
      · exact .refl _

theorem reopenPreempted_eff (hn : 1 ≤ n) (s : State) (p : Preempted) : Eff n s (reopenPreempted s p) := by
  unfold reopenPreempted
  dsimp only
  split
  · exact reopenSlot_eff hn _ _
  · split
    · exact Eff.foldl _ (fun _ _ => reopenRole_eff hn _ _ _) _ _
    · exact .refl _

theorem reopenRecord_eff (hn : 1 ≤ n) (s : State) : Eff n s (reopenRecord s) := by
  unfold reopenRecord
  refine .held hn ?_ fun _ => ⟨rfl, rfl, rfl, rfl, rfl⟩
  exact Eff.foldl reopenPreempted (fun _ _ => reopenPreempted_eff hn _ _) _ _

theorem clearOverride_eff (hn : 1 ≤ n) (s : State) :
    Eff n s (hostSlots.foldl (fun s i => s.updSlot i fun x => { x with overridden := false }) s) :=
  Eff.foldl _ (fun _ _ => updSlot_eff hn (.kept rfl rfl rfl rfl (.inl rfl) (.inl rfl))) _ _

theorem endHeld_eff (hn : 1 ≤ n) (s : State) : Eff n s (endHeld s) := by
  unfold endHeld
  dsimp only
  refine Eff.trans ?_ (emptyLabel_eff hn _ _)
  refine .held hn ?_ fun _ => ⟨rfl, rfl, rfl, rfl, rfl⟩
  refine Eff.trans ?_ (clearOverride_eff hn _)
  split
  · exact .refl _
  · exact (giveUpSlot_eff hn _ _).trans ((updSlot_eff hn (releasedSlot_step _ _)).trans (raise_eff _ _))

theorem returnHeld_eff (hn : 1 ≤ n) (keep : Bool) (s : State) : Eff n s (returnHeld keep s) := by
  unfold returnHeld
  dsimp only
  refine (endHeld_eff hn s).trans (Eff.trans ?_ ((stateChecks_eff hn _).trans (raise_eff _ _)))
  split
  · exact .refl _
  · exact reopenRecord_eff hn _

theorem noteTaken_eff (hn : 1 ≤ n) (i : Fin 5) (whole : Bool) (r : RoleIx) (s : State) : Eff n s (noteTaken i whole r s) :=
  held_eff hn _ fun _ => ⟨rfl, rfl, rfl, rfl, rfl⟩

theorem takeRole_eff (hn : 1 ≤ n) (i : Fin 5) (r : RoleIx) (s : State) : Eff n s (takeRole i r s) := by
  unfold takeRole
  dsimp only
  split
  · split
    · split
      · split
        · exact (noteTaken_eff hn _ _ _ _).trans ((giveUpRefs_eff hn _ _).trans
            ((updSlot_eff hn (.kept rfl rfl rfl rfl (.inl rfl) (.inl rfl))).trans (enterSlotState_eff hn _ _ _)))
        · exact (noteTaken_eff hn _ _ _ _).trans ((dropRef_eff _ _).trans
            (updSlot_eff hn (.kept rfl rfl rfl rfl (.inl rfl) (.inl rfl))))
      · exact .refl _
    · exact .refl _
  · exact .refl _

theorem preemptFor_eff (hn : 1 ≤ n) (lane : Nat) (s : State) : Eff n s (preemptFor lane s) :=
  (Eff.foldl _ (fun _ _ => by
    split
    · exact .refl _
    · exact takeRole_eff hn _ _ _) _ _).trans (stateChecks_eff hn _)

theorem openSlotFour_eff (hn : 1 ≤ n) (e : ServiceEntry) (s : State) : Eff n s (openSlotFour e s) := by
  unfold openSlotFour
  dsimp only
  exact ((Eff.foldlFst (a := (s, noRefs)) shareStep (fun _ _ => shareStep_eff _ _) _).trans
    (Eff.foldlFst _ (fun _ _ => openStep_eff _ _ _) _ _)).trans ((setOpened_eff hn _ _ _ _ _ _ _ (by simp)).trans
      ((emptyLabel_eff hn _ _).trans (held_eff hn _ fun _ => ⟨rfl, rfl, rfl, rfl, rfl⟩)))

theorem openSlotFourForAlarm_eff (hn : 1 ≤ n) (e : ServiceEntry) (s : State) : Eff n s (openSlotFourForAlarm e s) := by
  unfold openSlotFourForAlarm
  split
  · exact (preemptFor_eff hn _ _).trans (openSlotFour_eff hn _ _)
  · exact openSlotFour_eff hn _ _

theorem setHeld_eff (hn : 1 ≤ n) (t : Fin 8) (target : Word16) (wake : Bool) (s : State) : Eff n s (setHeld t target wake s) := by
  unfold setHeld
  dsimp only
  split
  · exact .raised (.held hn (.refl s) fun _ => ⟨rfl, rfl, rfl, rfl, rfl⟩)
  · exact held_eff hn _ fun _ => ⟨rfl, rfl, rfl, rfl, rfl⟩

theorem acceptOnset_eff (hn : 1 ≤ n) (t : Fin 8) (e : ServiceEntry) (wake : Bool) (s : State) :
    Eff n s (acceptOnset t e wake s) := by
  unfold acceptOnset
  split
  · exact setHeld_eff hn _ _ _ _
  · dsimp only
    refine Eff.trans (t := if s.announcer.takeover = .idle then s else returnHeld true s) ?_ ?_
    · split
      · exact .refl _
      · exact returnHeld_eff hn _ _
    · generalize (if s.announcer.takeover = .idle then s else returnHeld true s) = u
      split
      · refine Eff.trans ?_ (setHeld_eff hn _ _ _ _)
        refine .raised ?_
        exact .held hn (emptyLabel_eff hn _ _) fun _ => ⟨rfl, rfl, rfl, rfl, rfl⟩
      · split
        · exact (openSlotFourForAlarm_eff hn _ _).trans (setHeld_eff hn _ _ _ _)
        · split
          · exact (openSlotFour_eff hn _ _).trans (setHeld_eff hn _ _ _ _)
          · exact (raise_eff _ _).trans (reopenRecord_eff hn _)

theorem testOnset_eff (hn : 1 ≤ n) (t : Fin 8) (target : Word16) (wake : Bool) (s : State) :
    Eff n s (testOnset t target wake s) := by
  unfold testOnset
  split
  · split
    · split
      · exact acceptOnset_eff hn _ _ _ _
      · exact raise_eff _ _
    · exact raise_eff _ _
  · exact .refl _

theorem wakeLine_eff (hn : 2 ≤ n) (w : Bool) (s : State) : Eff n s (s.updAnnouncer fun a => { a with wakeLine := w }) :=
  .of (.power hn s.announcer.power w s)

theorem warmRestart_eff (hn : 2 ≤ n) (s : State) : Eff n s (warmRestart s) :=
  (Eff.of (.power hn .active s.announcer.wakeLine s)).trans (Eff.foldl _ (fun _ _ => by
    split
    · exact reopenSlot_eff (by omega) _ _
    · exact .refl _) _ _)

theorem onset_eff (hn : 2 ≤ n) (t : Fin 8) (target : Word16) (s : State) : Eff n s (onset t target s) := by
  unfold onset
  split
  · exact testOnset_eff (by omega) _ _ _ _
  · split
    · dsimp only
      split
      · exact (wakeLine_eff hn _ _).trans ((raise_eff _ _).trans ((warmRestart_eff hn _).trans (testOnset_eff (by omega) _ _ _ _)))
      · exact (wakeLine_eff hn _ _).trans (raise_eff _ _)
    · exact .refl _

theorem annEnd_eff (hn : 1 ≤ n) (t : Fin 8) (target : Option Word16) (cause : EndCause) (s : State) :
    Eff n s (annEnd t target cause s) := by
  unfold annEnd
  split
  · exact returnHeld_eff hn _ _
  · exact .refl _

theorem beginTakeover_eff (hn : 1 ≤ n) (s : State) : Eff n s (beginTakeover s) := by
  unfold beginTakeover
  split
  · dsimp only
    refine .raised ?_
    split
    · exact .slot hn (.held hn (.refl s) fun _ => ⟨rfl, rfl, rfl, rfl, rfl⟩) (.kept rfl rfl rfl rfl (.inl rfl) (.inl rfl))
    · exact .held hn (.refl s) fun _ => ⟨rfl, rfl, rfl, rfl, rfl⟩
  · exact .refl _

theorem checkHeld_eff (hn : 1 ≤ n) (s : State) : Eff n s (checkHeld s) := by
  unfold checkHeld
  split
  · exact .refl _
  · split
    · exact returnHeld_eff hn _ _
    · split
      · split
        · exact .refl _
        · exact returnHeld_eff hn _ _
      · split
        · exact openSlotFourForAlarm_eff hn _ _
        · exact .refl _

theorem checkAfter_eff (hn : 1 ≤ n) (before after : State) : Eff n after (checkAfter before after) := by
  unfold checkAfter
  split
  · exact checkHeld_eff hn _
  · exact .refl _

theorem driveLines_eff (hn : 1 ≤ n) (s : State) : Eff n s (driveLines s) := .of (.lines hn s)

/-- The end of an event keeps to the changes inside a step. -/
theorem endEvent_eff (hn : 1 ≤ n) (before after : State) : Eff n after (endEvent before after) :=
  (checkAfter_eff hn before after).trans ((earlyStart_eff hn _).trans ((checkAfter_eff hn _ _).trans (driveLines_eff hn _)))

theorem clearAnnouncer_eff (hn : 1 ≤ n) (s : State) : Eff n s (clearAnnouncer s) :=
  held_eff hn _ fun _ => ⟨rfl, rfl, rfl, rfl, rfl⟩

theorem parkSlot_eff (hn : 1 ≤ n) (s : State) (i : Fin 5) : Eff n s (parkSlot s i) := by
  unfold parkSlot
  split
  · exact .refl _
  · exact (giveUpSlot_eff hn _ _).trans ((updSlot_eff hn (.kept rfl rfl rfl rfl (.inl rfl) (.inl rfl))).trans (raise_eff _ _))

theorem enterStandby_eff (hn : 2 ≤ n) (s : State) : Eff n s (enterStandby s) := by
  unfold enterStandby
  dsimp only
  refine Eff.trans (t := if s.announcer.takeover = .idle then s else endHeld s) ?_ ?_
  · split
    · exact .refl _
    · exact endHeld_eff (by omega) _
  · generalize (if s.announcer.takeover = .idle then s else endHeld s) = u
    have h1 : Eff n u (u.updAnnouncer fun a => { a with preempted := [] }) :=
      held_eff (by omega) _ fun _ => ⟨rfl, rfl, rfl, rfl, rfl⟩
    have h2 : Eff n (u.updAnnouncer fun a => { a with preempted := [] })
        (u.updAnnouncer fun a => { a with preempted := [], power := .standby, wakeLine := false }) :=
      .of (.power hn .standby false (u.updAnnouncer fun a => { a with preempted := [] }))
    refine (h1.trans (h2.trans (Eff.foldl parkSlot (fun _ _ => parkSlot_eff (by omega) _ _) hostSlots _))).trans ?_
    exact .of (.packetsLeave (by omega) [] [] [] _ (List.nil_sublist _) (List.nil_sublist _) (List.nil_sublist _))

theorem standbyOrder_eff (hn : 2 ≤ n) (s : State) : Eff n s (standbyOrder s).2.2 := by
  unfold standbyOrder
  split
  · exact enterStandby_eff hn _
  · exact wakeLine_eff hn _ _

theorem resumeOrder_eff (hn : 2 ≤ n) (s : State) : Eff n s (resumeOrder s).2.2 := by
  unfold resumeOrder
  dsimp only
  split
  · dsimp only
    exact wakeLine_eff hn _ _
  · dsimp only
    exact (wakeLine_eff hn _ _).trans (warmRestart_eff hn _)

end Sys2Proof.Machine
end

