-- ==== Sys2Proof/Laws/Assembly.lean ====
section
/-! SUPPORT. Placing a tile, the frame close and the Lane Map as runs of elementary changes. -/

namespace Sys2Proof.Machine

variable {n : Nat}

theorem placeTile_eff (c : Fin 16) (k : Nat) (f : Count) (payload : Bytes30) (erased : Bool) (s : State) :
    Eff n s (placeTile c k f payload erased s) := by
  unfold placeTile
  dsimp only
  split
  · split
    · exact .of (.cell _ _ s)
    · exact .refl _
  · exact .refl _

/-- The penalty is at most 4095 (R108). -/
theorem penalty_le (k u groups lost mismatch : Nat) : penalty k u groups lost mismatch ≤ 4095 := Nat.min_le_left _ _

/-- The score stays in 0..4095 (R109). -/
theorem nextScore_le {score p : Nat} (hs : score ≤ 4095) (hp : p ≤ 4095) : nextScore score p ≤ 4095 := by
  unfold nextScore
  omega

theorem takesPart_open {x : LaneContext} {l : Count} (h : takesPart x l = true) : x.state ≠ .free := by
  intro e
  simp [takesPart, e] at h

theorem assembleCtx_eff (l : Count) (acc : State × List LaneRecord) (c : Fin 16) : Eff n acc.1 (assembleCtx l acc c).1 := by
  unfold assembleCtx
  dsimp only
  split
  · exact .refl _
  · split
    · rename_i e he ht
      refine .of (.ctx c _ _ ⟨takesPart_open ht, ?_, rfl, rfl, ?_, ?_, ?_, ?_⟩)
      · dsimp only
        split
        · simp
        · exact takesPart_open ht
      · intro h
        simp only [LaneContext.receiving] at h ⊢
        split at h
        · rename_i hf
          simp [hf]
        · exact h
      · exact fun hs => nextScore_le hs (penalty_le _ _ _ _ _)
      · exact fun _ => Nat.min_le_left _ _
      · exact fun _ => Nat.min_le_left _ _
    · exact .refl _

theorem assemblyRound_eff (l : Count) (s : State) : Eff n s (assemblyRound l s).1 :=
  Eff.foldlFst (a := (s, [])) _ (fun _ _ => assembleCtx_eff _ _ _) _

theorem promote_eff (hn : 1 ≤ n) (i : Fin 5) (s : State) : Eff n s (promote i s) := by
  unfold promote
  dsimp only
  split
  · split
    · split
      · split
        · exact (enterSlotState_eff hn _ _ _).trans (beginTakeover_eff hn _)
        · exact enterSlotState_eff hn _ _ _
      · exact .refl _
    · exact .refl _
  · exact .refl _

/-- What a quality step keeps of a slot. -/
def Slot.governed (x : Slot) : Slot := { x with source := .primary, muted := false, dwell := 0 }

theorem switchStep_kept (i : Fin 5) (s : State) (recs : List LaneRecord) (x : Slot) :
    (switchStep i s recs x).1.governed = x.governed ∧ (x.dwell ≤ 255 → (switchStep i s recs x).1.dwell ≤ 255) := by
  unfold switchStep
  split
  · exact ⟨rfl, fun _ => by simp⟩
  · exact ⟨rfl, id⟩

theorem muteStep_kept (s : State) (recs : List LaneRecord) (a : Slot × List QualityDetail) :
    (muteStep s recs a).1.governed = a.1.governed ∧ (a.1.dwell ≤ 255 → (muteStep s recs a).1.dwell ≤ 255) := by
  unfold muteStep
  dsimp only
  split
  · exact ⟨rfl, id⟩
  · exact ⟨rfl, id⟩

theorem restoreStep_kept (i : Fin 5) (s : State) (recs : List LaneRecord) (a : Slot × List QualityDetail) :
    (restoreStep i s recs a).1.governed = a.1.governed ∧ (a.1.dwell ≤ 255 → (restoreStep i s recs a).1.dwell ≤ 255) := by
  unfold restoreStep
  dsimp only
  split
  · exact ⟨rfl, fun _ => by simp⟩
  · exact ⟨rfl, id⟩

theorem unmuteStep_kept (s : State) (recs : List LaneRecord) (a : Slot × List QualityDetail) :
    (unmuteStep s recs a).1.governed = a.1.governed ∧ (a.1.dwell ≤ 255 → (unmuteStep s recs a).1.dwell ≤ 255) := by
  unfold unmuteStep
  dsimp only
  split
  · exact ⟨rfl, id⟩
  · exact ⟨rfl, id⟩

/-- A quality decision changes source, muting and dwell alone (R132). -/
theorem qualityDecision_kept (i : Fin 5) (s : State) (recs : List LaneRecord) (x : Slot) :
    (qualityDecision i s recs x).1.governed = x.governed ∧ (x.dwell ≤ 255 → (qualityDecision i s recs x).1.dwell ≤ 255) := by
  have h1 := switchStep_kept i s recs x
  have h2 := muteStep_kept s recs (switchStep i s recs x)
  have h3 := restoreStep_kept i s recs (muteStep s recs (switchStep i s recs x))
  have h4 := unmuteStep_kept s recs (restoreStep i s recs (muteStep s recs (switchStep i s recs x)))
  exact ⟨h4.1.trans (h3.1.trans (h2.1.trans h1.1)), fun h => h4.2 (h3.2 (h2.2 (h1.2 h)))⟩

theorem qualityDecision_step (i : Fin 5) (s t : State) (recs : List LaneRecord) :
    SlotStep s i (qualityDecision i t recs (s.slot i)).1 := by
  have h := qualityDecision_kept i t recs (s.slot i)
  refine ⟨?_, ?_, ?_, ?_, h.2, fun hr => .inl ?_⟩
  · have := congrArg Slot.thHi h.1
    exact this
  · have := congrArg Slot.thLo h.1
    exact this
  · have := congrArg Slot.riseMask h.1
    exact this
  · have := congrArg Slot.fallMask h.1
    exact this
  · have e := congrArg Slot.role h.1
    have e' : (qualityDecision i t recs (s.slot i)).1.role = (s.slot i).role := e
    exact e' ▸ hr

theorem queueAudio_eff (hn : 1 ≤ n) (i : Fin 5) (recs : List LaneRecord) (x : Slot) (service : Word16) (s : State) :
    Eff n s (queueAudio i recs x service s) := by
  unfold queueAudio
  split
  · exact .refl _
  · dsimp only
    split
    · split
      · exact joinAudio_eff hn _ _
      · exact .refl _
    · split
      · exact .refl _
      · exact joinAudio_eff hn _ _
    · exact joinData_eff hn _ _
    · exact .refl _

theorem queueData_eff (hn : 1 ≤ n) (i : Fin 5) (recs : List LaneRecord) (x : Slot) (service : Word16) (s : State) :
    Eff n s (queueData i recs x service s) :=
  Eff.foldl _ (fun _ _ => by
    split
    · exact joinData_eff hn _ _
    · exact .refl _) _ _

theorem queueSlot_eff (hn : 1 ≤ n) (i : Fin 5) (recs : List LaneRecord) (s : State) :
    Eff n s (queueSlot i recs s) := by
  unfold queueSlot
  dsimp only
  split
  · exact (queueAudio_eff hn _ _ _ _ _).trans ((queueData_eff hn _ _ _ _ _).trans
      (updSlot_eff hn (.kept rfl rfl rfl rfl (.inr (Nat.min_le_left _ _)) (.inl rfl))))
  · exact .refl _

theorem handleSlot_eff (hn : 1 ≤ n) (recs : List LaneRecord) (s : State) (i : Fin 5) : Eff n s (handleSlot recs s i) := by
  unfold handleSlot
  split
  · dsimp only
    have h1 : Eff n s (promote i (stateCheck i s)) := (stateCheck_eff hn _ _).trans (promote_eff hn _ _)
    generalize promote i (stateCheck i s) = t at *
    split
    · exact h1
    · rename_i k hk
      have h2 : Eff n t (t.setSlot i
          (if (t.slot i).state = .delivering ∧ k = .audio then qualityDecision i t recs (t.slot i) else (t.slot i, [])).1) := by
        split
        · exact .of (.slot hn i _ t (qualityDecision_step i t t recs))
        · exact .of (.slot hn i _ t (.kept rfl rfl rfl rfl (.inl rfl) (.inl rfl)))
      refine h1.trans (h2.trans (Eff.trans ?_ (queueSlot_eff hn _ _ _)))
      generalize (if (t.slot i).state = .delivering ∧ k = .audio then qualityDecision i t recs (t.slot i) else (t.slot i, [])) = d
      split
      · exact raise_eff _ _
      · exact .refl _
  · exact .refl _

theorem handOver_eff (hn : 1 ≤ n) (recs : List LaneRecord) (s : State) : Eff n s (handOver recs s) :=
  Eff.foldl _ (fun _ _ => handleSlot_eff hn _ _ _) _ _

theorem drainDone_open {x : LaneContext} (h : drainDone x = true) : x.state ≠ .free := by
  intro e
  simp [drainDone, e] at h

theorem endDrain_eff (s : State) (c : Fin 16) : Eff n s (endDrain s c) := by
  unfold endDrain
  split
  · rename_i h
    exact (Eff.of (.released c s (drainDone_open h))).trans (raise_eff _ _)
  · exact .refl _

theorem endDrains_eff (hn : 1 ≤ n) (s : State) : Eff n s (endDrains s) :=
  (Eff.foldl _ (fun _ _ => endDrain_eff _ _) _ _).trans (stateChecks_eff hn _)

/-- What a frame close does after it has set the last closed count. -/
theorem frameClose_eff (hn : 1 ≤ n) (f : Count) (s : State) :
    Eff n (s.updIntake fun p => { p with lastClosed := f }) (frameClose f s) := by
  unfold frameClose
  dsimp only
  exact (assemblyRound_eff _ _).trans ((handOver_eff hn _ _).trans ((endDrains_eff hn _).trans (retryPass_eff hn _)))

/-- A frame close sets the last closed count and leaves the rest of the intake as it is (R5). -/
theorem frameClose_intake (f : Count) (s : State) : (frameClose f s).intake = { s.intake with lastClosed := f } :=
  (frameClose_eff (n := 1) (le_refl 1) f s).intake (by omega)

/-! ### The Lane Map -/

theorem drainCtx_eff (frame : Count) (c : Fin 16) (s : State) (h : (s.ctx c).receiving = true) : Eff n s (drainCtx frame c s) := by
  unfold drainCtx
  dsimp only
  split
  · exact (Eff.of (.released c s (receiving_ne_free h))).trans (raise_eff _ _)
  · exact .of (.ctx c _ s ⟨receiving_ne_free h, by simp, rfl, rfl, fun _ => h, id, id, id⟩)

theorem laneOutcome_eff (frame : Count) (s : State) (c : Fin 16) : Eff n s (laneOutcome frame s c) := by
  unfold laneOutcome
  dsimp only
  split
  · rename_i old hr hs
    split
    · rename_i e he
      split
      · exact .of (.ctx c _ s ⟨receiving_ne_free hr, receiving_ne_free hr, rfl, by
          simp [LaneContext.lane?, hs, lane?_some he], fun _ => hr, id, id, id⟩)
      · exact drainCtx_eff _ _ _ hr
    · exact drainCtx_eff _ _ _ hr
  · exact .refl _

theorem giveUpRole_eff (hn : 1 ≤ n) (i : Fin 5) (e : ServiceEntry) (s : State) (r : RoleIx) : Eff n s (giveUpRole i e s r) := by
  unfold giveUpRole
  dsimp only
  split
  · split
    · exact (dropRef_eff _ _).trans (updSlot_eff hn (.kept rfl rfl rfl rfl (.inl rfl) (.inl rfl)))
    · split
      · exact (dropRef_eff _ _).trans (setRef_eff hn _ _ _ _)
      · exact .refl _
  · split
    · exact setRef_eff hn _ _ _ _
    · exact .refl _
  · exact .refl _

theorem giveUpPass_eff (hn : 1 ≤ n) (s : State) (i : Fin 5) : Eff n s (giveUpPass s i) := by
  unfold giveUpPass
  split
  · split
    · exact Eff.foldl _ (fun _ _ => giveUpRole_eff hn _ _ _ _) _ _
    · exact giveUpSlot_eff hn _ _
  · exact .refl _

theorem requestRole_eff (hn : 1 ≤ n) (i : Fin 5) (e : ServiceEntry) (frame : Count) (s : State) (r : RoleIx) :
    Eff n s (requestRole i e frame s r) := by
  unfold requestRole
  dsimp only
  split
  · split
    · exact .refl _
    · exact (requestCtx_eff _ _ _).trans (setRef_eff hn _ _ _ _)
  · exact .refl _

theorem requestPass_eff (hn : 1 ≤ n) (frame : Count) (s : State) (i : Fin 5) : Eff n s (requestPass frame s i) := by
  unfold requestPass
  split
  · split
    · exact Eff.foldl _ (fun _ _ => requestRole_eff hn _ _ _ _ _) _ _
    · exact .refl _
  · exact .refl _

theorem settleSlot_eff (hn : 1 ≤ n) (s : State) (i : Fin 5) : Eff n s (settleSlot s i) := by
  unfold settleSlot
  split
  · refine Eff.trans ?_ (stateCheck_eff hn _ _)
    split
    · exact becomeWaiting_eff hn _ _
    · exact .refl _
  · exact .refl _

theorem reResolve_eff (hn : 1 ≤ n) (frame : Count) (s : State) : Eff n s (reResolve frame s) :=
  (Eff.foldl _ (fun _ _ => giveUpPass_eff hn _ _) _ _).trans ((Eff.foldl _ (fun _ _ => requestPass_eff hn _ _ _) _ _).trans
    (Eff.foldl _ (fun _ _ => settleSlot_eff hn _ _) _ _))

/-- What a swap and a correction share leaves the banks alone. -/
theorem layoutChange_eff (hn : 1 ≤ n) (frame : Count) (d : LayoutDetail) (s : State) : Eff n s (layoutChange frame d s) := by
  unfold layoutChange
  dsimp only
  exact (Eff.foldl _ (fun _ _ => laneOutcome_eff _ _ _) _ _).trans ((reResolve_eff hn _ _).trans ((rebuildIndex_eff _).trans
    ((raise_eff _ _).trans ((openWaitingSlots_eff hn _).trans (checkHeld_eff hn _)))))

theorem evalFlags_eff (hn : 3 ≤ n) (s : State) : Eff n s (evalFlags s) := .of (.banks hn _ s (.flags _ _ _ _))

theorem commit_step (f : Bank → BankCommit) (hf : ∀ b, BankStep b (f b).bank) (v : Nat) (m : LaneMap) :
    (m.active.serial = some v → MapStep m { m with active := (f m.active).bank }) ∧
      (m.active.serial ≠ some v → MapStep m { m with pending := (f (pendingFor v m.pending)).bank }) :=
  ⟨fun h => .active v h _ (hf _), fun h => .pending v h _ (hf _)⟩

/-- Placing a commit keeps to the changes inside a step (R50). -/
theorem placeCommit_eff (hn : 3 ≤ n) (v : Nat) (f : Bank → BankCommit) (hf : ∀ b, BankStep b (f b).bank) (s : State) :
    Eff n s (placeCommit v f s) := by
  unfold placeCommit
  split
  · rename_i h
    dsimp only
    have h1 : Eff n s (s.updLaneMap fun m => { m with active := (f s.laneMap.active).bank }) :=
      .of (.banks hn _ s ((commit_step f hf v s.laneMap).1 h))
    have h2 := h1.trans (evalFlags_eff hn _)
    split
    · exact h2.trans (layoutChange_eff (by omega) _ _ _)
    · split
      · exact h2.trans (openWaitingSlots_eff (by omega) _)
      · exact h2
  · rename_i h
    have h1 : Eff n s (s.updLaneMap fun m => { m with pending := (f (pendingFor v m.pending)).bank }) :=
      .of (.banks hn _ s ((commit_step f hf v s.laneMap).2 h))
    exact h1.trans (evalFlags_eff hn _)

theorem adopt_eff (hn : 3 ≤ n) (v : Nat) (s : State) (h : s.laneMap.active.serial = none) : Eff n s (adopt v s) := by
  unfold adopt
  refine Eff.trans ?_ ((evalFlags_eff hn _).trans (openWaitingSlots_eff (by omega) _))
  by_cases hp : s.laneMap.pending.serial = some v
  · simp only [State.updLaneMap, hp, if_true]
    exact .of (.banks hn _ s (.adoptPending v h hp))
  · simp only [State.updLaneMap, hp, if_false]
    exact .of (.banks hn _ s (.adoptEmpty v h hp))

theorem swap_eff (hn : 3 ≤ n) (frame : Count) (s : State) : Eff n s (swap frame s) := by
  unfold swap
  refine Eff.trans ?_ ((evalFlags_eff hn _).trans (layoutChange_eff (by omega) _ _ _))
  exact .of (.banks hn _ s (.swap false))

theorem staleHead_eff (hn : 3 ≤ n) (v : Nat) (s : State) (h : s.laneMap.active.serial ≠ some v) : Eff n s (staleHead v s) := by
  unfold staleHead
  dsimp only
  have h1 : Eff n s (if s.laneMap.stale then s else raise (.layout .stale) (s.updLaneMap fun m => { m with stale := true })) := by
    split
    · exact .refl _
    · exact (Eff.of (.banks hn _ s (.flags s.laneMap.complete s.laneMap.ready true s.laneMap.identity))).trans (raise_eff _ _)
  have hs : (if s.laneMap.stale then s else raise (.layout .stale) (s.updLaneMap fun m => { m with stale := true })).laneMap.active.serial
      ≠ some v := by
    split
    · exact h
    · exact h
  generalize (if s.laneMap.stale then s else raise (.layout .stale) (s.updLaneMap fun m => { m with stale := true })) = t at *
  refine h1.trans (Eff.trans ?_ (evalFlags_eff hn _))
  by_cases hp : t.laneMap.pending.serial = some v
  · simp only [State.updLaneMap, hp, if_true]
    exact .refl _
  · simp only [State.updLaneMap, hp, if_false]
    exact .of (.banks hn _ t (.await v hs))

/-- The swap trigger keeps to the changes inside a step (R56). -/
theorem swapTrigger_eff (hn : 3 ≤ n) (v : Nat) (frame : Count) (s : State) : Eff n s (swapTrigger v frame s) := by
  unfold swapTrigger
  split
  · rename_i h
    exact adopt_eff hn _ _ h
  · split
    · split
      · exact .of (.banks hn _ s (.flags s.laneMap.complete s.laneMap.ready false s.laneMap.identity))
      · exact .refl _
    · rename_i h
      split
      · exact swap_eff hn _ _
      · exact staleHead_eff hn _ _ h

theorem realignCtx_eff (h : Count) (s : State) (c : Fin 16) : Eff n s (realignCtx h s c) := by
  unfold realignCtx
  dsimp only
  split
  · exact .refl _
  · rename_i hs
    exact (Eff.of (.released c s (by simp [hs]))).trans (raise_eff _ _)
  · rename_i h1 h2
    refine (clearColumns_eff _ s).trans (.of (.ctx c _ _ ⟨h1, by simp, rfl, rfl, fun _ => ?_, id, fun _ => by simp, fun _ => by simp⟩))
    show (s.ctx c).receiving = true
    simp only [LaneContext.receiving]
    cases hs : (s.ctx c).state <;> simp_all

theorem realign_eff (hn : 1 ≤ n) (h : Count) (s : State) : Eff n s (realign h s) :=
  (Eff.foldl _ (fun _ _ => realignCtx_eff _ _ _) _ _).trans (stateChecks_eff hn _)

theorem releaseAll_eff (s : State) : Eff n s (releaseAll s) :=
  Eff.foldl _ (fun s c => by
    split
    · exact .refl _
    · rename_i h
      exact .of (.released c s h)) _ _

theorem forgetSlot_step (s : State) (i : Fin 5) : SlotStep s i (forgetSlot (s.slot i)) := by
  unfold forgetSlot
  split
  · exact .kept rfl rfl rfl rfl (.inl rfl) (.inl rfl)
  · exact .kept rfl rfl rfl rfl (.inl rfl) (.inl rfl)
  · exact .kept rfl rfl rfl rfl (.inl rfl) (.inl rfl)

/-- The identity change keeps to the changes inside a step (R23). -/
theorem identityChange_eff (hn : 4 ≤ n) (identity : Option Word16) (s : State) : Eff n s (identityChange identity s) := by
  unfold identityChange
  dsimp only
  refine Eff.trans (releaseAll_eff s) ?_
  generalize releaseAll s = t
  refine Eff.trans (.of (.banks (by omega) _ t (.clear identity))) (Eff.trans (.of (.directoryCleared hn _)) ?_)
  have four : ∀ v : State, Eff n v
      (if (v.slot 4).state = .empty then v else raise (.selection 4 .empty) (v.updSlot 4 (releasedSlot 4))) := fun v => by
    split
    · exact .refl _
    · exact (updSlot_eff (by omega) (releasedSlot_step 4 v)).raised
  have hosts : ∀ v : State, Eff n v (hostSlots.foldl (fun s i => s.updSlot i forgetSlot) v) :=
    Eff.foldl _ (fun u i => updSlot_eff (by omega) (forgetSlot_step u i)) hostSlots
  refine (clearAnnouncer_eff (by omega) _).trans ((four _).trans ?_)
  cases changedSlot s with
  | none => exact hosts _
  | some i => exact (hosts _).raised

end Sys2Proof.Machine
end

