-- ==== Sys2Proof/Laws/Directory.lean ====
section
/-! SUPPORT. What the Directory Acquirer's operations can do: each is a run of changes of rank at most 4. -/

namespace Sys2Proof.Machine

variable {n : Nat}

theorem setAnnEntry_eff (hn : 4 ≤ n) (t : Fin 8) (e : AnnEntry) (s : State) : Eff n s (setAnnEntry t e s) := .of (.table hn _ s)

theorem commitOn_eff (hn : 4 ≤ n) (t : Fin 8) (target : Word16) (s : State) : Eff n s (commitOn t target s) := by
  unfold commitOn
  dsimp only
  split
  · split
    · exact .refl _
    · have h := (annEnd_eff (n := n) (by omega) t (annEntry s t).target .replaced s).trans
        ((setAnnEntry_eff hn t { on := true, target := some target, age := 0 } _).trans (onset_eff (by omega) t target _))
      split
      · exact h.trans (reopenRecord_eff (by omega) _)
      · exact h
  · exact (setAnnEntry_eff hn _ _ _).trans (onset_eff (by omega) _ _ _)

theorem commitOff_eff (hn : 4 ≤ n) (t : Fin 8) (target : Word16) (s : State) : Eff n s (commitOff t target s) := by
  unfold commitOff
  dsimp only
  split
  · exact (setAnnEntry_eff hn _ _ _).trans (annEnd_eff (by omega) _ _ _ _)
  · exact .refl _

theorem refresh_eff (hn : 4 ≤ n) (r : Record) (s : State) : Eff n s (refresh r s) := by
  unfold refresh
  split
  · exact setAnnEntry_eff hn _ _ _
  · exact .refl _

theorem ageTable_eff (hn : 4 ≤ n) (s : State) : Eff n s (ageTable s) :=
  Eff.foldl _ (fun _ _ => by
    split
    · exact setAnnEntry_eff hn _ _ _
    · exact .refl _) _ _

theorem expireEntry_eff (hn : 4 ≤ n) (s : State) (t : Fin 8) : Eff n s (expireEntry s t) := by
  unfold expireEntry
  dsimp only
  split
  · exact (setAnnEntry_eff hn _ _ _).trans (annEnd_eff (by omega) _ _ _ _)
  · exact .refl _

theorem expireTable_eff (hn : 4 ≤ n) (s : State) : Eff n s (expireTable s) :=
  Eff.foldl _ (fun _ _ => expireEntry_eff hn _ _) _ _

/-- A commit keeps to the changes inside a step (R35). -/
theorem commitRecord_eff (hn : 4 ≤ n) (r : Record) (s : State) : Eff n s (commitRecord r s) := by
  unfold commitRecord
  split
  · exact placeCommit_eff (by omega) _ _ (fun _ => .lane _) _
  · exact placeCommit_eff (by omega) _ _ (fun _ => .service _) _
  · exact placeCommit_eff (by omega) _ _ (fun _ => .serviceLabel _ _) _
  · exact placeCommit_eff (by omega) _ _ (fun _ => .ident _) _
  · exact placeCommit_eff (by omega) _ _ (fun _ => .change _) _
  · split
    · exact commitOn_eff hn _ _ _
    · exact commitOff_eff hn _ _ _
  · exact .refl _

theorem completeLabel_eff (hn : 1 ≤ n) (i : Fin 5) (s : State) : Eff n s (completeLabel i s) := by
  unfold completeLabel
  dsimp only
  split
  · refine Eff.trans ?_ (setLabel_eff hn _ _ _)
    split
    · exact .refl _
    · exact (joinLabel_eff hn _ _).raised
  · exact .refl _

theorem completeLabels_eff (hn : 1 ≤ n) (s : State) : Eff n s (completeLabels s) :=
  Eff.foldl _ (fun _ _ => completeLabel_eff hn _ _) _ _

theorem offerSegment_eff (hn : 1 ≤ n) (service : Word16) (toggle index count : Nat) (text : List Byte) (s : State) :
    Eff n s (offerSegment service toggle index count text s) :=
  Eff.foldl _ (fun _ _ => by
    split
    · exact (setLabel_eff hn _ _ _).trans (completeLabel_eff hn _ _)
    · exact .refl _) _ _

/-- Keys are alike in both directions. -/
theorem sameKey_comm (c r : Record) : sameKey c r = sameKey r c := by
  cases c <;> cases r <;> simp [sameKey, eq_comm]

/-- After a removal no candidate has the record's key. -/
theorem candidateOf_removed (r : Record) (s : State) : candidateOf (removeCandidate r s) r = none := by
  unfold candidateOf removeCandidate
  simp [List.find?_eq_none]

theorem commitAtOnce_eff (hn : 4 ≤ n) (r : Record) (s : State) : Eff n s (commitAtOnce r s) := by
  unfold commitAtOnce
  dsimp only
  have h := Eff.of (Change.candidateLeaves hn r s)
  split
  · exact h.trans (refresh_eff hn _ _)
  · exact h.trans (commitRecord_eff hn _ _)

theorem confirmSighting_eff (hn : 4 ≤ n) (r : Record) (s : State) : Eff n s (confirmSighting r s) := by
  unfold confirmSighting
  have h := Eff.of (Change.candidateLeaves hn r s)
  split
  · exact h.trans (refresh_eff hn _ _)
  · split
    · split
      · exact h.trans (commitRecord_eff hn _ _)
      · exact h.trans (.of (.candidateJoins hn r _ (candidateOf_removed r s)))
    · rename_i hc
      exact .of (.candidateJoins hn r _ hc)

theorem sighting_eff (hn : 4 ≤ n) (r : Record) (s : State) : Eff n s (sighting r s) := by
  unfold sighting
  split
  · exact offerSegment_eff (by omega) _ _ _ _ _ _
  · exact commitAtOnce_eff hn _ _
  · exact confirmSighting_eff hn _ _

/-- A directory block keeps to the changes inside a step (R26). -/
theorem directoryBlock_eff (hn : 4 ≤ n) (index : Byte) (bytes : List Byte) (s : State) :
    Eff n s (directoryBlock index bytes s) := by
  unfold directoryBlock
  split
  · exact Eff.foldl _ (fun _ _ => sighting_eff hn _ _) _ _
  · exact .refl _

theorem confirmRecord_eff (hn : 4 ≤ n) (r : Record) (s : State) : Eff n s (confirmRecord r s) := by
  unfold confirmRecord
  split
  · exact (Eff.of (Change.candidateLeaves hn r s)).trans (commitRecord_eff hn _ _)
  · exact .refl _

theorem injectRecord_eff (hn : 4 ≤ n) (r : Record) (s : State) : Eff n s (injectRecord r s) := by
  unfold injectRecord
  split
  · exact offerSegment_eff (by omega) _ _ _ _ _ _
  · exact commitAtOnce_eff hn _ _

theorem injectOrder_eff (hn : 4 ≤ n) (record : List Byte) (s : State) : Eff n s (injectOrder record s).2.2 := by
  unfold injectOrder
  split
  · split
    · split
      · exact injectRecord_eff hn _ _
      · exact .refl _
    · exact .refl _
  · exact .refl _

end Sys2Proof.Machine
end

