-- ==== Sys2Proof/Laws/Intake.lean ====
section
/-! SUPPORT. What the Intake Port's operations can do: each is a run of changes of rank at most 5. -/

namespace Sys2Proof.Machine

variable {n : Nat}

theorem updIntake_eff (hn : 5 ≤ n) {f : Intake → Intake} (s : State) (h : (f s.intake).holdoverLimit = s.intake.holdoverLimit) :
    Eff n s (s.updIntake f) := .of (.intake hn f s h)

/-- A frame close is a run of changes that touches the intake only in its last closed count. -/
theorem frameClose_eff5 (hn : 5 ≤ n) (f : Count) (s : State) : Eff n s (frameClose f s) :=
  (updIntake_eff hn s rfl).trans (frameClose_eff (by omega) f s)

theorem closeOpen_eff (hn : 5 ≤ n) (s : State) : Eff n s (closeOpen s) := by
  unfold closeOpen
  split
  · exact .refl _
  · dsimp only
    have h : Eff n s (s.updIntake fun p => { p with openFrame := none }) := updIntake_eff hn s rfl
    split
    · exact h
    · exact h.trans (frameClose_eff5 hn _ _)

theorem virtualClose_eff (hn : 5 ≤ n) (s : State) : Eff n s (virtualClose s) := frameClose_eff5 hn _ s

theorem virtualCloses_eff (hn : 5 ≤ n) (k : Nat) (s : State) : Eff n s (virtualCloses k s) := by
  induction k generalizing s with
  | zero => exact .refl _
  | succ k ih => exact (virtualClose_eff hn s).trans (ih _)

theorem openFrameAt_eff (hn : 5 ≤ n) (h : Count) (stale : Bool) (s : State) : Eff n s (openFrameAt h stale s) :=
  updIntake_eff hn s rfl

theorem handOverHead_eff (hn : 5 ≤ n) (serial : BitVec 4) (h : Count) (s : State) : Eff n s (handOverHead serial h s) :=
  (swapTrigger_eff (by omega) _ _ _).trans (openFrameAt_eff hn _ _ _)

theorem withNextFrame_eff (hn : 5 ≤ n) (h : Count) {f : State → State} (hf : ∀ s, Eff n s (f s)) (s : State) :
    Eff n s (withNextFrame h f s) := (updIntake_eff hn s rfl).trans ((hf _).trans (updIntake_eff hn _ rfl))

/-- An operation that keeps the intake keeps it when run with another next frame. -/
theorem withNextFrame_intake (h : Count) {f : State → State} (s : State) (hf : ∀ s, (f s).intake = s.intake) :
    (withNextFrame h f s).intake = s.intake := by
  unfold withNextFrame
  simp [hf]

theorem followHead_eff (hn : 5 ≤ n) (serial : BitVec 4) (h : Count) (s : State) : Eff n s (followHead serial h s) := by
  unfold followHead
  dsimp only
  split
  · exact openFrameAt_eff hn _ _ _
  · split
    · exact (virtualCloses_eff hn _ _).trans (handOverHead_eff hn _ _ _)
    · exact (realign_eff (by omega) _ _).raised.trans
        ((withNextFrame_eff hn h (fun _ => swapTrigger_eff (by omega) _ _ _) _).trans (openFrameAt_eff hn _ _ _))

theorem enterHoldover_eff (hn : 5 ≤ n) (s : State) : Eff n s (enterHoldover s) :=
  (updIntake_eff hn s rfl).trans (virtualClose_eff hn _)

theorem lockAt_eff (hn : 5 ≤ n) (serial : BitVec 4) (h : Count) (s : State) : Eff n s (lockAt serial h s) :=
  (updIntake_eff hn s rfl).trans (handOverHead_eff hn _ _ _)

theorem changeIdentity_eff (hn : 4 ≤ n) (identity : Word16) (s : State) : Eff n s (changeIdentity identity s) :=
  (identityChange_eff hn _ _).raised

theorem completeAcquisition_eff (hn : 4 ≤ n) (identity : Word16) (h : Count) (origin : Origin) (s : State) :
    Eff n s (completeAcquisition identity h origin s) := by
  unfold completeAcquisition
  split
  · have k : Eff n s (s.updLaneMap fun m => { m with identity := some identity }) :=
      .of (.banks (by omega) _ s (.flags s.laneMap.complete s.laneMap.ready s.laneMap.stale (some identity)))
    exact (k.trans (realign_eff (by omega) _ _)).raised
  · split
    · dsimp only
      have k : Eff n s (raise (.syncChange .realign) (realign h s)) := (realign_eff (by omega) _ _).raised
      split
      · exact k.trans (resumeLost_eff (by omega) _)
      · exact k
    · exact changeIdentity_eff hn _ _

theorem acquire_eff (hn : 5 ≤ n) (identity : Word16) (h : Count) (origin : Origin) (s : State) :
    Eff n s (acquire identity h origin s) := updIntake_eff hn s rfl

/-- What a HEAD does in any intake state keeps to the changes inside a step (R12 to R20). -/
theorem headByState_eff (hn : 5 ≤ n) (identity : Word16) (h : Count) (serial : BitVec 4) (s : State) :
    Eff n s (headByState identity h serial s) := by
  unfold headByState
  split
  · split
    · exact acquire_eff hn _ _ _ _
    · exact .refl _
  · split
    · split
      · exact (completeAcquisition_eff (by omega) _ _ _ _).trans (lockAt_eff hn _ _ _)
      · exact acquire_eff hn _ _ _ _
    · exact .refl _
  · split
    · exact followHead_eff hn _ _ _
    · exact (updIntake_eff hn s rfl).trans (enterHoldover_eff hn _)
  · split
    · exact (updIntake_eff hn s rfl).trans (followHead_eff hn _ _ _)
    · split
      · exact (changeIdentity_eff (by omega) _ _).trans (lockAt_eff hn _ _ _)
      · exact updIntake_eff hn s rfl
  · exact acquire_eff hn _ _ _ _

theorem headTaken_eff (hn : 5 ≤ n) (identity : Word16) (h : Count) (serial quality reserved : BitVec 4) (check : Word16)
    (s : State) : Eff n s (headTaken identity h serial quality reserved check s) := by
  unfold headTaken
  split
  · exact (updIntake_eff hn s rfl).trans ((closeOpen_eff hn _).trans (headByState_eff hn _ _ _ _))
  · exact updIntake_eff hn s rfl

theorem dirTaken_eff (hn : 4 ≤ n) (index : Byte) (block : Bytes30) (check : Word16) (s : State) :
    Eff n s (dirTaken index block check s) := by
  unfold dirTaken
  split
  · split
    · exact directoryBlock_eff hn _ _ _
    · exact .refl _
  · exact .refl _

theorem tileTaken_eff (hn : 5 ≤ n) (erasure : Bool) (position : BitVec 10) (payload : Bytes30) (check : Word16) (s : State) :
    Eff n s (tileTaken erasure position payload check s) := by
  unfold tileTaken
  split
  · rename_i f _
    split
    · dsimp only
      have h : Eff n s (s.updIntake fun p => { p with openFrame := some { f with lowest := position.toNat + 1 } }) :=
        updIntake_eff hn s rfl
      split
      · exact h.trans (placeTile_eff _ _ _ _ _ _)
      · exact h
    · exact .refl _
  · exact .refl _

theorem tailTaken_eff (hn : 5 ≤ n) (s : State) : Eff n s (tailTaken s) := by
  unfold tailTaken
  split
  · split
    · exact .refl _
    · exact closeOpen_eff hn _
  · exact .refl _

theorem signalLost_eff (hn : 5 ≤ n) (s : State) : Eff n s (signalLost s) := by
  unfold signalLost
  split
  · exact (closeOpen_eff hn _).trans (enterHoldover_eff hn _)
  · split
    · exact updIntake_eff hn s rfl
    · exact .refl _
  · exact .refl _

theorem watchExpires_eff (hn : 5 ≤ n) (s : State) : Eff n s (watchExpires s) := by
  unfold watchExpires
  split
  · exact (updIntake_eff hn s rfl).trans (signalLost_eff hn _)
  · exact .refl _

theorem checkHoldoverLimit_eff (hn : 5 ≤ n) (s : State) : Eff n s (checkHoldoverLimit s) := by
  unfold checkHoldoverLimit
  split
  · exact ((updIntake_eff hn s rfl).trans (suspendLost_eff (by omega) _)).raised
  · exact .refl _

theorem holdoverTick_eff (hn : 5 ≤ n) (s : State) : Eff n s (holdoverTick s) := by
  unfold holdoverTick
  split
  · refine Eff.trans (virtualClose_eff hn s) ?_
    generalize virtualClose s = t
    refine Eff.trans ?_ (checkHoldoverLimit_eff hn _)
    exact updIntake_eff hn t rfl
  · exact .refl _

theorem tickTaken_eff (hn : 5 ≤ n) (s : State) : Eff n s (tickTaken s) := by
  unfold tickTaken
  split
  · exact (ageTable_eff (by omega) _).trans ((expireTable_eff (by omega) _).trans (holdoverTick_eff hn _))
  · exact .refl _

theorem forgetOrder_eff (hn : 5 ≤ n) (s : State) : Eff n s (forgetOrder s).2.2 := by
  refine Eff.trans (identityChange_eff (by omega) none s) ?_
  unfold forgetOrder
  dsimp only
  generalize identityChange none s = t
  exact .of (.intake hn _ t rfl)

/-- The holdover limit of SET-HOLDOVER stays in its range (R21). -/
theorem setHoldoverOrder_eff (hn : 6 ≤ n) (limit : Byte) (s : State) : Eff n s (setHoldoverOrder limit s).2.2 :=
  .of (.holdoverLimit hn _ (by have := limit.isLt; omega) s)

theorem setCellRx_eff (hn : 5 ≤ n) (r : CellRx) (s : State) : Eff n s (setCellRx r s) := updIntake_eff hn s rfl

theorem cellTaken_eff (hn : 5 ≤ n) (bytes : List Byte) (s : State) : Eff n s (cellTaken bytes s) := by
  unfold cellTaken
  split
  · exact tailTaken_eff hn _
  · exact signalLost_eff hn _
  · exact headTaken_eff hn _ _ _ _ _ _ _
  · split
    · exact dirTaken_eff (by omega) _ _ _ _
    · exact .refl _
  · split
    · exact tileTaken_eff hn _ _ _ _ _
    · exact .refl _
  · exact .refl _

/-- An event is its effect and what the end of every event brings. -/
theorem event_eff (hn : 1 ≤ n) {f : State → State} {s : State} (h : Eff n s (f s)) : Eff n s (event f s) :=
  h.trans (endEvent_eff hn s (f s))

theorem cellProgress_eff (hn : 5 ≤ n) (bytes : List Byte) (s : State) : Eff n s (cellProgress bytes s) := by
  unfold cellProgress
  split
  · split
    · exact setCellRx_eff hn _ _
    · exact (setCellRx_eff hn _ _).trans (event_eff (by omega) (cellTaken_eff hn _ _))
  · exact setCellRx_eff hn _ _

theorem cellBytes_eff (hn : 5 ≤ n) (kind : Byte) (rest : List Byte) (s : State) : Eff n s (cellBytes kind rest s) :=
  (cellProgress_eff hn _ _).trans (Eff.foldl cellByte (fun s b => by
    unfold cellByte
    split
    · exact cellProgress_eff hn _ _
    · exact .refl _) rest _)

end Sys2Proof.Machine
end

