-- ==== Sys2Proof/Laws/Link.lean ====
section
/-! SUPPORT. What the orders and the Delivery Link's operations can do, and what a command can do as a whole: `Reach` lists
its moves, `exec_reach` says that every command is a run of them, and `exec_order` says how the order of a packet is carried
out at once. -/

namespace Sys2Proof.Machine

variable {n : Nat}

/-! ### Orders -/

theorem clamp_range (hi lo : Nat) : clampLo lo (clampHi hi) < clampHi hi ∧ clampHi hi ≤ 4095 := by
  unfold clampLo clampHi
  split <;> (try split) <;> (try split) <;> omega

theorem setQualityOrder_eff (hn : 6 ≤ n) (slot : Byte) (thHi thLo : Word16) (rise fall : Byte) (s : State) :
    Eff n s (setQualityOrder slot thHi thLo rise fall s).2.2 := by
  unfold setQualityOrder
  split
  · exact .of (.quality hn _ _ _ _ _ s (clamp_range _ _))
  · exact .refl _

theorem lockedMask_alarm (mask : Byte) : (lockedMask true mask).getLsbD 0 = true := by
  simp [lockedMask]

theorem setAnnounceOrder_eff (hn : 6 ≤ n) (accept wake : Byte) (s : State) : Eff n s (setAnnounceOrder accept wake s).2.2 :=
  .of (.masks hn _ _ s.announcer.lock s id fun h => by rw [h]; exact ⟨lockedMask_alarm _, lockedMask_alarm _⟩)

theorem lockAlarmOrder_eff (hn : 6 ≤ n) (s : State) : Eff n s (lockAlarmOrder s).2.2 :=
  .of (.masks hn _ _ true s (fun _ => rfl) fun _ => ⟨by simp, by simp⟩)

theorem dismissOrder_eff (hn : 1 ≤ n) (s : State) : Eff n s (dismissOrder s).2.2 := by
  unfold dismissOrder
  split
  · exact .refl _
  · split
    · exact .refl _
    · exact (returnHeld_eff hn false s).trans (removeSlotPackets_eff hn 4 _)

theorem loadPatternOrder_eff (hn : 6 ≤ n) (number : Byte) (values : List Byte) (s : State) :
    Eff n s (loadPatternOrder number values s).2.2 := by
  unfold loadPatternOrder
  split
  · dsimp only
    split
    · exact .refl _
    · split
      · exact .refl _
      · split
        · exact .refl _
        · exact .of (.profiles hn _ s)
  · exact .refl _

theorem setAttentionOrder_eff (hn : 6 ≤ n) (mask : Word16) (s : State) : Eff n s (setAttentionOrder mask s).2.2 :=
  .of (.causes hn s.link.causes _ s)

theorem whichOrder_eff (hn : 6 ≤ n) (s : State) : Eff n s (whichOrder s).2.2 := by
  unfold whichOrder
  split
  · exact .of (.causes hn _ s.link.enable s)
  · exact .refl _

/-- A query changes nothing. -/
@[simp] theorem queryOrder_state (subject first second : Byte) (s : State) : (queryOrder subject first second s).2.2 = s := by
  unfold queryOrder
  split <;> rfl

theorem Eff.ite {p : Prop} [Decidable p] {s : State} {a b : OrderResult × List Byte × State} (ha : Eff n s a.2.2)
    (hb : Eff n s b.2.2) : Eff n s (if p then a else b).2.2 := by
  split
  · exact ha
  · exact hb

theorem orderEffect_eff (hn : 6 ≤ n) (kind : Byte) (params : List Byte) (s : State) : Eff n s (orderEffect kind params s).2.2 := by
  have h5 : 5 ≤ n := by omega
  have h4 : 4 ≤ n := by omega
  have h2 : 2 ≤ n := by omega
  have h1 : 1 ≤ n := by omega
  unfold orderEffect
  refine .ite ?_ (.ite ?_ (.ite ?_ (.ite ?_ (.ite (dismissOrder_eff h1 s) (.ite (lockAlarmOrder_eff hn s) (.ite ?_ (.ite ?_
    (.ite (injectOrder_eff h4 params s) (.ite (forgetOrder_eff h5 s) (.ite ?_ (.ite (whichOrder_eff hn s) (.ite ?_
      (.ite (standbyOrder_eff h2 s) (resumeOrder_eff h2 s))))))))))))))
  all_goals split
  all_goals first
    | exact selectSlot_eff h1 _ _ _ _ _
    | exact releaseOrder_eff h1 _ _
    | exact setQualityOrder_eff hn _ _ _ _ _ _
    | exact setAnnounceOrder_eff hn _ _ _
    | exact loadPatternOrder_eff hn _ _ _
    | exact setHoldoverOrder_eff hn _ _
    | (rw [queryOrder_state]; exact .refl _)
    | exact setAttentionOrder_eff hn _ _
    | exact .refl _

/-- An order's effect before its answer joins keeps to the changes inside a step (R165). -/
theorem orderOutcome_eff (hn : 6 ≤ n) (kind : Byte) (params : List Byte) (s : State) : Eff n s (orderOutcome kind params s).2.2 := by
  unfold orderOutcome
  split
  · exact .refl _
  · split
    · exact .refl _
    · exact orderEffect_eff hn _ _ _

/-! ### What a command can do -/

/-- One move of a command: changes inside a step, the receiver, the two queues around the order handler, the arbiter, and
the resets. -/
inductive Move : State → State → Prop
  | inner (s t : State) (h : Eff 6 s t) : Move s t
  | receiver (r : Receiver) (s : State) : Move s (setReceiver r s)
  | clock (s : State) : Move s (s.updLink fun l => { l with breakDetector := abandonTiming l.breakDetector })
  | orderJoins (body : List Byte) (s : State) (h : s.link.orders.length < orderCapacity) :
    Move s (s.updLink fun l => { l with orders := l.orders ++ [body] })
  | orderLeaves (body : List Byte) (rest : List (List Byte)) (s : State) (h : s.link.orders = body :: rest) :
    Move s (s.updLink fun l => { l with orders := rest })
  | answerJoins (a : Answer) (s : State) (h : s.link.answers.length < answerCapacity) : Move s (joinAnswer a s)
  | lineFalls (s : State) : Move s (s.updLink fun l => { l with sending := none })
  | starts (s : State) : Move s (s.updLink startNext)
  | powerOn (earlyLow : Bool) (s : State) : Move s (powerOn earlyLow s)
  | holdReset (s : State) : Move s (holdReset s)
  | holdBreak (s : State) : Move s (holdBreak s)
  | releaseBreak (s : State) : Move s (releaseBreak s)

/-- A run of moves. -/
def Reach : State → State → Prop := Relation.ReflTransGen Move

namespace Reach

variable {s t u : State}

protected theorem refl (s : State) : Reach s s := Relation.ReflTransGen.refl

protected theorem trans (h : Reach s t) (k : Reach t u) : Reach s u := Relation.ReflTransGen.trans h k

theorem of (h : Move s t) : Reach s t := Relation.ReflTransGen.single h

theorem eff (h : Eff 6 s t) : Reach s t := .of (.inner s t h)

theorem foldl {α : Type} (f : State → α → State) (hf : ∀ s x, Reach s (f s x)) (l : List α) (s : State) : Reach s (l.foldl f s) := by
  induction l generalizing s with
  | nil => exact Reach.refl _
  | cons x rest ih => exact (hf s x).trans (ih _)

/-- What every move preserves, a run preserves. -/
theorem preserves {P : State → Prop} (hc : ∀ s t, Move s t → P s → P t) (h : Reach s t) (hs : P s) : P t := by
  induction h with
  | refl => exact hs
  | tail _ k ih => exact hc _ _ k ih

end Reach

theorem event_reach {f : State → State} {s : State} (h : Reach s (f s)) : Reach s (event f s) :=
  h.trans (.eff (endEvent_eff (by omega) s (f s)))

theorem carryOut_reach (body : List Byte) (s : State) (h : s.link.answers.length < answerCapacity) : Reach s (carryOut body s) := by
  unfold carryOut
  split
  · rename_i ref kind params
    have e := orderOutcome_eff (le_refl 6) kind params s
    exact (Reach.eff e).trans (.of (.answerJoins _ _ (by rw [e.answers]; exact h)))
  · exact .refl _

theorem carryOutHead_reach (s : State) (h : s.link.answers.length < answerCapacity) : Reach s (carryOutHead s) := by
  unfold carryOutHead
  split
  · exact .refl _
  · rename_i body rest ho
    exact (Reach.of (.orderLeaves body rest s ho)).trans (carryOut_reach body _ h)

theorem handleOrders_reach (k : Nat) (s : State) : Reach s (handleOrders k s) := by
  induction k generalizing s with
  | zero => exact .refl _
  | succ k ih =>
    unfold handleOrders
    split
    · rename_i h
      exact (event_reach (carryOutHead_reach s h.2)).trans (ih _)
    · exact .refl _

theorem runHandler_reach (s : State) : Reach s (runHandler s) := handleOrders_reach _ s

theorem orderArrives_reach (body : List Byte) (s : State) : Reach s (orderArrives body s) := by
  unfold orderArrives
  split
  · exact event_reach (.eff (raise_eff _ _))
  · rename_i h
    exact (Reach.of (.orderJoins body s (by omega))).trans (runHandler_reach _)

theorem packetMalformed_reach (s : State) : Reach s (packetMalformed s) :=
  (Reach.of (.receiver (.hunt false) s)).trans (event_reach (.eff (raise_eff _ _)))

theorem receiveByte_reach (s : State) (b : Byte) : Reach s (receiveByte s b) := by
  unfold receiveByte
  split
  · split
    · exact .of (.receiver _ s)
    · split
      · exact packetMalformed_reach s
      · exact .refl _
  · split
    · exact .of (.receiver _ s)
    · exact packetMalformed_reach s
  · exact .of (.receiver _ s)
  · dsimp only
    split
    · exact .of (.receiver _ s)
    · exact packetMalformed_reach s
  · split
    · exact (Reach.of (.receiver _ s)).trans (orderArrives_reach _ _)
    · exact .of (.receiver _ s)

theorem receiveBytes_reach (bytes : List Byte) (s : State) : Reach s (receiveBytes bytes s) :=
  (Reach.of (.clock s)).trans (.foldl _ receiveByte_reach _ _)

theorem packetStarts_reach (s : State) : Reach s (packetStarts s) := by
  unfold packetStarts
  split
  · exact (event_reach (f := fun s => s.updLink startNext) (.of (.starts s))).trans (runHandler_reach _)
  · exact .refl _

theorem packetCompletes_reach (s : State) : Reach s (packetCompletes s) := by
  unfold packetCompletes
  split
  · exact (event_reach (f := fun s => s.updLink fun l => startNext { l with sending := none })
      ((Reach.of (.lineFalls s)).trans (.of (.starts _)))).trans (runHandler_reach _)
  · exact .refl _

theorem whenRunning_reach {f : State → State} {s : State} (h : Reach s (f s)) : Reach s (whenRunning f s) := by
  unfold whenRunning
  split
  · exact h
  · exact .refl _

theorem command_reach {f : State → State} {s t : State} (h : Eff 6 s (f s)) (e : command f s = .next t) : Reach s t := by
  injection e with e
  rw [← e]
  exact whenRunning_reach (event_reach (.eff h))

theorem cellCommand_reach {f : State → State} {s t : State} (h : ∀ s, Eff 6 s (f s)) (e : cellCommand f s = .next t) :
    Reach s t := command_reach (f := fun s => f (setCellRx .idle s)) ((setCellRx_eff (by omega) _ _).trans (h _)) e

theorem orderCommand_reach {body : List Byte} {s t : State} (e : orderCommand body s = .next t) : Reach s t := by
  injection e with e
  rw [← e]
  exact whenRunning_reach (receiveBytes_reach _ _)

theorem retryAllDeferred_eff (hn : 1 ≤ n) (s : State) : Eff n s (retryAllDeferred s) :=
  Eff.foldl (fun s i => retryDeferred i s) (fun _ _ => retryDeferred_eff hn _ _) _ _

theorem retryAllRoom_eff (hn : 1 ≤ n) (s : State) : Eff n s (retryAllRoom s) :=
  Eff.foldl (fun s i => retryRoom i s) (fun _ _ => retryRoom_eff hn _ _) _ _

/-- Every command is a run of moves. -/
theorem exec_reach {c : Instr} {s t : State} (h : exec c s = .next t) : Reach s t := by
  cases c with
  | head => exact cellCommand_reach (fun _ => headTaken_eff (by omega) _ _ _ _ _ _ _) h
  | dir => exact cellCommand_reach (fun _ => dirTaken_eff (by omega) _ _ _ _) h
  | tile => exact cellCommand_reach (fun _ => tileTaken_eff (by omega) _ _ _ _ _) h
  | tail => exact cellCommand_reach (fun _ => tailTaken_eff (by omega) _) h
  | gap => exact cellCommand_reach (fun _ => signalLost_eff (by omega) _) h
  | unknownCell kind rest =>
    injection h with h
    rw [← h]
    exact whenRunning_reach (.eff (cellBytes_eff (by omega) _ _ _))
  | frameWatchExpiry => exact command_reach (watchExpires_eff (by omega) _) h
  | tick => exact command_reach (tickTaken_eff (by omega) _) h
  | holdoverLimitReached => exact command_reach (checkHoldoverLimit_eff (by omega) _) h
  | announcementExpiry => exact command_reach (expireTable_eff (by omega) _) h
  | earlyStart => exact command_reach (earlyStart_eff (by omega) _) h
  | drainEnd => exact command_reach (endDrains_eff (by omega) _) h
  | deferredRetry => exact command_reach (retryAllDeferred_eff (by omega) _) h
  | roomRetry => exact command_reach (retryAllRoom_eff (by omega) _) h
  | waitingSlotOpens => exact command_reach (openWaitingSlots_eff (by omega) _) h
  | takeover => exact command_reach (beginTakeover_eff (by omega) _) h
  | labelComplete => exact command_reach (completeLabels_eff (by omega) _) h
  | recordConfirmed => exact command_reach (confirmRecord_eff (by omega) _ _) h
  | powerOnReset earlyLow => injection h with h; rw [← h]; exact .of (.powerOn earlyLow s)
  | resetHeld => injection h with h; rw [← h]; exact .of (.holdReset s)
  | breakReset => injection h with h; rw [← h]; exact whenRunning_reach (.of (.holdBreak s))
  | breakRelease => injection h with h; rw [← h]; exact .of (.releaseBreak s)
  | packetStart => injection h with h; rw [← h]; exact whenRunning_reach (packetStarts_reach s)
  | packetComplete => injection h with h; rw [← h]; exact whenRunning_reach (packetCompletes_reach s)
  | order => injection h with h; rw [← h]; exact whenRunning_reach (receiveBytes_reach _ s)
  | malformed => injection h with h; rw [← h]; exact whenRunning_reach (receiveBytes_reach _ s)
  | unknownOrder => injection h with h; rw [← h]; exact whenRunning_reach (receiveBytes_reach _ s)
  | _ => exact orderCommand_reach h

/-! ### An order carried out at once -/

/-- What the end of an event brings depends on the state before it through the slots alone. -/
theorem endEvent_congr {b b' : State} (h : b.slots = b'.slots) (a : State) : endEvent b a = endEvent b' a := by
  have e : ∀ i, b.slot i = b'.slot i := fun i => by simp [State.slot, h]
  have k : checkAfter b a = checkAfter b' a := by
    unfold checkAfter hostSlotsChanged
    simp only [e]
  unfold endEvent
  rw [k]

/-- The receiver takes a body whole (R163). -/
theorem receive_body (body bytes : List Byte) (s : State) (hb : body ≠ []) (hr : s.link.receiver = .body bytes body.length) :
    body.foldl receiveByte s = orderArrives (bytes ++ body) (setReceiver (.hunt true) s) := by
  induction body generalizing bytes s with
  | nil => exact absurd rfl hb
  | cons b rest ih =>
    rw [List.foldl_cons]
    cases rest with
    | nil => simp [receiveByte, hr]
    | cons c more =>
      have hstep : receiveByte s b = setReceiver (.body (bytes ++ [b]) (more.length + 1)) s := by
        simp [receiveByte, hr]
      rw [hstep, ih (bytes ++ [b]) _ (by simp) (by simp [setReceiver])]
      simp [setReceiver, State.updLink]

theorem wordOf_bytes (w : Word16) : wordOf (highByte w) (lowByte w) = w := by
  unfold wordOf highByte lowByte
  ext i hi
  simp only [BitVec.getElem_append, BitVec.getElem_extractLsb']
  split
  · simp [← BitVec.getLsbD_eq_getElem]
  · rename_i h
    have e : 8 + (i - 8) = i := by omega
    simp [e, ← BitVec.getLsbD_eq_getElem]

/-- A packet of kind ORDER received whole arrives as its body (R163, R183). -/
theorem receiveOrder_arrives (body : List Byte) (s : State) (h2 : 2 ≤ body.length) (h64 : body.length ≤ 64)
    (hr : s.link.receiver.hunting = true) : receiveOrder body s = orderArrives body (heard s) := by
  have hlen : (BitVec.ofNat 16 body.length).toNat = body.length := by
    rw [BitVec.toNat_ofNat]
    omega
  have hne : body ≠ [] := by
    intro e
    simp [e] at h2
  unfold receiveOrder receiveBytes orderFrame wordBytes
  simp only [List.foldl_append, List.foldl_cons, List.foldl_nil]
  cases hrec : s.link.receiver with
  | hunt p =>
    simp only [receiveByte, State.updLink, hrec, setReceiver, if_true, wordOf_bytes, hlen, h2, h64, and_self]
    rw [receive_body body [] _ hne rfl]
    simp [setReceiver, State.updLink, heard]
  | kind => simp [hrec, Receiver.hunting] at hr
  | length => simp [hrec, Receiver.hunting] at hr
  | body => simp [hrec, Receiver.hunting] at hr

/-- The order of a packet received whole is carried out at once, as one event (R163 to R165). -/
theorem receiveOrder_ready (body : List Byte) (s : State) (h2 : 2 ≤ body.length) (h64 : body.length ≤ 64)
    (h : readyForOrder s) : receiveOrder body s = endEvent (heard s) (carryOut body (heard s)) := by
  obtain ⟨_, hr, ho, ha⟩ := h
  rw [receiveOrder_arrives body s h2 h64 hr]
  have ho' : (heard s).link.orders = [] := ho
  have ha' : (heard s).link.answers.length < answerCapacity := ha
  generalize heard s = t at *
  have hback : carryOutHead (t.updLink fun l => { l with orders := l.orders ++ [body] }) = carryOut body t := by
    unfold carryOutHead
    simp only [State.updLink, ho', List.nil_append]
    congr 1
    rw [← ho']
  have hone : (t.updLink fun l => { l with orders := l.orders ++ [body] }).link.orders = [body] := by simp [ho']
  unfold orderArrives
  rw [if_neg (by simp [ho', orderCapacity])]
  unfold runHandler
  rw [hone]
  show handleOrders 1 _ = _
  unfold handleOrders
  rw [if_pos ⟨by rw [hone]; simp, ha'⟩]
  unfold handleOrders event
  rw [hback]
  exact endEvent_congr rfl _

/-- An order's command in a state that is ready for it (R165). -/
theorem exec_order (ref kind : Byte) (params : List Byte) (s : State) (hl : params.length ≤ 62) (h : readyForOrder s) :
    orderCommand (ref :: kind :: params) s =
      carriedOut s ref kind (orderOutcome kind params (heard s)).1 (orderOutcome kind params (heard s)).2.1
        (orderOutcome kind params (heard s)).2.2 := by
  unfold orderCommand whenRunning
  rw [if_pos h.1, receiveOrder_ready _ _ (by simp) (by simp; omega) h]
  rfl

end Sys2Proof.Machine
end

