-- ==== Sys2Proof/Laws/Opening.lean ====
section
/-! SUPPORT. What opening the lanes of a slot leaves in its roles, in the contexts and in the store: `rolesOpened_openHeldSlot`
for a slot that holds nothing, `rolesOpened_selectPresent` for a SELECT, over the folds of sharing and of requests. -/

namespace Sys2Proof.Machine

/-! ### A request reads the contexts, the store and the Lane Map alone (R87) -/

/-- Two states with the same contexts, store and Lane Map. -/
def SameLanes (a b : State) : Prop := a.contexts = b.contexts ∧ a.store = b.store ∧ a.laneMap = b.laneMap

theorem receivingLane_same {a b : State} (h : SameLanes a b) (x : Nat) : receivingLane a x = receivingLane b x := by
  unfold receivingLane State.ctx
  rw [h.1]

theorem freeCtx_same {a b : State} (h : SameLanes a b) : freeCtx a = freeCtx b := by
  unfold freeCtx State.ctx
  rw [h.1]

theorem requestCtx_same {a b : State} (h : SameLanes a b) (x : Nat) (first : Count) :
    (requestCtx x first a).1 = (requestCtx x first b).1 ∧ SameLanes (requestCtx x first a).2 (requestCtx x first b).2 := by
  unfold requestCtx
  rw [receivingLane_same h, freeCtx_same h, h.2.2, h.2.1]
  split
  · refine ⟨rfl, ?_, h.2.1, h.2.2⟩
    unfold addRef State.setCtx State.ctx
    dsimp only
    rw [h.1]
  · split
    · exact ⟨rfl, h⟩
    · split
      · exact ⟨rfl, h⟩
      · split
        · exact ⟨rfl, h⟩
        · refine ⟨rfl, ?_⟩
          unfold openCtx SameLanes rebuildIndex State.updLaneMap State.updStore State.setCtx
          dsimp only
          rw [h.1, h.2.1, h.2.2]
          exact ⟨rfl, rfl, rfl⟩

/-- The state after requests made in order. -/
abbrev requests (first : Count) (l : List (RoleIx × Nat)) (v : State) : State := l.foldl (fun v q => (requestCtx q.2 first v).2) v

theorem requests_same (first : Count) : ∀ (l : List (RoleIx × Nat)) {a b : State}, SameLanes a b →
    SameLanes (requests first l a) (requests first l b) := by
  intro l
  induction l with
  | nil => exact fun h => h
  | cons q l ih => exact fun h => ih (requestCtx_same h _ _).2

/-! ### The wanted roles and the two folds (R122) -/

theorem receivingLane_addRef (c : Fin 16) (s : State) (x : Nat) : receivingLane (addRef c s) x = receivingLane s x := by
  unfold receivingLane
  congr 1
  funext d
  unfold addRef
  rw [ctx_setCtx]
  by_cases h : d = c
  · subst h
    rw [if_pos rfl]
    rfl
  · rw [if_neg h]

/-- No role is wanted twice. -/
theorem wantedRoles_nodup (i : Fin 5) (e : ServiceEntry) (wantTwin wantData : Bool) :
    ((wantedRoles i e wantTwin wantData).map Prod.fst).Nodup := by
  unfold wantedRoles
  rw [List.map_filterMap]
  refine List.Nodup.filterMap ?_ (by decide : roleIxs.Nodup)
  intro a b r ha hb
  have key : ∀ q : RoleIx, r ∈ Option.map Prod.fst
      (if wantsRole i e.kind wantTwin wantData q then (e.lane? q).map fun l => (q, l) else none) → r = q := by
    intro q h
    split at h
    · cases hl : e.lane? q <;> rw [hl] at h <;> cases h
      rfl
    · cases h
  rw [← key a ha, ← key b hb]

/-- A reference vector after one write, at another role. -/
theorem refs_set_ne {R : Refs} {q r : RoleIx} (x : Ref) (h : r ≠ q) : (R.set q x)[r] = R[r] := by
  simp only [Fin.getElem_fin]
  rw [Vector.getElem_set, if_neg fun k => h (Fin.ext k.symm)]

/-- Sharing changes no lane's receiving context, and counts one more reference where it shares. -/
theorem shareStep_state (s : State) (acc : State × Refs) (q : RoleIx × Nat) (h : ∀ x, receivingLane acc.1 x = receivingLane s x) :
    (∀ x, receivingLane (shareStep acc q).1 x = receivingLane s x) ∧
      (shareStep acc q).1 = (receivingLane s q.2).elim acc.1
        fun c => acc.1.setCtx c { acc.1.ctx c with refs := (acc.1.ctx c).refs + 1 } := by
  unfold shareStep
  rw [h]
  cases receivingLane s q.2 with
  | none => exact ⟨h, rfl⟩
  | some c => exact ⟨fun x => (receivingLane_addRef c acc.1 x).trans (h x), rfl⟩

theorem shareFold_state (s : State) : ∀ (w : List (RoleIx × Nat)) (acc : State × Refs),
    (∀ x, receivingLane acc.1 x = receivingLane s x) →
    (w.foldl shareStep acc).1 = w.foldl (fun v q =>
      (receivingLane s q.2).elim v fun c => v.setCtx c { v.ctx c with refs := (v.ctx c).refs + 1 }) acc.1 := by
  intro w
  induction w with
  | nil => exact fun _ _ => rfl
  | cons a w ih =>
    intro acc h
    have k := shareStep_state s acc a h
    rw [List.foldl_cons, List.foldl_cons, ih _ k.1, k.2]

/-- Sharing sets the roles whose lane a receiving context holds, and no others. -/
theorem shareFold_refs (s : State) : ∀ (w : List (RoleIx × Nat)) (acc : State × Refs), (w.map Prod.fst).Nodup →
    (∀ x, receivingLane acc.1 x = receivingLane s x) → ∀ r : RoleIx,
    ((∀ l, (r, l) ∉ w) → (w.foldl shareStep acc).2[r] = acc.2[r]) ∧
      ∀ l, (r, l) ∈ w → (w.foldl shareStep acc).2[r] = (receivingLane s l).elim acc.2[r] .context := by
  intro w
  induction w with
  | nil => exact fun _ _ _ _ => ⟨fun _ => rfl, fun _ h => by cases h⟩
  | cons a w ih =>
    obtain ⟨q, l0⟩ := a
    intro acc hn h r
    have hn' : q ∉ w.map Prod.fst ∧ (w.map Prod.fst).Nodup := List.nodup_cons.mp hn
    have hq : ∀ l, (q, l) ∉ w := fun l k => hn'.1 (List.mem_map_of_mem (f := Prod.fst) k)
    have other : ∀ r : RoleIx, r ≠ q → (shareStep acc (q, l0)).2[r] = acc.2[r] := by
      intro r hr
      unfold shareStep
      split
      · exact refs_set_ne _ hr
      · rfl
    have own : (shareStep acc (q, l0)).2[q] = (receivingLane s l0).elim acc.2[q] .context := by
      unfold shareStep
      dsimp only
      rw [h]
      cases receivingLane s l0 with
      | none => rfl
      | some c => simp
    have I := ih (shareStep acc (q, l0)) hn'.2 (shareStep_state s acc (q, l0) h).1 r
    rw [List.foldl_cons]
    refine ⟨fun hh => ?_, fun l hl => ?_⟩
    · rw [I.1 fun l k => hh l (List.mem_cons_of_mem _ k), other r fun k => hh l0 (k ▸ List.mem_cons_self)]
    · rcases List.mem_cons.mp hl with k | k
      · cases k
        rw [I.1 hq, own]
      · rw [I.2 l k, other r fun j => hq l (j ▸ k)]

/-- What the requests of the roles asked leave: the state after them, the references of the other roles, and for each role
asked the reference that its answer, in the state the ones before it left, gives it. -/
def RequestedFrom (first : Count) (asked : List (RoleIx × Nat)) (v : State) (R : Refs) (final : State × Refs) : Prop :=
  final.1 = requests first asked v ∧ (∀ r : RoleIx, (∀ l, (r, l) ∉ asked) → final.2[r] = R[r]) ∧
    ∀ (k : Nat) (r : RoleIx) (l : Nat), asked[k]? = some (r, l) →
      final.2[r] = refOfAnswer (requestCtx l first (requests first (asked.take k) v)).1 r l

/-- Opening requests, in order, just the wanted roles that were not shared. -/
theorem openFold (s : State) (first : Count) : ∀ (w : List (RoleIx × Nat)) (v : State) (R : Refs), (w.map Prod.fst).Nodup →
    (∀ r l, (r, l) ∈ w → R[r].isContext = (receivingLane s l).isSome) →
    RequestedFrom first (w.filter fun q => (receivingLane s q.2).isNone) v R (w.foldl (openStep first) (v, R)) := by
  intro w
  induction w with
  | nil => exact fun v R _ _ => ⟨rfl, fun r _ => rfl, fun k r l h => by simp at h⟩
  | cons a w ih =>
    obtain ⟨q, l0⟩ := a
    intro v R hn hR
    have hn' : q ∉ w.map Prod.fst ∧ (w.map Prod.fst).Nodup := List.nodup_cons.mp hn
    have hq : ∀ l, (q, l) ∉ w := fun l k => hn'.1 (List.mem_map_of_mem (f := Prod.fst) k)
    have tail : ∀ r l, (r, l) ∈ w → R[r].isContext = (receivingLane s l).isSome := fun r l h =>
      hR r l (List.mem_cons_of_mem _ h)
    have h0 := hR q l0 List.mem_cons_self
    rw [List.foldl_cons]
    cases hl : receivingLane s l0 with
    | some c =>
      rw [List.filter_cons_of_neg (by rw [hl]; simp)]
      rw [hl] at h0
      have e : openStep first (v, R) (q, l0) = (v, R) := by
        unfold openStep
        exact if_pos h0
      rw [e]
      exact ih v R hn'.2 tail
    | none =>
      rw [List.filter_cons_of_pos (by rw [hl]; rfl)]
      rw [hl] at h0
      have e : openStep first (v, R) (q, l0) =
          ((requestCtx l0 first v).2, R.set q (refOfAnswer (requestCtx l0 first v).1 q l0)) := by
        unfold openStep
        exact if_neg fun k => by rw [h0] at k; cases k
      rw [e]
      have I := ih (requestCtx l0 first v).2 (R.set q (refOfAnswer (requestCtx l0 first v).1 q l0)) hn'.2 fun r l h => by
        have k : r ≠ q := by
          rintro rfl
          exact hq l h
        exact (congrArg Ref.isContext (refs_set_ne _ k)).trans (tail r l h)
      refine ⟨I.1, fun r hr => ?_, fun k r l hk => ?_⟩
      · rw [I.2.1 r fun l h => hr l (List.mem_cons_of_mem _ h)]
        exact refs_set_ne _ fun k => hr l0 (k ▸ List.mem_cons_self)
      · cases k with
        | zero =>
          simp only [List.getElem?_cons_zero, Option.some.injEq, Prod.mk.injEq] at hk
          obtain ⟨rfl, rfl⟩ := hk
          rw [I.2.1 q fun l h => hq l (List.mem_of_mem_filter h)]
          simp only [Fin.getElem_fin, Vector.getElem_set_self]
          rfl
        | succ k =>
          rw [List.getElem?_cons_succ] at hk
          exact I.2.2 k r l hk

/-! ### The roles of a slot that has opened -/

/-- The sharing and opening of these wanted roles, with this giving up between them. -/
abbrev openedRoles (w : List (RoleIx × Nat)) (first : Count) (givingUp : State → State) (s : State) : State × Refs :=
  let shared := w.foldl shareStep (s, noRefs)
  w.foldl (openStep first) (givingUp shared.1, shared.2)

/-- A state with these references in slot i, and with the contexts and store that the opening leaves, has the roles opened. -/
theorem rolesOpened_of {s u : State} {i : Fin 5} {e : ServiceEntry} {wantTwin wantData : Bool} {first : Count} {g g' : State → State}
    (hg : ∀ v, SameLanes (g v) (g' v))
    (hc : u.contexts = (openedRoles (wantedRoles i e wantTwin wantData) first g' s).1.contexts)
    (hs : u.store = (openedRoles (wantedRoles i e wantTwin wantData) first g' s).1.store)
    (hr : ∀ r : RoleIx, ((u.slot i).roleRef r).ref = (openedRoles (wantedRoles i e wantTwin wantData) first g' s).2[r]) :
    rolesOpened s u i e wantTwin wantData first g := by
  unfold rolesOpened
  dsimp only [openedRoles] at hc hs hr ⊢
  have nd := wantedRoles_nodup i e wantTwin wantData
  generalize wantedRoles i e wantTwin wantData = w at *
  have refs := shareFold_refs s w (s, noRefs) nd fun _ => rfl
  have state := shareFold_state s w (s, noRefs) fun _ => rfl
  dsimp only at state
  rw [← state]
  generalize w.foldl shareStep (s, noRefs) = sv at *
  have none' : ∀ r : RoleIx, noRefs[r] = Ref.notWanted := fun r => by simp [noRefs]
  have M := openFold s first w (g' sv.1) sv.2 nd fun r l h => by
    rw [(refs r).2 l h]
    cases receivingLane s l with
    | some c => rfl
    | none => exact congrArg Ref.isContext (none' r)
  have same := fun l => requests_same first l (hg sv.1)
  refine ⟨fun r h => ?_, fun r lane c h hl => ?_, fun k r lane hk => ?_, ?_, ?_⟩
  · rw [hr, M.2.1 r fun l q => h l (List.mem_of_mem_filter q), (refs r).1 h]
    exact none' r
  · rw [hr, M.2.1 r fun l q => ?_, (refs r).2 lane h, hl]
    · rfl
    · cases (Prod.mk.inj (List.inj_on_of_nodup_map nd (List.mem_of_mem_filter q) h rfl)).2
      have := (List.mem_filter.mp q).2
      simp [hl] at this
  · rw [hr, M.2.2 k r lane hk, ← (requestCtx_same (same _) _ _).1]
    unfold refOfAnswer
    cases (requestCtx lane first (requests first ((w.filter fun q => (receivingLane s q.2).isNone).take k) (g sv.1))).1 <;> rfl
  · rw [hc, M.1, List.take_length]
    exact (same _).1.symm
  · rw [hs, M.1, List.take_length]
    exact (same _).2.1.symm

theorem setOpened_ref (i : Fin 5) (service : Word16) (role : Option Role) (wantTwin wantData : Bool) (refs : Refs) (s : State)
    (r : RoleIx) : (((setOpened i service role wantTwin wantData refs s).slot i).roleRef r).ref = refs[r] := by
  unfold setOpened
  rw [raise_slot, slot_updSlot, if_pos rfl]
  unfold openedSlot Slot.roleRef
  simp

/-- A slot that holds nothing opens its lanes as R126 says. -/
theorem rolesOpened_openHeldSlot (i : Fin 5) (e : ServiceEntry) (first : Count) (s : State) :
    rolesOpened s (openHeldSlot i e first s) i e (s.slot i).wantTwin (s.slot i).wantData first id :=
  rolesOpened_of (g' := id) (fun _ => ⟨rfl, rfl, rfl⟩) rfl rfl fun r => setOpened_ref _ _ _ _ _ _ _ r

/-- A reopened slot whose required role fits opens its lanes with the next frame count (R126). -/
theorem rolesOpened_reopenSlot {i : Fin 5} {e : ServiceEntry} {s : State} (h : (s.slot i).service.bind (activeService s) = some e)
    (fits : serviceFits s e [] = true) :
    rolesOpened s (reopenSlot i s) i e (s.slot i).wantTwin (s.slot i).wantData (nextFrameCount s) id := by
  unfold reopenSlot
  rw [h]
  dsimp only
  rw [if_pos fits]
  exact rolesOpened_openHeldSlot i e _ s

/-- A SELECT in the present case opens the lanes of its slot (R122). -/
theorem rolesOpened_selectPresent (i : Fin 5) (e : ServiceEntry) (role : Option Role) (wantTwin wantData : Bool) (s : State) :
    rolesOpened s (selectPresent i e role wantTwin wantData s).2.2 i e wantTwin wantData (nextFrameCount s) (giveUpSlot i) := by
  refine rolesOpened_of (g' := fun v => removeSlotPackets i (giveUpSlot i v)) (fun _ => ⟨rfl, rfl, rfl⟩) rfl rfl fun r => ?_
  show (((setOpened _ _ _ _ _ _ _).slot i).roleRef r).ref = _
  exact setOpened_ref _ _ _ _ _ _ _ r

/-! ### The state checks leave the roles alone (R131) -/

theorem revertSource_roleRef (s : State) (x : Slot) (r : RoleIx) : (revertSource s x).roleRef r = x.roleRef r := by
  unfold revertSource
  split <;> rfl

theorem stateCheck_roleRef (i j : Fin 5) (s : State) (r : RoleIx) : ((stateCheck i s).slot j).roleRef r = (s.slot j).roleRef r := by
  have h : ((s.updSlot i (revertSource s)).slot j).roleRef r = (s.slot j).roleRef r := by
    rw [slot_updSlot]
    split
    · rename_i k
      rw [k, revertSource_roleRef]
    · rfl
  unfold stateCheck
  dsimp only
  split
  · split
    · unfold enterSlotState
      rw [raise_slot, slot_updSlot]
      split
      · rename_i k
        subst k
        exact h
      · exact h
    · exact h
  · exact h

theorem stateChecks_roleRef (j : Fin 5) (s : State) (r : RoleIx) : ((stateChecks s).slot j).roleRef r = (s.slot j).roleRef r :=
  foldl_keeps (fun s : State => (s.slot j).roleRef r) _ (fun s i => stateCheck_roleRef i j s r) _ _

end Sys2Proof.Machine
end

