-- ==== Sys2Proof/Tests/Slice0.lean ====
section
/-! SUPPORT. Tests: the well-formedness checks on ill-formed commands, the parser on a block written out byte by byte, the
meanings on small states, and for each statement a state and operands that meet its hypotheses. -/

namespace Sys2Proof.Tests

open Sys2Proof.Machine

-- Each kernel evaluation below runs by itself: side by side their threads' stacks together pass the memory limit.
set_option Elab.async false

/-! ### Small states -/

/-- An AUDIO lane of four tiles in two groups, and a DATA lane of four. -/
def lane5 : LaneEntry := { lane := 5, start := 10, n := 4, profile := 3, g := 1, trim := 0, cls := .audio }
def lane6 : LaneEntry := { lane := 6, start := 20, n := 4, profile := 0, g := 0, trim := 0, cls := .audio }

/-- An AUDIO service with a twin and a support mask with TRAFFIC. -/
def audio100 : ServiceEntry :=
  { service := 0x0100, kind := .audio, primary := some 5, twin := some 6, data := [], support := 0x02, label := none }

def bank3 : Bank :=
  { serial := some 3, lanes := [lane5, lane6], services := [audio100],
    ident := some { identity := 0x1234, lanes := 2, services := 1, name := List.replicate 16 0x41 }, change := none,
    overfull := false }

/-- Reset with an active bank and an active identity. -/
def banked : State :=
  State.reset.updLaneMap fun m => { m with active := bank3, complete := true, identity := some 0x1234 }

def inState (st : IntakeState) (s : State) : State := s.updIntake fun p => { p with state := st, timerRunning := true }

/-- LOCKED with last closed count 99 and no frame open. -/
def locked : State := (inState .locked banked).updIntake fun p => { p with lastClosed := 99, watchRunning := true }

/-- LOCKED with frame 100 open. -/
def framed : State := opensAt 100 locked

/-- The frame record of `framed` with these marks. -/
def marked (stale suspended : Bool) (lowest : Nat) : State :=
  locked.updIntake fun p => { p with openFrame := some { count := 100, stale := stale, suspended := suspended, lowest := lowest } }

/-- Lane 5 open in context 0 with first lane frame 100. -/
def opened : State := openCtx 0 lane5 100 framed

/-- Context 0 as it is in these fields. -/
def ctx0 (f : LaneContext → LaneContext) (s : State) : State := s.setCtx 0 (f (s.ctx 0))

/-- Lane 5 RUNNING, in the frame of count 100. -/
def running5 : State := ctx0 (fun x => { x with state := .running }) opened

/-- Slot i holding service 0x0100 in this state and role. -/
def holding (i : Fin 5) (st : SlotState) (role : Role) (s : State) : State :=
  s.updSlot i fun x => { x with state := st, service := some 0x0100, role := some role }

/-- No column left. -/
def fullStore (s : State) : State := s.updStore fun d => { d with free := [] }

/-- An alarm for service 0x0100 held in service, with the lock as given. -/
def alarmHeld (lock : Bool) : State :=
  banked.updAnnouncer fun a =>
    { a with takeover := .inService, heldType := some 0, heldTarget := some 0x0100, lock := lock }

def inStandby : State := banked.updAnnouncer fun a => { a with power := .standby }

/-- One candidate waits. -/
def waitingFor (r : Record) (s : State) : State := s.updDirectory fun d => { d with candidates := [r] }

def newIdent : Record := .ident 3 0x1234 2 2 (List.replicate 16 0x42)
def oldIdent : Record := .ident 3 0x1234 2 1 (List.replicate 16 0x41)

def anAnswer : Answer := { ref := 1, kind := 0x0C, result := .accepted, data := [] }
def aFrame : FramePacket :=
  { slot := 0, service := 0x0100, lane := 5, source := .primary, frame := 1, status := .clean, score := 0, payload := [] }
def aLabel : LabelPacket := { slot := 0, service := 0x0100, text := [0x41] }

def withLink (f : Link → Link) : State := State.reset.updLink f

/-- One announcement ON with this age. -/
def announcing (age : Nat) : State :=
  setAnnEntry 1 { on := true, target := some 0x0100, age := age } banked

/-- Slot 0 following a label of one segment that is present. -/
def labelled : State :=
  setLabel 0 { LabelBuffer.reset with count := some 1, segments := (Vector.replicate 8 none).set 0 (some [0x41]) }
    (holding 0 .waiting .background banked)

/-- A role of slot 0 that waits for lane 5. -/
def deferred (s : State) : State := (holding 0 .opening .background s).updSlot 0 fun x => x.setRef 0 (.deferred 5)

/-! ### Well-formedness refuses -/

theorem test_wf_unknownCell_whole : (Instr.unknownCell 0x51 (List.replicate 7 0)).wellFormed = false := by decide
theorem test_wf_unknownCell_short : (Instr.unknownCell 0x51 (List.replicate 6 0)).wellFormed = true := by decide
theorem test_wf_order_short : (Instr.order [1]).wellFormed = false := by decide
theorem test_wf_order_long : (Instr.order (List.replicate 65 0)).wellFormed = false := by decide
theorem test_wf_malformed_good_sync : (Instr.malformed [0xC3]).wellFormed = false := by decide
theorem test_wf_malformed_good_kind : (Instr.malformed [0xC3, 0x10]).wellFormed = false := by decide
theorem test_wf_malformed_good_length : (Instr.malformed [0xC3, 0x10, 0, 64]).wellFormed = false := by decide
theorem test_wf_malformed_bad_length : (Instr.malformed [0xC3, 0x10, 0, 65]).wellFormed = true := by decide
theorem test_wf_unknownOrder_known : (Instr.unknownOrder 0 0x0F []).wellFormed = false := by decide
theorem test_wf_unknownOrder_long : (Instr.unknownOrder 0 0x10 (List.replicate 63 0)).wellFormed = false := by decide
theorem test_wf_loadPattern : (Instr.loadPattern 0 0 [1, 2]).wellFormed = false := by decide
theorem test_wf_inject : (Instr.inject 0 (List.replicate 63 0)).wellFormed = false := by decide
theorem test_wf_recordConfirmed_limit : (Instr.recordConfirmed (.change 16 0 0 0)).wellFormed = false := by decide
theorem test_wf_recordConfirmed_segment : (Instr.recordConfirmed (.labelSegment 1 0 0 1 [])).wellFormed = false := by decide
theorem test_wf_recordConfirmed_alarm : (Instr.recordConfirmed (.announce 0 1 1)).wellFormed = false := by decide

/-! ### The parser (R27 to R29) -/

/-- A LANE, a CHANGE of a wrong length, an ANNOUNCE and the end of the block, byte by byte. -/
theorem test_parse_block :
    parseBlock [0x11, 9, 5, 0, 10, 4, 3, 1, 0, 1, 3, 0x15, 2, 9, 9, 0x21, 4, 1, 1, 0x01, 0x00, 0, 0x21, 4, 1, 1, 1, 0] =
      [.lane 5 10 4 3 1 0 1 3, .announce 1 1 0x0100] := by decide

theorem test_parse_length_past_end : parseBlock [0x21, 5, 1, 1, 0x01, 0x00] = [] := by decide

/-- A SERVICE with primary 5, twin 6 and one data lane 7. -/
theorem test_parse_service :
    parseBlock [0x12, 8, 0x01, 0x00, 3, 0x71, 5, 0x02, 6, 7] =
      [.service 0x0100 3 1 (some 5) (some 6) [7] 0x02] := by decide

/-! ### The check (R2) -/

/-- The check of the nine bytes "123456789". -/
theorem test_crc : crc [0x31, 0x32, 0x33, 0x34, 0x35, 0x36, 0x37, 0x38, 0x39] = 0x29B1 := by decide +kernel

/-! ### Witnesses: the step and its laws -/

def tailWaits : State := { State.reset with pending := [.tail] }

theorem witness_idle : banked.pending = [] := by decide +kernel
theorem witness_held : (holdReset banked).running = false ∧ (holdReset banked).link.breakDetector ≠ .holding := by decide +kernel

theorem witness_step : ∃ t, step tailWaits = .next t := ⟨_, rfl⟩

theorem witness_small_laws :
    tailWaits.store.cells.wf = true ∧ tailWaits.link.withinCapacity ∧ tailWaits.announcer.lockHolds ∧
      oneForeground tailWaits ∧ linesShow tailWaits := by
  refine ⟨by decide, ?_, ?_, ?_, ?_⟩
  · unfold Link.withinCapacity
    decide +kernel
  · unfold Announcer.lockHolds
    decide
  · unfold oneForeground
    decide +kernel
  · unfold linesShow
    decide

theorem witness_columns : columnsConserved tailWaits := by
  refine ⟨fun c _ => ?_, ?_⟩
  · simp [tailWaits, State.reset, State.ctx]
  · have h : heldColumns tailWaits = [] := by decide +kernel
    rw [h]
    simp [tailWaits, State.reset, DelayStore.reset]

theorem witness_banks : banked.laneMap.inOrder ∧ banked.directory.candidatesApart := by
  refine ⟨⟨fun v h => ?_, ⟨?_, ?_⟩, ⟨?_, ?_⟩⟩, ?_⟩
  · exact absurd h (by rw [show banked.laneMap.pending.serial = none from rfl]; simp)
  all_goals first
    | (unfold Bank.lanesApart; decide +kernel)
    | (unfold Bank.servicesOrdered; decide +kernel)
    | (unfold Directory.candidatesApart; decide +kernel)

theorem witness_contexts : oneContextPerLane opened ∧ countersInRange opened ∧ slotsInRange opened := by
  refine ⟨?_, ?_, ?_⟩
  · unfold oneContextPerLane
    decide +kernel
  · unfold countersInRange
    decide
  · unfold slotsInRange
    decide +kernel

/-! ### Witnesses: resets -/

theorem witness_break : banked.running = true ∧ banked.store.cells.wf = true := by decide +kernel
theorem witness_release : (holdBreak banked).link.breakDetector = .holding ∧ (holdBreak banked).link.resetHeld = false := by decide +kernel

/-! ### Witnesses: the Intake Port -/

theorem witness_head_fails : locked.running = true ∧ crc (headBytes 0x1234 100 3 0 0) ≠ 0 := by decide +kernel
theorem witness_head_search :
    State.reset.intake.state = .search ∧ State.reset.laneMap.identity = none ∧ banked.intake.state = .search ∧
      banked.laneMap.identity = some 0x1234 ∧ banked.laneMap.identity ≠ some 0x4321 := by decide +kernel
theorem witness_head_lost : (inState .lost banked).intake.state = .lost := by decide +kernel

def acquiring : State :=
  (inState .acquire banked).updIntake fun p => { p with remembered := some { identity := 7, count := 4095, origin := .lost } }

theorem witness_head_acquire :
    acquiring.running = true ∧ acquiring.intake.state = .acquire ∧
      acquiring.intake.remembered = some { identity := 7, count := 4095, origin := .lost } ∧
      (0 : Count) = 4095 + 1 ∧ ¬((8 : Word16) = 7 ∧ (0 : Count) = 4095 + 1) := by decide +kernel

/-- An acquisition of this identity and origin whose remembered frame count is 4095. -/
def acquires (identity : Word16) (origin : Origin) (s : State) : State :=
  (inState .acquire s).updIntake fun p => { p with remembered := some { identity := identity, count := 4095, origin := origin } }

theorem witness_lock_cases :
    (acquires 7 .search State.reset).laneMap.identity = none ∧ (acquires 0x1234 .search banked).laneMap.identity = some 0x1234 ∧
      (acquires 0x1234 .lost banked).laneMap.identity = some 0x1234 ∧ (acquires 0x1234 .lost banked).intake.state = .acquire ∧
      acquiring.laneMap.identity ≠ none ∧ acquiring.laneMap.identity ≠ some 7 := by decide +kernel

/-- Lane 5 in context 0 on its way out, after frame 105. -/
def draining5 : State := ctx0 (fun x => { x with state := .draining, drainEnd := some 105, assembled := 1 }) opened

theorem witness_realign :
    opened.store.cells.wf = true ∧ (opened.ctx 0).state ≠ .free ∧ 0 ∈ (opened.ctx 0).columns ∧ (0 : Nat) < 384 ∧ (7 : Nat) < 8 ∧
      (draining5.ctx 0).state = .draining ∧ (opened.ctx 1).state = .free := by decide +kernel

/-- Slot 1 SUSPENDED with cause LOST. -/
def lostSlot : State := (holding 1 .suspended .background opened).updSlot 1 fun x => { x with cause := some .lost }

theorem witness_resume :
    (lostSlot.slot 1).state = .suspended ∧ (lostSlot.slot 1).cause = some .lost ∧ (lostSlot.slot 0).state = .empty := by decide +kernel

theorem witness_distance :
    locked.running = true ∧ locked.laneMap.identity = some 0x1234 ∧ locked.intake.state = .locked ∧
      (headHeard 0 locked).intake.lastClosed = 99 ∧ distance 99 99 = 0 ∧ distance 100 99 = 1 ∧ distance 107 99 = 8 ∧
      distance 108 99 = 9 ∧ distance 90 99 = 4087 ∧ distance 91 99 = 4088 := by decide +kernel
theorem witness_distance_holdover : (inState .holdover locked).intake.state = .holdover := by decide +kernel

/-- The active bank and, ready, the pending bank that will follow it: lane 5 is longer there. -/
def bank4 : Bank :=
  { bank3 with
    serial := some 4, lanes := [{ lane5 with n := 6 }], ident := none
    change := some { frame := 100, lanes := 1, services := 1 } }
def ready4 (s : State) : State := s.updLaneMap fun m => { m with pending := bank4, ready := true }

theorem witness_swap_trigger :
    (ready4 State.reset).laneMap.active.serial = none ∧ (ready4 State.reset).laneMap.pending.serial = some 4 ∧
      State.reset.laneMap.pending.serial ≠ some 4 ∧ banked.laneMap.active.serial = some 3 ∧
      (ready4 banked).laneMap.active.serial ≠ none ∧ (ready4 banked).laneMap.active.serial ≠ some 4 ∧
      (ready4 banked).laneMap.pending.serial = some 4 ∧ (ready4 banked).laneMap.ready = true ∧
      banked.laneMap.pending.serial ≠ some 4 ∧ banked.laneMap.stale = false := by decide +kernel

/-- bank4 active while context 0 still holds lane 5 as bank3 gave it. -/
def swapped4 (s : State) : State := s.updLaneMap fun m => { m with active := bank4 }

theorem witness_outcomes :
    (opened.ctx 0).receiving = true ∧ (opened.ctx 0).shape = some lane5 ∧ (opened.ctx 1).receiving = false ∧
      opened.laneMap.active.lane? lane5.lane = some lane5 ∧
      (swapped4 opened).laneMap.active.lane? lane5.lane = some { lane5 with n := 6 } ∧ (6 : Nat) ≠ lane5.n ∧
      0 < ((ctx0 (fun x => { x with assembled := 1 }) running5).ctx 0).assembled ∧ (opened.ctx 0).first = some 100 ∧
      atOrBefore 100 (101 - 1) = true ∧ (opened.ctx 0).assembled = 0 ∧ atOrBefore 100 (100 - 1) = false := by decide +kernel

/-- Slot 0 OPENING with its primary role on context 0. -/
def onCtx0 (s : State) : State := (holding 0 .opening .background s).updSlot 0 fun x => x.setRef 0 (.context 0)

theorem witness_roles :
    (((onCtx0 draining5).slot 0).roleRef 0).ref = .context 0 ∧ ((onCtx0 draining5).ctx 0).state = .draining ∧
      ((onCtx0 opened).ctx 0).receiving = true ∧ resolvedLane 0 ((onCtx0 opened).slot 0) audio100 0 = some 5 ∧
      ((onCtx0 opened).ctx 0).lane? = some 5 ∧
      resolvedLane 0 ((onCtx0 opened).slot 0) { audio100 with primary := some 6 } 0 = some 6 ∧
      resolvedLane 0 ((onCtx0 opened).slot 0) audio100 1 = none ∧ (((onCtx0 opened).slot 0).roleRef 1).ref = .notWanted ∧
      ((deferred banked).slot 0).state = .opening ∧
      ((holding 0 .opening .background State.reset).slot 0).service.bind (activeService State.reset) = none := by decide +kernel

/-- Slot 1 SUSPENDED with cause LOST takes part in the passes, a WAITING one does not, and an absent service takes the last form. -/
theorem witness_passes :
    (lostSlot.slot 1).service.bind (activeService lostSlot) = some audio100 ∧ (lostSlot.slot 1).state = .suspended ∧
      ((holding 1 .waiting .background banked).slot 1).state = .waiting ∧
      ((holding 1 .delivering .background State.reset).slot 1).service.bind (activeService State.reset) = none ∧
      ((deferred banked).slot 0).roleRef 0 = { ref := .deferred 5, outgoing := [] } ∧
      resolvedLane 0 ((deferred banked).slot 0) audio100 0 = some 5 ∧
      resolvedLane 1 (lostSlot.slot 1) { audio100 with twin := none } 1 = none ∧
      (((onCtx0 banked).slot 0).roleRef 0).ref = .context 0 ∧ ((onCtx0 banked).ctx 0).state = .free ∧
      (requestCtx 5 100 banked).1 = .opened 0 := by decide +kernel

theorem witness_foreign :
    locked.laneMap.identity ≠ some 0x4321 ∧
      ((inState .holdover locked).updIntake fun p => { p with foreign := some { identity := 0x4321, count := 99 } }).intake.foreign =
        some { identity := 0x4321, count := 100 - 1 } ∧
      (inState .holdover locked).intake.foreign ≠ some { identity := 0x4321, count := 100 - 1 } := by decide +kernel

theorem witness_identity_change :
    ((holding 1 .opening .background banked).slot 1).state = .opening ∧
      (∀ j : Fin 5, 1 < j → j ≠ 4 → ((holding 1 .opening .background banked).slot j).state = .empty) ∧
      (banked.slot 0).state = .empty ∧ ((holding 1 .parked .background inStandby).slot 1).state = .parked := by decide +kernel

theorem witness_signal :
    locked.intake.watchRunning = true ∧ locked.intake.state = .locked ∧ acquiring.intake.watchRunning = false ∧
      (inState .lost banked).intake.state ≠ .locked ∧ (inState .lost banked).intake.state ≠ .acquire := by decide +kernel

theorem witness_tail :
    locked.intake.openFrame = none ∧ (marked false true 0).running = true ∧
      (marked true false 0).intake.openFrame = some { count := 100, stale := true, suspended := false, lowest := 0 } ∧
      (marked false false 0).intake.openFrame = some { count := 100, stale := false, suspended := false, lowest := 0 } := by
  decide +kernel

theorem witness_tick :
    State.reset.intake.timerRunning = false ∧ locked.intake.timerRunning = true ∧ locked.intake.state ≠ .holdover ∧
      (inState .holdover locked).intake.timerRunning = true := by decide +kernel

/-- HOLDOVER with this count against the limit of 47. -/
def holdover (count : Nat) : State := (inState .holdover locked).updIntake fun p => { p with holdoverCount := count }

theorem witness_limit :
    (holdover 47).intake.state = .holdover ∧ (holdover 47).intake.holdoverLimit ≤ (holdover 47).intake.holdoverCount ∧
      ¬((holdover 46).intake.holdoverLimit ≤ (holdover 46).intake.holdoverCount) := by decide +kernel

theorem witness_holdover_tick :
    (holdover 45).intake.timerRunning = true ∧ (holdover 45).intake.state = .holdover ∧
      (holdover 45).intake.holdoverCount + 1 < (holdover 45).intake.holdoverLimit ∧
      (holdover 46).intake.holdoverLimit ≤ (holdover 46).intake.holdoverCount + 1 ∧
      ((announcing 63).directory.table[(1 : Fin 8)]).on = true ∧ ((announcing 63).directory.table[(0 : Fin 8)]).on = false ∧
      ((holding 1 .delivering .background banked).slot 1).state = .delivering := by decide +kernel

theorem witness_tile :
    running5.running = true ∧ indexAt running5 10 = some { position := 10, ctx := 0, tile := 0 } ∧
      indexAt running5 575 = none ∧ (running5.ctx 0).shape = some lane5 ∧ (running5.ctx 0).columns[0]? = some 0 ∧
      patternValue running5 3 0 = 0 ∧ admits (running5.ctx 0) 100 = true ∧
      (running5.store.cells.read (cellAddress 0 (rowOf 100))).tag ≠ some 100 := by decide +kernel
/-- The ends of a lane's range in the index, the profile entry of tile 9, and the first lane frame and the one before it. -/
theorem witness_index :
    indexAt opened 9 = none ∧ indexAt opened 13 = some { position := 13, ctx := 0, tile := 3 } ∧ indexAt opened 14 = none ∧
      patternValue opened 3 9 = 3 ∧ admits (opened.ctx 0) 100 = true ∧ admits (opened.ctx 0) 2147 = true ∧
      admits (opened.ctx 0) 2148 = false ∧ admits (running5.ctx 0) 99 = true ∧ admits (draining5.ctx 0) 100 = false := by
  decide +kernel

theorem witness_tile_refused :
    admits (opened.ctx 0) 99 = false ∧ (10 : BitVec 10).toNat ≤ 575 ∧ (575 : BitVec 10).toNat ≤ 575 ∧
      575 < (576 : BitVec 10).toNat := by decide +kernel
theorem witness_tile_ignored : locked.intake.openFrame = none := by decide +kernel

theorem witness_dir :
    framed.intake.openFrame = some { count := 100, stale := false, suspended := false, lowest := 0 } ∧
      crc (bytes30 0) = crc (bytes30 0) ∧ (3 : Byte).toNat ≤ 3 ∧ 3 < (4 : Byte).toNat ∧ locked.intake.openFrame = none := by
  decide +kernel

/-- ALARM ON for service 0x0100, and reset with a full candidate list. -/
def alarmOn (s : State) : State := setAnnEntry 0 { on := true, target := some 0x0100, age := 5 } s
def fullCandidates : State := State.reset.updDirectory fun d => { d with candidates := List.replicate 16 newIdent }

theorem witness_sighting_forms :
    ((alarmOn banked).directory.table[(0 : Fin 8)]).on = true ∧
      ((alarmOn banked).directory.table[(0 : Fin 8)]).target = some 0x0100 ∧
      (banked.directory.table[(0 : Fin 8)]).on = false ∧ followedService labelled 0 = some 0x0100 ∧
      followedService labelled 1 = none ∧ (7 : Nat) < 8 ∧ (1 : Nat) ≠ (label labelled 0).toggle ∧
      0 = (label labelled 0).toggle ∧ (label labelled 0).count = some 1 ∧ State.reset.directory.candidates.length < 16 ∧
      16 ≤ fullCandidates.directory.candidates.length := by decide +kernel

theorem witness_unknown_cell :
    cellLength 0x00 = none ∧ cellLength 0x51 = some 8 ∧ (List.replicate 6 (0 : Byte)).length + 1 < 8 := by decide +kernel

/-! ### Witnesses: the Directory Acquirer and the Lane Map -/

theorem witness_sighting :
    equalsCommitted banked oldIdent = true ∧ equalsCommitted banked newIdent = false ∧
      candidateOf (waitingFor newIdent banked) newIdent = some newIdent ∧
      candidateOf (waitingFor (.ident 3 7 0 0 []) banked) newIdent = some (.ident 3 7 0 0 []) ∧
      candidateOf banked newIdent = none := by decide +kernel

theorem witness_confirmed :
    (waitingFor newIdent banked).running = true ∧ (waitingFor newIdent banked).laneMap.active.serial = some 3 ∧
      (waitingFor newIdent banked).laneMap.active.ident ≠
        some { identity := 0x1234, lanes := 2, services := 2, name := List.replicate 16 0x42 } := by decide +kernel

/-- A LANE commit in the active bank that is a correction, that adds an entry, and that is neither, and commits for a
pending bank of no serial, of the record's and of another. -/
theorem witness_placement :
    banked.laneMap.active.serial = some 3 ∧ (commitLane { lane5 with g := 0 } bank3).correction = true ∧
      (commitLane { lane5 with lane := 9, start := 100 } bank3).correction = false ∧
      (commitLane { lane5 with lane := 9, start := 100 } bank3).added = true ∧ (commitLane lane5 bank3).correction = false ∧
      (commitLane lane5 bank3).added = false ∧ banked.laneMap.active.serial ≠ some 4 ∧ banked.laneMap.pending.serial = none ∧
      (ready4 banked).laneMap.pending.serial = some 4 ∧ (ready4 banked).laneMap.active.serial ≠ some 5 := by decide +kernel

theorem witness_announce_commit :
    ((announcing 0).directory.table[(1 : Fin 8)]).on = true ∧
      ((announcing 0).directory.table[(1 : Fin 8)]).target = some 0x0100 ∧ (some 0x0100 : Option Word16) ≠ some 0x0200 ∧
      ((announcing 0).directory.table[(0 : Fin 8)]).on = false ∧ (alarmHeld false).announcer.heldType = some 0 ∧
      (alarmHeld false).announcer.heldTarget = some 0x0100 ∧ (alarmHeld false).announcer.takeover ≠ .idle := by decide +kernel

/-- A bank with no room for another service. -/
def fullBank : Bank := { bank3 with services := List.replicate 32 audio100 }

theorem witness_bank_commits :
    bank3.service? 0x0100 = some audio100 ∧ bank3.service? 0x0999 = none ∧ bank3.services.length < 32 ∧
      fullBank.service? 0x0999 = none ∧ 32 ≤ fullBank.services.length ∧ bank3.lane? 5 = some lane5 ∧ bank3.lane? 7 = none := by
  decide +kernel

theorem witness_lane_commit :
    bank3.lanesApart ∧ ({ lane5 with lane := 7, start := 12 } : LaneEntry).overlaps lane5 = true := by
  refine ⟨?_, by decide⟩
  unfold Bank.lanesApart
  decide +kernel

theorem witness_expiry :
    (announcing 64).running = true ∧ ((announcing 64).directory.table[(1 : Fin 8)]).on = true ∧
      64 ≤ ((announcing 64).directory.table[(1 : Fin 8)]).age ∧
      ∀ k : Fin 8, ((announcing 63).directory.table[k]).on = true → ((announcing 63).directory.table[k]).age < 64 := by decide +kernel

/-- TRAFFIC held for service 0x0100 while its entry expires, and an expiry of another type. -/
def expiring (held : Fin 8) : State :=
  (announcing 64).updAnnouncer fun a => { a with takeover := .opening, heldType := some held, heldTarget := some 0x0100 }

theorem witness_expiry_held :
    (expiring 1).announcer.heldType = some 1 ∧ (expiring 1).announcer.heldTarget = some 0x0100 ∧
      ((expiring 1).directory.table[(1 : Fin 8)]).target = some 0x0100 ∧ (expiring 2).announcer.heldType ≠ some 1 ∧
      (expireTable (expiring 1)).announcer.takeover = .idle ∧ (expireTable (expiring 2)).announcer.takeover = .opening := by
  decide +kernel

theorem witness_label :
    (label labelled 0).candidate = some [0x41] ∧ followedService labelled 0 = some 0x0100 ∧
      (label labelled 0).visible ≠ some [0x41] ∧ labelled.link.labels.length < 2 ∧
      ∀ j : Fin 5, j ≠ 0 → (label labelled j).candidate = none := by decide +kernel

/-- The candidate repeats the visible label in the only complete buffer. -/
def labelledTwice : State := setLabel 0 { label labelled 0 with visible := some [0x41] } labelled

theorem witness_label_repeated :
    (label labelledTwice 0).candidate = some [0x41] ∧ (label labelledTwice 0).visible = some [0x41] ∧
      followedService labelledTwice 0 = some 0x0100 ∧ (∀ j : Fin 5, j ≠ 0 → (label labelledTwice j).candidate = none) ∧
      (label labelled 0).count = some 1 := by decide +kernel

/-- The same with the LABEL queue full. -/
def labelledFull : State := labelled.updLink fun l => { l with labels := [aLabel, aLabel] }

theorem witness_label_full :
    2 ≤ labelledFull.link.labels.length ∧ (label labelledFull 0).candidate = some [0x41] ∧
      followedService labelledFull 0 = some 0x0100 ∧ (label labelledFull 0).visible ≠ some [0x41] ∧
      ∀ j : Fin 5, j ≠ 0 → (label labelledFull j).candidate = none := by decide +kernel

/-! ### Witnesses: assembly -/

theorem witness_groups :
    (∀ t ∈ ([some 1, some 2, some 3] : List (Option Bytes30)), t ≠ none) ∧
      ([none, some 2, some 3] : List (Option Bytes30))[0]? = some none ∧
      ([some 1, some 2, none] : List (Option Bytes30))[2]? = some none ∧
      ([none, some 2, none] : List (Option Bytes30))[2]? = some none := by
  refine ⟨by simp, by simp, by simp, by simp⟩

/-- A lost data tile is rebuilt from the rest of its group. -/
theorem test_group_repair :
    resolveGroup 2 [some 0x0F, none, some 0x3C] = (.repaired, [.received 0x0F, .rebuilt 0x33]) := by decide +kernel

theorem witness_round :
    (opened.ctx 0).state = .filling ∧ (opened.ctx 0).first = some (107 - 7) ∧ (running5.ctx 0).state = .running ∧
      (running5.ctx 0).shape = some lane5 ∧ (draining5.ctx 0).state = .draining ∧ (draining5.ctx 0).drainEnd = some 105 ∧
      atOrBefore (112 - 7) 105 = true ∧ atOrBefore (113 - 7) 105 = false ∧ 0 < (draining5.ctx 0).assembled ∧
      (running5.ctx 1).state = .free := by decide +kernel

/-- Slot 0 with its primary role on context 0, RUNNING, in this state and role. -/
def served (st : SlotState) (role : Role) : State := (onCtx0 running5).updSlot 0 fun x => { x with state := st, role := some role }

/-- The record of context 0 in a round. -/
def record0 : LaneRecord :=
  { ctx := 0, lane := 5, cls := .audio, frame := 100, status := .clean, payload := [], missing := 0, lostGroups := 0,
    mismatchGroups := 0, groups := 2, score := 0, arm := .high, crossing := .none }

theorem witness_promotion :
    ((served .opening .background).slot 0).state = .opening ∧ slotKind (served .opening .background) 0 = some .audio ∧
      (((served .opening .background).slot 0).roleRef (deliveringRole .audio ((served .opening .background).slot 0).source)).ref =
        .context 0 ∧
      ((served .opening .background).ctx 0).state = .running ∧ ((onCtx0 opened).ctx 0).state ≠ .running ∧
      slotKind (promote 0 (stateCheck 0 (served .opening .background))) 0 = some .audio ∧
      ((served .opening .background).slot 1).state = .empty := by decide +kernel

/-- Slot 0 DELIVERING from its twin, which has this reference. -/
def onTwin (ref : Ref) : State :=
  (served .delivering .foreground).updSlot 0 fun x => { x with source := .twin }.setRef 1 ref

theorem witness_state_check :
    ((onTwin .absent).slot 0).source = .twin ∧ roleServed (onTwin .absent) ((onTwin .absent).slot 0) 1 = false ∧
      roleServed (onTwin (.context 0)) ((onTwin (.context 0)).slot 0) 1 = true ∧
      slotKind (onTwin .absent) 0 = some .audio ∧
      roleServed banked ((holding 0 .delivering .foreground banked).slot 0) 0 = false ∧
      slotKind (holding 0 .delivering .foreground banked) 0 = some .audio ∧
      slotKind (holding 0 .delivering .foreground State.reset) 0 = none ∧
      ((holding 0 .delivering .foreground State.reset).slot 0).state = .delivering := by decide +kernel

/-- A twin that is given up leaves a SUSPENDED or WAITING slot too with source PRIMARY and dwell 0 (R131 step 1). -/
theorem test_source_reverts_in_any_state :
    let fallen (st : SlotState) := (onTwin .notWanted).updSlot 0 fun x => { x with state := st, dwell := 7 }
    (((stateCheck 0 (fallen .suspended)).slot 0).source, ((stateCheck 0 (fallen .suspended)).slot 0).dwell,
      ((stateCheck 0 (fallen .waiting)).slot 0).source) = (.primary, 0, .primary) := by decide +kernel

/-- Two slots that refer to context 0, slot 1 with thresholds of its own, and a slot whose service the bank lacks. -/
theorem witness_governing :
    ((onCtx0 opened).slot 0).refersTo 0 = true ∧ (∀ i : Fin 5, (opened.slot i).refersTo 0 = false) ∧
      governing ((onCtx0 opened).updSlot 0 fun x => { x with thHi := 99, thLo := 9 }) 0 = (99, 9) ∧
      governing opened 0 = (1536, 512) ∧ slotKind (holding 0 .opening .background State.reset) 0 = none ∧
      ((holding 0 .opening .background State.reset).slot 0).state = .opening := by decide +kernel

/-- Of two outgoing contexts only the later assembled, and none did. -/
theorem witness_serving :
    let x := ((onCtx0 opened).slot 0).addOutgoing 0 3 |>.addOutgoing 0 0
    (x.roleRef 0).outgoing = [3] ++ 0 :: [] ∧ servingCtx [record0] x 0 = some 0 ∧ servingCtx [] x 0 = some 0 ∧
      (∃ q ∈ [record0], q.ctx = 0) ∧ ¬(∃ q ∈ [record0], q.ctx = 3) := by decide +kernel

theorem witness_queueing :
    ((served .delivering .foreground).slot 0).state = .delivering ∧
      ((served .delivering .foreground).slot 0).service = some 0x0100 ∧
      servingRecord [record0] ((served .delivering .foreground).slot 0) 0 = some record0 ∧
      servingRecord [] ((served .delivering .foreground).slot 0) 0 = none ∧
      ((served .delivering .foreground).slot 0).role = some .foreground ∧
      ((served .delivering .foreground).slot 0).overridden = false ∧
      ((served .delivering .background).slot 0).role = some .background ∧
      ((served .delivering .announcement).slot 0).role = some .announcement ∧
      (served .delivering .announcement).announcer.takeover ≠ .takeover := by decide +kernel

theorem witness_crossing :
    servingRecord [{ record0 with crossing := .rise }] ((served .delivering .foreground).slot 0) 0 =
        some { record0 with crossing := .rise } ∧
      ((served .delivering .foreground).slot 0).riseMask.getLsbD 0 = true ∧ record0.crossing = .none := by decide +kernel

theorem witness_queueing_overridden :
    (((served .delivering .foreground).updSlot 0 fun x => { x with overridden := true }).slot 0).overridden = true ∧
      ((served .delivering .announcement).updAnnouncer fun a => { a with takeover := .takeover }).announcer.takeover = .takeover := by
  decide +kernel

theorem witness_drain :
    drainDone ((ctx0 (fun x => { x with state := .draining, drainEnd := some 99, last := some (99, .clean) }) opened).ctx 0) =
      true := by decide +kernel

theorem witness_request :
    receivingLane opened 5 = some 0 ∧ receivingLane banked 9 = none ∧ banked.laneMap.active.lane? 9 = none ∧
      receivingLane banked 5 = none ∧ banked.laneMap.active.lane? 5 = some lane5 ∧ freeCtx banked = some 0 ∧
      (fullStore banked).store.free.length < 4 ∧ 4 ≤ banked.store.free.length := by decide +kernel
theorem witness_request_no_context :
    freeCtx { banked with contexts := Vector.replicate 16 { LaneContext.free with state := .draining } } = none := by decide +kernel

theorem witness_deferred :
    (deferred banked).running = true ∧ (((deferred banked).slot 0).roleRef 0).ref = .deferred 5 ∧
      ((deferred banked).slot 0).state = .opening ∧ (requestCtx 5 1 (deferred banked)).1 = .opened 0 ∧
      (requestCtx 5 1 (deferred opened)).1 = .shared 0 ∧ (requestCtx 5 1 (deferred (fullStore banked))).1 = .noColumns := by
  decide +kernel
theorem witness_deferred_alone :
    ∀ j q : Fin 5, (((deferred banked).slot j).roleRef q).ref ≠ .notWanted → j = 0 ∧ q = 0 := by decide +kernel
theorem witness_none_deferred : ∀ j q : Fin 5, ((banked.slot j).roleRef q).ref = .notWanted := by decide +kernel

/-! ### Witnesses: slots that open by themselves -/

/-- Slot 1 SUSPENDED with cause ROOM. -/
def roomless (s : State) : State := (holding 1 .suspended .background s).updSlot 1 fun x => { x with cause := some .room }

theorem witness_room :
    ((roomless banked).slot 1).state = .suspended ∧ ((roomless banked).slot 1).cause = some .room ∧
      (∀ j : Fin 5, j ≠ 1 → ¬(((roomless banked).slot j).state = .suspended ∧ ((roomless banked).slot j).cause = some .room)) ∧
      ((roomless banked).slot 1).service.bind (activeService (roomless banked)) = some audio100 ∧
      serviceFits (roomless banked) audio100 [] = true ∧ serviceFits (roomless (fullStore banked)) audio100 [] = false ∧
      ((roomless State.reset).slot 1).service.bind (activeService (roomless State.reset)) = none := by decide +kernel

theorem witness_waiting :
    ((holding 1 .waiting .background banked).slot 1).state = .waiting ∧
      ((holding 1 .waiting .background banked).slot 1).service.bind (activeService banked) = some audio100 ∧
      (∀ j : Fin 5, j ≠ 1 → ((holding 1 .waiting .background banked).slot j).state ≠ .waiting) ∧
      serviceFits (holding 1 .waiting .background banked) audio100 [] = true ∧
      serviceFits (holding 1 .waiting .background (fullStore banked)) audio100 [] = false ∧
      (∀ j : Fin 5, j ≠ 4 → (banked.slot j).state ≠ .waiting) := by decide +kernel

def early : State := { locked with earlyLow := true }

theorem witness_early :
    early.running = true ∧ early.earlyLow = true ∧ early.earlyConsumed = false ∧ early.announcer.power = .active ∧
      early.intake.state = .locked ∧ early.laneMap.complete = true ∧ (early.slot 0).state = .empty ∧
      (∀ j : Fin 5, j ≠ 0 → j ≠ 4 → (early.slot j).role ≠ some .foreground) ∧ audio100 ∈ early.laneMap.active.services ∧
      audio100.kind = .audio ∧ (∀ x ∈ early.laneMap.active.services, x.kind = .audio → audio100.service ≤ x.service) ∧
      serviceFits early audio100 [] = true ∧ serviceFits (fullStore early) audio100 [] = false ∧ locked.earlyLow = false := by
  decide +kernel

theorem witness_early_ordered : early.laneMap.active.servicesOrdered := by
  unfold Bank.servicesOrdered
  decide +kernel

/-- Slot 4 DELIVERING while the takeover is OPENING. -/
def takingOver (s : State) : State :=
  (holding 4 .delivering .announcement s).updAnnouncer fun a => { a with takeover := .opening }

theorem witness_takeover :
    (takingOver banked).announcer.takeover = .opening ∧ ((takingOver banked).slot 4).state = .delivering ∧
      foreground (takingOver banked) = none ∧ foreground (takingOver (holding 2 .delivering .foreground banked)) = some 2 ∧
      banked.announcer.takeover ≠ .opening := by decide +kernel

/-- Slot 4 alone changes at an identity change, or nothing does. -/
theorem witness_identity_change_slot_four :
    ((takingOver banked).slot 4).state ≠ .empty ∧
      (∀ i : Fin 5, i ≠ 4 → ((takingOver banked).slot i).state = .empty) ∧ (∀ i : Fin 5, (banked.slot i).state = .empty) := by
  decide +kernel

/-- Standby with this wake mask. -/
def wakesOn (mask : Byte) : State := inStandby.updAnnouncer fun a => { a with wake := mask }

theorem witness_onset :
    banked.announcer.power = .active ∧ (wakesOn 0x01).announcer.power = .standby ∧
      (wakesOn 0x01).announcer.wake.getLsbD (0 : Fin 8).val = true ∧
      (wakesOn 0x01).announcer.wake.getLsbD (7 : Fin 8).val = false ∧
      (wakesOn 0x80).announcer.wake.getLsbD (7 : Fin 8).val = true := by decide +kernel

/-- bank3 with its service made DATA-ONLY. -/
def dataOnly (s : State) : State :=
  s.updLaneMap fun m => { m with active := { bank3 with services := [{ audio100 with kind := .dataOnly, data := [5] }] } }

theorem witness_early_no_audio : ∀ x ∈ (dataOnly early).laneMap.active.services, x.kind ≠ .audio := by decide +kernel

theorem witness_onset_tests :
    banked.announcer.accept.getLsbD 0 = true ∧ banked.announcer.takeover = .idle ∧ banked.announcer.accept.getLsbD 7 = false ∧
      (served .delivering .foreground).announcer.accept.getLsbD 1 = true ∧
      ((served .delivering .foreground).slot 0).role = some .foreground ∧
      ((served .delivering .foreground).slot 0).service.bind (activeService (served .delivering .foreground)) = some audio100 ∧
      audio100.support.getLsbD 1 = true ∧ activeService banked 0x0100 = some audio100 ∧ audio100.kind = .audio ∧
      activeService banked 0x0999 = none ∧ (activeService (dataOnly banked) 0x0100).map ServiceEntry.kind = some .dataOnly ∧
      (alarmHeld true).announcer.takeover ≠ .idle ∧ (alarmHeld true).announcer.heldType = some 0 ∧ ¬((1 : Fin 8) < 0) := by
  decide +kernel

theorem witness_acceptance :
    (alarmHeld true).announcer.heldTarget = some audio100.service ∧ banked.announcer.takeover = .idle ∧
      foregroundCarries (served .delivering .foreground) audio100.service = true ∧
      foregroundCarries banked audio100.service = false ∧ serviceFits banked audio100 [] = true ∧
      serviceFits (fullStore banked) audio100 [] = false ∧ audio100.primary = some 5 := by decide +kernel

theorem witness_take_role :
    ((served .delivering .foreground).slot 0).state = .delivering ∧
      (((served .delivering .foreground).slot 0).roleRef 0).ref = .context 0 ∧ ((served .delivering .foreground).ctx 0).refs = 1 ∧
      (((onTwin (.context 0)).slot 0).roleRef 1).ref = .context 0 ∧ ((onTwin (.context 0)).ctx 0).refs = 1 ∧
      slotKind (dataOnly (served .delivering .foreground)) 0 = some .dataOnly ∧
      ((ctx0 (fun x => { x with refs := 2 }) (served .delivering .foreground)).ctx 0).refs ≠ 1 ∧
      (banked.slot 0).state ≠ .opening := by decide +kernel

/-! ### Witnesses: orders -/

theorem witness_ready : readyForOrder State.reset ∧ readyForOrder banked ∧ readyForOrder opened ∧ readyForOrder inStandby ∧
    readyForOrder (alarmHeld true) ∧ readyForOrder (alarmHeld false) := by
  unfold readyForOrder
  decide +kernel

theorem witness_ready_orders :
    readyForOrder (fullStore banked) ∧ readyForOrder (holding 2 .waiting .foreground banked) ∧
      readyForOrder (holding 1 .opening .background banked) ∧ readyForOrder (holding 1 .parked .background inStandby) ∧
      readyForOrder (raise (.overrun .data) State.reset) ∧ readyForOrder (withLink fun l => { l with enable := 0 }) := by
  unfold readyForOrder
  decide +kernel

theorem witness_pattern_number : (3 : Byte).toNat < 4 ∧ 3 < (4 : Byte).toNat := by decide +kernel
theorem witness_quality_slot : (4 : Byte).toNat = (4 : Fin 5).val ∧ 4 < (5 : Byte).toNat := by decide +kernel
theorem witness_lock : banked.announcer.lock = false ∧ (alarmHeld true).announcer.lock = true := by decide +kernel
theorem witness_dismiss :
    banked.announcer.takeover = .idle ∧ (alarmHeld true).announcer.takeover ≠ .idle ∧
      (alarmHeld true).announcer.heldType = some 0 ∧ (alarmHeld false).announcer.lock = false := by decide +kernel

/-- Slot 1 in this state and cause, its role 1 noted as taken. -/
def noted (st : SlotState) (cause : Option SuspendCause) : State :=
  (holding 1 st .background banked).updSlot 1 fun x => { x with cause := cause, wantTwin := true, taken := 0b00010 }

/-- An entry is reopened whole, its noted roles are, or it is dropped. -/
theorem witness_reopen :
    ((noted .suspended (some .preempted)).slot 1).cause = some .preempted ∧ ((noted .opening none).slot 1).state = .opening ∧
      ((noted .delivering none).slot 1).state = .delivering ∧ ((noted .suspended (some .lost)).slot 1).cause = some .lost ∧
      ((noted .suspended (some .room)).slot 1).cause = some .room ∧ ((noted .waiting none).slot 1).state = .waiting ∧
      ((noted .opening none).slot 1).service.bind (activeService (noted .opening none)) = some audio100 ∧
      audio100.lane? 1 = some 6 ∧ audio100.lane? 2 = none ∧ wantsRole 1 .audio true false 1 = true ∧
      wantsRole 1 .audio false false 1 = false ∧ (((noted .opening none).slot 1).roleRef 1).ref = .notWanted ∧
      (requestCtx 6 1 (noted .opening none)).1 = .opened 0 ∧ (requestCtx 6 1 (fullStore (noted .opening none))).1 = .noColumns ∧
      serviceFits (noted .opening none) audio100 [] = true ∧ serviceFits (fullStore (noted .opening none)) audio100 [] = false ∧
      (((onCtx0 opened).slot 0).roleRef 0).ref = .context 0 ∧ (banked.slot 1).service.bind (activeService banked) = none := by
  decide +kernel

theorem witness_record_order :
    ([{ slot := 0, whole := true, roles := 0 }, { slot := 3, whole := false, roles := 1 }] : List Preempted).Pairwise
      fun a b => a.slot < b.slot := by decide

/-- TRAFFIC held for service 0x0100, anchored on the foreground slot 0 in this state. -/
def trafficHeld (st : SlotState) : State :=
  (served st .foreground).updAnnouncer fun a =>
    { a with takeover := .inService, heldType := some 1, heldTarget := some 0x0100, anchor := some { slot := 0, service := 0x0100 } }

/-- Nothing held, the target gone, the anchor held and gone, an ALARM without and with its carrier, and one whose target has become
DATA-ONLY. -/
theorem witness_check :
    banked.announcer.takeover = .idle ∧ (alarmHeld false).announcer.heldTarget.bind (activeService State.reset) = none ∧
      (trafficHeld .delivering).announcer.takeover ≠ .idle ∧ (trafficHeld .delivering).announcer.heldType ≠ some 0 ∧
      (trafficHeld .delivering).announcer.heldTarget.bind (activeService (trafficHeld .delivering)) = some audio100 ∧
      ((trafficHeld .delivering).slot 0).role = some .foreground ∧ ((trafficHeld .delivering).slot 0).service = some 0x0100 ∧
      ((trafficHeld .delivering).slot 0).state = .delivering ∧ ((trafficHeld .waiting).slot 0).state = .waiting ∧
      (alarmHeld false).announcer.takeover = .inService ∧ (alarmHeld false).announcer.heldType = some 0 ∧
      (∀ i : Fin 5, ((alarmHeld false).slot i).service = none) ∧
      (activeService (alarmHeld false) 0x0100).bind ServiceEntry.primary = some 5 := by decide +kernel

/-- Slot 0 changes state, and nothing changes. -/
theorem witness_end_of_event :
    ((served .delivering .foreground).slot 0).state ≠ ((served .opening .foreground).slot 0).state ∧
      (∀ i : Fin 5, (banked.slot i).state = (locked.slot i).state ∧ (banked.slot i).role = (locked.slot i).role ∧
        (banked.slot i).service = (locked.slot i).service) := by decide +kernel

/-- Slot 4 EMPTY, and not, when an announcement ends. -/
theorem witness_end_held : (banked.slot 4).state = .empty ∧ ((takingOver banked).slot 4).state ≠ .empty := by decide +kernel

/-- Each index of QUERY at the ends of its range and just past them. -/
theorem witness_query_indices :
    (0 : Byte).toNat ≤ 63 ∧ (63 : Byte).toNat ≤ 63 ∧ 63 < (64 : Byte).toNat ∧ (31 : Byte).toNat ≤ 31 ∧ 31 < (32 : Byte).toNat ∧
      1 < (2 : Byte).toNat ∧ (15 : Byte).toNat = (15 : Fin 16).val ∧ 15 < (16 : Byte).toNat ∧
      (4 : Byte).toNat = (4 : Fin 5).val ∧ 4 < (5 : Byte).toNat ∧ banked.announcer.preempted.length ≤ 4 := by decide +kernel

theorem witness_load :
    ¬([0, 0, 1, 2, 3, 4, 5, 6] : List Nat).Nodup ∧ ([0, 3, 6, 1, 4, 7, 2, 5] : List Nat) = opened.store.profiles[(3 : Nat)] ∧
      (∀ v ∈ ([7, 6, 5, 4, 3, 2, 1, 0] : List Nat), v ≤ 7) ∧ ([7, 6, 5, 4, 3, 2, 1, 0] : List Nat).Nodup ∧
      profileInUse opened 3 = true ∧ profileInUse opened 0 = false := by decide +kernel

theorem witness_inject :
    wellFormedRecordOf 0x99 [] = none ∧
      wellFormedRecordOf 0x22 ([0x01, 0x00, 1, 0, 1] ++ List.replicate 16 0x41) =
        some (.labelSegment 0x0100 1 0 1 (List.replicate 16 0x41)) ∧
      wellFormedRecordOf 0x14 ([3, 0x12, 0x34, 2, 1] ++ List.replicate 16 0x41) = some oldIdent ∧
      wellFormedRecordOf 0x14 ([3, 0x12, 0x34, 2, 2] ++ List.replicate 16 0x42) = some newIdent ∧
      equalsCommitted banked oldIdent = true ∧ equalsCommitted banked newIdent = false := by decide +kernel

/-- RESTART and OVERRUN pending. -/
def twoCauses : State := raise (.overrun .data) State.reset

theorem witness_which :
    (twoCauses.link.causes[(1 : Fin 9)]).pending = true ∧ twoCauses.link.enable.getLsbD 1 = true ∧
      (twoCauses.link.causes[(1 : Fin 9)]).detail = some (.restart .power) ∧
      (twoCauses.link.causes[(0 : Fin 9)]).pending = false ∧
      ∀ p : Fin 9, ((withLink fun l => { l with enable := 0 }).link.enable.getLsbD p.val) = false := by decide +kernel

theorem witness_power : banked.announcer.power = .active ∧ inStandby.announcer.power = .standby := by decide +kernel

theorem witness_parked :
    ((holding 1 .parked .background inStandby).slot 1).state = .parked ∧
      ((holding 1 .delivering .background banked).slot 1).state ≠ .empty := by decide +kernel

theorem witness_resume_one :
    (∀ j : Fin 5, j ≠ 4 → j ≠ 1 → ((holding 1 .parked .background inStandby).slot j).state ≠ .parked) ∧
      ((holding 1 .parked .background inStandby).slot 1).service.bind (activeService inStandby) = some audio100 ∧
      serviceFits (holding 1 .parked .background inStandby) audio100 [] = true ∧
      serviceFits (holding 1 .parked .background (fullStore inStandby)) audio100 [] = false ∧
      ((holding 1 .parked .background State.reset).slot 1).service.bind (activeService State.reset) = none := by decide +kernel

theorem witness_select_refused :
    4 ≤ (4 : Byte).toNat ∧ (3 : Byte).toNat = (3 : Fin 5).val ∧ (0 : Byte) ≠ 1 ∧ (0 : Byte) ≠ 2 ∧
      ((holding 2 .waiting .foreground banked).slot 2).role = some .foreground ∧
      activeService (fullStore banked) 0x0100 = some audio100 ∧
      serviceFits (fullStore banked) audio100
        (spareCtxs (fullStore banked) 1 ((wantedRoles 1 audio100 true true).map Prod.snd)) = false := by decide +kernel

/-- The fit test at its ends: a lane already received, a lane without entry, no required role, columns enough and one too few,
no context left, and a context that the slot alone refers to. -/
theorem witness_fit :
    (opened.ctx 0).receiving = true ∧ (opened.ctx 0).lane? = audio100.primary ∧ activeService opened 0x0100 = some audio100 ∧
      banked.laneMap.active.lane? 9 = none ∧ serviceFits banked { audio100 with kind := .dataOnly } [] = true ∧
      serviceFits (banked.updStore fun d => { d with free := List.range 4 }) audio100 [] = true ∧
      serviceFits (banked.updStore fun d => { d with free := List.range 3 }) audio100 [] = false ∧
      serviceFits { banked with contexts := Vector.replicate 16 { LaneContext.free with state := .draining } } audio100 [] =
        false ∧
      spareCtxs (onCtx0 opened) 0 [6] = [0] ∧ spareCtxs (onCtx0 opened) 0 [5] = [] ∧ spareCtxs (onCtx0 opened) 1 [] = [] := by
  decide +kernel

theorem witness_select_held :
    inStandby.announcer.power = .standby ∧ banked.announcer.power = .active ∧ activeService banked 0x0999 = none ∧
      ∀ j : Fin 5, j ≠ 4 → j ≠ 1 → (banked.slot j).role ≠ some .foreground := by decide +kernel

theorem witness_select_opens :
    activeService banked 0x0100 = some audio100 ∧
      serviceFits banked audio100 (spareCtxs banked 1 ((wantedRoles 1 audio100 true true).map Prod.snd)) = true := by decide +kernel

theorem witness_select_shares :
    (0, 5) ∈ wantedRoles 1 audio100 true true ∧ receivingLane opened 5 = some 0 ∧ receivingLane banked 5 = none := by decide +kernel

/-- One wanted role alone is not shared: lane 6, while context 0 holds lane 5. -/
theorem witness_select_one_request :
    wantedRoles 1 audio100 true true = [(0, 5), (1, 6)] ∧ receivingLane opened 6 = none ∧ receivingLane opened 5 ≠ none := by
  decide +kernel

theorem witness_release_slot :
    (banked.slot 1).state = .empty ∧ ((holding 1 .opening .background banked).slot 1).state ≠ .empty := by decide +kernel

theorem witness_release_ready : readyForOrder (onCtx0 opened) ∧ readyForOrder (onCtx0 draining5) := by
  unfold readyForOrder
  decide +kernel

/-- The slot's context loses its one reference, one of two, and its reference while it drains. -/
theorem witness_release_contexts :
    ((onCtx0 opened).slot 0).state ≠ .empty ∧ ((onCtx0 opened).ctx 0).receiving = true ∧ ((onCtx0 opened).ctx 0).refs = 1 ∧
      (roleIxs.filter fun r => (((onCtx0 opened).slot 0).roleRef r).ref == .context 0).length = 1 ∧
      1 < ((ctx0 (fun x => { x with refs := 2 }) (onCtx0 opened)).ctx 0).refs ∧
      ((onCtx0 draining5).ctx 0).state = .draining ∧ ((onCtx0 opened).ctx 1).state = .free ∧
      (∀ j : Fin 5, j ≠ 0 → ((onCtx0 opened).slot j).state ≠ .delivering) ∧ (onCtx0 opened).store.cells.wf = true ∧
      0 ∈ ((onCtx0 opened).ctx 0).columns ∧ 4 ∉ ((onCtx0 opened).ctx 0).columns := by decide +kernel

theorem witness_unknown_order :
    (0x10 : Byte) ∉ orderKinds ∧ (0x02 : Byte) ∈ orderKinds ∧ impliedLength 0x02 = some 3 ∧ 3 ≠ ([] : List Byte).length + 2 := by
  decide +kernel

/-! ### Witnesses: the Delivery Link -/

/-- The ANSWER queue full, and so many orders waiting. -/
def answersFull (orders : Nat) : State :=
  withLink fun l => { l with answers := List.replicate 4 anAnswer, orders := List.replicate orders [1, 0x0C] }

theorem witness_order :
    State.reset.link.orders = [] ∧ State.reset.link.answers.length < 4 ∧ State.reset.link.receiver.hunting = true ∧
      (answersFull 3).link.orders.length < 4 ∧ 4 ≤ (answersFull 3).link.answers.length ∧
      4 ≤ (answersFull 4).link.orders.length ∧ (answersFull 4).link.receiver.hunting = true := by decide +kernel

theorem witness_malformed :
    malformedFromStart [0x00] = true ∧ malformedFromStart [0xC3, 0x01] = true ∧
      malformedFromStart [0xC3, 0x10, 0, 1] = true ∧ State.reset.link.receiver = .hunt false ∧
      (heard State.reset).link.receiver = .hunt true := by decide +kernel

theorem witness_arbiter :
    State.reset.link.sending = none ∧ State.reset.link.orders = [] ∧ State.reset.link.labels = [] ∧
      (withLink fun l => { l with audio := [aFrame] }).link.answers = [] ∧
      (withLink fun l => { l with data := [aFrame] }).link.audio = [] ∧
      (withLink fun l => { l with labels := [aLabel] }).link.data = [] ∧
      (withLink fun l => { l with sending := some (.label aLabel) }).link.sending ≠ none ∧
      (answersFull 1).link.answers = anAnswer :: List.replicate 3 anAnswer ∧ (answersFull 1).link.orders = [1, 0x0C] :: [] := by
  decide +kernel

/-! ### The meanings on small states -/

/-- WHICH right after reset answers RESTART, and ATTN goes low. -/
theorem test_which :
    (match exec (.which 9) State.reset with
      | .next t => decide (t = State.reset.updLink fun l =>
        { l with
          receiver := .hunt true, attn := false
          causes := l.causes.set 1 { pending := false, detail := some (.restart .power) }
          answers := [{ ref := 9, kind := 0x0C, result := .accepted, data := [2, 0, 0, 0] }] })
      | _ => false) = true := by decide +kernel

/-- The bytes of the answer to it on the outbound line (R183, R184). -/
theorem test_answer_bytes :
    (Packet.answer { ref := 9, kind := 0x0C, result := .accepted, data := [2, 0, 0, 0] }).bytes =
      [0xC3, 0x02, 0, 7, 9, 0x0C, 0, 2, 0, 0, 0] := by decide +kernel

theorem test_set_holdover_zero :
    (match exec (.setHoldover 1 0) State.reset with
      | .next t => t.intake.holdoverLimit
      | _ => 0) = 1 := by decide +kernel

theorem test_break_keeps_lock :
    (match exec .breakReset (alarmHeld true) with
      | .next t => (t.announcer.lock, t.running, t.link.attn)
      | _ => (false, true, true)) = (true, false, false) := by decide +kernel

/-- A primary on its way out is queued although its service has become DATA-ONLY (R61, R135). -/
theorem test_outgoing_primary_of_data_only :
    let s := (served .delivering .background).updSlot 0 fun x => (x.setRef 0 .notWanted).addOutgoing 0 0
    let v := s.updLaneMap fun m => { m with active := { bank3 with services := [{ audio100 with kind := .dataOnly }] } }
    (queueSlot 0 [record0] v).link.data.map FramePacket.frame = [100] := by decide +kernel

/-- A tile of the change frame itself that was routed before a correction inside the frame is not present for the drain
(R60, R95). -/
theorem test_drain_lacks_change_frame_tile :
    let held (s : State) : State := s.updStore fun d =>
      { d with cells := d.cells.write (cellAddress 1 (rowOf 105)) { payload := 7, tag := some 105, erased := false } }
    (tileAt (held running5) ((held running5).ctx 0) 105 1, tileAt (held draining5) ((held draining5).ctx 0) 105 1) =
      (some 7, none) := by decide +kernel

/-- A slot preempted while a drain serves it keeps the outgoing context (R61, R146). -/
theorem test_preempted_keeps_outgoing :
    let s := (served .delivering .foreground).updSlot 0 fun x => x.addOutgoing 0 3
    ((takeRole 0 0 s).slot 0).cause = some .preempted ∧
      ((takeRole 0 0 s).slot 0).roleRef 0 = { ref := .notWanted, outgoing := [3] } := by decide +kernel

/-- A lane opened inside the HEAD event of a realignment has that HEAD's count as first lane frame (R75, log 20). -/
theorem test_realigned_head_opens_at_its_count :
    let u := withNextFrame 300 (swapTrigger 4 300) (holding 1 .waiting .background (ready4 State.reset))
    (u.ctx 0).first = some 300 ∧ u.intake.lastClosed = 0 := by decide +kernel

/-- An entry taken whole whose slot was selected anew gives back the role taken from the new selection (R150). -/
theorem test_whole_entry_gives_role_back :
    let s := (holding 0 .opening .foreground opened).updSlot 0 fun x => { x with wantTwin := true, taken := 0b00010 }
    (((reopenPreempted s { slot := 0, whole := true, roles := 0b00010 }).slot 0).roleRef 1).ref = .context 1 := by decide +kernel

/-- A SELECT drops the roles noted before it, and a role noted before is not requested for the new selection (R150 step 4). -/
theorem test_select_drops_noted_roles :
    let s := (holding 0 .opening .foreground opened).updSlot 0 fun x => { x with wantTwin := true, taken := 0b00010 }
    (match exec (.select 1 0 0x0100 1 1) s with
      | .next t => (t.slot 0).taken
      | _ => 1) = 0 := by decide +kernel

theorem test_dropped_role_is_not_requested :
    let s := (holding 0 .opening .foreground opened).updSlot 0 fun x => { x.setRef 1 .absent with wantTwin := true }
    (reopenPreempted s { slot := 0, whole := false, roles := 0b00010 }) = s := by decide +kernel

/-- At an identity change slot 4 enters EMPTY with SELECTION attention, though no host slot changes (R136, log 18). -/
theorem test_identity_change_raises_for_slot_four :
    ((identityChange none (takingOver banked)).link.causes[(5 : Fin 9)]) =
      { pending := true, detail := some (.selection 4 .empty) } := by decide +kernel

end Sys2Proof.Tests
end

section
/-! The reset and cell commands: what a running part makes of a command, the values a reset leaves, and the first effects of
a HEAD. -/

namespace Sys2Proof.Machine

/-! ### Commands in a running and in a held part -/

/-- A running part carries a command out as one event. -/
theorem command_running {f : State → State} {s : State} (h : s.running = true) : command f s = .next (endEvent s (f s)) := by
  unfold command whenRunning
  rw [if_pos h]
  rfl

/-- A running part takes a cell whole as one event, the receiver of intake cells set back first (R180). -/
theorem cellCommand_running {f : State → State} {s : State} (h : s.running = true) :
    cellCommand f s = .next (endEvent s (f (setCellRx .idle s))) := command_running h

theorem whenRunning_held {f : State → State} {s : State} (h : s.running = false) : whenRunning f s = s := by
  unfold whenRunning
  rw [h]
  rfl

theorem releaseBreak_not_holding {s : State} (h : s.link.breakDetector ≠ .holding) : releaseBreak s = s := if_neg h

/-- Every move of a command leaves the queue of waiting commands as it is (log 1). -/
theorem Move.pending {s t : State} (h : Move s t) : t.pending = s.pending := by
  cases h with
  | inner _ _ h => exact h.pending
  | releaseBreak =>
    unfold Machine.releaseBreak
    split <;> rfl
  | _ => rfl

theorem Reach.pending {s t : State} (h : Reach s t) : t.pending = s.pending :=
  h.preserves (P := fun t => t.pending = s.pending) (fun _ _ k e => k.pending.trans e) rfl

/-- Every command has a meaning that answers a next state. -/
theorem exec_answers_next (c : Instr) (s : State) : ∃ t, exec c s = .next t := by
  cases c <;> exact ⟨_, rfl⟩

/-- A held part ignores every command but the resets and the release (R25, R173, R175, log 6). -/
theorem exec_held {c : Instr} {s : State} (h : s.running = false) (hp : ∀ e, c ≠ .powerOnReset e) (hr : c ≠ .resetHeld)
    (hb : c = .breakRelease → s.link.breakDetector ≠ .holding) : exec c s = .next s := by
  cases c with
  | powerOnReset e => exact absurd rfl (hp e)
  | resetHeld => exact absurd rfl hr
  | breakRelease => exact congrArg _ (releaseBreak_not_holding (hb rfl))
  | _ => exact congrArg Host.Outcome.next (whenRunning_held h)

/-- Settles O2: every command is a run of moves, none of which touches the queue, and a held part runs no command. -/
theorem everyCommandAnswersNext : Obligations.EveryCommandAnswersNext := by
  unfold Obligations.EveryCommandAnswersNext
  refine ⟨fun c s => ?_, fun _ _ h hp hr hb => exec_held h hp hr hb⟩
  obtain ⟨t, ht⟩ := exec_answers_next c s
  exact ⟨t, ht, (exec_reach ht).pending⟩

/-! ### The values after a reset -/

theorem reset_ctx (c : Fin 16) : State.reset.ctx c = LaneContext.free := by
  simp [State.ctx, State.reset]

theorem slotsReset_get (i : Fin 5) : slotsReset[i] = Slot.reset (if i = 4 then some .announcement else none) := by
  revert i
  decide

theorem reset_slot (i : Fin 5) : State.reset.slot i = Slot.reset (if i = 4 then some .announcement else none) := slotsReset_get i

theorem reset_heldColumns : heldColumns State.reset = [] := by
  simp [heldColumns, reset_ctx, LaneContext.free]

theorem causesReset_get (cause : ResetCause) (p : Fin 9) : (causesReset cause)[p] =
    if p = 1 then { pending := true, detail := some (.restart cause) } else { pending := false, detail := none } := by
  revert p
  cases cause <;> decide

/-- Every column is free after a reset (R84). -/
theorem reset_free : State.reset.store.free = List.range 384 := by
  simp only [State.reset, DelayStore.reset]

theorem reset_columnsConserved : columnsConserved State.reset := by
  refine ⟨fun c _ => reset_ctx c, ?_⟩
  rw [reset_heldColumns, List.append_nil, reset_free]

theorem reset_oneForeground : oneForeground State.reset := by
  have none' : ∀ i, (State.reset.slot i).role ≠ some .foreground := fun i => by
    rw [reset_slot]
    by_cases h : i = 4 <;> simp [Slot.reset, h]
  exact ⟨none' 4, fun i _ h => absurd h (none' i)⟩

theorem reset_inOrder : State.reset.laneMap.inOrder := by
  refine ⟨fun v h => ?_, ⟨.nil, .nil⟩, ⟨Nat.zero_le _, .nil⟩, ⟨Nat.zero_le _, .nil⟩⟩
  cases h

theorem reset_oneContextPerLane : oneContextPerLane State.reset := by
  intro c d h
  rw [reset_ctx] at h
  cases h

theorem reset_countersInRange : countersInRange State.reset := by
  intro c
  rw [reset_ctx]
  decide

theorem reset_slotsInRange : slotsInRange State.reset := by
  intro i
  rw [reset_slot]
  simp [Slot.reset]

/-- Settles O12: law by law, from the values of the contexts and slots after a reset. -/
theorem resetMeetsEveryLaw : Obligations.ResetMeetsEveryLaw := by
  have capacity : State.reset.link.withinCapacity := by simp [Link.withinCapacity, State.reset, Link.reset]
  have lock : State.reset.announcer.lockHolds := fun h => Bool.noConfusion h
  exact ⟨rfl, capacity, lock, reset_columnsConserved, reset_oneForeground, reset_inOrder, reset_oneContextPerLane,
    reset_countersInRange, reset_slotsInRange, ⟨Nat.zero_le _, .nil⟩, rfl, rfl⟩

/-- Settles O13: the blocks of the power-on state, read item by item where they are vectors. -/
theorem powerOnResetValues : Obligations.PowerOnResetValues := by
  intro earlyLow s
  have table : ∀ k : Fin 8, State.reset.directory.table[k] = { on := false, target := none, age := 0 } := by decide
  have labels : ∀ i : Fin 5, label State.reset i =
      { toggle := 0, segments := Vector.replicate 8 none, count := none, visible := none } := by decide
  have profiles : ∀ p : Fin 4, State.reset.store.profiles[p] = [0, 3, 6, 1, 4, 7, 2, 5] := by decide
  exact ⟨powerOn earlyLow s, rfl, rfl, rfl, rfl, table, labels, rfl, reset_free, fun _ => rfl, profiles, reset_ctx, reset_slot,
    rfl, rfl, rfl, rfl, rfl, rfl, rfl, rfl, rfl, rfl, rfl, rfl, rfl, rfl, causesReset_get .power, rfl⟩

/-- Settles O14: a held part has the blocks of the power-on state, and the release's values as they were. -/
theorem resetHeldHoldsThePart : Obligations.ResetHeldHoldsThePart := fun s =>
  ⟨holdReset s, rfl, rfl, rfl, rfl, rfl, rfl, rfl, rfl, reset_ctx, rfl, rfl, rfl, rfl, rfl, rfl, rfl, rfl, rfl, rfl, rfl⟩

/-! ### Cells of unknown kind and cells cut short (R1, R180) -/

/-- A receiver that skips a cell ignores the bytes that follow. -/
theorem cellByte_skipping (bytes : List Byte) (s : State) (h : s.intake.cellRx = .skipping) : bytes.foldl cellByte s = s := by
  induction bytes with
  | nil => rfl
  | cons b rest ih =>
    have hb : cellByte s b = s := by
      unfold cellByte
      rw [h]
    rw [List.foldl_cons, hb, ih]

/-- A cell whose bytes so far are fewer than its kind asks for is kept. -/
theorem cellProgress_short {kind : Byte} {n : Nat} (hk : cellLength kind = some n) (bytes : List Byte) (s : State)
    (hn : bytes.length + 1 < n) : cellProgress (kind :: bytes) s = setCellRx (.taking (kind :: bytes)) s := by
  unfold cellProgress
  simp [hk, hn]

/-- The bytes of a cell that stays short join those before them. -/
theorem cellByte_short {kind : Byte} {n : Nat} (hk : cellLength kind = some n) (rest bytes : List Byte) (s : State)
    (hn : bytes.length + rest.length + 1 < n) :
    rest.foldl cellByte (setCellRx (.taking (kind :: bytes)) s) = setCellRx (.taking (kind :: (bytes ++ rest))) s := by
  induction rest generalizing bytes with
  | nil => simp
  | cons b rest ih =>
    rw [List.length_cons] at hn
    have hstep : cellByte (setCellRx (.taking (kind :: bytes)) s) b = setCellRx (.taking (kind :: (bytes ++ [b]))) s :=
      (cellProgress_short hk (bytes ++ [b]) _ (by rw [List.length_append, List.length_singleton]; omega)).trans rfl
    rw [List.foldl_cons, hstep, ih (bytes ++ [b]) (by rw [List.length_append, List.length_singleton]; omega),
      List.append_assoc, List.singleton_append]

/-- Settles O27, by induction on the bytes after the kind byte. -/
theorem unknownCellIsIgnored : Obligations.UnknownCellIsIgnored := by
  intro kind rest s hr
  have hexec : exec (.unknownCell kind rest) s = .next (cellBytes kind rest s) := congrArg _ (if_pos hr)
  refine ⟨fun hk => ?_, fun n hk hn => ?_⟩
  · have hskip : cellProgress [kind] s = setCellRx .skipping s := by
      unfold cellProgress
      simp [hk]
    rw [hexec, cellBytes, hskip, cellByte_skipping rest _ rfl]
    rfl
  · rw [hexec, cellBytes, cellProgress_short hk [] s (by simp; omega), cellByte_short hk rest [] s (by simp; omega)]
    rfl

end Sys2Proof.Machine
end

section
/-! The Intake Port: what a HEAD does in each intake state, and the loss of signal (R10 to R20). -/

namespace Sys2Proof.Machine

/-! ### The intake and the identity under a frame close -/

theorem Eff.identity {n : Nat} {s t : State} (hn : n < 3) (h : Eff n s t) : t.laneMap.identity = s.laneMap.identity := by
  have := congrArg LaneMap.identity (h.laneMap hn)
  exact this

theorem frameClose_identity (f : Count) (s : State) : (frameClose f s).laneMap.identity = s.laneMap.identity :=
  ((frameClose_eff (le_refl 1) f s).identity (by omega)).trans rfl

/-- Closing the open frame leaves the record empty, and sets the last closed count (R5). -/
theorem closeOpen_intake (s : State) : ∃ l, (closeOpen s).intake = { s.intake with openFrame := none, lastClosed := l } := by
  unfold closeOpen
  split
  · rename_i h
    exact ⟨s.intake.lastClosed, by rw [← h]⟩
  · rename_i f _
    dsimp only
    split
    · exact ⟨s.intake.lastClosed, rfl⟩
    · exact ⟨f.count, frameClose_intake _ _⟩

theorem closeOpen_identity (s : State) : (closeOpen s).laneMap.identity = s.laneMap.identity := by
  unfold closeOpen
  split
  · rfl
  · dsimp only
    split
    · rfl
    · exact frameClose_identity _ _

/-- What a HEAD that passes its check leaves of the intake before its intake state is looked at (R3, R5, R10, R11). -/
theorem headHeard_intake (quality : BitVec 4) (s : State) : ∃ l, (headHeard quality s).intake =
    { s.intake with
      openFrame := none, lastClosed := l, cellRx := .idle, watchRunning := true, timerRunning := true, quality := quality } :=
  closeOpen_intake _

@[simp] theorem headHeard_state (quality : BitVec 4) (s : State) : (headHeard quality s).intake.state = s.intake.state := by
  obtain ⟨l, h⟩ := headHeard_intake quality s
  rw [h]

@[simp] theorem headHeard_remembered (quality : BitVec 4) (s : State) :
    (headHeard quality s).intake.remembered = s.intake.remembered := by
  obtain ⟨l, h⟩ := headHeard_intake quality s
  rw [h]

@[simp] theorem headHeard_foreign (quality : BitVec 4) (s : State) :
    (headHeard quality s).intake.foreign = s.intake.foreign := by
  obtain ⟨l, h⟩ := headHeard_intake quality s
  rw [h]

@[simp] theorem headHeard_identity (quality : BitVec 4) (s : State) :
    (headHeard quality s).laneMap.identity = s.laneMap.identity := closeOpen_identity _

/-! ### A HEAD by intake state (R12 to R20) -/

/-- A HEAD that passes its check is heard, and then acts by the intake state. -/
theorem exec_head {s : State} (hr : s.running = true) (identity : Word16) (h : Count) (serial quality reserved : BitVec 4) :
    exec (.head identity h serial quality reserved (crc (headBytes identity h serial quality reserved))) s =
      .next (endEvent s (headByState identity h serial (headHeard quality s))) := by
  refine (cellCommand_running hr).trans ?_
  unfold headTaken
  rw [if_pos rfl]
  rfl

variable {identity : Word16} {h : Count} {serial : BitVec 4} {s : State}

theorem headByState_search (hs : s.intake.state = .search) : headByState identity h serial s =
    if s.laneMap.identity = none ∨ s.laneMap.identity = some identity then acquire identity h .search s else s := by
  unfold headByState
  rw [hs]

theorem headByState_acquire {m : Remembered} (hs : s.intake.state = .acquire) (hm : s.intake.remembered = some m) :
    headByState identity h serial s =
      if identity = m.identity ∧ h = m.count + 1 then lockAt serial h (completeAcquisition identity h m.origin s)
      else acquire identity h m.origin s := by
  unfold headByState
  rw [hs, hm]

theorem headByState_locked (hs : s.intake.state = .locked) : headByState identity h serial s =
    if s.laneMap.identity = some identity then followHead serial h s
    else enterHoldover (s.updIntake fun p => { p with foreign := some { identity := identity, count := h } }) := by
  unfold headByState
  rw [hs]

theorem headByState_holdover (hs : s.intake.state = .holdover) : headByState identity h serial s =
    if s.laneMap.identity = some identity then
      followHead serial h (s.updIntake fun p => { p with state := .locked, foreign := none })
    else if s.intake.foreign = some { identity := identity, count := h - 1 } then lockAt serial h (changeIdentity identity s)
    else s.updIntake fun p => { p with foreign := some { identity := identity, count := h } } := by
  unfold headByState
  rw [hs]

theorem headByState_lost (hs : s.intake.state = .lost) : headByState identity h serial s = acquire identity h .lost s := by
  unfold headByState
  rw [hs]

/-- Settles O16: the check decides which branch the cell takes. -/
theorem headFailingItsCheckSuspends : Obligations.HeadFailingItsCheckSuspends := by
  intro identity h serial quality reserved check s hr hc
  refine (cellCommand_running hr).trans ?_
  unfold headTaken
  rw [if_neg hc]
  rfl

/-- Settles O17, by the intake states SEARCH and LOST. -/
theorem headBeginsAcquisition : Obligations.HeadBeginsAcquisition := by
  intro identity h serial quality reserved s hr
  dsimp only
  rw [exec_head hr]
  refine ⟨fun hs hi => ?_, fun hs h1 h2 => ?_, fun hs => ?_⟩
  · rw [headByState_search (by simpa using hs), headHeard_identity, if_pos hi]
    rfl
  · rw [headByState_search (by simpa using hs), headHeard_identity, if_neg (not_or.2 ⟨h1, h2⟩)]
  · rw [headByState_lost (by simpa using hs)]
    rfl

/-! ### The loss of signal (R10, R13, R16) -/

theorem signalLost_locked (hs : s.intake.state = .locked) : signalLost s = enterHoldover (closeOpen s) := by
  unfold signalLost
  rw [hs]

/-- The intake state in which an acquisition of this origin began. -/
def Origin.began : Origin → IntakeState
  | .search => .search
  | .lost => .lost

/-- An acquisition cut off returns to the state in which it began (R13). -/
theorem signalLost_acquire {m : Remembered} (hs : s.intake.state = .acquire) (hm : s.intake.remembered = some m) :
    signalLost s = s.updIntake fun p =>
      { p with state := m.origin.began, remembered := none } := by
  unfold signalLost
  rw [hs, hm]
  rfl

theorem signalLost_other (h1 : s.intake.state ≠ .locked) (h2 : s.intake.state ≠ .acquire) : signalLost s = s := by
  unfold signalLost
  split
  · rename_i e
    exact absurd e h1
  · rename_i e
    exact absurd e h2
  · rfl

/-- Settles O21: both commands lose the signal in a state whose intake state is the one before them. -/
theorem lossOfSignalByState : Obligations.LossOfSignalByState := by
  refine ⟨fun c s u hr hc => ?_, fun s hr hw => ?_⟩
  · have lost : exec c s = .next (endEvent s (signalLost u)) ∧ u.intake.state = s.intake.state ∧
        u.intake.remembered = s.intake.remembered := by
      rcases hc with ⟨rfl, rfl⟩ | ⟨rfl, hw, rfl⟩
      · exact ⟨cellCommand_running hr, rfl, rfl⟩
      · refine ⟨(command_running hr).trans ?_, rfl, rfl⟩
        unfold watchExpires
        rw [if_pos hw]
    obtain ⟨hexec, hstate, hrem⟩ := lost
    rw [hexec]
    refine ⟨fun hs => ?_, fun m hs hm => ?_, fun h1 h2 => ?_⟩
    · rw [signalLost_locked (hstate.trans hs)]
      rfl
    · rw [signalLost_acquire (hstate.trans hs) (hrem.trans hm)]
      rfl
    · rw [signalLost_other (hstate ▸ h1) (hstate ▸ h2)]
  · refine (command_running hr).trans ?_
    unfold watchExpires
    rw [if_neg (by simp [hw])]

end Sys2Proof.Machine
end

section
/-! Realignment, resumption and the lock: what they leave of contexts, cells, causes, slots and the intake (R13, R14, R22,
R129). -/

namespace Sys2Proof.Machine

/-! ### Realignment (R22, R92) -/

/-- A context after a realignment with first lane frame h. -/
def realigned (h : Count) (x : LaneContext) : LaneContext :=
  match x.state with
  | .free => x
  | .draining => LaneContext.free
  | _ => { x with state := .filling, first := some h, settle := 0, assembled := 0, last := none }

section Context

variable {h : Count} {s : State} {c : Fin 16}

theorem realignCtx_free (hx : (s.ctx c).state = .free) : realignCtx h s c = s := by
  unfold realignCtx
  dsimp only
  rw [hx]

theorem realignCtx_draining (hx : (s.ctx c).state = .draining) :
    realignCtx h s c = raise (.layout .laneEnded) (releaseCtx c s) := by
  unfold realignCtx
  dsimp only
  rw [hx]

theorem realignCtx_receiving (h1 : (s.ctx c).state ≠ .free) (h2 : (s.ctx c).state ≠ .draining) :
    realignCtx h s c = (clearColumns (s.ctx c).columns s).setCtx c (realigned h (s.ctx c)) := by
  unfold realignCtx realigned
  cases hx : (s.ctx c).state with
  | free => exact absurd hx h1
  | draining => exact absurd hx h2
  | filling =>
    dsimp only
    rw [hx]
  | running =>
    dsimp only
    rw [hx]

/-- The three ways in which a realignment deals with a context. -/
theorem realignCtx_cases (h : Count) (s : State) (c : Fin 16) :
    ((s.ctx c).state = .free ∧ realignCtx h s c = s) ∨
      ((s.ctx c).state = .draining ∧ realignCtx h s c = raise (.layout .laneEnded) (releaseCtx c s)) ∨
      ((s.ctx c).state ≠ .free ∧ (s.ctx c).state ≠ .draining ∧
        realignCtx h s c = (clearColumns (s.ctx c).columns s).setCtx c (realigned h (s.ctx c))) := by
  by_cases h1 : (s.ctx c).state = .free
  · exact .inl ⟨h1, realignCtx_free h1⟩
  · by_cases h2 : (s.ctx c).state = .draining
    · exact .inr (.inl ⟨h2, realignCtx_draining h2⟩)
    · exact .inr (.inr ⟨h1, h2, realignCtx_receiving h1 h2⟩)

theorem realigned_free {x : LaneContext} (hx : x.state = .free) : realigned h x = x := by
  unfold realigned
  rw [hx]

theorem realigned_draining {x : LaneContext} (hx : x.state = .draining) : realigned h x = LaneContext.free := by
  unfold realigned
  rw [hx]

end Context

/-- A realignment of context d changes context d alone. -/
theorem realignCtx_ctx (h : Count) (s : State) (c d : Fin 16) :
    (realignCtx h s d).ctx c = if c = d then realigned h (s.ctx c) else s.ctx c := by
  rcases realignCtx_cases h s d with ⟨hx, e⟩ | ⟨hx, e⟩ | ⟨_, _, e⟩ <;> rw [e]
  · split
    · rename_i k
      rw [k, realigned_free hx]
    · rfl
  · rw [raise_ctx, releaseCtx_ctx]
    split
    · rename_i k
      rw [k, realigned_draining hx]
    · rfl
  · rw [ctx_setCtx, clearColumns_ctx]
    split
    · rename_i k
      rw [k]
    · rfl

/-- A realignment deals with each context by itself (R22). -/
theorem realign_ctx (h : Count) (s : State) (c : Fin 16) : (realign h s).ctx c = realigned h (s.ctx c) := by
  have hc : (realign h s).ctx c = (ctxIds.foldl (realignCtx h) s).ctx c := by
    unfold realign State.ctx
    rw [(stateChecks_outside _).1]
  rw [hc, foldl_own State.ctx _ (realigned h) (fun s c d => realignCtx_ctx h s c d) _ ctxIds_nodup, if_pos (mem_ctxIds c)]

/-- Realigning an open context clears its columns (R22). -/
theorem realignCtx_cells {h : Count} {s : State} {c : Fin 16} (hx : (s.ctx c).state ≠ .free) :
    (realignCtx h s c).store.cells = (clearColumns (s.ctx c).columns s).store.cells := by
  rcases realignCtx_cases h s c with ⟨hf, _⟩ | ⟨_, e⟩ | ⟨_, _, e⟩
  · exact absurd hf hx
  · rw [e]
    rfl
  · rw [e]
    rfl

/-- Once a cell is cleared, or about to be by one of the contexts to come, the realignments leave it cleared. -/
theorem realignFold_cleared {h : Count} {column row : Nat} {x : StoreCell} (hc : column < 384) (hr : row < 8) (l : List (Fin 16))
    (hl : l.Nodup) (s : State) (hs : s.store.cells.wf = true)
    (hx : s.store.cells.read (cellAddress column row) = x.cleared ∨ (s.store.cells.read (cellAddress column row) = x ∧
      ∃ c ∈ l, (s.ctx c).state ≠ .free ∧ column ∈ (s.ctx c).columns)) :
    (l.foldl (realignCtx h) s).store.cells.read (cellAddress column row) = x.cleared := by
  induction l generalizing s with
  | nil => simpa using hx
  | cons d rest ih =>
    obtain ⟨hd, hrest⟩ := List.nodup_cons.1 hl
    rw [List.foldl_cons]
    by_cases hf : (s.ctx d).state = .free
    · rw [realignCtx_free hf]
      refine ih hrest s hs (hx.imp id ?_)
      rintro ⟨e, c, hcl, k⟩
      rcases List.mem_cons.1 hcl with rfl | hcl
      · exact absurd hf k.1
      · exact ⟨e, c, hcl, k⟩
    · have hcells := realignCtx_cells (h := h) hf
      refine ih hrest _ (by rw [hcells]; exact wf_clearColumns _ hs) ?_
      rw [hcells, read_clearColumns _ hs hc hr]
      by_cases hm : column ∈ (s.ctx d).columns
      · left
        rw [if_pos hm]
        rcases hx with e | ⟨e, _⟩ <;> rw [e]
        rfl
      · rw [if_neg hm]
        refine hx.imp id ?_
        rintro ⟨e, c, hcl, k1, k2⟩
        have hcd : c ≠ d := fun e => hm (e ▸ k2)
        exact ⟨e, c, (List.mem_cons.1 hcl).resolve_left hcd, by rw [realignCtx_ctx, if_neg hcd]; exact ⟨k1, k2⟩⟩

/-- A realignment clears every cell of every open context (R22, R72). -/
theorem realign_cells {h : Count} {s : State} (hs : s.store.cells.wf = true) {c : Fin 16} {column row : Nat}
    (hx : (s.ctx c).state ≠ .free) (hm : column ∈ (s.ctx c).columns) (hc : column < 384) (hr : row < 8) :
    (realign h s).store.cells.read (cellAddress column row) = (s.store.cells.read (cellAddress column row)).cleared := by
  unfold realign
  rw [(stateChecks_outside _).2]
  exact realignFold_cleared hc hr ctxIds ctxIds_nodup s hs (.inr ⟨rfl, c, mem_ctxIds c, hx, hm⟩)

/-- A state check raises no cause but SELECTION (R131, R136). -/
theorem stateCheck_cause (i : Fin 5) (s : State) {p : Fin 9} (hp : p ≠ 5) :
    (stateCheck i s).link.causes[p] = s.link.causes[p] := by
  unfold stateCheck
  dsimp only
  split
  · split
    · unfold enterSlotState
      rw [raise_cause, if_neg (show p ≠ (Attention.selection i .opening).place from hp)]
      rfl
    · rfl
  · rfl

theorem stateChecks_cause (s : State) {p : Fin 9} (hp : p ≠ 5) : (stateChecks s).link.causes[p] = s.link.causes[p] := by
  unfold stateChecks
  exact foldl_keeps (fun s : State => s.link.causes[p]) _ (fun s i => stateCheck_cause i s hp) _ _

/-- The LAYOUT cause as a drain that ends leaves it (R94). -/
def laneEndedCause : Cause := { pending := true, detail := some (.layout .laneEnded) }

theorem realignCtx_layout (h : Count) (s : State) (c : Fin 16) : (realignCtx h s c).link.causes[(4 : Fin 9)] =
    if (s.ctx c).state = .draining then laneEndedCause else s.link.causes[(4 : Fin 9)] := by
  rcases realignCtx_cases h s c with ⟨hx, e⟩ | ⟨hx, e⟩ | ⟨_, hx, e⟩ <;> rw [e]
  · simp [hx]
  · rw [raise_cause, if_pos hx]
    rfl
  · rw [if_neg hx]
    rfl

/-- A realignment of a DRAINING context leaves LAYOUT attention LANE-ENDED (R22). -/
theorem realign_layout {h : Count} {s : State} {c : Fin 16} (hx : (s.ctx c).state = .draining) :
    (realign h s).link.causes[(4 : Fin 9)] = laneEndedCause := by
  have fold : ∀ (l : List (Fin 16)) (s : State), l.Nodup →
      s.link.causes[(4 : Fin 9)] = laneEndedCause ∨ (∃ c ∈ l, (s.ctx c).state = .draining) →
      (l.foldl (realignCtx h) s).link.causes[(4 : Fin 9)] = laneEndedCause := by
    intro l
    induction l with
    | nil => simp
    | cons d rest ih =>
      intro s hl hc
      obtain ⟨hd, hrest⟩ := List.nodup_cons.1 hl
      rw [List.foldl_cons]
      refine ih _ hrest ?_
      rw [realignCtx_layout]
      by_cases hdr : (s.ctx d).state = .draining
      · exact .inl (if_pos hdr)
      · rw [if_neg hdr]
        refine hc.imp id ?_
        rintro ⟨c, hcl, k⟩
        have hcd : c ≠ d := fun e => hdr (e ▸ k)
        exact ⟨c, (List.mem_cons.1 hcl).resolve_left hcd, by rw [realignCtx_ctx, if_neg hcd]; exact k⟩
  unfold realign
  rw [stateChecks_cause _ (by decide)]
  exact fold ctxIds s ctxIds_nodup (.inr ⟨c, mem_ctxIds c, hx⟩)

/-! ### Suspension for LOST and resumption (R129) -/

theorem mem_allSlots (i : Fin 5) : i ∈ allSlots := by
  revert i
  decide

theorem allSlots_nodup : allSlots.Nodup := by decide

/-- A slot after the port has entered LOST. -/
def lostSlot (x : Slot) : Slot :=
  if x.state = .opening ∨ x.state = .delivering then { x with state := .suspended, cause := some .lost } else x

/-- A slot after the port has locked again from LOST. -/
def resumedSlot (x : Slot) : Slot :=
  if x.state = .suspended ∧ x.cause = some .lost then
    { x with state := .opening, source := .primary, muted := false, dwell := 16, cause := none }
  else x

theorem enterSlotState_slot (i j : Fin 5) (st : SlotState) (s : State) :
    (enterSlotState i st s).slot j = if j = i then { s.slot i with state := st } else s.slot j := by
  unfold enterSlotState
  rw [raise_slot, slot_updSlot]

theorem suspendLost_slot (s : State) (i : Fin 5) : (suspendLost s).slot i = lostSlot (s.slot i) := by
  unfold suspendLost
  rw [foldl_own State.slot _ lostSlot ?_ _ allSlots_nodup, if_pos (mem_allSlots i)]
  intro s i j
  unfold lostSlot
  by_cases hij : i = j
  · subst hij
    rw [if_pos rfl]
    split
    · rw [enterSlotState_slot, if_pos rfl, slot_updSlot_self]
    · rfl
  · rw [if_neg hij]
    split
    · rw [enterSlotState_slot, if_neg hij, slot_updSlot, if_neg hij]
    · rfl

theorem resumeLost_slot (s : State) (i : Fin 5) : (resumeLost s).slot i = resumedSlot (s.slot i) := by
  unfold resumeLost
  rw [foldl_own State.slot _ resumedSlot ?_ _ allSlots_nodup, if_pos (mem_allSlots i)]
  intro s i j
  unfold resumedSlot
  by_cases hij : i = j
  · subst hij
    rw [if_pos rfl]
    split
    · rw [enterSlotState_slot, if_pos rfl, slot_updSlot_self]
    · rfl
  · rw [if_neg hij]
    split
    · rw [enterSlotState_slot, if_neg hij, slot_updSlot, if_neg hij]
    · rfl

/-! ### The lock (R14, R19) -/

theorem evalFlags_identity (s : State) : (evalFlags s).laneMap.identity = s.laneMap.identity := rfl

theorem openWaitingSlots_identity (s : State) : (openWaitingSlots s).laneMap.identity = s.laneMap.identity :=
  (openWaitingSlots_eff (n := 1) (le_refl 1) s).identity (by omega)

theorem layoutChange_identity (frame : Count) (d : LayoutDetail) (s : State) :
    (layoutChange frame d s).laneMap.identity = s.laneMap.identity :=
  (layoutChange_eff (n := 1) (le_refl 1) frame d s).identity (by omega)

theorem realign_identity (h : Count) (s : State) : (realign h s).laneMap.identity = s.laneMap.identity :=
  (realign_eff (n := 1) (le_refl 1) h s).identity (by omega)

theorem resumeLost_identity (s : State) : (resumeLost s).laneMap.identity = s.laneMap.identity :=
  (resumeLost_eff (n := 1) (le_refl 1) s).identity (by omega)

/-- The swap trigger leaves the active identity as it is (R56). -/
theorem swapTrigger_identity (v : Nat) (frame : Count) (s : State) :
    (swapTrigger v frame s).laneMap.identity = s.laneMap.identity := by
  unfold swapTrigger
  split
  · unfold adopt
    rw [openWaitingSlots_identity, evalFlags_identity, updLaneMap_laneMap]
    split <;> rfl
  · split
    · split <;> rfl
    · split
      · unfold swap
        rw [layoutChange_identity, evalFlags_identity, updLaneMap_laneMap]
      · unfold staleHead
        dsimp only
        rw [evalFlags_identity, updLaneMap_laneMap]
        split <;> split <;> rfl

theorem lockAt_identity (serial : BitVec 4) (h : Count) (s : State) :
    (lockAt serial h s).laneMap.identity = s.laneMap.identity :=
  (swapTrigger_identity serial.toNat h _).trans rfl

/-- The intake as the lock leaves it (R14, R19). -/
theorem lockAt_intake (serial : BitVec 4) (h : Count) (s : State) : (lockAt serial h s).intake =
    { s.intake with
      state := .locked, openFrame := some { count := h, stale := false, suspended := false, lowest := 0 },
      lastClosed := h - 1, remembered := none, foreign := none } := by
  have k := fun s => (swapTrigger_eff (n := 3) (le_refl 3) serial.toNat h s).intake (by omega)
  unfold lockAt handOverHead openFrameAt
  rw [updIntake_intake, k]
  rfl

/-! ### The identity change (R23, R24, R128) -/

/-- The part after what belongs to the multiplex has been cleared, and before its slots are dealt with (R23). -/
def multiplexCleared (identity : Option Word16) (s : State) : State :=
  clearAnnouncer (((releaseAll s).updLaneMap fun _ => { LaneMap.reset with identity := identity }).updDirectory
    fun _ => Directory.reset)

/-- Slot 4 emptied with SELECTION attention, unless it is EMPTY (R136). -/
def slotFourEmptied (s : State) : State :=
  if (s.slot 4).state = .empty then s else raise (.selection 4 .empty) (s.updSlot 4 (releasedSlot 4))

/-- The host slots after an identity change (R128). -/
def hostsForgotten (s : State) : State := hostSlots.foldl (fun s i => s.updSlot i forgetSlot) s

/-- SELECTION attention for the host slot that is now WAITING, if one is (R128). -/
def waitingRaised (changed : Option (Fin 5)) (s : State) : State :=
  match changed with
  | some i => raise (.selection i .waiting) s
  | none => s

/-- The identity change, stage by stage. -/
theorem identityChange_eq (identity : Option Word16) (s : State) : identityChange identity s =
    waitingRaised (changedSlot s) (hostsForgotten (slotFourEmptied (multiplexCleared identity s))) := rfl

@[simp] theorem waitingRaised_slot (changed : Option (Fin 5)) (s : State) (i : Fin 5) :
    (waitingRaised changed s).slot i = s.slot i := by
  cases changed <;> rfl

/-- What the stages after the clearing leave alone. -/
theorem identityChange_keeps {α : Type} (f : State → α) (hslot : ∀ s i x, f (s.setSlot i x) = f s)
    (hraise : ∀ a s, f (raise a s) = f s) (identity : Option Word16) (s : State) :
    f (identityChange identity s) = f (multiplexCleared identity s) := by
  have four : ∀ s, f (slotFourEmptied s) = f s := fun s => by
    unfold slotFourEmptied
    split
    · rfl
    · exact (hraise _ _).trans (hslot _ _ _)
  have hosts : ∀ s, f (hostsForgotten s) = f s := foldl_keeps f _ (fun s i => hslot s i _) hostSlots
  have waiting : ∀ c s, f (waitingRaised c s) = f s := fun c s => by
    cases c with
    | none => rfl
    | some i => exact hraise _ _
  rw [identityChange_eq, waiting, hosts, four]

theorem identityChange_laneMap (identity : Option Word16) (s : State) :
    (identityChange identity s).laneMap = { LaneMap.reset with identity := identity } :=
  identityChange_keeps State.laneMap (fun _ _ _ => rfl) (fun _ _ => rfl) identity s

theorem identityChange_identity (identity : Option Word16) (s : State) :
    (identityChange identity s).laneMap.identity = identity := by
  rw [identityChange_laneMap]

/-! ### The end of an acquisition (R13, R14) -/

/-- The end of an event keeps the intake and the active identity. -/
theorem endEvent_intake (before after : State) : (endEvent before after).intake = after.intake :=
  (endEvent_eff (n := 1) (le_refl 1) before after).intake (by omega)

theorem endEvent_identity (before after : State) : (endEvent before after).laneMap.identity = after.laneMap.identity :=
  (endEvent_eff (n := 1) (le_refl 1) before after).identity (by omega)

/-- An acquisition completes with the identity of its HEAD (R14). -/
theorem completeAcquisition_identity (identity : Word16) (h : Count) (origin : Origin) (s : State) :
    (completeAcquisition identity h origin s).laneMap.identity = some identity := by
  unfold completeAcquisition
  split
  · rw [raise_laneMap, realign_identity, updLaneMap_laneMap]
  · rename_i active hactive
    split
    · rename_i e
      subst e
      dsimp only
      split
      · rw [resumeLost_identity, raise_laneMap, realign_identity, hactive]
      · rw [raise_laneMap, realign_identity, hactive]
    · unfold changeIdentity
      rw [raise_laneMap, identityChange_identity]

/-- The intake in which a heard HEAD locks the port. -/
theorem lockAt_heard_intake {s v : State} {quality : BitVec 4} (hv : v.intake = (headHeard quality s).intake)
    (serial : BitVec 4) (h : Count) : (lockAt serial h v).intake =
    { s.intake with
      state := .locked, openFrame := some { count := h, stale := false, suspended := false, lowest := 0 },
      lastClosed := h - 1, remembered := none, foreign := none, watchRunning := true, timerRunning := true,
      quality := quality, cellRx := .idle } := by
  obtain ⟨l, hl⟩ := headHeard_intake quality s
  rw [lockAt_intake, hv, hl]

section Acquisition

variable {identity : Word16} {h : Count} {s : State}

/-- In ACQUIRE another HEAD only replaces what is remembered (R13). -/
theorem acquire_again {origin : Origin} (hs : s.intake.state = .acquire) : acquire identity h origin s =
    s.updIntake fun p => { p with remembered := some { identity := identity, count := h, origin := origin } } := by
  unfold acquire State.updIntake
  rw [← hs]

/-- With no active identity the HEAD's becomes the active one, with SYNC-CHANGE LOCK (R14). -/
theorem completeAcquisition_first {origin : Origin} (hi : s.laneMap.identity = none) :
    completeAcquisition identity h origin s =
      raise (.syncChange .lock) (realign h (s.updLaneMap fun m => { m with identity := some identity })) := by
  unfold completeAcquisition
  rw [hi]

/-- The active identity heard again realigns, and resumes what LOST suspended (R14, R129). -/
theorem completeAcquisition_same {origin : Origin} (hi : s.laneMap.identity = some identity) :
    completeAcquisition identity h origin s =
      if origin = .lost then resumeLost (raise (.syncChange .realign) (realign h s))
      else raise (.syncChange .realign) (realign h s) := by
  unfold completeAcquisition
  rw [hi]
  dsimp only
  rw [if_pos rfl]

/-- Another identity brings the identity change (R14, R23). -/
theorem completeAcquisition_other {origin : Origin} (h1 : s.laneMap.identity ≠ none) (h2 : s.laneMap.identity ≠ some identity) :
    completeAcquisition identity h origin s = changeIdentity identity s := by
  unfold completeAcquisition
  cases hi : s.laneMap.identity with
  | none => exact absurd hi h1
  | some active => exact if_neg fun e => h2 (by rw [hi, e])

end Acquisition

/-- Settles O18: the cases of R14 for the lock, then what a realignment and a resumption leave. -/
theorem headInSequenceLocks : Obligations.HeadInSequenceLocks := by
  refine ⟨?_, fun h s => ⟨realign_ctx h s, ?_, fun ⟨c, hx⟩ => realign_layout hx⟩, resumeLost_slot⟩
  · intro identity h serial quality reserved m s hr hs hm
    dsimp only
    have hi : (headHeard quality s).laneMap.identity = s.laneMap.identity := headHeard_identity quality s
    rw [exec_head hr, headByState_acquire ((headHeard_state quality s).trans hs) ((headHeard_remembered quality s).trans hm)]
    refine ⟨fun he hh => ?_, fun hn => ?_⟩
    · rw [if_pos ⟨he, hh⟩]
      refine ⟨fun k => ?_, fun k ho => ?_, fun k ho => ?_, fun k1 k2 => ?_, _, rfl, ?_, ?_⟩
      · rw [completeAcquisition_first (hi.trans k)]
        rfl
      · rw [completeAcquisition_same (hi.trans k), if_neg (by simp [ho])]
        rfl
      · rw [completeAcquisition_same (hi.trans k), if_pos ho]
        rfl
      · rw [completeAcquisition_other (hi ▸ k1) (hi ▸ k2)]
        rfl
      · rw [endEvent_identity, lockAt_identity, completeAcquisition_identity]
      · rw [endEvent_intake]
        exact lockAt_heard_intake ((completeAcquisition_eff (n := 4) (le_refl 4) _ _ _ _).intake (by omega)) serial h
    · rw [if_neg hn]
      rw [acquire_again ((headHeard_state quality s).trans hs)]
  · intro hw c column row hx hm hc hr
    exact realign_cells hw hx hm hc hr

end Sys2Proof.Machine
end

section
/-! The identity change field by field, the foreign HEAD and FORGET (R16, R17, R19, R23, R24, R128, R136). -/

namespace Sys2Proof.Machine

/-! ### The clearing (R23) -/

theorem releaseAll_ctx (s : State) (c : Fin 16) : ((releaseAll s).ctx c).state = .free := by
  unfold releaseAll
  rw [foldl_own (fun s (c : Fin 16) => (s.ctx c).state) _ (fun _ => CtxState.free) ?_ _ ctxIds_nodup, if_pos (mem_ctxIds c)]
  intro s c d
  by_cases hf : (s.ctx d).state = .free
  · rw [if_pos hf]
    split
    · rename_i k
      rw [k, hf]
    · rfl
  · rw [if_neg hf, releaseCtx_ctx]
    split <;> rfl

/-- Releasing contexts without attention leaves the link, the profiles and the early start alone. -/
theorem releaseAll_keeps {α : Type} (f : State → α) (hf : ∀ c s, f (releaseCtx c s) = f s) (s : State) :
    f (releaseAll s) = f s :=
  foldl_keeps f _ (fun s c => by
    split
    · rfl
    · exact hf c s) _ _

theorem multiplexCleared_outline (identity : Option Word16) (s : State) (i : Fin 5) :
    ((multiplexCleared identity s).slot i).outline = (s.slot i).outline := by
  unfold multiplexCleared clearAnnouncer
  rw [updAnnouncer_slot, updDirectory_slot, updLaneMap_slot, (releaseAll_eff (n := 0) s).outline i]

theorem multiplexCleared_ctx (identity : Option Word16) (s : State) (c : Fin 16) :
    ((multiplexCleared identity s).ctx c).state = .free := by
  unfold multiplexCleared clearAnnouncer
  rw [updAnnouncer_ctx, updDirectory_ctx, updLaneMap_ctx, releaseAll_ctx]

theorem multiplexCleared_link (identity : Option Word16) (s : State) : (multiplexCleared identity s).link = s.link := by
  unfold multiplexCleared clearAnnouncer
  rw [updAnnouncer_link, updDirectory_link, updLaneMap_link, releaseAll_keeps State.link fun _ _ => rfl]

theorem multiplexCleared_profiles (identity : Option Word16) (s : State) :
    (multiplexCleared identity s).store.profiles = s.store.profiles := by
  unfold multiplexCleared clearAnnouncer
  rw [updAnnouncer_store, updDirectory_store, updLaneMap_store,
    releaseAll_keeps (fun s => s.store.profiles) fun _ _ => rfl]

theorem multiplexCleared_earlyConsumed (identity : Option Word16) (s : State) :
    (multiplexCleared identity s).earlyConsumed = s.earlyConsumed := by
  unfold multiplexCleared clearAnnouncer
  rw [updAnnouncer_earlyConsumed, updDirectory_earlyConsumed, updLaneMap_earlyConsumed,
    releaseAll_keeps State.earlyConsumed fun _ _ => rfl]

theorem multiplexCleared_announcer (identity : Option Word16) (s : State) : (multiplexCleared identity s).announcer =
    { s.announcer with takeover := .idle, heldType := none, heldTarget := none, anchor := none, preempted := [] } := by
  unfold multiplexCleared clearAnnouncer
  rw [updAnnouncer_announcer, updDirectory_announcer, updLaneMap_announcer, (releaseAll_eff s).announcer0]

/-! ### The blocks after an identity change (R23) -/

section Blocks

variable (identity : Option Word16) (s : State)

theorem identityChange_directory : (identityChange identity s).directory = Directory.reset :=
  identityChange_keeps State.directory (fun _ _ _ => rfl) (fun _ _ => rfl) identity s

theorem identityChange_ctx (c : Fin 16) : ((identityChange identity s).ctx c).state = .free := by
  rw [identityChange_keeps (fun s => s.ctx c) (fun _ _ _ => rfl) (fun _ _ => rfl), multiplexCleared_ctx]

theorem identityChange_profiles : (identityChange identity s).store.profiles = s.store.profiles := by
  rw [identityChange_keeps State.store (fun _ _ _ => rfl) (fun _ _ => rfl), multiplexCleared_profiles]

theorem identityChange_announcer : (identityChange identity s).announcer =
    { s.announcer with takeover := .idle, heldType := none, heldTarget := none, anchor := none, preempted := [] } := by
  rw [identityChange_keeps State.announcer (fun _ _ _ => rfl) (fun _ _ => rfl), multiplexCleared_announcer]

theorem identityChange_earlyConsumed : (identityChange identity s).earlyConsumed = s.earlyConsumed := by
  rw [identityChange_keeps State.earlyConsumed (fun _ _ _ => rfl) (fun _ _ => rfl), multiplexCleared_earlyConsumed]

theorem identityChange_intake : (identityChange identity s).intake = s.intake :=
  (identityChange_eff (n := 4) (le_refl 4) identity s).intake (by omega)

/-- The link but for its causes is kept. -/
theorem identityChange_link :
    (identityChange identity s).link = { s.link with causes := (identityChange identity s).link.causes } := by
  have h : { (identityChange identity s).link with causes := s.link.causes } = s.link :=
    (identityChange_keeps (fun u => { u.link with causes := s.link.causes }) (fun _ _ _ => rfl) (fun _ _ => rfl) identity s).trans
      (by rw [multiplexCleared_link])
  generalize (identityChange identity s).link = l at *
  rw [← h]

/-! ### The slots after an identity change (R128, R136) -/

/-- The clearing leaves a slot as it was but for its roles. -/
theorem multiplexCleared_slot (i : Fin 5) : ∃ roles, (multiplexCleared identity s).slot i = { s.slot i with roles := roles } := by
  have h := multiplexCleared_outline identity s i
  generalize (multiplexCleared identity s).slot i = y at *
  refine ⟨y.roles, ?_⟩
  unfold Slot.outline at h
  injection h
  cases y
  simp_all

theorem mem_hostSlots {i : Fin 5} : i ∈ hostSlots ↔ i ≠ 4 := by
  revert i
  decide

theorem hostsForgotten_slot (i : Fin 5) :
    (hostsForgotten s).slot i = if i = 4 then s.slot i else forgetSlot (s.slot i) := by
  unfold hostsForgotten
  rw [foldl_own State.slot _ forgetSlot (fun s i j => ?_) _ (by decide)]
  · by_cases h : i = 4
    · rw [if_pos h, if_neg (by simp [mem_hostSlots, h])]
    · rw [if_neg h, if_pos (mem_hostSlots.2 h)]
  · rw [slot_updSlot]
    split
    · rename_i k
      rw [k]
    · rfl

theorem slotFourEmptied_slot (i : Fin 5) : (slotFourEmptied s).slot i =
    if i = 4 ∧ (s.slot 4).state ≠ .empty then releasedSlot 4 (s.slot 4) else s.slot i := by
  unfold slotFourEmptied
  by_cases h : (s.slot 4).state = .empty
  · rw [if_pos h, if_neg (fun k => k.2 h)]
  · rw [if_neg h, raise_slot, slot_updSlot]
    by_cases hi : i = 4 <;> simp [hi, h]

/-- A host slot is forgotten from the fields it had (R128). -/
theorem identityChange_host {i : Fin 5} (hi : i ≠ 4) :
    ∃ roles, (identityChange identity s).slot i = forgetSlot { s.slot i with roles := roles } := by
  obtain ⟨roles, h⟩ := multiplexCleared_slot identity s i
  refine ⟨roles, ?_⟩
  rw [identityChange_eq, waitingRaised_slot, hostsForgotten_slot, if_neg hi, slotFourEmptied_slot, if_neg fun k => hi k.1, h]

/-- Slot 4 is released, unless it is EMPTY (R23, R136). -/
theorem identityChange_four : ∃ roles, (identityChange identity s).slot 4 =
    if (s.slot 4).state = .empty then { s.slot 4 with roles := roles } else releasedSlot 4 (s.slot 4) := by
  obtain ⟨roles, h⟩ := multiplexCleared_slot identity s 4
  refine ⟨roles, ?_⟩
  rw [identityChange_eq, waitingRaised_slot, hostsForgotten_slot, if_pos rfl, slotFourEmptied_slot, h]
  by_cases he : (s.slot 4).state = .empty
  · rw [if_neg (fun k => k.2 he), if_pos he]
  · rw [if_pos ⟨rfl, he⟩, if_neg he]
    rfl

end Blocks

section Forgotten

variable {x : Slot}

theorem forgetSlot_empty (h : x.state = .empty) : forgetSlot x = x := by
  unfold forgetSlot
  rw [h]

theorem forgetSlot_parked (h : x.state = .parked) : forgetSlot x = { x with parked := some .waiting } := by
  unfold forgetSlot
  rw [h]

theorem forgetSlot_occupied (h1 : x.state ≠ .empty) (h2 : x.state ≠ .parked) : forgetSlot x =
    { x.clearRoles with
      state := .waiting, source := .primary, muted := false, overridden := false, cause := none, parked := none } := by
  unfold forgetSlot
  split
  · rename_i h
    exact absurd h h1
  · rename_i h
    exact absurd h h2
  · rfl

/-- The slots whose state an identity change leaves as it is (R128, log 18). -/
theorem forgetSlot_state_eq_iff :
    (forgetSlot x).state = x.state ↔ x.state = .empty ∨ x.state = .parked ∨ x.state = .waiting := by
  by_cases h1 : x.state = .empty
  · simp [forgetSlot_empty h1, h1]
  · by_cases h2 : x.state = .parked
    · simp [forgetSlot_parked h2, h2]
    · rw [forgetSlot_occupied h1 h2]
      simp [h1, h2, eq_comm]

/-- Forgetting a slot keeps its thresholds and masks. -/
theorem forgetSlot_thresholds (x : Slot) : (forgetSlot x).thHi = x.thHi ∧ (forgetSlot x).thLo = x.thLo ∧
    (forgetSlot x).riseMask = x.riseMask ∧ (forgetSlot x).fallMask = x.fallMask := by
  unfold forgetSlot
  split <;> exact ⟨rfl, rfl, rfl, rfl⟩

/-- Forgetting a slot keeps its service and role. -/
theorem forgetSlot_selection (x : Slot) : (forgetSlot x).service = x.service ∧ (forgetSlot x).role = x.role := by
  unfold forgetSlot
  split <;> exact ⟨rfl, rfl⟩

end Forgotten

theorem identityChange_thresholds (identity : Option Word16) (s : State) : thresholdsKept s (identityChange identity s) := by
  intro i
  by_cases hi : i = 4
  · subst hi
    obtain ⟨roles, h⟩ := identityChange_four identity s
    rw [h]
    split <;> exact ⟨rfl, rfl, rfl, rfl⟩
  · obtain ⟨roles, h⟩ := identityChange_host identity s hi
    rw [h]
    exact forgetSlot_thresholds _

theorem identityChange_four_state (identity : Option Word16) (s : State) : ((identityChange identity s).slot 4).state = .empty := by
  obtain ⟨roles, h⟩ := identityChange_four identity s
  rw [h]
  split
  · assumption
  · rfl

/-! ### SELECTION attention at an identity change (R128, R136, log 18) -/

/-- The host slot is in another state after an identity change. -/
def forgettable (s : State) (i : Fin 5) : Prop :=
  (s.slot i).state ≠ .empty ∧ (s.slot i).state ≠ .parked ∧ (s.slot i).state ≠ .waiting

theorem forgettable_iff (s : State) (i : Fin 5) : (forgetSlot (s.slot i)).state ≠ (s.slot i).state ↔ forgettable s i := by
  rw [ne_eq, forgetSlot_state_eq_iff, not_or, not_or]
  rfl

theorem changedSlot_none {s : State} (h : ∀ i, i ≠ 4 → ¬forgettable s i) : changedSlot s = none := by
  unfold changedSlot
  refine List.find?_eq_none.2 fun i hi => ?_
  have hi4 : i ≠ 4 := by
    rintro rfl
    exact absurd hi (by decide)
  simpa using fun k => h i hi4 ((forgettable_iff s i).1 k)

/-- The first of the slots 3, 2, 1, 0 that has a property is the highest host slot that has it. -/
theorem find_highest (p : Fin 5 → Bool) : ∀ i : Fin 5, i ≠ 4 → p i = true → (∀ j, i < j → j ≠ 4 → p j = false) →
    ([3, 2, 1, 0] : List (Fin 5)).find? p = some i := by
  revert p
  decide

theorem changedSlot_highest {s : State} {i : Fin 5} (hi : i ≠ 4) (h : forgettable s i)
    (above : ∀ j, i < j → j ≠ 4 → ¬forgettable s j) : changedSlot s = some i :=
  find_highest _ i hi (by simpa using (forgettable_iff s i).2 h) fun j h1 h2 => by
    simpa using fun k => above j h1 h2 ((forgettable_iff s j).1 k)

theorem hostsForgotten_link (s : State) : (hostsForgotten s).link = s.link := by
  unfold hostsForgotten
  exact foldl_keeps State.link (fun s i => s.updSlot i forgetSlot) (fun _ _ => rfl) _ _

/-- Whether slot 4 is EMPTY decides whether its emptying raises SELECTION. -/
theorem slotFourEmptied_link (s : State) :
    (slotFourEmptied s).link = if (s.slot 4).state = .empty then s.link else (raise (.selection 4 .empty) s).link := by
  unfold slotFourEmptied
  split <;> rfl

/-- With no host slot changed the link shows the emptying of slot 4 alone. -/
theorem identityChange_link_quiet (identity : Option Word16) {s : State} (h : changedSlot s = none) :
    (identityChange identity s).link = if (s.slot 4).state = .empty then s.link else (raise (.selection 4 .empty) s).link := by
  obtain ⟨roles, h4⟩ := multiplexCleared_slot identity s 4
  rw [identityChange_eq, h]
  unfold waitingRaised
  dsimp only
  rw [hostsForgotten_link, slotFourEmptied_link, h4]
  unfold raise
  rw [updLink_link, updLink_link, multiplexCleared_link]

theorem raise_own_cause (a : Attention) (s : State) :
    (raise a s).link.causes[a.place] = { pending := true, detail := some a } := by
  rw [raise_cause, if_pos rfl]

/-- The highest host slot changed has its detail in SELECTION. -/
theorem identityChange_selection (identity : Option Word16) {s : State} {i : Fin 5} (h : changedSlot s = some i) :
    (identityChange identity s).link.causes[(5 : Fin 9)] = { pending := true, detail := some (.selection i .waiting) } := by
  rw [identityChange_eq, h]
  unfold waitingRaised
  dsimp only
  exact raise_own_cause _ _

/-! ### The HEAD that locks after an identity change (R19, R23) -/

/-- The bank of a serial that has no entries yet. -/
def emptyBank (v : Nat) : Bank := { Bank.empty with serial := some v }

/-- No WAITING slot opens while the active bank has no service entries. -/
theorem openWaitingSlots_noServices {s : State} (h : s.laneMap.active.services = []) : openWaitingSlots s = s := by
  unfold openWaitingSlots
  refine List.foldl_fixed' (fun i => if_neg ?_) hostSlots
  rintro ⟨_, k⟩
  have none' : ∀ v, activeService s v = none := fun v => by
    unfold activeService Bank.service?
    rw [h]
    rfl
  cases hv : (s.slot i).service <;> simp [hv, none'] at k

/-- The first HEAD after a clearing adopts its serial with an empty bank (R57). -/
theorem swapTrigger_cleared {s : State} {identity : Option Word16} (h : s.laneMap = { LaneMap.reset with identity := identity })
    (v : Nat) (frame : Count) :
    swapTrigger v frame s = s.updLaneMap fun m => { m with active := emptyBank v } := by
  have hs : s.laneMap.active.serial = none := by
    rw [h]
    rfl
  have hb : evalFlags (s.updLaneMap fun m =>
      if m.pending.serial = some v then { m with active := m.pending, pending := Bank.empty }
      else { m with active := { Bank.empty with serial := some v } }) = s.updLaneMap fun m => { m with active := emptyBank v } := by
    unfold evalFlags State.updLaneMap
    dsimp only
    rw [h]
    rfl
  unfold swapTrigger
  rw [if_pos hs]
  unfold adopt
  rw [hb, openWaitingSlots_noServices rfl]

/-- An event that leaves nothing held and the active bank incomplete ends with the levels of the lines alone. -/
theorem endEvent_quiet {before after : State} (h1 : after.announcer.takeover = .idle) (h2 : after.laneMap.complete = false) :
    endEvent before after = driveLines after := by
  have held : ∀ b, checkAfter b after = after := fun b => by
    unfold checkAfter checkHeld
    rw [if_pos h1, ite_self]
  have early : earlyStart after = after := by
    have hc : earlyConditions after = false := by simp [earlyConditions, h2]
    unfold earlyStart
    rw [hc]
  unfold endEvent
  dsimp only
  rw [held before, early, held]

/-- After an identity change the lock adopts the HEAD's serial, and no context is open. -/
theorem lockAt_changeIdentity (before : State) (identity : Word16) (serial : BitVec 4) (h : Count) (s : State) :
    let t := endEvent before (lockAt serial h (changeIdentity identity s))
    t.laneMap.active.serial = some serial.toNat ∧ ∀ c : Fin 16, (t.ctx c).state = .free := by
  dsimp only
  have hm : (changeIdentity identity s).laneMap = { LaneMap.reset with identity := some identity } := by
    unfold changeIdentity
    rw [raise_laneMap, identityChange_laneMap]
  have ha : (changeIdentity identity s).announcer.takeover = .idle := by
    unfold changeIdentity
    rw [raise_announcer, identityChange_announcer]
  have hc : ∀ c, ((changeIdentity identity s).ctx c).state = .free := fun c => by
    unfold changeIdentity
    rw [raise_ctx, identityChange_ctx]
  generalize changeIdentity identity s = v at *
  unfold lockAt handOverHead openFrameAt
  rw [swapTrigger_cleared (by rw [updIntake_laneMap, hm]), endEvent_quiet (by simpa using ha) (by simp [hm, LaneMap.reset])]
  exact ⟨rfl, hc⟩

/-- A host slot after an identity change, by the state it was in (R128). -/
theorem identityChange_host_cases (identity : Option Word16) (s : State) {i : Fin 5} (hi : i ≠ 4) :
    ((s.slot i).state = .empty → ((identityChange identity s).slot i).state = .empty) ∧
    ((s.slot i).state = .parked → ((identityChange identity s).slot i).state = .parked ∧
      ((identityChange identity s).slot i).parked = some .waiting) ∧
    ((s.slot i).state ≠ .empty → (s.slot i).state ≠ .parked → (identityChange identity s).slot i = { s.slot i with
      state := .waiting, roles := Vector.replicate 5 RoleRef.none, source := .primary, muted := false, overridden := false,
      cause := none, parked := none }) ∧
    ((identityChange identity s).slot i).service = (s.slot i).service ∧
    ((identityChange identity s).slot i).role = (s.slot i).role := by
  obtain ⟨roles, h⟩ := identityChange_host identity s hi
  rw [h]
  refine ⟨fun k => ?_, fun k => ?_, fun k1 k2 => ?_, forgetSlot_selection _⟩
  · rw [forgetSlot_empty (by exact k)]
    exact k
  · rw [forgetSlot_parked (by exact k)]
    exact ⟨k, rfl⟩
  · rw [forgetSlot_occupied (by exact k1) (by exact k2)]
    rfl

theorem not_forgettable_iff {s : State} {i : Fin 5} :
    ¬forgettable s i ↔ (s.slot i).state = .empty ∨ (s.slot i).state = .parked ∨ (s.slot i).state = .waiting := by
  unfold forgettable
  tauto

/-- What the identity change clears, keeps and raises (R23, R128, R136). -/
theorem identityChange_clears (identity : Option Word16) (s : State) :
    let u := identityChange identity s
    u.laneMap = { LaneMap.reset with identity := identity } ∧ u.directory = Directory.reset ∧
    (∀ c : Fin 16, (u.ctx c).state = .free) ∧ u.store.profiles = s.store.profiles ∧ u.intake = s.intake ∧
    u.announcer = { s.announcer with
      takeover := .idle, heldType := none, heldTarget := none, anchor := none, preempted := [] } :=
  ⟨identityChange_laneMap identity s, identityChange_directory identity s, identityChange_ctx identity s,
    identityChange_profiles identity s, identityChange_intake identity s, identityChange_announcer identity s⟩

/-- With no host slot changed, the emptying of slot 4 alone decides SELECTION attention. -/
theorem identityChange_selection_four (identity : Option Word16) {s : State}
    (h : ∀ i : Fin 5, i ≠ 4 → (s.slot i).state = .empty ∨ (s.slot i).state = .parked ∨ (s.slot i).state = .waiting) :
    ((s.slot 4).state ≠ .empty → (identityChange identity s).link.causes[(5 : Fin 9)] =
      { pending := true, detail := some (.selection 4 .empty) }) ∧
    ((s.slot 4).state = .empty → (identityChange identity s).link = s.link) := by
  rw [identityChange_link_quiet identity (changedSlot_none fun i hi => not_forgettable_iff.2 (h i hi))]
  refine ⟨fun k => ?_, fun k => if_pos k⟩
  rw [if_neg k]
  exact raise_own_cause _ _

/-- Settles O20: the foreign HEAD by intake state, the lock after an identity change, and the identity change field by field. -/
theorem foreignHead : Obligations.ForeignHead := by
  refine ⟨?_, ?_⟩
  · intro identity h serial quality reserved s hr hid
    dsimp only
    have hid' : (headHeard quality s).laneMap.identity ≠ some identity := by rwa [headHeard_identity]
    rw [exec_head hr]
    refine ⟨fun hs => ?_, fun hs hf => ?_, fun hs hf => ?_⟩
    · rw [headByState_locked ((headHeard_state quality s).trans hs), if_neg hid']
      rfl
    · rw [headByState_holdover ((headHeard_state quality s).trans hs), if_neg hid',
        if_pos ((headHeard_foreign quality s).trans hf)]
      have hu : (changeIdentity identity (headHeard quality s)).intake = (headHeard quality s).intake :=
        (changeIdentity_eff (n := 4) (le_refl 4) identity _).intake (by omega)
      obtain ⟨hserial, hfree⟩ := lockAt_changeIdentity s identity serial h (headHeard quality s)
      refine ⟨rfl, _, rfl, ?_, hserial, hfree, ?_⟩
      · rw [endEvent_identity, lockAt_identity]
        unfold changeIdentity
        rw [raise_laneMap, identityChange_identity]
      · rw [endEvent_intake]
        exact lockAt_heard_intake hu serial h
    · rw [headByState_holdover ((headHeard_state quality s).trans hs), if_neg hid',
        if_neg (by rwa [headHeard_foreign])]
  · intro identity s
    dsimp only
    obtain ⟨hmap, hdir, hctx, hprof, hint, hann⟩ := identityChange_clears identity s
    refine ⟨hmap, hdir, hctx, hprof, hint, hann, fun i hi => ?_, identityChange_four_state identity s,
      identityChange_thresholds identity s, identityChange_link identity s, fun h4 => ?_,
      identityChange_selection_four identity, fun i hi h1 h2 h3 above => ?_⟩
    · obtain ⟨hempty, hparked, hother, hservice, hrole⟩ := identityChange_host_cases identity s hi
      exact ⟨hempty, fun k => ⟨(hparked k).1, (hparked k).2, hservice, hrole⟩, hother⟩
    · obtain ⟨roles, h⟩ := identityChange_four identity s
      rw [h, if_neg h4]
      rfl
    · exact identityChange_selection identity (changedSlot_highest hi ⟨h1, h2, h3⟩ fun j k1 k2 =>
        not_forgettable_iff.2 (above j k1 k2))

/-! ### FORGET (R24, R167) -/

/-- An order of no parameters, carried out at once (R163 to R165). -/
theorem exec_forget (ref : Byte) {s : State} (h : readyForOrder s) :
    exec (.forget ref) s = carriedOut s ref 0x0A .accepted [] (forgetOrder (heard s)).2.2 :=
  (exec_order ref 0x0A [] s (by simp) h).trans rfl

/-- A slot that enters another state at an identity change leaves SELECTION pending (R128, R136). -/
theorem identityChange_selection_pending (identity : Option Word16) {s : State}
    (h : (s.slot 4).state ≠ .empty ∨ ∃ i : Fin 5, i ≠ 4 ∧ forgettable s i) :
    ((identityChange identity s).link.causes[(5 : Fin 9)]).pending = true := by
  cases hc : changedSlot s with
  | some i => rw [identityChange_selection identity hc]
  | none =>
    have host : ∀ i : Fin 5, i ≠ 4 → i ∈ ([3, 2, 1, 0] : List (Fin 5)) := by decide
    have quiet : ∀ i, i ≠ 4 → ¬forgettable s i := fun i hi k =>
      List.find?_eq_none.1 hc i (host i hi) (by simpa using (forgettable_iff s i).2 k)
    have h4 : (s.slot 4).state ≠ .empty := h.resolve_right fun ⟨i, hi, k⟩ => quiet i hi k
    rw [(identityChange_selection_four identity fun i hi => not_forgettable_iff.1 (quiet i hi)).1 h4]

/-- Settles O48: FORGET is the identity change to none, with the intake set back. -/
theorem forgetClearsTheMultiplex : Obligations.ForgetClearsTheMultiplex := by
  intro ref s hr
  refine ⟨_, exec_forget ref hr, ?_⟩
  obtain ⟨hmap, hdir, hctx, hprof, hint, hann⟩ := identityChange_clears none (heard s)
  have hlink := identityChange_link none (heard s)
  have hthr := identityChange_thresholds none (heard s)
  have hfour := identityChange_four_state none (heard s)
  have hearly := identityChange_earlyConsumed none (heard s)
  have hsel := identityChange_selection_pending none (s := heard s)
  have hhost := fun i (hi : i ≠ 4) => identityChange_host_cases none (heard s) (i := i) hi
  unfold forgetOrder
  dsimp only
  generalize identityChange none (heard s) = u at *
  refine ⟨by rw [updIntake_intake, hint]; rfl, hmap, hdir, hctx, hprof, hann, fun i hi => ?_, hfour, hthr, hsel, hlink, hearly⟩
  obtain ⟨hempty, hparked, hother, hservice, hrole⟩ := hhost i hi
  refine ⟨hservice, hrole, ?_, fun k => (hparked k).2⟩
  rw [updIntake_slot]
  split
  · exact hempty (by assumption)
  · exact (hparked (by assumption)).1
  · rename_i h1 h2
    rw [hother h1 h2]

end Sys2Proof.Machine
end

section
/-! The timers: the tick, the holdover limit and the announcement table's ages (R11, R18, R41, R129). -/

namespace Sys2Proof.Machine

/-! ### The announcement table (R41) -/

theorem mem_annTypes (t : Fin 8) : t ∈ annTypes := by
  revert t
  decide

theorem annTypes_nodup : annTypes.Nodup := by decide

theorem annEntry_setAnnEntry (t k : Fin 8) (e : AnnEntry) (s : State) :
    annEntry (setAnnEntry t e s) k = if k = t then e else annEntry s k := by
  unfold annEntry setAnnEntry
  rw [updDirectory_directory]
  simp only [Fin.getElem_fin]
  rw [Vector.getElem_set]
  by_cases h : k = t
  · subst h
    simp
  · rw [if_neg h, if_neg fun e => h (Fin.ext e.symm)]

/-- An entry after a tick has aged it. -/
def AnnEntry.aged (e : AnnEntry) : AnnEntry := if e.on then { e with age := e.age + 1 } else e

/-- An entry after the ends by expiry. -/
def AnnEntry.expired (e : AnnEntry) : AnnEntry := if e.on = true ∧ 64 ≤ e.age then { e with on := false, age := 0 } else e

theorem ageTable_entry (s : State) (k : Fin 8) : annEntry (ageTable s) k = (annEntry s k).aged := by
  unfold ageTable
  rw [foldl_own annEntry _ AnnEntry.aged (fun s k t => ?_) _ annTypes_nodup, if_pos (mem_annTypes k)]
  unfold AnnEntry.aged
  by_cases h : k = t
  · subst h
    rw [if_pos rfl]
    split
    · rw [annEntry_setAnnEntry, if_pos rfl]
    · rfl
  · rw [if_neg h]
    split
    · rw [annEntry_setAnnEntry, if_neg h]
    · rfl

/-- The end of an announcement leaves the table as it is: it acts on what is held (R149). -/
theorem annEnd_entry (t k : Fin 8) (target : Option Word16) (cause : EndCause) (s : State) :
    annEntry (annEnd t target cause s) k = annEntry s k := by
  unfold annEntry
  rw [(annEnd_eff (n := 1) (le_refl 1) t target cause s).table (by omega)]

theorem expireEntry_entry (s : State) (k t : Fin 8) :
    annEntry (expireEntry s t) k = if k = t then (annEntry s k).expired else annEntry s k := by
  unfold expireEntry AnnEntry.expired
  dsimp only
  by_cases h : k = t
  · subst h
    rw [if_pos rfl]
    split
    · rw [annEnd_entry, annEntry_setAnnEntry, if_pos rfl]
    · rfl
  · rw [if_neg h]
    split
    · rw [annEnd_entry, annEntry_setAnnEntry, if_neg h]
    · rfl

theorem expireTable_entry (s : State) (k : Fin 8) : annEntry (expireTable s) k = (annEntry s k).expired := by
  unfold expireTable
  rw [foldl_own annEntry _ AnnEntry.expired expireEntry_entry _ annTypes_nodup, if_pos (mem_annTypes k)]

theorem agedTable_intake (s : State) : (expireTable (ageTable s)).intake = s.intake :=
  ((ageTable_eff (n := 4) (le_refl 4) s).trans (expireTable_eff (le_refl 4) _)).intake (by omega)

/-! ### The holdover limit (R18, R129) -/

/-- Two states that differ in their slots and causes alone. -/
def SlotsAndCauses (s u : State) : Prop :=
  ∃ slots causes, u = { s with slots := slots, link := { s.link with causes := causes } }

theorem SlotsAndCauses.refl (s : State) : SlotsAndCauses s s := ⟨s.slots, s.link.causes, rfl⟩

theorem SlotsAndCauses.trans {s t u : State} (h : SlotsAndCauses s t) (k : SlotsAndCauses t u) : SlotsAndCauses s u := by
  obtain ⟨_, _, rfl⟩ := h
  obtain ⟨sl, cs, rfl⟩ := k
  exact ⟨sl, cs, rfl⟩

theorem SlotsAndCauses.foldl {α : Type} {f : State → α → State} (hf : ∀ s x, SlotsAndCauses s (f s x)) (l : List α) (s : State) :
    SlotsAndCauses s (l.foldl f s) := by
  induction l generalizing s with
  | nil => exact .refl s
  | cons x rest ih => exact (hf s x).trans (ih _)

/-- Suspending for LOST touches slots and SELECTION attention alone (R129). -/
theorem suspendLost_frame (s : State) : SlotsAndCauses s (suspendLost s) :=
  SlotsAndCauses.foldl (fun _ _ => by
    split
    · exact ⟨_, _, rfl⟩
    · exact .refl _) _ _

theorem suspendLost_intake (s : State) : (suspendLost s).intake = s.intake := by
  obtain ⟨_, _, h⟩ := suspendLost_frame s
  rw [h]

theorem checkHoldoverLimit_reached {s : State} (hs : s.intake.state = .holdover) (hc : s.intake.holdoverLimit ≤ s.intake.holdoverCount) :
    checkHoldoverLimit s = raise (.syncChange .lost) (suspendLost (setIntakeState .lost s)) := if_pos ⟨hs, hc⟩

theorem checkHoldoverLimit_not {s : State}
    (h : ¬(s.intake.state = .holdover ∧ s.intake.holdoverLimit ≤ s.intake.holdoverCount)) : checkHoldoverLimit s = s := if_neg h

/-- Settles O24: the row runs the step of the tick under its own condition. -/
theorem holdoverLimitEntersLost : Obligations.HoldoverLimitEntersLost := by
  intro s hr
  refine ⟨fun hs hc => ⟨_, command_running hr, ?_⟩, fun h => ?_⟩
  · rw [checkHoldoverLimit_reached hs hc]
    obtain ⟨slots, causes, h⟩ := suspendLost_frame (setIntakeState .lost s)
    refine ⟨?_, fun i => ?_, raise_own_cause _ _, ?_⟩
    · rw [raise_intake, suspendLost_intake]
      rfl
    · rw [raise_slot, suspendLost_slot]
      rfl
    · rw [h]
      rfl
  · refine (command_running hr).trans ?_
    rw [checkHoldoverLimit_not h]

/-! ### The tick (R11, R18) -/

theorem tickTaken_running {s : State} (h : s.intake.timerRunning = true) :
    tickTaken s = holdoverTick (expireTable (ageTable s)) := if_pos h

theorem holdoverTick_not {s : State} (h : s.intake.state ≠ .holdover) : holdoverTick s = s := if_neg h

/-- The state of a tick in HOLDOVER before the limit is looked at: one virtual close, counted (R9, R18). -/
def heldOver (s : State) : State :=
  (frameClose (s.intake.lastClosed + 1) s).updIntake fun p => { p with holdoverCount := p.holdoverCount + 1 }

theorem heldOver_intake (s : State) : (heldOver s).intake =
    { s.intake with lastClosed := s.intake.lastClosed + 1, holdoverCount := s.intake.holdoverCount + 1 } := by
  unfold heldOver
  rw [updIntake_intake, frameClose_intake]

theorem holdoverTick_holdover {s : State} (h : s.intake.state = .holdover) :
    holdoverTick s = checkHoldoverLimit (heldOver s) := if_pos h

/-- A tick in HOLDOVER, below the limit and at it (R18). -/
theorem holdoverTick_cases {s : State} (h : s.intake.state = .holdover) :
    (s.intake.holdoverCount + 1 < s.intake.holdoverLimit → holdoverTick s = heldOver s) ∧
    (s.intake.holdoverLimit ≤ s.intake.holdoverCount + 1 →
      holdoverTick s = raise (.syncChange .lost) (suspendLost (setIntakeState .lost (heldOver s)))) := by
  have hi := heldOver_intake s
  rw [holdoverTick_holdover h]
  refine ⟨fun hc => checkHoldoverLimit_not ?_, fun hc => checkHoldoverLimit_reached ?_ ?_⟩ <;> rw [hi]
  · exact fun k => absurd k.2 (by dsimp only; omega)
  · exact h
  · exact hc

theorem holdoverTick_intake {s : State} (h : s.intake.state = .holdover) : (holdoverTick s).intake = { s.intake with
    lastClosed := s.intake.lastClosed + 1, holdoverCount := s.intake.holdoverCount + 1,
    state := if s.intake.holdoverLimit ≤ s.intake.holdoverCount + 1 then .lost else .holdover } := by
  obtain ⟨below, reached⟩ := holdoverTick_cases h
  by_cases hc : s.intake.holdoverLimit ≤ s.intake.holdoverCount + 1
  · rw [reached hc, if_pos hc, raise_intake, suspendLost_intake]
    unfold setIntakeState
    rw [updIntake_intake, heldOver_intake]
  · rw [below (by omega), if_neg hc, heldOver_intake, ← h]

/-- Settles O23: the table entry by entry, the slots at LOST, and the tick by intake state. -/
theorem tickAgesAndCloses : Obligations.TickAgesAndCloses := by
  refine ⟨ageTable_entry, expireTable_entry, suspendLost_slot, fun s hr => ?_⟩
  dsimp only
  have hexec : exec .tick s = .next (endEvent s (tickTaken s)) := command_running hr
  have hi := agedTable_intake s
  rw [hexec]
  refine ⟨fun ht => ?_, fun ht hs => ?_, fun ht hs => ?_⟩
  · unfold tickTaken
    rw [if_neg (by simp [ht])]
  · rw [tickTaken_running ht, holdoverTick_not (by rwa [hi])]
  · rw [tickTaken_running ht]
    generalize expireTable (ageTable s) = u at *
    have hs' : u.intake.state = .holdover := by rwa [hi]
    obtain ⟨below, reached⟩ := holdoverTick_cases hs'
    have hintake := holdoverTick_intake hs'
    rw [hi] at below reached hintake
    refine ⟨fun hc => ?_, fun hc => ?_, _, rfl, ?_⟩
    · rw [below hc]
      unfold heldOver
      rw [hi]
    · rw [reached hc]
      unfold heldOver setIntakeState
      rw [hi]
    · rw [endEvent_intake, hintake]

end Sys2Proof.Machine
end

section
/-! The cells that carry contents, TILE and DIR, and the two orders that set values (R3, R6 to R8, R21, R26, R33, R34, R39, R44,
R74, R125). -/

namespace Sys2Proof.Machine

/-! ### TILE (R6, R7, R73, R74) -/

theorem patternValue_eq (s : State) (p k : Nat) (h : p < 4) : patternValue s p k = ((s.store.profiles[p])[k % 8]?).getD 0 := by
  unfold patternValue
  rw [Vector.getElem?_toList, Vector.getElem?_eq_getElem h]
  rfl

theorem atOrAhead_iff (a b : Count) : atOrAhead a b = true ↔ (a - b).toNat ≤ 2047 := decide_eq_true_iff

/-- Which lane frames a context admits (R73). -/
theorem admits_iff (x : LaneContext) (l : Count) : admits x l = true ↔
    x.state = .running ∨ (x.state = .filling ∧ ∃ l0, x.first = some l0 ∧ (l - l0).toNat ≤ 2047) := by
  unfold admits
  cases x.state with
  | free => simp
  | draining => simp
  | running => simp
  | filling => cases x.first <;> simp [atOrAhead_iff]

theorem indexAt_some {s : State} {t : Nat} {e : IndexEntry} (h : indexAt s t = some e) : e ∈ s.laneMap.index ∧ e.position = t :=
  ⟨List.mem_of_find?_eq_some h, by simpa using List.find?_some h⟩

theorem indexAt_none (s : State) (t : Nat) : indexAt s t = none ↔ ∀ e ∈ s.laneMap.index, e.position ≠ t := by
  unfold indexAt
  simp [List.find?_eq_none]

/-- A tile is written to the cell of its context, tile index and row, when the context admits its lane frame and the cell does not
hold it yet (R74). -/
theorem placeTile_eq {c : Fin 16} {k : Nat} {s : State} {e : LaneEntry} {column : Nat} (he : (s.ctx c).shape = some e)
    (hk : (s.ctx c).columns[k]? = some column) (f : Count) (payload : Bytes30) (erased : Bool) :
    placeTile c k f payload erased s =
      let l := f - BitVec.ofNat 12 (patternValue s e.profile k)
      let a := cellAddress column (rowOf l)
      if admits (s.ctx c) l = true ∧ (s.store.cells.read a).tag ≠ some l then
        s.updStore fun d => { d with cells := d.cells.write a { payload := payload, tag := some l, erased := erased } }
      else s := by
  unfold placeTile
  dsimp only
  rw [he, hk]

/-- A TILE in order in a good frame raises the lowest acceptable position and goes to the index (R6, R7). -/
theorem tileTaken_inOrder {erasure : Bool} {position : BitVec 10} {payload : Bytes30} {check : Word16} {s : State} {f : OpenFrame}
    (hf : s.intake.openFrame = some f) (h : f.stale = false ∧ f.suspended = false ∧ f.lowest ≤ position.toNat ∧ position.toNat ≤ 575) :
    tileTaken erasure position payload check s =
      let v := s.updIntake fun p => { p with openFrame := some { f with lowest := position.toNat + 1 } }
      (indexAt s position.toNat).elim v fun e =>
        placeTile e.ctx e.tile f.count payload (erasure || crc (bytes30 payload) != check) v := by
  have hix : ∀ g : Intake → Intake, indexAt (s.updIntake g) position.toNat = indexAt s position.toNat := fun _ => rfl
  unfold tileTaken
  rw [hf]
  dsimp only
  rw [if_pos h, hix]
  cases indexAt s position.toNat <;> rfl

/-- Any other TILE is ignored (R6). -/
theorem tileTaken_ignored {erasure : Bool} {position : BitVec 10} {payload : Bytes30} {check : Word16} {s : State}
    (h : ∀ f, s.intake.openFrame = some f → f.stale = true ∨ f.suspended = true ∨ position.toNat < f.lowest ∨ 575 < position.toNat) :
    tileTaken erasure position payload check s = s := by
  unfold tileTaken
  split
  · rename_i f hf
    refine if_neg ?_
    rintro ⟨h1, h2, h3, h4⟩
    rcases h f hf with k | k | k | k
    · exact absurd k (by simp [h1])
    · exact absurd k (by simp [h2])
    · omega
    · omega
  · rfl

/-- Settles O25: the profile, the admission and the index as they are read, then the TILE that is placed and the one that is not. -/
theorem tilePlacement : Obligations.TilePlacement := by
  refine ⟨patternValue_eq, admits_iff, fun s t => ⟨fun _ h => indexAt_some h, indexAt_none s t⟩, ?_⟩
  intro erasure reserved position payload check s hr
  have hexec : exec (.tile erasure reserved position payload check) s =
      .next (endEvent s (tileTaken erasure position payload check (setCellRx .idle s))) := cellCommand_running hr
  dsimp only
  rw [hexec]
  refine ⟨fun f hf h1 h2 h3 h4 => ?_, fun h => ?_⟩
  · have hix : indexAt (setCellRx .idle s) position.toNat = indexAt s position.toNat := rfl
    rw [tileTaken_inOrder (s := setCellRx .idle s) hf ⟨h1, h2, h3, h4⟩, hix]
    dsimp only
    refine ⟨fun hn => ?_, fun e lane column he hs hc => ?_⟩
    · rw [hn]
      rfl
    · rw [he, Option.elim_some, placeTile_eq (by exact hs) (by exact hc)]
      dsimp only
      refine ⟨fun k1 k2 => ?_, fun k => ?_⟩
      · rw [if_pos (by exact ⟨k1, k2⟩)]
        rfl
      · rw [if_neg]
        · rfl
        · rintro ⟨k1, k2⟩
          rcases k with k | k
          · exact absurd k1 (by exact Bool.eq_false_iff.1 k)
          · exact k2 k
  · rw [tileTaken_ignored (s := setCellRx .idle s) h]
    rfl

/-! ### DIR (R3, R8, R26) -/

/-- A DIR cell counts when a good frame is open and its check passes (R3, R8). -/
theorem dirTaken_good {index : Byte} {block : Bytes30} {check : Word16} {s : State}
    (h : (∃ f, s.intake.openFrame = some f ∧ f.stale = false ∧ f.suspended = false) ∧ crc (bytes30 block) = check) :
    dirTaken index block check s = directoryBlock index (bytes30 block) s := by
  obtain ⟨⟨f, hf, h1, h2⟩, hc⟩ := h
  unfold dirTaken
  rw [hf]
  exact if_pos ⟨h1, h2, hc⟩

theorem dirTaken_bad {index : Byte} {block : Bytes30} {check : Word16} {s : State}
    (h : ¬((∃ f, s.intake.openFrame = some f ∧ f.stale = false ∧ f.suspended = false) ∧ crc (bytes30 block) = check)) :
    dirTaken index block check s = s := by
  unfold dirTaken
  split
  · rename_i f hf
    exact if_neg fun k => h ⟨⟨f, hf, k.1, k.2.1⟩, k.2.2⟩
  · rfl

/-- An ALARM ON record is a commit at its first sighting (R34). -/
theorem sighting_alarm (target : Word16) (s : State) : sighting (.announce 0 1 target) s = commitAtOnce (.announce 0 1 target) s := rfl

/-- An ALARM ON record equals what is committed when the table holds it ON with its target (R31). -/
theorem equalsCommitted_alarm (target : Word16) (s : State) : equalsCommitted s (.announce 0 1 target) = true ↔
    (annEntry s 0).on = true ∧ (annEntry s 0).target = some target := by
  show ((annEntry s 0).on && (annEntry s 0).target == some target) = true ↔ _
  simp

/-- The segments of a buffer stored into, for an index in range (R44). -/
theorem store_inRange (b : LabelBuffer) (toggle count : Nat) (text : List Byte) {index : Nat} (h : index < 8) :
    b.store toggle index count text =
      let r : LabelBuffer :=
        if toggle ≠ b.toggle then { b with toggle := toggle, segments := noSegments, count := some count }
        else if b.count ≠ some count then { b with segments := noSegments, count := some count }
        else b
      { r with segments := r.segments.set index (some text) } := by
  have hi : (Fin.ofNat 8 index).val = index := Nat.mod_eq_of_lt h
  unfold LabelBuffer.store
  simp only [hi]

/-- A record joins the tail of a list with room (R33). -/
theorem addCandidate_room (r : Record) {s : State} (h : s.directory.candidates.length < 16) :
    addCandidate r s = s.updDirectory fun d => { d with candidates := d.candidates ++ [r] } := by
  unfold addCandidate State.updDirectory
  dsimp only
  rw [if_neg (show ¬candidateCapacity ≤ s.directory.candidates.length from Nat.not_le.2 h)]

/-- A full list drops its oldest before a record joins (R33). -/
theorem addCandidate_full (r : Record) {s : State} (h : 16 ≤ s.directory.candidates.length) :
    addCandidate r s = s.updDirectory fun d => { d with candidates := d.candidates.tail ++ [r] } := by
  unfold addCandidate State.updDirectory
  dsimp only
  rw [if_pos (show candidateCapacity ≤ s.directory.candidates.length from h)]

theorem refresh_other {r : Record} (h : ∀ t target, r ≠ .announce t 1 target) (s : State) : refresh r s = s := by
  unfold refresh
  split
  · rename_i t target
    exact absurd rfl (h t target)
  · rfl

/-- A refresh of an ANNOUNCE ON record sets the age of its entry to 0 (R39). -/
theorem refresh_on (t : Fin 8) (target : Word16) (s : State) : refresh (.announce t.val 1 target) s =
    setAnnEntry t { annEntry s t with age := 0 } s := by
  have ht : annType t.val = t := Fin.ext (Nat.mod_eq_of_lt t.isLt)
  show setAnnEntry (annType t.val) { annEntry s (annType t.val) with age := 0 } s = _
  rw [ht]

/-- Settles O26: the cell, the two forms of record that are dealt with at once, and the shared operations on the lists. -/
theorem dirCellIsSightedRecordByRecord : Obligations.DirCellIsSightedRecordByRecord := by
  refine ⟨?_, ?_, ?_, fun r s => ⟨fun h => ?_, fun h => ?_, fun h => refresh_other h s⟩, fun t target s => refresh_on t target s⟩
  · intro index block check s hr
    have hexec : exec (.dir index block check) s = .next (endEvent s (dirTaken index block check (setCellRx .idle s))) :=
      cellCommand_running hr
    dsimp only
    rw [hexec]
    refine ⟨fun hg hi => ?_, fun hg hi => ?_, fun hg => ?_⟩
    · rw [dirTaken_good (s := setCellRx .idle s) hg]
      unfold directoryBlock
      rw [if_pos hi]
      rfl
    · rw [dirTaken_good (s := setCellRx .idle s) hg]
      unfold directoryBlock
      rw [if_neg (by omega)]
      rfl
    · rw [dirTaken_bad (s := setCellRx .idle s) hg]
      rfl
  · intro target s
    dsimp only
    rw [sighting_alarm]
    unfold commitAtOnce
    dsimp only
    refine ⟨fun h => ?_, fun h => ?_⟩
    · rw [if_pos ((equalsCommitted_alarm target (removeCandidate _ s)).2 h)]
      rfl
    · rw [if_neg (fun k => h ((equalsCommitted_alarm target (removeCandidate _ s)).1 k))]
      rfl
  · intro service toggle index count text s h
    unfold sighting
    dsimp only
    unfold offerSegment
    simp only [store_inRange _ _ _ _ h]
    rfl
  · exact addCandidate_room r h
  · exact addCandidate_full r h

/-! ### SET-QUALITY and SET-HOLDOVER (R21, R125) -/

/-- The low three bits of a mask byte, as the answer carries them. -/
theorem maskBits_answer (b : Byte) : (b.extractLsb' 0 3).setWidth 8 = b &&& 7 := by
  revert b
  decide

theorem maskBits_eq (b : Byte) : b.extractLsb' 0 3 = b.setWidth 3 := by
  revert b
  decide

/-- SET_QUALITY is carried out at once in a part that is ready for it (R165). -/
theorem exec_setQuality (ref slot : Byte) (thHi thLo : Word16) (rise fall : Byte) {s : State} (h : readyForOrder s) :
    exec (.setQuality ref slot thHi thLo rise fall) s =
      let o := setQualityOrder slot thHi thLo rise fall (heard s)
      carriedOut s ref 0x03 o.1 o.2.1 o.2.2 := by
  have ho : orderOutcome 0x03 [slot, highByte thHi, lowByte thHi, highByte thLo, lowByte thLo, rise, fall] (heard s) =
      setQualityOrder slot (wordOf (highByte thHi) (lowByte thHi)) (wordOf (highByte thLo) (lowByte thLo)) rise fall (heard s) := rfl
  rw [wordOf_bytes, wordOf_bytes] at ho
  have k := exec_order ref 0x03 [slot, highByte thHi, lowByte thHi, highByte thLo, lowByte thLo, rise, fall] s (by simp) h
  rw [ho] at k
  exact k

theorem exec_setHoldover (ref limit : Byte) {s : State} (h : readyForOrder s) :
    exec (.setHoldover ref limit) s =
      let o := setHoldoverOrder limit (heard s)
      carriedOut s ref 0x08 o.1 o.2.1 o.2.2 := exec_order ref 0x08 [limit] s (by simp) h

/-- The holdover limit in force after a SET-HOLDOVER, as its answer carries it (R21). -/
theorem holdoverLimit_answer (limit : Byte) : natByte (max 1 limit.toNat) = if limit = 0 then 1 else limit := by
  revert limit
  decide

theorem holdoverLimit_value (limit : Byte) : max 1 limit.toNat = if limit = 0 then 1 else limit.toNat := by
  revert limit
  decide

/-- Settles O43: the clamps are those of the model, and the answers carry the values in force. -/
theorem setQualityAndHoldoverClamp : Obligations.SetQualityAndHoldoverClamp := by
  refine ⟨fun ref slot thHi thLo rise fall s h => ⟨fun i hi => ?_, fun hs => ?_⟩, fun ref limit s h => ?_⟩
  · have hlt : slot.toNat < 5 := hi ▸ i.isLt
    have hfin : (⟨slot.toNat, hlt⟩ : Fin 5) = i := Fin.ext hi
    rw [exec_setQuality ref slot thHi thLo rise fall h]
    unfold setQualityOrder
    rw [dif_pos hlt, hfin]
    dsimp only
    rw [maskBits_answer, maskBits_answer, maskBits_eq, maskBits_eq]
    rfl
  · rw [exec_setQuality ref slot thHi thLo rise fall h]
    unfold setQualityOrder
    rw [dif_neg (by omega)]
  · rw [exec_setHoldover ref limit h]
    unfold setHoldoverOrder
    dsimp only
    rw [holdoverLimit_answer, holdoverLimit_value]

end Sys2Proof.Machine
end

section
/-! A HEAD of the active identity: the distance bands, virtual closes, the swap trigger, lane outcomes and re-resolution (R15, R19,
R56 to R63, R89, R120, R128). -/

namespace Sys2Proof.Machine

/-! ### The distance bands (R15, R19) -/

section Bands

variable {serial : BitVec 4} {h : Count} {s : State}

theorem followHead_stale (hd : distance h s.intake.lastClosed = 0 ∨ 4088 ≤ distance h s.intake.lastClosed) :
    followHead serial h s = openFrameAt h true s := if_pos hd

theorem followHead_near (h1 : 1 ≤ distance h s.intake.lastClosed) (h8 : distance h s.intake.lastClosed ≤ 8) :
    followHead serial h s = handOverHead serial h (virtualCloses (distance h s.intake.lastClosed - 1) s) := by
  unfold followHead
  dsimp only
  rw [if_neg (by omega), if_pos h8]

/-- A realignment inside a HEAD's event keeps the last closed count (R89, log 20). -/
theorem followHead_far (h9 : 9 ≤ distance h s.intake.lastClosed) (hd : distance h s.intake.lastClosed ≤ 4087) :
    followHead serial h s = opensAt h ((swapTrigger serial.toNat h ((raise (.syncChange .realign) (realign h s)).updIntake fun p =>
      { p with lastClosed := h - 1 })).updIntake fun p => { p with lastClosed := s.intake.lastClosed }) := by
  have hkept : (raise (.syncChange .realign) (realign h s)).intake.lastClosed = s.intake.lastClosed := by
    rw [raise_intake, (realign_eff (n := 1) (le_refl 1) h s).intake (by omega)]
  unfold followHead
  dsimp only
  rw [if_neg (by omega), if_neg (by omega)]
  unfold withNextFrame
  rw [hkept]
  rfl

end Bands

/-- A HEAD of the active identity follows the distance, in LOCKED and in HOLDOVER, which it ends (R15, R19). -/
theorem exec_head_follows {identity : Word16} {h : Count} {serial quality reserved : BitVec 4} {s u : State} (hr : s.running = true)
    (hid : s.laneMap.identity = some identity)
    (hu : (s.intake.state = .locked ∧ u = headHeard quality s) ∨ (s.intake.state = .holdover ∧
      u = (headHeard quality s).updIntake fun p => { p with state := .locked, foreign := none })) :
    exec (.head identity h serial quality reserved (crc (headBytes identity h serial quality reserved))) s =
      .next (endEvent s (followHead serial h u)) := by
  have hid' : (headHeard quality s).laneMap.identity = some identity := (headHeard_identity quality s).trans hid
  rw [exec_head hr]
  rcases hu with ⟨hs, rfl⟩ | ⟨hs, rfl⟩
  · rw [headByState_locked ((headHeard_state quality s).trans hs), if_pos hid']
  · rw [headByState_holdover ((headHeard_state quality s).trans hs), if_pos hid']

/-- Virtual closes are frame closes of the counts after the last closed one, in rising order (R9). -/
theorem virtualCloses_eq (k : Nat) (s : State) : virtualCloses k s =
    ((List.range k).map fun j => s.intake.lastClosed + 1 + BitVec.ofNat 12 j).foldl (fun v count => frameClose count v) s := by
  induction k generalizing s with
  | zero => rfl
  | succ k ih =>
    have hlast : (virtualClose s).intake.lastClosed = s.intake.lastClosed + 1 := by
      unfold virtualClose
      rw [frameClose_intake]
    have hcount : ∀ j : Nat, s.intake.lastClosed + 1 + 1 + BitVec.ofNat 12 j = s.intake.lastClosed + 1 + BitVec.ofNat 12 (j + 1) :=
      fun j => by rw [BitVec.ofNat_add, BitVec.add_assoc _ 1, BitVec.add_comm 1]; rfl
    show virtualCloses k (virtualClose s) = _
    rw [ih, hlast, List.range_succ_eq_map, List.map_cons, List.foldl_cons, List.map_map]
    simp only [hcount]
    rw [show s.intake.lastClosed + 1 + BitVec.ofNat 12 0 = s.intake.lastClosed + 1 from BitVec.add_zero _]
    rfl

/-! ### The swap trigger (R56 to R58) -/

section Trigger

variable {v : Nat} {frame : Count} {s : State}

theorem swapTrigger_adoptPending (ha : s.laneMap.active.serial = none) (hp : s.laneMap.pending.serial = some v) :
    swapTrigger v frame s = openWaitingSlots (s.updLaneMap fun m => { m with
      active := m.pending, pending := Bank.empty, complete := bankComplete m.identity m.pending, ready := false }) := by
  unfold swapTrigger
  rw [if_pos ha]
  unfold adopt evalFlags State.updLaneMap
  dsimp only
  rw [if_pos hp]
  rfl

theorem swapTrigger_adoptEmpty (ha : s.laneMap.active.serial = none) (hp : s.laneMap.pending.serial ≠ some v) :
    swapTrigger v frame s = openWaitingSlots (s.updLaneMap fun m => { m with
      active := { Bank.empty with serial := some v }, complete := false, ready := bankReady m.pending }) := by
  unfold swapTrigger
  rw [if_pos ha]
  unfold adopt evalFlags State.updLaneMap
  dsimp only
  rw [if_neg hp]
  rfl

/-- The active serial heard again ends STALE once the bank is complete (R57). -/
theorem swapTrigger_same (ha : s.laneMap.active.serial = some v) : swapTrigger v frame s =
    s.updLaneMap fun m => { m with stale := if m.complete then false else m.stale } := by
  unfold swapTrigger
  rw [if_neg (by simp [ha]), if_pos ha]
  unfold State.updLaneMap
  dsimp only
  by_cases hc : s.laneMap.complete = true
  · rw [if_pos hc]
    by_cases hs : s.laneMap.stale = true
    · rw [if_pos (by rw [hs, hc]; rfl)]
    · have hs' : s.laneMap.stale = false := Bool.eq_false_iff.2 hs
      rw [if_neg (by simp [hs']), ← hs']
  · rw [if_neg hc, if_neg (by simp [hc])]

theorem swapTrigger_swap (h1 : s.laneMap.active.serial ≠ none) (h2 : s.laneMap.active.serial ≠ some v)
    (hp : s.laneMap.pending.serial = some v) (hr : s.laneMap.ready = true) :
    swapTrigger v frame s = checkHeld (openWaitingSlots (raise (.layout .swapped) (rebuildIndex (reResolve frame
      (laneOutcomes frame (s.updLaneMap fun m => { m with
        active := m.pending, pending := Bank.empty, stale := false, complete := bankComplete m.identity m.pending,
        ready := false })))))) := by
  unfold swapTrigger
  rw [if_neg h1, if_neg h2, if_pos ⟨hp, hr⟩]
  rfl

/-- A serial that the pending bank does not hold READY makes the layout STALE, with attention the first time (R57). -/
theorem swapTrigger_stale (h1 : s.laneMap.active.serial ≠ none) (h2 : s.laneMap.active.serial ≠ some v)
    (h3 : ¬(s.laneMap.pending.serial = some v ∧ s.laneMap.ready = true)) :
    let awaited := if s.laneMap.pending.serial = some v then s.laneMap.pending else { Bank.empty with serial := some v }
    let u := s.updLaneMap fun m => { m with
      stale := true, pending := awaited, complete := bankComplete m.identity m.active, ready := bankReady awaited }
    swapTrigger v frame s = if s.laneMap.stale then u else raise (.layout .stale) u := by
  unfold swapTrigger
  rw [if_neg h1, if_neg h2, if_neg h3]
  unfold staleHead evalFlags raise State.updLink State.updLaneMap
  dsimp only
  cases hs : s.laneMap.stale <;> by_cases hp : s.laneMap.pending.serial = some v <;> simp [hs, hp]

end Trigger

/-! ### Lane outcomes (R59, R60) -/

/-- A context that goes DRAINING at a change frame, or is released at once when it has nothing to deliver (R60). -/
def drainedAt (frame : Count) (x : LaneContext) : LaneContext :=
  if x.assembled = 0 ∧ startsBy x (frame - 1) = false then LaneContext.free
  else { x with state := .draining, drainEnd := some (frame - 1) }

/-- A context after the outcomes at a change frame against this bank (R59). -/
def outcomeOf (frame : Count) (b : Bank) (x : LaneContext) : LaneContext :=
  match x.receiving, x.shape with
  | true, some old =>
    match b.lane? old.lane with
    | some e => if e.n = old.n ∧ e.profile = old.profile ∧ e.g = old.g then { x with shape := some e } else drainedAt frame x
    | none => drainedAt frame x
  | _, _ => x

theorem drainCtx_ctx (frame : Count) (s : State) (c d : Fin 16) :
    (drainCtx frame d s).ctx c = if c = d then drainedAt frame (s.ctx c) else s.ctx c := by
  unfold drainCtx drainedAt
  dsimp only
  by_cases hcd : c = d
  · subst hcd
    rw [if_pos rfl]
    split
    · rw [raise_ctx, releaseCtx_ctx, if_pos rfl]
    · rw [ctx_setCtx_self]
  · rw [if_neg hcd]
    split
    · rw [raise_ctx, releaseCtx_ctx, if_neg hcd]
    · rw [ctx_setCtx, if_neg hcd]

/-- The three ways in which a context gets its outcome (R59). -/
theorem laneOutcome_cases (frame : Count) (s : State) (c : Fin 16) :
    (laneOutcome frame s c = s ∧ outcomeOf frame s.laneMap.active (s.ctx c) = s.ctx c) ∨
      laneOutcome frame s c = s.setCtx c (outcomeOf frame s.laneMap.active (s.ctx c)) ∨
      (laneOutcome frame s c = drainCtx frame c s ∧
        outcomeOf frame s.laneMap.active (s.ctx c) = drainedAt frame (s.ctx c)) := by
  unfold laneOutcome outcomeOf
  dsimp only
  cases hr : (s.ctx c).receiving with
  | false => exact .inl ⟨rfl, rfl⟩
  | true =>
    cases hs : (s.ctx c).shape with
    | none => exact .inl ⟨rfl, rfl⟩
    | some old =>
      dsimp only
      cases he : s.laneMap.active.lane? old.lane with
      | none => exact .inr (.inr ⟨rfl, rfl⟩)
      | some e =>
        dsimp only
        by_cases hc : e.n = old.n ∧ e.profile = old.profile ∧ e.g = old.g
        · exact .inr (.inl (by rw [if_pos hc, if_pos hc]))
        · exact .inr (.inr ⟨if_neg hc, if_neg hc⟩)

/-- The outcome of context d touches context d alone. -/
theorem laneOutcome_ctx (frame : Count) (s : State) (c d : Fin 16) :
    (laneOutcome frame s d).ctx c = if c = d then outcomeOf frame s.laneMap.active (s.ctx c) else s.ctx c := by
  by_cases hcd : c = d
  · subst hcd
    rw [if_pos rfl]
    rcases laneOutcome_cases frame s c with ⟨e, k⟩ | e | ⟨e, k⟩ <;> rw [e]
    · exact k.symm
    · rw [ctx_setCtx_self]
    · rw [drainCtx_ctx, if_pos rfl, k]
  · rw [if_neg hcd]
    rcases laneOutcome_cases frame s d with ⟨e, _⟩ | e | ⟨e, _⟩ <;> rw [e]
    · rw [ctx_setCtx, if_neg hcd]
    · rw [drainCtx_ctx, if_neg hcd]

theorem laneOutcome_active (frame : Count) (s : State) (d : Fin 16) :
    (laneOutcome frame s d).laneMap.active = s.laneMap.active := (laneOutcome_eff (n := 0) frame s d).active (by omega)

/-- The outcomes deal with each context by itself, against the active bank. -/
theorem laneOutcomes_ctx (frame : Count) (s : State) (c : Fin 16) :
    (laneOutcomes frame s).ctx c = outcomeOf frame s.laneMap.active (s.ctx c) := by
  have own := foldl_own (fun s (c : Fin 16) => (s.ctx c, s.laneMap.active)) (laneOutcome frame)
    (fun x => (outcomeOf frame x.2 x.1, x.2)) (fun s c d => by
      rw [laneOutcome_ctx, laneOutcome_active]
      split <;> rfl) ctxIds ctxIds_nodup s c
  rw [if_pos (mem_ctxIds c)] at own
  unfold laneOutcomes
  exact (Prod.mk.inj own).1

section Outcome

variable {frame : Count} {b : Bank} {x : LaneContext} {old : LaneEntry}

theorem outcomeOf_notReceiving (h : x.receiving = false) : outcomeOf frame b x = x := by
  unfold outcomeOf
  rw [h]

theorem outcomeOf_continues {e : LaneEntry} (hr : x.receiving = true) (hs : x.shape = some old) (he : b.lane? old.lane = some e)
    (hc : e.n = old.n ∧ e.profile = old.profile ∧ e.g = old.g) : outcomeOf frame b x = { x with shape := some e } := by
  unfold outcomeOf
  rw [hr, hs]
  dsimp only
  rw [he]
  exact if_pos hc

theorem outcomeOf_ends (hr : x.receiving = true) (hs : x.shape = some old)
    (hn : ∀ e, b.lane? old.lane = some e → ¬(e.n = old.n ∧ e.profile = old.profile ∧ e.g = old.g)) :
    outcomeOf frame b x = drainedAt frame x := by
  unfold outcomeOf
  rw [hr, hs]
  dsimp only
  cases he : b.lane? old.lane with
  | none => rfl
  | some e => exact if_neg (hn e he)

theorem startsBy_iff {l : Count} : startsBy x l = true ↔ ∃ l0, x.first = some l0 ∧ atOrBefore l0 l = true := by
  unfold startsBy
  cases x.first <;> simp

theorem drainedAt_drains (h : 0 < x.assembled ∨ ∃ l, x.first = some l ∧ atOrBefore l (frame - 1) = true) :
    drainedAt frame x = { x with state := .draining, drainEnd := some (frame - 1) } := by
  unfold drainedAt
  refine if_neg ?_
  rintro ⟨h0, hs⟩
  rcases h with h | h
  · omega
  · rw [startsBy_iff.2 h] at hs
    cases hs

theorem drainedAt_releases (h0 : x.assembled = 0) (h : ∀ l, x.first = some l → atOrBefore l (frame - 1) = false) :
    drainedAt frame x = LaneContext.free := by
  unfold drainedAt
  refine if_pos ⟨h0, Bool.eq_false_iff.2 fun k => ?_⟩
  obtain ⟨l, hl, hb⟩ := startsBy_iff.1 k
  rw [h l hl] at hb
  cases hb

end Outcome

end Sys2Proof.Machine
end

section
/-! Re-resolution: the two passes over the roles, the settling of the slots, and what becomes of a slot whose service has left the
bank (R62, R63, R120, R128). -/

namespace Sys2Proof.Machine

/-! ### Wanted roles (R62, R120) -/

theorem wantsRoles_iff (x : Slot) : wantsRoles x = true ↔
    x.state = .opening ∨ x.state = .delivering ∨ (x.state = .suspended ∧ x.cause = some .lost) := by
  simp [wantsRoles, or_assoc]

theorem wantsRole_iff (i : Fin 5) (kind : ServiceKind) (wantTwin wantData : Bool) (r : RoleIx) :
    wantsRole i kind wantTwin wantData r = true ↔
      (kind = .audio ∧ (r = 0 ∨ (i ≠ 4 ∧ ((r = 1 ∧ wantTwin = true) ∨ (2 ≤ r.val ∧ wantData = true))))) ∨
        (kind = .dataOnly ∧ i ≠ 4 ∧ 2 ≤ r.val) := by
  cases kind <;> simp [wantsRole]

theorem resolvedLane_eq (i : Fin 5) (x : Slot) (e : ServiceEntry) (r : RoleIx) : resolvedLane i x e r =
    if (x.state = .opening ∨ x.state = .delivering ∨ (x.state = .suspended ∧ x.cause = some .lost)) ∧
      ((e.kind = .audio ∧ (r = 0 ∨ (i ≠ 4 ∧ ((r = 1 ∧ x.wantTwin = true) ∨ (2 ≤ r.val ∧ x.wantData = true))))) ∨
        (e.kind = .dataOnly ∧ i ≠ 4 ∧ 2 ≤ r.val)) then
      (if r = 0 then e.primary else if r = 1 then e.twin else e.data[r.val - 2]?)
    else none := by
  unfold resolvedLane
  simp only [wantsRoles_iff, wantsRole_iff]
  rfl

/-! ### One role (R62) -/

section Role

variable {i : Fin 5} {e : ServiceEntry} {frame : Count} {s : State} {r : RoleIx} {c : Fin 16}

theorem giveUpRole_draining (hc : ((s.slot i).roleRef r).ref = .context c) (hx : (s.ctx c).state = .draining) :
    giveUpRole i e s r = (dropRef c s).updSlot i fun x =>
      (x.setRef r (givenUpRef (resolvedLane i (s.slot i) e r) r)).addOutgoing r c := by
  unfold giveUpRole
  dsimp only
  rw [hc]
  exact if_pos hx

theorem giveUpRole_dropped (hc : ((s.slot i).roleRef r).ref = .context c) (hx : (s.ctx c).state ≠ .draining)
    (h : (s.ctx c).state = .free ∨ resolvedLane i (s.slot i) e r = none ∨ (s.ctx c).lane? ≠ resolvedLane i (s.slot i) e r) :
    giveUpRole i e s r = (dropRef c s).updSlot i fun x => x.setRef r (givenUpRef (resolvedLane i (s.slot i) e r) r) := by
  unfold giveUpRole
  dsimp only
  rw [hc]
  dsimp only
  rw [if_neg hx, if_pos h]

theorem giveUpRole_kept (hc : ((s.slot i).roleRef r).ref = .context c) (hx : (s.ctx c).receiving = true)
    (hn : resolvedLane i (s.slot i) e r ≠ none) (hl : (s.ctx c).lane? = resolvedLane i (s.slot i) e r) :
    giveUpRole i e s r = s := by
  have hd : (s.ctx c).state ≠ .draining := fun k => by simp [LaneContext.receiving, k] at hx
  unfold giveUpRole
  dsimp only
  rw [hc]
  dsimp only
  rw [if_neg hd, if_neg]
  rintro (k | k | k)
  · exact receiving_ne_free hx k
  · exact hn k
  · exact k hl

theorem giveUpRole_deferred {l : Nat} (hl : ((s.slot i).roleRef r).ref = .deferred l) : giveUpRole i e s r =
    if resolvedLane i (s.slot i) e r = none then
      s.updSlot i fun x => x.setRef r (givenUpRef (resolvedLane i (s.slot i) e r) r)
    else s := by
  unfold giveUpRole
  dsimp only
  rw [hl]

theorem giveUpRole_noLane (h : ((s.slot i).roleRef r).ref = .notWanted ∨ ((s.slot i).roleRef r).ref = .absent) :
    giveUpRole i e s r = s := by
  unfold giveUpRole
  dsimp only
  rcases h with h | h <;> rw [h]

theorem requestRole_notResolved (h : resolvedLane i (s.slot i) e r = none) : requestRole i e frame s r = s := by
  unfold requestRole
  dsimp only
  rw [h]

theorem requestRole_held (hc : ((s.slot i).roleRef r).ref = .context c) : requestRole i e frame s r = s := by
  unfold requestRole
  dsimp only
  rw [hc]
  split
  · rfl
  · rfl

/-- The reference that the answer to a request leaves in re-resolution (R62). -/
def resolvedRef (a : RequestAnswer) (lane : Nat) : Ref :=
  match a with
  | .shared c => .context c
  | .opened c => .context c
  | _ => .deferred lane

theorem requestRole_requests {l : Nat} (hc : ∀ c, ((s.slot i).roleRef r).ref ≠ .context c)
    (hl : resolvedLane i (s.slot i) e r = some l) : requestRole i e frame s r =
      (requestCtx l frame s).2.updSlot i fun x => x.setRef r (resolvedRef (requestCtx l frame s).1 l) := by
  have hn : ((s.slot i).roleRef r).ref.isContext = false := by
    cases hr : ((s.slot i).roleRef r).ref with
    | context c => exact absurd hr (hc c)
    | _ => rfl
  unfold requestRole
  dsimp only
  rw [hl]
  dsimp only
  rw [hn]
  rfl

end Role

/-! ### One slot (R62, R63, R128) -/

theorem takesPart_iff (x : Slot) :
    takesPartInReResolution x = true ↔ x.state = .opening ∨ x.state = .delivering ∨ x.state = .suspended := by
  simp [takesPartInReResolution, or_assoc]

/-- Two updates of one slot are one. -/
theorem updSlot_updSlot (s : State) (i : Fin 5) (f g : Slot → Slot) :
    (s.updSlot i f).updSlot i g = s.updSlot i fun x => g (f x) := by
  unfold State.updSlot
  rw [slot_setSlot_self]
  unfold State.setSlot
  dsimp only
  rw [Vector.set_set]

theorem becomeWaiting_eq (i : Fin 5) (s : State) : becomeWaiting i s = raise (.selection i .waiting) (s.updSlot i fun y =>
    { y with state := .waiting, roles := Vector.replicate 5 RoleRef.none, cause := none, parked := none }) := by
  unfold becomeWaiting enterSlotState
  rw [updSlot_updSlot]
  rfl

section Slot

variable {frame : Count} {s : State} {i : Fin 5}

/-- A slot that takes no part is left alone by every pass. -/
theorem passes_apart (h : ¬takesPartInReResolution (s.slot i) = true) :
    giveUpPass s i = s ∧ requestPass frame s i = s ∧ settleSlot s i = s := ⟨if_neg h, if_neg h, if_neg h⟩

/-- A slot whose service is in the bank goes role by role, and is then checked. -/
theorem passes_present {e : ServiceEntry} (h : takesPartInReResolution (s.slot i) = true)
    (he : (s.slot i).service.bind (activeService s) = some e) :
    giveUpPass s i = roleIxs.foldl (giveUpRole i e) s ∧ requestPass frame s i = roleIxs.foldl (requestRole i e frame) s ∧
      settleSlot s i = stateCheck i s := by
  refine ⟨?_, ?_, ?_⟩
  · unfold giveUpPass
    rw [if_pos h, he]
  · unfold requestPass
    rw [if_pos h, he]
  · unfold settleSlot
    rw [if_pos h, he, if_neg (by simp)]

/-- A slot whose service has left the bank gives up everything, and a host slot becomes WAITING (R63). -/
theorem passes_gone (h : takesPartInReResolution (s.slot i) = true) (he : (s.slot i).service.bind (activeService s) = none) :
    giveUpPass s i = giveUpSlot i s ∧ requestPass frame s i = s ∧
      settleSlot s i = stateCheck i (if i = 4 then s else becomeWaiting i s) := by
  refine ⟨?_, ?_, ?_⟩
  · unfold giveUpPass
    rw [if_pos h, he]
  · unfold requestPass
    rw [if_pos h, he]
  · unfold settleSlot
    rw [if_pos h, he]
    by_cases hi : i = 4 <;> simp [hi]

end Slot

/-! ### A slot whose service has left the bank (R63, R128) -/

theorem outline_outline (x : Slot) : x.outline.outline = x.outline := rfl

/-- A release takes its context from the outgoing places of a slot, and leaves its references (R91 step 4). -/
theorem releaseCtx_roles (c : Fin 16) (s : State) (i : Fin 5) : ((releaseCtx c s).slot i).roles =
    (s.slot i).roles.map fun y => { y with outgoing := y.outgoing.filter fun d => decide (d ≠ c) } := by
  have h : ∀ v : State, ((dropOutgoingCtx c v).slot i).roles =
      (v.slot i).roles.map fun y => { y with outgoing := y.outgoing.filter fun d => decide (d ≠ c) } := by
    intro v
    ext r hr
    simp [dropOutgoingCtx, State.slot]
  exact h _

/-- At rank 0 a slot without roles is kept whole. -/
theorem Change.bare {s t : State} (h : Change 0 s t) (i : Fin 5) (hb : (s.slot i).outline = s.slot i) : t.slot i = s.slot i := by
  have hroles : (t.slot i).roles = Vector.replicate 5 RoleRef.none := by
    have hs : (s.slot i).roles = Vector.replicate 5 RoleRef.none := (congrArg Slot.roles hb).symm
    cases h with
    | released c =>
      rw [releaseCtx_roles, hs]
      ext r hr
      simp [RoleRef.none]
    | raise | index | cell | clear | ctx | opened => exact hs
    | _ => omega
  have hout := h.outline i
  generalize t.slot i = y at *
  rw [← hb, ← hout]
  unfold Slot.outline
  rw [← hroles]

/-- What happens beside slot i: it is kept but for its roles, and kept whole when it has none. -/
def Beside (i : Fin 5) (s t : State) : Prop :=
  (t.slot i).outline = (s.slot i).outline ∧ ((s.slot i).outline = s.slot i → t.slot i = s.slot i)

namespace Beside

variable {i : Fin 5} {s t u : State}

protected theorem refl (s : State) : Beside i s s := ⟨rfl, fun _ => rfl⟩

protected theorem trans (h : Beside i s t) (k : Beside i t u) : Beside i s u :=
  ⟨k.1.trans h.1, fun hb => by
    have ht := h.2 hb
    rw [k.2 (by rw [ht, hb]), ht]⟩

theorem of_slot (h : t.slot i = s.slot i) : Beside i s t := ⟨congrArg Slot.outline h, fun _ => h⟩

theorem of_change (h : Change 0 s t) : Beside i s t := ⟨h.outline i, h.bare i⟩

theorem of_eff (h : Eff 0 s t) : Beside i s t := by
  induction h with
  | refl => exact .refl s
  | tail _ k ih => exact ih.trans (of_change k)

theorem updSlot {j : Fin 5} (hj : i ≠ j) (f : Slot → Slot) (s : State) : Beside i s (s.updSlot j f) :=
  of_slot (by rw [slot_updSlot, if_neg hj])

theorem foldl {α : Type} {f : State → α → State} (hf : ∀ s x, Beside i s (f s x)) (l : List α) (s : State) :
    Beside i s (l.foldl f s) := by
  induction l generalizing s with
  | nil => exact .refl s
  | cons x rest ih => exact (hf s x).trans (ih _)

end Beside

section Other

variable {i j : Fin 5}

theorem giveUpRole_beside (h : i ≠ j) (e : ServiceEntry) (s : State) (r : RoleIx) : Beside i s (giveUpRole j e s r) := by
  unfold giveUpRole
  dsimp only
  split
  · split
    · exact (Beside.of_eff (dropRef_eff _ _)).trans (.updSlot h _ _)
    · split
      · exact (Beside.of_eff (dropRef_eff _ _)).trans (.updSlot h _ _)
      · exact .refl s
  · split
    · exact .updSlot h _ _
    · exact .refl s
  · exact .refl s

theorem giveUpSlot_beside (h : i ≠ j) (s : State) : Beside i s (giveUpSlot j s) :=
  (Beside.of_eff (dropReferences_eff _ _)).trans (.updSlot h _ _)

theorem giveUpPass_beside (h : i ≠ j) (s : State) : Beside i s (giveUpPass s j) := by
  unfold giveUpPass
  split
  · split
    · exact Beside.foldl (fun _ _ => giveUpRole_beside h _ _ _) _ _
    · exact giveUpSlot_beside h s
  · exact .refl s

theorem requestRole_beside (h : i ≠ j) (e : ServiceEntry) (frame : Count) (s : State) (r : RoleIx) :
    Beside i s (requestRole j e frame s r) := by
  unfold requestRole
  dsimp only
  split
  · split
    · exact .refl s
    · exact (Beside.of_eff (requestCtx_eff _ _ _)).trans (.updSlot h _ _)
  · exact .refl s

theorem requestPass_beside (h : i ≠ j) (frame : Count) (s : State) : Beside i s (requestPass frame s j) := by
  unfold requestPass
  split
  · split
    · exact Beside.foldl (fun _ _ => requestRole_beside h _ _ _ _) _ _
    · exact .refl s
  · exact .refl s

theorem stateCheck_other (h : i ≠ j) (s : State) : (stateCheck j s).slot i = s.slot i := by
  unfold stateCheck
  dsimp only
  split
  · split
    · rw [enterSlotState_slot, if_neg h, slot_updSlot, if_neg h]
    · rw [slot_updSlot, if_neg h]
  · rw [slot_updSlot, if_neg h]

theorem settleSlot_other (h : i ≠ j) (s : State) : (settleSlot s j).slot i = s.slot i := by
  unfold settleSlot
  split
  · rw [stateCheck_other h]
    split
    · rw [becomeWaiting_eq, raise_slot, slot_updSlot, if_neg h]
    · rfl
  · rfl

end Other

theorem giveUpSlot_slot (i : Fin 5) (s : State) : (giveUpSlot i s).slot i = (s.slot i).outline := by
  unfold giveUpSlot
  rw [slot_updSlot_self]
  exact (dropReferences_eff (n := 0) (s.slot i) s).outline i

theorem mem_slotOrder (i : Fin 5) : i ∈ slotOrder := by
  revert i
  decide

theorem slotOrder_nodup : slotOrder.Nodup := by decide

/-- A fold whose steps for other slots keep P keeps it where slot i does not come up. -/
theorem foldl_others {P : State → Prop} {f : State → Fin 5 → State} {i : Fin 5} (hf : ∀ s j, i ≠ j → P s → P (f s j))
    (l : List (Fin 5)) (hi : i ∉ l) (s : State) (hs : P s) : P (l.foldl f s) := by
  induction l generalizing s with
  | nil => exact hs
  | cons j rest ih =>
    rw [List.mem_cons, not_or] at hi
    exact ih hi.2 _ (hf s j hi.1 hs)

/-- A fold over the slots that keeps P until it comes to slot i, turns it into Q there, and keeps Q after it. -/
theorem slotOrder_foldl {P Q : State → Prop} {f : State → Fin 5 → State} {i : Fin 5} (before : ∀ s j, i ≠ j → P s → P (f s j))
    (own : ∀ s, P s → Q (f s i)) (after : ∀ s j, i ≠ j → Q s → Q (f s j)) {s : State} (hs : P s) : Q (slotOrder.foldl f s) := by
  have hnodup := slotOrder_nodup
  obtain ⟨l1, l2, hl⟩ := List.append_of_mem (mem_slotOrder i)
  rw [hl, List.nodup_append] at hnodup
  obtain ⟨_, h2, h12⟩ := hnodup
  rw [hl, List.foldl_append, List.foldl_cons]
  exact foldl_others after l2 (List.nodup_cons.1 h2).1 _
    (own _ (foldl_others before l1 (fun h => h12 i h i List.mem_cons_self rfl) _ hs))

/-- A slot as re-resolution leaves it when its service has left the bank. -/
structure LeftWaiting (x y : Slot) : Prop where
  state : y.state = .waiting
  service : y.service = x.service
  cause : y.cause = none
  roles : y.roles = Vector.replicate 5 RoleRef.none
  source : y.source = .primary

/-- A source reversion keeps the service of its slot. -/
theorem slotKind_reverted (s : State) (i : Fin 5) : slotKind (s.updSlot i (revertSource s)) i = slotKind s i := by
  have hserv : ((s.updSlot i (revertSource s)).slot i).service = (s.slot i).service := by
    rw [slot_updSlot_self]
    unfold revertSource
    split <;> rfl
  unfold slotKind
  rw [hserv]
  rfl

/-- The check of a slot whose service is absent reverts its source and does nothing else (R131). -/
theorem stateCheck_absent {s : State} {i : Fin 5} (h : (s.slot i).service.bind (activeService s) = none) :
    stateCheck i s = s.updSlot i (revertSource s) := by
  have hk : slotKind (s.updSlot i (revertSource s)) i = none := by
    rw [slotKind_reverted]
    unfold slotKind
    rw [h]
    rfl
  unfold stateCheck
  dsimp only
  rw [hk]

/-- A slot that has just become WAITING reverts to its primary (R63, R131). -/
theorem settleSlot_gone {s : State} {i : Fin 5} (hi : i ≠ 4) (h : takesPartInReResolution (s.slot i) = true)
    (he : (s.slot i).service.bind (activeService s) = none) : LeftWaiting (s.slot i) ((settleSlot s i).slot i) := by
  rw [(passes_gone (frame := 0) h he).2.2, if_neg hi, becomeWaiting_eq]
  rw [stateCheck_absent (by rw [raise_slot, slot_updSlot_self]; exact he), slot_updSlot_self, raise_slot, slot_updSlot_self]
  unfold revertSource
  split
  · exact ⟨rfl, rfl, rfl, rfl, rfl⟩
  · rename_i hn
    refine ⟨rfl, rfl, rfl, rfl, ?_⟩
    cases hsrc : (s.slot i).source with
    | primary => rfl
    | twin =>
      refine absurd ⟨hsrc, ?_⟩ hn
      simp [roleServed, Slot.roleRef, RoleRef.none]

/-- Slot i has the outline of x, and the active bank is b. -/
def OutlineIn (i : Fin 5) (x : Slot) (b : Bank) (s : State) : Prop := (s.slot i).outline = x.outline ∧ s.laneMap.active = b

/-- Slot i is x without its roles, and the active bank is b. -/
def BareIn (i : Fin 5) (x : Slot) (b : Bank) (s : State) : Prop := s.slot i = x.outline ∧ s.laneMap.active = b

section Gone

variable {i : Fin 5} {x : Slot} {b : Bank} {frame : Count} {s t : State}

theorem BareIn.outlineIn (h : BareIn i x b s) : OutlineIn i x b s := ⟨by rw [h.1, outline_outline], h.2⟩

theorem OutlineIn.step {n : Nat} (h : OutlineIn i x b s) (k : Beside i s t) (e : Eff n s t) (hn : n < 3) : OutlineIn i x b t :=
  ⟨k.1.trans h.1, (e.active hn).trans h.2⟩

theorem BareIn.step {n : Nat} (h : BareIn i x b s) (k : Beside i s t) (e : Eff n s t) (hn : n < 3) : BareIn i x b t :=
  ⟨(k.2 (by rw [h.1]; rfl)).trans h.1, (e.active hn).trans h.2⟩

/-- A slot of this outline takes part, and its service is absent, when that is so of x and b. -/
theorem OutlineIn.gone (h : OutlineIn i x b s) (hx : takesPartInReResolution x = true) (hb : x.service.bind b.service? = none) :
    takesPartInReResolution (s.slot i) = true ∧ (s.slot i).service.bind (activeService s) = none := by
  obtain ⟨hout, hact⟩ := h
  have hpart : takesPartInReResolution (s.slot i) = takesPartInReResolution x :=
    (congrArg takesPartInReResolution hout : takesPartInReResolution (s.slot i).outline = takesPartInReResolution x.outline)
  have hserv : (s.slot i).service = x.service :=
    (congrArg Slot.service hout : (s.slot i).outline.service = x.outline.service)
  have hbank : activeService s = b.service? := by rw [← hact]; rfl
  rw [hpart, hserv, hbank]
  exact ⟨hx, hb⟩

variable (hx : takesPartInReResolution x = true) (hb : x.service.bind b.service? = none)

include hx hb

/-- The first pass leaves the slot without roles. -/
theorem giveUpPasses_gone (h : OutlineIn i x b s) : BareIn i x b (slotOrder.foldl giveUpPass s) := by
  refine slotOrder_foldl (i := i) (P := OutlineIn i x b) ?_ ?_ ?_ h
  · exact fun t j hj k => k.step (giveUpPass_beside hj t) (giveUpPass_eff (le_refl 1) t j) (by omega)
  · intro t k
    obtain ⟨k1, k2⟩ := k.gone hx hb
    rw [(passes_gone (frame := 0) k1 k2).1]
    exact ⟨(giveUpSlot_slot i t).trans k.1, ((giveUpSlot_eff (le_refl 1) i t).active (by omega)).trans k.2⟩
  · exact fun t j hj k => k.step (giveUpPass_beside hj t) (giveUpPass_eff (le_refl 1) t j) (by omega)

/-- The second pass leaves it as it is. -/
theorem requestPasses_gone (h : BareIn i x b s) : BareIn i x b (slotOrder.foldl (requestPass frame) s) := by
  have others : ∀ t j, i ≠ j → BareIn i x b t → BareIn i x b (requestPass frame t j) := fun t j hj k =>
    k.step (requestPass_beside hj frame t) (requestPass_eff (le_refl 1) frame t j) (by omega)
  refine slotOrder_foldl others (fun t k => ?_) others h
  obtain ⟨k1, k2⟩ := k.outlineIn.gone hx hb
  rw [(passes_gone (frame := frame) k1 k2).2.1]
  exact k

/-- The settling makes it WAITING. -/
theorem settle_gone (hi : i ≠ 4) (h : BareIn i x b s) : LeftWaiting x ((slotOrder.foldl settleSlot s).slot i) := by
  refine slotOrder_foldl (i := i) (P := BareIn i x b) (Q := fun t => LeftWaiting x (t.slot i)) ?_ ?_ ?_ h
  · exact fun t j hj k => k.step (.of_slot (settleSlot_other hj t)) (settleSlot_eff (le_refl 1) t j) (by omega)
  · intro t k
    obtain ⟨k1, k2⟩ := k.outlineIn.gone hx hb
    have left := settleSlot_gone hi k1 k2
    rw [k.1] at left
    exact ⟨left.state, left.service, left.cause, left.roles, left.source⟩
  · exact fun t j hj k => (settleSlot_other hj t).symm ▸ k

end Gone

/-- A host slot whose service has left the bank becomes WAITING in re-resolution (R63, R128). -/
theorem reResolve_gone {frame : Count} {s : State} {i : Fin 5} (hi : i ≠ 4) (h : takesPartInReResolution (s.slot i) = true)
    (he : (s.slot i).service.bind (activeService s) = none) : LeftWaiting (s.slot i) ((reResolve frame s).slot i) :=
  settle_gone h he hi (requestPasses_gone h he (giveUpPasses_gone h he ⟨rfl, rfl⟩))

/-! ### The HEAD of the active identity -/

/-- One context at a swap or correction, by what its lane becomes in the active bank (R59, R60). -/
theorem laneOutcomes_cases (frame : Count) (s : State) (c : Fin 16) :
    ((s.ctx c).receiving = false → (laneOutcomes frame s).ctx c = s.ctx c) ∧
    ∀ old, (s.ctx c).receiving = true → (s.ctx c).shape = some old →
      (∀ e, s.laneMap.active.lane? old.lane = some e → e.n = old.n ∧ e.profile = old.profile ∧ e.g = old.g →
        (laneOutcomes frame s).ctx c = { s.ctx c with shape := some e }) ∧
      ((∀ e, s.laneMap.active.lane? old.lane = some e → ¬(e.n = old.n ∧ e.profile = old.profile ∧ e.g = old.g)) →
        (0 < (s.ctx c).assembled ∨ (∃ l, (s.ctx c).first = some l ∧ atOrBefore l (frame - 1) = true) →
          (laneOutcomes frame s).ctx c = { s.ctx c with state := .draining, drainEnd := some (frame - 1) }) ∧
        ((s.ctx c).assembled = 0 → (∀ l, (s.ctx c).first = some l → atOrBefore l (frame - 1) = false) →
          (laneOutcomes frame s).ctx c = LaneContext.free)) := by
  rw [laneOutcomes_ctx]
  refine ⟨outcomeOf_notReceiving, fun old hr hs => ⟨fun e he hc => outcomeOf_continues hr hs he hc, fun hn => ?_⟩⟩
  rw [outcomeOf_ends hr hs hn]
  exact ⟨drainedAt_drains, drainedAt_releases⟩

/-- Settles O19: the bands, the virtual closes, the swap trigger, the lane outcomes, and re-resolution role by role and slot by
slot. -/
theorem headFollowsDistanceBands : Obligations.HeadFollowsDistanceBands := by
  refine ⟨?_, virtualCloses_eq, ?_, laneOutcomes_cases, resolvedLane_eq, ?_, fun _ _ => rfl, ?_, ?_⟩
  · intro identity h serial quality reserved s u hr hid hu
    dsimp only
    rw [exec_head_follows hr hid hu]
    refine ⟨fun hd => ?_, fun ⟨h1, h8⟩ => ?_, fun ⟨h9, hd⟩ => ?_⟩
    · rw [followHead_stale hd]
      rfl
    · rw [followHead_near h1 h8]
      rfl
    · rw [followHead_far h9 hd]
  · intro v frame s
    exact ⟨swapTrigger_adoptPending, swapTrigger_adoptEmpty, swapTrigger_same, swapTrigger_swap, swapTrigger_stale⟩
  · intro i e frame s r
    dsimp only
    refine ⟨fun c hc => ⟨giveUpRole_draining hc, giveUpRole_kept hc, fun hx h => ?_, fun hx => ?_, requestRole_held hc⟩,
      fun l hl => giveUpRole_deferred hl, giveUpRole_noLane, fun hc => ⟨requestRole_notResolved, fun l hl a u ha => ?_⟩⟩
    · exact giveUpRole_dropped hc (fun k => by simp [LaneContext.receiving, k] at hx) (.inr h)
    · exact giveUpRole_dropped hc (by simp [hx]) (.inl hx)
    · rw [requestRole_requests hc hl, ha]
      rfl
  · intro frame s i
    dsimp only
    rw [← takesPart_iff]
    refine ⟨passes_apart, fun h e he => passes_present h he, fun h he => ?_⟩
    obtain ⟨hgive, hrequest, hsettle⟩ := passes_gone (frame := frame) h he
    rw [hgive, hrequest, hsettle, becomeWaiting_eq]
    exact ⟨rfl, rfl, rfl⟩
  · intro frame s i hi h he
    have left := reResolve_gone (frame := frame) hi ((takesPart_iff _).2 h) he
    exact ⟨left.state, left.service, left.cause, left.roles, left.source⟩

end Sys2Proof.Machine
end

section
/-! The frame close: the TAIL, the assembly round context by context, and what the parts of a lane frame come to (R3, R5, R60, R93 to
R95, R101, R102, R107 to R109, R113 to R115). -/

namespace Sys2Proof.Machine

/-! ### TAIL (R3, R5) -/

section Tail

variable {s : State}

theorem tailTaken_none (h : s.intake.openFrame = none) : tailTaken s = s := by
  unfold tailTaken
  rw [h]

theorem tailTaken_suspended {f : OpenFrame} (h : s.intake.openFrame = some f) (hf : f.suspended = true) : tailTaken s = s := by
  unfold tailTaken
  rw [h]
  exact if_pos hf

/-- A frame that is not suspended closes, and a stale one announces nothing (R5). -/
theorem tailTaken_closes {f : OpenFrame} (h : s.intake.openFrame = some f) (hf : f.suspended = false) : tailTaken s =
    if f.stale then s.updIntake fun p => { p with openFrame := none }
    else frameClose f.count (s.updIntake fun p => { p with openFrame := none }) := by
  unfold tailTaken
  rw [h]
  dsimp only
  rw [if_neg (by simp [hf])]
  unfold closeOpen
  rw [h]

end Tail

/-! ### Scores and crossings (R107 to R109, R113 to R115) -/

theorem usable_iff (x : LaneContext) : x.usable = true ↔ x.state = .running ∧ x.settle = 8 ∧ x.arm = .high := by
  simp [LaneContext.usable, and_assoc]

/-- The crossing of an update by the two conditions of R113. -/
theorem crossingOf_eq (arm : ArmState) (score hi lo : Nat) : crossingOf arm score hi lo =
    if arm = .high ∧ hi ≤ score then .rise else if arm = .low ∧ score ≤ lo then .fall else .none := by
  cases arm <;> simp [crossingOf]

/-- The arm state after an update by the same two conditions. -/
theorem armAfter_crossingOf (arm : ArmState) (score hi lo : Nat) : armAfter arm (crossingOf arm score hi lo) =
    if arm = .high ∧ hi ≤ score then .low else if arm = .low ∧ score ≤ lo then .high else arm := by
  rw [crossingOf_eq]
  split
  · rfl
  · split <;> rfl

theorem refersTo_iff (x : Slot) (c : Fin 16) : x.refersTo c = true ↔
    ∃ r : RoleIx, (x.roleRef r).ref = .context c ∨ c ∈ (x.roleRef r).outgoing := by
  have all : ∀ r : RoleIx, r ∈ roleIxs := by decide
  simp [Slot.refersTo, all]

/-- The lowest of the slots in ascending order that has a property is found. -/
theorem find_lowest (p : Fin 5 → Bool) : ∀ i : Fin 5, p i = true → (∀ j, j < i → p j = false) → allSlots.find? p = some i := by
  revert p
  decide

/-- The lowest slot that refers to a context governs it (R114). -/
theorem governing_lowest {s : State} {c : Fin 16} {i : Fin 5} (h : (s.slot i).refersTo c = true)
    (below : ∀ j, j < i → (s.slot j).refersTo c = false) : governing s c = ((s.slot i).thHi, (s.slot i).thLo) := by
  unfold governing
  rw [find_lowest _ i h below]

theorem governing_default {s : State} {c : Fin 16} (h : ∀ i, (s.slot i).refersTo c = false) : governing s c = (1536, 512) := by
  have hn : allSlots.find? (fun i => (s.slot i).refersTo c) = none := List.find?_eq_none.2 fun i _ => by simp [h i]
  unfold governing
  rw [hn]

/-! ### Parts of a lane frame (R60, R95, R101, R102) -/

theorem statusOf_eq (groups : List (GroupResult × List DataTile)) : statusOf groups =
    (if ∀ g ∈ groups, g.1 = .clean then .clean
    else if ∀ g ∈ groups, g.1 = .clean ∨ g.1 = .repaired then .repaired
    else if ∀ g ∈ groups, ∀ t ∈ g.2, t = .filled then .lost else .damaged) := by
  unfold statusOf
  simp only [List.all_eq_true, Bool.or_eq_true, beq_iff_eq]

/-! ### The assembly round (R93, R107) -/

/-- Which contexts take part in the round of a lane frame (R93, R94). -/
theorem takesPart_round_iff (x : LaneContext) (l : Count) : takesPart x l = true ↔
    (x.state = .filling ∧ x.first = some l) ∨ x.state = .running ∨
      (x.state = .draining ∧ (∃ d, x.drainEnd = some d ∧ atOrBefore l d = true) ∧ (0 < x.assembled ∨ x.first = some l)) := by
  unfold takesPart
  cases x.state with
  | free => simp
  | filling => simp
  | running => simp
  | draining => cases x.drainEnd <;> simp

/-- What one context of this state comes to in the round of lane frame l: nothing, or the context assembled and its record. -/
def roundOutcome (s : State) (l : Count) (c : Fin 16) : Option (LaneContext × LaneRecord) :=
  let x := s.ctx c
  match x.shape with
  | none => none
  | some e =>
    if takesPart x l then
      let groups := resolveGroups e.n e.g (tilesOf s x e.n l)
      let u := missingCount (tilesOf s x e.n l)
      let score := nextScore x.score (penalty e.n u groups.length (countResult .lost groups) (countResult .mismatch groups))
      let crossing := crossingOf x.arm score (governing s c).1 (governing s c).2
      some
        ({ x with
            state := if x.state = .filling then .running else x.state, score := score, arm := armAfter x.arm crossing,
            settle := min 8 (x.settle + 1), assembled := min 65535 (x.assembled + 1), last := some (l, statusOf groups) },
          { ctx := c, lane := e.lane, cls := e.cls, frame := l, status := statusOf groups, payload := payloadOf groups e.trim,
            missing := u, lostGroups := countResult .lost groups, mismatchGroups := countResult .mismatch groups,
            groups := groups.length, score := score, arm := armAfter x.arm crossing, crossing := crossing })
    else none

/-- One step of the round is the outcome of its context. -/
theorem assembleCtx_eq (l : Count) (acc : State × List LaneRecord) (c : Fin 16) : assembleCtx l acc c =
    (roundOutcome acc.1 l c).elim acc fun q => (acc.1.setCtx c q.1, acc.2 ++ [q.2]) := by
  unfold assembleCtx roundOutcome
  dsimp only
  cases (acc.1.ctx c).shape with
  | none => rfl
  | some e =>
    dsimp only
    split <;> rfl

theorem roundOutcome_ctx {s : State} {l : Count} {c : Fin 16} {q : LaneContext × LaneRecord} (h : roundOutcome s l c = some q) :
    q.2.ctx = c := by
  unfold roundOutcome at h
  dsimp only at h
  split at h
  · cases h
  · split at h
    · cases h
      rfl
    · cases h

/-- The outcome of a context looks at the contexts of a state at its own place alone. -/
theorem roundOutcome_congr {s t : State} {l : Count} {c : Fin 16} (h : t = { s with contexts := t.contexts }) (hc : t.ctx c = s.ctx c) :
    roundOutcome t l c = roundOutcome s l c := by
  have htiles : ∀ n, tilesOf t (s.ctx c) n l = tilesOf s (s.ctx c) n l := fun n => by
    rw [h]
    rfl
  have hgov : governing t c = governing s c := by
    rw [h]
    rfl
  unfold roundOutcome
  simp only [hc, htiles, hgov]

/-- What the round over these contexts leaves: each one at its outcome, the records in order, and the rest of the state. -/
structure RoundFrom (s : State) (l : Count) (ids : List (Fin 16)) (before : List LaneRecord) (final : State × List LaneRecord) : Prop where
  frame : final.1 = { s with contexts := final.1.contexts }
  ctx : ∀ c, final.1.ctx c = if c ∈ ids then ((roundOutcome s l c).map Prod.fst).getD (s.ctx c) else s.ctx c
  records : final.2 = before ++ ids.filterMap fun c => (roundOutcome s l c).map Prod.snd

/-- One context at its outcome. -/
theorem RoundFrom.single (s : State) (l : Count) (c : Fin 16) (before : List LaneRecord) :
    RoundFrom s l [c] before (assembleCtx l (s, before) c) := by
  rw [assembleCtx_eq]
  cases h : roundOutcome s l c with
  | none =>
    refine ⟨rfl, fun d => ?_, by simp [h]⟩
    by_cases hd : d = c
    · subst hd
      simp [h]
    · simp [hd]
  | some q =>
    refine ⟨rfl, fun d => ?_, by simp [h]⟩
    show (s.setCtx c q.1).ctx d = _
    rw [ctx_setCtx]
    by_cases hd : d = c
    · subst hd
      simp [h]
    · simp [hd]

theorem roundFold (l : Count) (ids : List (Fin 16)) (hn : ids.Nodup) (acc : State × List LaneRecord) :
    RoundFrom acc.1 l ids acc.2 (ids.foldl (assembleCtx l) acc) := by
  induction ids generalizing acc with
  | nil => exact ⟨rfl, fun c => by simp, by simp⟩
  | cons d rest ih =>
    obtain ⟨hd, hrest⟩ := List.nodup_cons.1 hn
    have one := RoundFrom.single acc.1 l d acc.2
    have kept : ∀ c, c ≠ d → (assembleCtx l acc d).1.ctx c = acc.1.ctx c := fun c hc => by
      rw [one.ctx c, if_neg (by simpa using hc)]
    have same : ∀ c, c ≠ d → roundOutcome (assembleCtx l acc d).1 l c = roundOutcome acc.1 l c := fun c hc =>
      roundOutcome_congr one.frame (kept c hc)
    have hne : ∀ c ∈ rest, c ≠ d := fun c hc e => hd (e ▸ hc)
    have more := ih hrest (assembleCtx l acc d)
    rw [List.foldl_cons]
    refine ⟨?_, fun c => ?_, ?_⟩
    · rw [more.frame, one.frame]
    · rw [more.ctx c]
      by_cases hcd : c = d
      · subst hcd
        rw [if_neg hd, one.ctx c]
        simp
      · rw [same c hcd, kept c hcd]
        simp [hcd]
    · have hrecs : (rest.filterMap fun c => (roundOutcome (assembleCtx l acc d).1 l c).map Prod.snd) =
          rest.filterMap fun c => (roundOutcome acc.1 l c).map Prod.snd :=
        List.filterMap_congr fun c hc => by rw [same c (hne c hc)]
      rw [more.records, one.records, hrecs, List.append_assoc, ← List.filterMap_append, List.singleton_append]

/-- The round of a lane frame deals with each context by itself (R93). -/
theorem assemblyRound_from (s : State) (l : Count) : RoundFrom s l ctxIds [] (assemblyRound l s) :=
  roundFold l ctxIds ctxIds_nodup (s, [])

/-- The record found for a context is that of its outcome. -/
theorem recordOfCtx_round (s : State) (l : Count) (c : Fin 16) (ids : List (Fin 16)) (hn : ids.Nodup) (hc : c ∈ ids) :
    recordOfCtx (ids.filterMap fun c => (roundOutcome s l c).map Prod.snd) c = (roundOutcome s l c).map Prod.snd := by
  have absent : ∀ ids : List (Fin 16), c ∉ ids →
      recordOfCtx (ids.filterMap fun c => (roundOutcome s l c).map Prod.snd) c = none := by
    intro ids h
    unfold recordOfCtx
    refine List.find?_eq_none.2 fun r hr => ?_
    obtain ⟨d, hd, hq⟩ := List.mem_filterMap.1 hr
    obtain ⟨q, ho, rfl⟩ := Option.map_eq_some_iff.1 hq
    rw [roundOutcome_ctx ho]
    simpa using fun e : d = c => h (e ▸ hd)
  induction ids with
  | nil => cases hc
  | cons d rest ih =>
    obtain ⟨hd, hrest⟩ := List.nodup_cons.1 hn
    by_cases hcd : c = d
    · subst hcd
      cases h : roundOutcome s l c with
      | none =>
        rw [List.filterMap_cons_none (by rw [h]; rfl)]
        exact absent rest hd
      | some q =>
        rw [List.filterMap_cons_some (by rw [h]; rfl)]
        exact List.find?_cons_of_pos (by simp [roundOutcome_ctx h])
    · have hc' : c ∈ rest := (List.mem_cons.1 hc).resolve_left hcd
      cases h : roundOutcome s l d with
      | none =>
        rw [List.filterMap_cons_none (by rw [h]; rfl)]
        exact ih hrest hc'
      | some q =>
        rw [List.filterMap_cons_some (by rw [h]; rfl)]
        refine (List.find?_cons_of_neg ?_).trans (ih hrest hc')
        simpa [roundOutcome_ctx h] using fun e : d = c => hcd e.symm

/-- One context and its record after the round, by its outcome. -/
theorem assemblyRound_ctx (s : State) (l : Count) (c : Fin 16) :
    (assemblyRound l s).1.ctx c = ((roundOutcome s l c).map Prod.fst).getD (s.ctx c) ∧
      recordOfCtx (assemblyRound l s).2 c = (roundOutcome s l c).map Prod.snd := by
  have h := assemblyRound_from s l
  refine ⟨by rw [h.ctx c, if_pos (mem_ctxIds c)], ?_⟩
  rw [h.records, List.nil_append, recordOfCtx_round s l c ctxIds ctxIds_nodup (mem_ctxIds c)]

theorem roundOutcome_none {s : State} {l : Count} {c : Fin 16} (h : ¬takesPart (s.ctx c) l = true) : roundOutcome s l c = none := by
  unfold roundOutcome
  dsimp only
  split
  · rfl
  · exact if_neg h

end Sys2Proof.Machine
end

section
/-! The hand-over of a round to a slot: the check, the promotion, the serving context, the quality decision and attention, and the
queueing (R120, R130 to R135, R159). -/

namespace Sys2Proof.Machine

/-! ### The check and the promotion (R131) -/

theorem roleServed_iff (s : State) (x : Slot) (r : RoleIx) : roleServed s x r = true ↔
    (∃ c, (x.roleRef r).ref = .context c ∧ (s.ctx c).receiving = true) ∨ (x.roleRef r).outgoing ≠ [] := by
  unfold roleServed
  cases (x.roleRef r).ref <;> simp

theorem revertSource_reverts {s : State} {x : Slot} (h1 : x.source = .twin) (h2 : ¬roleServed s x 1 = true) :
    revertSource s x = { x with source := .primary, dwell := 0 } := if_pos ⟨h1, by simpa using h2⟩

theorem revertSource_kept {s : State} {x : Slot} (h : x.source = .primary ∨ roleServed s x 1 = true) : revertSource s x = x := by
  refine if_neg ?_
  rintro ⟨h1, h2⟩
  rcases h with h | h
  · rw [h] at h1
    cases h1
  · rw [h] at h2
    cases h2

theorem revertSource_state (s : State) (x : Slot) : (revertSource s x).state = x.state := by
  unfold revertSource
  split <;> rfl

section Check

variable {s : State} {i : Fin 5} {k : ServiceKind}

/-- A slot that is not DELIVERING a service of the bank is only reverted. -/
theorem stateCheck_reverts (h : (s.slot i).state ≠ .delivering ∨ slotKind s i = none) :
    stateCheck i s = s.setSlot i (revertSource s (s.slot i)) := by
  unfold stateCheck
  dsimp only
  rw [slotKind_reverted, slot_updSlot_self, revertSource_state]
  split
  · rename_i k hk
    refine if_neg fun hd => ?_
    rcases h with h | h
    · exact h hd.1
    · rw [h] at hk
      cases hk
  · rfl

/-- A DELIVERING slot is demoted when its delivering role is not served (R131 step 2). -/
theorem stateCheck_delivering (hd : (s.slot i).state = .delivering) (hk : slotKind s i = some k) :
    let y := revertSource s (s.slot i)
    stateCheck i s = if roleServed s y (deliveringRole k y.source) = true then s.setSlot i y
      else raise (.selection i .opening) (s.setSlot i { y with state := .opening }) := by
  have hserved : ∀ y r, roleServed (s.updSlot i (revertSource s)) y r = roleServed s y r := fun _ _ => rfl
  unfold stateCheck
  dsimp only
  rw [slotKind_reverted, hk, slot_updSlot_self, revertSource_state]
  dsimp only
  rw [hserved]
  by_cases h : roleServed s (revertSource s (s.slot i)) (deliveringRole k (revertSource s (s.slot i)).source) = true
  · rw [if_pos h, if_neg (by simp [h])]
    rfl
  · rw [if_neg h, if_pos ⟨hd, by simpa using h⟩]
    unfold enterSlotState
    rw [updSlot_updSlot]
    rfl

theorem promote_notOpening (h : (s.slot i).state ≠ .opening) : promote i s = s := by
  unfold promote
  dsimp only
  split
  · rename_i hs _
    exact absurd hs h
  · rfl

theorem promote_noKind (h : slotKind s i = none) : promote i s = s := by
  unfold promote
  dsimp only
  split
  · rename_i hk
    rw [h] at hk
    cases hk
  · rfl

theorem promote_noContext (hk : slotKind s i = some k)
    (h : ∀ c, ((s.slot i).roleRef (deliveringRole k (s.slot i).source)).ref ≠ .context c) : promote i s = s := by
  unfold promote
  dsimp only
  split
  · rename_i k' _ hk'
    rw [hk] at hk'
    cases hk'
    split
    · rename_i c hc
      exact absurd hc (h c)
    · rfl
  · rfl

/-- An OPENING slot is promoted when its delivering role refers to a RUNNING context (R131 step 3, R147). -/
theorem promote_context {c : Fin 16} (hs : (s.slot i).state = .opening) (hk : slotKind s i = some k)
    (hc : ((s.slot i).roleRef (deliveringRole k (s.slot i).source)).ref = .context c) : promote i s =
      if (s.ctx c).state = .running then
        if i = 4 then beginTakeover (enterSlotState i .delivering s) else enterSlotState i .delivering s
      else s := by
  unfold promote
  dsimp only
  rw [hs, hk]
  dsimp only
  rw [hc]

/-! ### One slot of the hand-over (R130) -/

theorem handleSlot_apart (recs : List LaneRecord) (h1 : (s.slot i).state ≠ .opening) (h2 : (s.slot i).state ≠ .delivering) :
    handleSlot recs s i = s := if_neg (not_or.2 ⟨h1, h2⟩)

theorem handleSlot_noKind (recs : List LaneRecord) (h : (s.slot i).state = .opening ∨ (s.slot i).state = .delivering)
    (hk : slotKind (promote i (stateCheck i s)) i = none) : handleSlot recs s i = promote i (stateCheck i s) := by
  unfold handleSlot
  rw [if_pos h]
  dsimp only
  rw [hk]

/-- QUALITY attention for a slot with this detail, if there is one (R134). -/
def raiseQuality (i : Fin 5) (q : Option QualityDetail) (s : State) : State :=
  match q with
  | some q => raise (.quality i q) s
  | none => s

theorem handleSlot_kind (recs : List LaneRecord) (h : (s.slot i).state = .opening ∨ (s.slot i).state = .delivering)
    (hk : slotKind (promote i (stateCheck i s)) i = some k) : handleSlot recs s i =
      let t := promote i (stateCheck i s)
      let d := if (t.slot i).state = .delivering ∧ k = .audio then qualityDecision i t recs (t.slot i) else (t.slot i, [])
      queueSlot i recs (raiseQuality i (qualityAttention recs d.1 k d.2) (t.setSlot i d.1)) := by
  unfold handleSlot
  rw [if_pos h]
  dsimp only
  rw [hk]
  rfl

end Check

/-! ### The context serving a role (R120) -/

section Serving

variable {recs : List LaneRecord} {x : Slot} {r : RoleIx}

theorem recordOfCtx_isSome (recs : List LaneRecord) (c : Fin 16) : (recordOfCtx recs c).isSome = true ↔ ∃ q ∈ recs, q.ctx = c := by
  unfold recordOfCtx
  simp [List.find?_isSome]

/-- The first outgoing context that assembled serves its role (R120, log 30). -/
theorem servingCtx_outgoing {sooner later : List (Fin 16)} {c : Fin 16} (h : (x.roleRef r).outgoing = sooner ++ c :: later)
    (hc : ∃ q ∈ recs, q.ctx = c) (hn : ∀ d ∈ sooner, ¬∃ q ∈ recs, q.ctx = d) : servingCtx recs x r = some c := by
  have hf : (x.roleRef r).outgoing.find? (fun c => (recordOfCtx recs c).isSome) = some c :=
    List.find?_eq_some_iff_append.2 ⟨(recordOfCtx_isSome recs c).2 hc, sooner, later, h, fun d hd => by
      simpa using fun k => hn d hd ((recordOfCtx_isSome recs d).1 k)⟩
  unfold servingCtx
  rw [hf]

/-- The context that a reference names, if it names one. -/
def Ref.context? : Ref → Option (Fin 16)
  | .context c => some c
  | _ => none

/-- With no outgoing context assembled the role's own serves it (R120). -/
theorem servingCtx_own (hn : ∀ d ∈ (x.roleRef r).outgoing, ¬∃ q ∈ recs, q.ctx = d) :
    servingCtx recs x r = (x.roleRef r).ref.context? := by
  have hf : (x.roleRef r).outgoing.find? (fun c => (recordOfCtx recs c).isSome) = none :=
    List.find?_eq_none.2 fun d hd k => hn d hd ((recordOfCtx_isSome recs d).1 k)
  unfold servingCtx
  rw [hf]
  rfl

end Serving

/-! ### The quality decision (R132) -/

theorem sourceRole_eq (src : Source) : sourceRole src = if src = .primary then 0 else 1 := by
  cases src <;> rfl

theorem ownUsable_iff (s : State) (x : Slot) (r : RoleIx) :
    ownUsable s x r = true ↔ ∃ c, (x.roleRef r).ref = .context c ∧ (s.ctx c).usable = true := by
  unfold ownUsable
  cases (x.roleRef r).ref <;> simp

theorem primaryGood_iff (s : State) (recs : List LaneRecord) (x : Slot) : primaryGood s recs x = true ↔
    ∃ c, servingCtx recs x 0 = some c ∧ (s.ctx c).state = .running ∧ (s.ctx c).arm = .high := by
  unfold primaryGood
  cases servingCtx recs x 0 <;> simp

section Decision

variable {i : Fin 5} {s : State} {recs : List LaneRecord} {x : Slot} {a : List QualityDetail} {p : Prop} [Decidable p]

/-- A step of the quality decision that is taken just under this condition. -/
theorem switchStep_eq (h : p ↔ i ≠ 4 ∧ x.source = .primary ∧ servingArm s recs x 0 = some .low ∧ x.riseMask.getLsbD 1 = true ∧
    (∃ c, (x.roleRef 1).ref = .context c ∧ (s.ctx c).usable = true) ∧ 16 ≤ x.dwell) : switchStep i s recs x =
      (if p then { x with source := .twin, dwell := 0 } else x, if p then [.switch] else []) := by
  unfold switchStep
  rw [← ownUsable_iff] at h
  by_cases hp : p
  · rw [if_pos hp, if_pos hp, if_pos (h.1 hp)]
  · rw [if_neg hp, if_neg hp, if_neg fun k => hp (h.2 k)]

theorem muteStep_eq (h : p ↔ a = [] ∧ servingArm s recs x (if x.source = .primary then 0 else 1) = some .low ∧
    x.riseMask.getLsbD 2 = true ∧ x.muted = false) : muteStep s recs (x, a) =
      (if p then { x with muted := true } else x, a ++ if p then [.mute] else []) := by
  unfold muteStep
  rw [← sourceRole_eq] at h
  by_cases hp : p
  · rw [if_pos hp, if_pos hp, if_pos (h.1 hp)]
  · rw [if_neg hp, if_neg hp, if_neg fun k => hp (h.2 k), List.append_nil]

theorem restoreStep_eq (h : p ↔ i ≠ 4 ∧ x.source = .twin ∧
    (∃ c, servingCtx recs x 0 = some c ∧ (s.ctx c).state = .running ∧ (s.ctx c).arm = .high) ∧
    x.fallMask.getLsbD 1 = true ∧ 16 ≤ x.dwell) : restoreStep i s recs (x, a) =
      (if p then { x with source := .primary, dwell := 0 } else x, a ++ if p then [.restore] else []) := by
  unfold restoreStep
  rw [← primaryGood_iff] at h
  by_cases hp : p
  · rw [if_pos hp, if_pos hp, if_pos (h.1 hp)]
  · rw [if_neg hp, if_neg hp, if_neg fun k => hp (h.2 k), List.append_nil]

theorem unmuteStep_eq (h : p ↔ x.muted = true ∧ servingArm s recs x (if x.source = .primary then 0 else 1) = some .high ∧
    x.fallMask.getLsbD 2 = true) : unmuteStep s recs (x, a) =
      (if p then { x with muted := false } else x, a ++ if p then [.unmute] else []) := by
  unfold unmuteStep
  rw [← sourceRole_eq] at h
  by_cases hp : p
  · rw [if_pos hp, if_pos hp, if_pos (h.1 hp)]
  · rw [if_neg hp, if_neg hp, if_neg fun k => hp (h.2 k), List.append_nil]

end Decision

/-! ### QUALITY attention (R134) -/

/-- The first crossing that R134 looks at: that of the delivering role of a DATA-ONLY service, of the primary otherwise. -/
def firstCrossing (recs : List LaneRecord) (x : Slot) (k : ServiceKind) : Crossing :=
  servingCrossing recs x (if k = .dataOnly then 2 else 0)

/-- The second one: that of the twin which is the source of an AUDIO service. -/
def secondCrossing (recs : List LaneRecord) (x : Slot) (k : ServiceKind) : Crossing :=
  if k = .audio ∧ x.source = .twin then servingCrossing recs x 1 else .none

/-- A crossing raises QUALITY by the mask bit of its direction. -/
def Crossing.raises (x : Slot) (c : Crossing) : Prop :=
  (c = .rise ∧ x.riseMask.getLsbD 0 = true) ∨ (c = .fall ∧ x.fallMask.getLsbD 0 = true)

theorem Crossing.not_raises_none (x : Slot) : ¬Crossing.raises x .none := by
  rintro (⟨h, _⟩ | ⟨h, _⟩) <;> cases h

/-- The crossings considered are the first and, unless there is none, the second. -/
theorem consideredCrossings_eq (recs : List LaneRecord) (x : Slot) (k : ServiceKind) :
    consideredCrossings recs x k = [firstCrossing recs x k, secondCrossing recs x k] ∨
      (consideredCrossings recs x k = [firstCrossing recs x k] ∧ secondCrossing recs x k = .none) := by
  unfold consideredCrossings firstCrossing secondCrossing
  cases k with
  | dataOnly => exact .inr ⟨rfl, rfl⟩
  | audio =>
    cases hs : x.source with
    | primary => exact .inr ⟨by simp, by simp⟩
    | twin => exact .inl (by simp)

theorem anyCrossing_iff (recs : List LaneRecord) (x : Slot) (k : ServiceKind) :
    ((consideredCrossings recs x k).any fun c =>
      (c == .rise && x.riseMask.getLsbD 0) || (c == .fall && x.fallMask.getLsbD 0)) = true ↔
      (firstCrossing recs x k).raises x ∨ (secondCrossing recs x k).raises x := by
  rcases consideredCrossings_eq recs x k with h | ⟨h, hn⟩
  · rw [h]
    simp [Crossing.raises]
  · rw [h, hn, or_iff_left (Crossing.not_raises_none x)]
    simp [Crossing.raises]

/-- The details of the crossings considered, in order. -/
theorem crossingDetails_eq (recs : List LaneRecord) (x : Slot) (k : ServiceKind) :
    (consideredCrossings recs x k).filterMap crossingDetail =
      (crossingDetail (firstCrossing recs x k)).toList ++ (crossingDetail (secondCrossing recs x k)).toList := by
  rcases consideredCrossings_eq recs x k with h | ⟨h, hn⟩ <;> rw [h]
  · cases firstCrossing recs x k <;> cases secondCrossing recs x k <;> rfl
  · rw [hn]
    cases firstCrossing recs x k <;> rfl

theorem qualityAttention_quiet {recs : List LaneRecord} {x : Slot} {k : ServiceKind} (actions : List QualityDetail)
    (h : ¬((firstCrossing recs x k).raises x ∨ (secondCrossing recs x k).raises x)) : qualityAttention recs x k actions = none :=
  if_neg fun q => h ((anyCrossing_iff recs x k).1 q)

/-- QUALITY attention carries the first action, and with none the first crossing (R134). -/
theorem qualityAttention_raised {recs : List LaneRecord} {x : Slot} {k : ServiceKind} (actions : List QualityDetail)
    (h : (firstCrossing recs x k).raises x ∨ (secondCrossing recs x k).raises x) : qualityAttention recs x k actions =
      (actions ++ ((crossingDetail (firstCrossing recs x k)).toList ++
        (crossingDetail (secondCrossing recs x k)).toList)).head? := by
  unfold qualityAttention
  dsimp only
  rw [if_pos ((anyCrossing_iff recs x k).2 h), crossingDetails_eq]

/-! ### Queueing (R133, R135, R159) -/

/-- The source that a packet of the source role names. -/
def Source.frameSource : Source → FrameSource
  | .primary => .primary
  | .twin => .twin

theorem frameSource_eq (src : Source) : src.frameSource = if src = .primary then .primary else .twin := by
  cases src <;> rfl

section Queue

variable {i : Fin 5} {recs : List LaneRecord} {x : Slot} {service : Word16} {s : State} {q : LaneRecord}

theorem queueSlot_delivering (hs : (s.slot i).state = .delivering) (hv : (s.slot i).service = some service) : queueSlot i recs s =
    (queueData i recs (s.slot i) service (queueAudio i recs (s.slot i) service s)).updSlot i
      fun y => { y with dwell := min 255 (y.dwell + 1) } := by
  unfold queueSlot
  dsimp only
  rw [hs, hv]

theorem queueAudio_none (h : servingRecord recs x (sourceRole x.source) = none) : queueAudio i recs x service s = s := by
  unfold queueAudio
  rw [h]

theorem queueAudio_foreground (h : servingRecord recs x (sourceRole x.source) = some q) (hr : x.role = some .foreground) :
    queueAudio i recs x service s =
      if x.overridden then s else joinAudio (framePacket i service x.source.frameSource x.muted q) s := by
  unfold queueAudio
  rw [h]
  dsimp only
  rw [hr]
  rfl

theorem queueAudio_background (h : servingRecord recs x (sourceRole x.source) = some q) (hr : x.role = some .background) :
    queueAudio i recs x service s = joinData (framePacket i service x.source.frameSource x.muted q) s := by
  unfold queueAudio
  rw [h]
  dsimp only
  rw [hr]
  rfl

theorem queueAudio_announcement (h : servingRecord recs x (sourceRole x.source) = some q) (hr : x.role = some .announcement) :
    queueAudio i recs x service s =
      if s.announcer.takeover = .takeover then joinAudio (framePacket i service .announcement x.muted q) s else s := by
  unfold queueAudio
  rw [h]
  dsimp only
  rw [hr]

end Queue

theorem joinAudio_eq (p : FramePacket) (s : State) : joinAudio p s =
    if s.link.audio.length < 6 then s.updLink fun l => { l with audio := l.audio ++ [p] }
    else raise (.overrun .audio) (s.updLink fun l => { l with audio := l.audio.tail ++ [p] }) := by
  unfold joinAudio
  by_cases h : s.link.audio.length < 6
  · rw [if_pos h, if_neg (Nat.not_le.2 h : ¬audioCapacity ≤ _)]
  · rw [if_neg h, if_pos (Nat.not_lt.1 h : audioCapacity ≤ _)]

theorem joinData_eq (p : FramePacket) (s : State) : joinData p s =
    if s.link.data.length < 12 then s.updLink fun l => { l with data := l.data ++ [p] } else raise (.overrun .data) s := by
  unfold joinData
  by_cases h : s.link.data.length < 12
  · rw [if_pos h, if_neg (Nat.not_le.2 h : ¬dataCapacity ≤ _)]
  · rw [if_neg h, if_pos (Nat.not_lt.1 h : dataCapacity ≤ _)]

end Sys2Proof.Machine
end

section
/-! The TAIL and its frame close, put together (O22). -/

namespace Sys2Proof.Machine

/-! ### The frame close -/

/-- A context that takes part in the round, and its record: tiles, groups, score and crossing (R93 to R109, R113). -/
theorem assemblyRound_taken {s : State} {l : Count} {c : Fin 16} {e : LaneEntry} (he : (s.ctx c).shape = some e)
    (ht : takesPart (s.ctx c) l = true) :
    let x := s.ctx c
    let groups := resolveGroups e.n e.g (tilesOf s x e.n l)
    let missing := missingCount (tilesOf s x e.n l)
    let lost := countResult .lost groups
    let mismatch := countResult .mismatch groups
    let score := nextScore x.score (penalty e.n missing groups.length lost mismatch)
    let rises := x.arm = .high ∧ (governing s c).1 ≤ score
    let falls := x.arm = .low ∧ score ≤ (governing s c).2
    let arm := if rises then ArmState.low else if falls then .high else x.arm
    (assemblyRound l s).1.ctx c = { x with
      state := if x.state = .filling then .running else x.state, score := score, arm := arm,
      settle := min 8 (x.settle + 1), assembled := min 65535 (x.assembled + 1), last := some (l, statusOf groups) } ∧
    recordOfCtx (assemblyRound l s).2 c = some {
      ctx := c, lane := e.lane, cls := e.cls, frame := l, status := statusOf groups, payload := payloadOf groups e.trim,
      missing := missing, lostGroups := lost, mismatchGroups := mismatch, groups := groups.length, score := score,
      arm := arm, crossing := if rises then .rise else if falls then .fall else .none } := by
  have h := assemblyRound_ctx s l c
  unfold roundOutcome at h
  dsimp only at h
  rw [he] at h
  dsimp only at h
  rw [if_pos ht, armAfter_crossingOf, crossingOf_eq] at h
  dsimp only
  rw [he]
  exact h

theorem assemblyRound_apart {s : State} {l : Count} {c : Fin 16} (h : ¬takesPart (s.ctx c) l = true) :
    (assemblyRound l s).1.ctx c = s.ctx c ∧ recordOfCtx (assemblyRound l s).2 c = none := by
  have k := assemblyRound_ctx s l c
  rw [roundOutcome_none h] at k
  exact k

/-! ### The hand-over to a slot -/

/-- A slot that is as the source reversion demands is the one it leaves (R131 step 1). -/
theorem eq_revertSource {s : State} {x y : Slot}
    (h1 : x.source = .twin → ¬roleServed s x 1 = true → y = { x with source := .primary, dwell := 0 })
    (h2 : x.source = .primary ∨ roleServed s x 1 = true → y = x) : y = revertSource s x := by
  by_cases h : x.source = .primary ∨ roleServed s x 1 = true
  · rw [h2 h, revertSource_kept h]
  · obtain ⟨hp, hs⟩ := not_or.1 h
    have ht : x.source = .twin := by
      cases hx : x.source with
      | primary => exact absurd hx hp
      | twin => rfl
    rw [h1 ht hs, revertSource_reverts ht hs]

/-- Settles O22: the TAIL, the frame close and its round, and the hand-over part by part. -/
theorem tailClosesTheFrame : Obligations.TailClosesTheFrame := by
  refine ⟨?_, ?_, fun _ _ _ _ => rfl, fun groups => ⟨statusOf_eq groups, fun _ => rfl⟩, ?_, fun _ => rfl, ?_, usable_iff,
    ⟨fun _ => rfl, rfl, rfl, fun _ _ => rfl⟩, ?_, ?_, ?_, ?_, fun p s => ⟨joinAudio_eq p s, joinData_eq p s⟩⟩
  · intro s hr
    dsimp only
    have hexec : exec .tail s = .next (endEvent s (tailTaken (setCellRx .idle s))) := cellCommand_running hr
    rw [hexec]
    refine ⟨fun h => ?_, fun f h => ⟨fun h1 => ?_, fun h1 h2 => ?_, fun h1 h2 => ?_⟩⟩
    · rw [tailTaken_none (s := setCellRx .idle s) h]
      rfl
    · rw [tailTaken_suspended (s := setCellRx .idle s) h h1]
      rfl
    · rw [tailTaken_closes (s := setCellRx .idle s) h h1, if_pos h2]
      rfl
    · rw [tailTaken_closes (s := setCellRx .idle s) h h1, if_neg (by simp [h2])]
      rfl
  · intro f s
    refine ⟨(assemblyRound (f - 7) (s.updIntake fun p => { p with lastClosed := f })).1,
      (assemblyRound (f - 7) (s.updIntake fun p => { p with lastClosed := f })).2, rfl, ?_, fun c => ?_⟩
    · exact (assemblyRound_from _ _).frame
    · dsimp only
      rw [← takesPart_round_iff]
      exact ⟨fun h => assemblyRound_apart (s := s.updIntake _) h, fun e he ht => assemblyRound_taken (s := s.updIntake _) he ht⟩
  · intro recs s
    refine ⟨rfl, fun i => ⟨handleSlot_apart recs, handleSlot_noKind recs, ?_, ?_, promote_notOpening, promote_noKind,
      fun k => promote_noContext, ?_⟩⟩
    · intro k h
      exact fun hk => handleSlot_kind recs h hk
    · dsimp only
      simp only [← roleServed_iff]
      intro y h1 h2
      rw [eq_revertSource h1 h2]
      refine ⟨stateCheck_reverts, fun k hd hk => ?_⟩
      rw [stateCheck_delivering hd hk]
      exact ⟨fun h => if_neg h, fun h => if_pos h⟩
    · intro k c hs hk hc
      rw [promote_context hs hk hc]
      exact ⟨fun h => if_pos h, fun h => if_neg h⟩
  · intro s c
    dsimp only
    simp only [← refersTo_iff, Bool.not_eq_true]
    exact ⟨fun i => governing_lowest, governing_default⟩
  · intro recs x r
    exact ⟨fun sooner c later => servingCtx_outgoing, servingCtx_own, rfl, fun s => rfl⟩
  · intro i s recs x own switches x1 mutes x2 restores x3 unmutes
    have h1 : switchStep i s recs x = (x1, if switches then [.switch] else []) := switchStep_eq Iff.rfl
    have h2 : muteStep s recs (x1, if switches then [.switch] else []) =
        (x2, (if switches then [.switch] else []) ++ if mutes then [.mute] else []) :=
      muteStep_eq (and_congr_left' (by by_cases h : switches <;> simp [h]))
    have h3 : ∀ a, restoreStep i s recs (x2, a) = (x3, a ++ if restores then [.restore] else []) := fun _ => restoreStep_eq Iff.rfl
    have h4 : ∀ a, unmuteStep s recs (x3, a) =
        (if unmutes then { x3 with muted := false } else x3, a ++ if unmutes then [.unmute] else []) := fun _ =>
      unmuteStep_eq Iff.rfl
    unfold qualityDecision
    rw [h1, h2, h3, h4]
  · intro recs x k actions crossing first second raises
    have hfirst : first = firstCrossing recs x k := rfl
    have hsecond : second = secondCrossing recs x k := rfl
    refine ⟨qualityAttention_quiet actions, fun h => ?_⟩
    rw [qualityAttention_raised actions h, hfirst, hsecond]
    cases actions with
    | cons action rest => rfl
    | nil => cases firstCrossing recs x k <;> cases secondCrossing recs x k <;> rfl
  · intro i recs s service hs hv x audio packet played handsData rest
    have haudio : audio = servingRecord recs x (sourceRole x.source) := by rw [sourceRole_eq]
    have hplayed : ∀ r, played r = framePacket i service x.source.frameSource x.muted r := fun r => by
      rw [frameSource_eq]
      rfl
    have hqueue : queueSlot i recs s = rest (queueAudio i recs x service s) := queueSlot_delivering hs hv
    rw [hqueue, haudio]
    refine ⟨fun h => by rw [queueAudio_none h], fun r h => ⟨fun hr ho => ?_, fun hr ho => ?_, fun hr => ?_, fun hr ht => ?_,
      fun hr ht => ?_⟩⟩
    · rw [queueAudio_foreground h hr, if_pos ho]
    · rw [queueAudio_foreground h hr, if_neg (by simp [ho]), hplayed]
    · rw [queueAudio_background h hr, hplayed]
    · rw [queueAudio_announcement h hr, if_pos ht]
      rfl
    · rw [queueAudio_announcement h hr, if_neg ht]

end Sys2Proof.Machine
end

section
/-! The banks and the candidate list in order: every commit, adoption, swap and clearing keeps the laws of both banks, and every
change to the candidates keeps their keys apart (R30, R33, R48, R50 to R52). -/

namespace Sys2Proof.Machine

/-! ### A law kept by every step -/

/-- A law that every move of a command keeps, and that does not look at the queue of waiting commands, is kept by every step. -/
theorem keptByStep_of_moves {P : State → Prop} (moves : ∀ s t, Move s t → P s → P t)
    (queue : ∀ (s : State) (rest : List Instr), P s → P { s with pending := rest }) : keptByStep P := by
  intro s t hs h
  unfold step at h
  split at h
  · injection h with h
    rwa [← h]
  · exact (exec_reach h).preserves moves (queue s _ hs)

/-! ### Insertion in order (R51, R52) -/

theorem overlaps_comm (a b : LaneEntry) : a.overlaps b = b.overlaps a :=
  decide_eq_decide.2 and_comm

theorem mem_insertLane {x y : LaneEntry} {l : List LaneEntry} (h : y ∈ insertLane x l) : y = x ∨ y ∈ l := by
  induction l with
  | nil => exact .inl (List.mem_singleton.1 h)
  | cons e rest ih =>
    unfold insertLane at h
    split at h
    · exact List.mem_cons.1 h
    · split at h
      · exact (List.mem_cons.1 h).imp_right (List.mem_cons_of_mem e)
      · rcases List.mem_cons.1 h with rfl | h
        · exact .inr List.mem_cons_self
        · exact (ih h).imp_right (List.mem_cons_of_mem e)

/-- An entry that overlaps no entry of another lane joins a list that is apart (R51). -/
theorem insertLane_apart {x : LaneEntry} {l : List LaneEntry} (hl : l.Pairwise fun a b => a.lane < b.lane ∧ a.overlaps b = false)
    (hx : ∀ o ∈ l, o.lane ≠ x.lane → o.overlaps x = false) :
    (insertLane x l).Pairwise fun a b => a.lane < b.lane ∧ a.overlaps b = false := by
  induction l with
  | nil => exact List.pairwise_singleton _ x
  | cons e rest ih =>
    obtain ⟨he, hrest⟩ := List.pairwise_cons.1 hl
    have before : ∀ o ∈ e :: rest, x.lane < o.lane → x.lane < o.lane ∧ x.overlaps o = false := fun o ho h =>
      ⟨h, by rw [overlaps_comm]; exact hx o ho (Nat.ne_of_gt h)⟩
    unfold insertLane
    split
    · rename_i hlt
      refine List.pairwise_cons.2 ⟨fun o ho => before o ho ?_, hl⟩
      rcases List.mem_cons.1 ho with rfl | ho
      · exact hlt
      · exact hlt.trans (he o ho).1
    · split
      · rename_i heq
        exact List.pairwise_cons.2 ⟨fun o ho => before o (List.mem_cons_of_mem e ho) (heq ▸ (he o ho).1), hrest⟩
      · rename_i hlt hne
        refine List.pairwise_cons.2 ⟨fun o ho => ?_, ih hrest fun o ho => hx o (List.mem_cons_of_mem e ho)⟩
        rcases mem_insertLane ho with rfl | ho
        · exact ⟨by omega, hx e List.mem_cons_self (Ne.symm hne)⟩
        · exact he o ho

theorem mem_insertService {x y : ServiceEntry} {l : List ServiceEntry} (h : y ∈ insertService x l) : y = x ∨ y ∈ l := by
  induction l with
  | nil => exact .inl (List.mem_singleton.1 h)
  | cons e rest ih =>
    unfold insertService at h
    split at h
    · exact List.mem_cons.1 h
    · split at h
      · exact (List.mem_cons.1 h).imp_right (List.mem_cons_of_mem e)
      · rcases List.mem_cons.1 h with rfl | h
        · exact .inr List.mem_cons_self
        · exact (ih h).imp_right (List.mem_cons_of_mem e)

theorem insertService_ascending {x : ServiceEntry} {l : List ServiceEntry} (hl : l.Pairwise fun a b => a.service < b.service) :
    (insertService x l).Pairwise fun a b => a.service < b.service := by
  induction l with
  | nil => exact List.pairwise_singleton _ x
  | cons e rest ih =>
    obtain ⟨he, hrest⟩ := List.pairwise_cons.1 hl
    unfold insertService
    split
    · rename_i hlt
      refine List.pairwise_cons.2 ⟨fun o ho => ?_, hl⟩
      rcases List.mem_cons.1 ho with rfl | ho
      · exact hlt
      · exact BitVec.lt_trans hlt (he o ho)
    · split
      · rename_i heq
        exact List.pairwise_cons.2 ⟨fun o ho => heq ▸ he o ho, hrest⟩
      · rename_i hlt hne
        refine List.pairwise_cons.2 ⟨fun o ho => ?_, ih hrest⟩
        rcases mem_insertService ho with rfl | ho
        · bv_omega
        · exact he o ho

theorem insertService_length_le (x : ServiceEntry) (l : List ServiceEntry) : (insertService x l).length ≤ l.length + 1 := by
  induction l with
  | nil => exact Nat.le_refl 1
  | cons e rest ih =>
    unfold insertService
    split
    · exact Nat.le_refl _
    · split
      · exact Nat.le_succ _
      · exact Nat.succ_le_succ ih

/-- An entry whose service id is there already takes its place (R52). -/
theorem insertService_length_replace {x o : ServiceEntry} {l : List ServiceEntry} (hl : l.Pairwise fun a b => a.service < b.service)
    (ho : o ∈ l) (hx : o.service = x.service) : (insertService x l).length = l.length := by
  induction l with
  | nil => cases ho
  | cons e rest ih =>
    obtain ⟨he, hrest⟩ := List.pairwise_cons.1 hl
    unfold insertService
    rcases List.mem_cons.1 ho with rfl | ho
    · rw [if_neg (by rw [hx]; exact BitVec.lt_irrefl _), if_pos hx.symm]
      rfl
    · have hlt : e.service < x.service := hx ▸ he o ho
      rw [if_neg (by bv_omega), if_neg (by bv_omega)]
      exact congrArg Nat.succ (ih hrest ho)

/-! ### The laws of one bank -/

/-- The laws of one bank: its lane entries and its service entries stand in order and apart (R48, R51). -/
structure Bank.Ordered (b : Bank) : Prop where
  lanes : b.lanesApart
  services : b.servicesOrdered

theorem Bank.Ordered.empty (v : Option Nat) : Bank.Ordered { Bank.empty with serial := v } :=
  ⟨.nil, Nat.zero_le _, .nil⟩

theorem commitLane_ordered (e : LaneEntry) {b : Bank} (h : b.Ordered) : (commitLane e b).bank.Ordered := by
  refine ⟨insertLane_apart (h.lanes.sublist List.filter_sublist) fun o ho hne => ?_, h.services⟩
  have hkept := (List.mem_filter.1 ho).2
  simpa [hne] using hkept

/-- A service entry that takes the place of one of its id keeps the services in order (R52, R53). -/
theorem replaceService_ordered {b : Bank} (h : b.Ordered) {new old : ServiceEntry} (ho : b.service? new.service = some old) :
    Bank.Ordered { b with services := insertService new b.services } := by
  obtain ⟨hlen, hasc⟩ := h.services
  have hreplaced := insertService_length_replace hasc (List.mem_of_find?_eq_some ho) (service?_some ho)
  exact ⟨h.lanes, hreplaced.trans_le hlen, insertService_ascending hasc⟩

theorem commitService_ordered (e : ServiceEntry) {b : Bank} (h : b.Ordered) : (commitService e b).bank.Ordered := by
  unfold commitService
  split
  · rename_i old ho
    exact replaceService_ordered (new := { e with label := old.label }) h ho
  · split
    · rename_i hroom
      exact ⟨h.lanes, (insertService_length_le _ _).trans hroom, insertService_ascending h.services.2⟩
    · exact ⟨h.lanes, h.services⟩

theorem commitServiceLabel_ordered (v : Word16) (text : List Byte) {b : Bank} (h : b.Ordered) :
    (commitServiceLabel v text b).bank.Ordered := by
  unfold commitServiceLabel
  split
  · rename_i old ho
    exact replaceService_ordered (new := { old with label := some text }) h (by rw [service?_some ho]; exact ho)
  · exact h

/-- A commit keeps the laws of its bank (R51 to R53). -/
theorem BankStep.ordered {b b' : Bank} (h : BankStep b b') (hb : b.Ordered) : b'.Ordered := by
  cases h with
  | lane e => exact commitLane_ordered e hb
  | service e => exact commitService_ordered e hb
  | serviceLabel v text => exact commitServiceLabel_ordered v text hb
  | ident => exact ⟨hb.lanes, hb.services⟩
  | change => exact ⟨hb.lanes, hb.services⟩

/-- A commit keeps the serial of its bank. -/
theorem BankStep.serial {b b' : Bank} (h : BankStep b b') : b'.serial = b.serial := by
  cases h with
  | service e =>
    unfold commitService
    split
    · rfl
    · split <;> rfl
  | serviceLabel v text =>
    unfold commitServiceLabel
    split <;> rfl
  | _ => rfl

theorem pendingFor_ordered (v : Nat) {b : Bank} (h : b.Ordered) : (pendingFor v b).Ordered := by
  unfold pendingFor
  split
  · exact ⟨h.lanes, h.services⟩
  · exact .empty _

theorem pendingFor_serial (v : Nat) (b : Bank) : (pendingFor v b).serial = some v := by
  unfold pendingFor
  split <;> rfl

/-! ### The laws of both banks (R50) -/

theorem inOrder_iff (m : LaneMap) : m.inOrder ↔ m.serialsApart ∧ m.active.Ordered ∧ m.pending.Ordered :=
  ⟨fun ⟨hv, ⟨la, lp⟩, sa, sp⟩ => ⟨hv, ⟨la, sa⟩, lp, sp⟩, fun ⟨hv, ⟨la, sa⟩, lp, sp⟩ => ⟨hv, ⟨la, lp⟩, sa, sp⟩⟩

/-- A pending bank of serial v is apart from an active bank of another serial. -/
theorem serialsApart_of {m : LaneMap} {v : Nat} (hp : m.pending.serial = some v) (ha : m.active.serial ≠ some v) : m.serialsApart := by
  intro w hw
  rwa [← hw, hp]

theorem serialsApart_of_none {m : LaneMap} (h : m.pending.serial = none) : m.serialsApart := by
  intro w hw
  rw [h] at hw
  cases hw

/-- Whatever happens to the banks at one commit, adoption, swap, stale HEAD or clearing keeps their laws. -/
theorem MapStep.inOrder {m m' : LaneMap} (h : MapStep m m') (hm : m.inOrder) : m'.inOrder := by
  rw [inOrder_iff] at hm ⊢
  obtain ⟨hv, ha, hp⟩ := hm
  cases h with
  | flags => exact ⟨hv, ha, hp⟩
  | active v h b hb =>
    refine ⟨fun w hw => ?_, hb.ordered ha, hp⟩
    rw [show b.serial = m.active.serial from hb.serial]
    exact hv w hw
  | pending v h b hb =>
    exact ⟨serialsApart_of (hb.serial.trans (pendingFor_serial v _)) h, ha, hb.ordered (pendingFor_ordered v hp)⟩
  | adoptPending v h _ => exact ⟨serialsApart_of_none rfl, hp, .empty _⟩
  | adoptEmpty v h hne =>
    refine ⟨fun w hw e => hne ?_, .empty _, hp⟩
    cases e
    exact hw
  | swap stale => exact ⟨serialsApart_of_none rfl, hp, .empty _⟩
  | await v h => exact ⟨serialsApart_of rfl h, ha, .empty _⟩
  | clear identity => exact ⟨serialsApart_of_none rfl, .empty _, .empty _⟩

/-! ### The candidates (R30, R33) -/

/-- The candidates that remain after some have left are still apart. -/
theorem candidatesApart_sublist {d d' : Directory} (h : d.candidatesApart) (hs : d'.candidates.Sublist d.candidates) :
    d'.candidatesApart := ⟨hs.length_le.trans h.1, h.2.sublist hs⟩

/-- A record whose key no candidate has joins the candidates, the oldest of a full list gone (R33). -/
theorem addCandidate_apart {r : Record} {s : State} (hr : candidateOf s r = none) (h : s.directory.candidatesApart) :
    (addCandidate r s).directory.candidatesApart := by
  have other : ∀ c ∈ s.directory.candidates, sameKey c r = false := by simpa using List.find?_eq_none.1 hr
  have joins : ∀ l : List Record, l.Sublist s.directory.candidates → l.length < 16 →
      Directory.candidatesApart { s.directory with candidates := l ++ [r] } := fun l hl hlen => by
    refine ⟨by simpa using hlen, List.pairwise_append.2 ⟨h.2.sublist hl, List.pairwise_singleton _ r, fun c hc d hd => ?_⟩⟩
    rw [List.mem_singleton.1 hd]
    exact other c (hl.subset hc)
  by_cases hfull : 16 ≤ s.directory.candidates.length
  · rw [addCandidate_full r hfull]
    have hmax := h.1
    exact joins _ (List.tail_sublist _) (by rw [List.length_tail]; omega)
  · rw [addCandidate_room r (by omega)]
    exact joins _ (List.Sublist.refl _) (by omega)

/-! ### Every step -/

/-- The banks' and the candidates' laws together. -/
def directoriesInOrder (s : State) : Prop := s.laneMap.inOrder ∧ s.directory.candidatesApart

theorem Change.directoriesInOrder {n : Nat} {s t : State} (h : Change n s t) (hs : directoriesInOrder s) : directoriesInOrder t := by
  obtain ⟨hbanks, hcands⟩ := hs
  cases h with
  | audioJoins _ p => obtain ⟨_, _, e⟩ := joinAudio_fields p s; rw [e]; exact ⟨hbanks, hcands⟩
  | dataJoins _ p => obtain ⟨_, _, e⟩ := joinData_fields p s; rw [e]; exact ⟨hbanks, hcands⟩
  | labelJoins _ p => obtain ⟨_, _, e⟩ := joinLabel_fields p s; rw [e]; exact ⟨hbanks, hcands⟩
  | banks _ m _ h => exact ⟨h.inOrder hbanks, hcands⟩
  | candidateLeaves _ r => exact ⟨hbanks, candidatesApart_sublist hcands List.filter_sublist⟩
  | candidateJoins _ r _ h => exact ⟨hbanks, addCandidate_apart h hcands⟩
  | directoryCleared => exact ⟨hbanks, Nat.zero_le _, .nil⟩
  | _ => exact ⟨hbanks, hcands⟩

/-- A reset empties both banks and the candidates. -/
theorem reset_directoriesInOrder : directoriesInOrder State.reset := ⟨reset_inOrder, Nat.zero_le _, .nil⟩

theorem Move.directoriesInOrder {s t : State} (h : Move s t) (hs : directoriesInOrder s) : directoriesInOrder t := by
  cases h with
  | inner _ _ h => exact h.preserves (fun _ _ k => k.directoriesInOrder) hs
  | powerOn => exact reset_directoriesInOrder
  | holdReset => exact reset_directoriesInOrder
  | holdBreak => exact reset_directoriesInOrder
  | releaseBreak =>
    unfold Machine.releaseBreak
    split
    · exact hs
    · exact hs
  | _ => exact hs

/-- Settles O8: every move of a command keeps the laws of the banks and of the candidates, and a reset restores them. -/
theorem stepKeepsBanksInOrder : Obligations.StepKeepsBanksInOrder :=
  keptByStep_of_moves (fun _ _ h => h.directoriesInOrder) fun _ _ h => h

end Sys2Proof.Machine
end

section
/-! Sightings and commits: the two-sighting rule, RECORD_CONFIRMED, where a commit is placed, and INJECT (R31, R32, R35, R38 to
R40, R46, R50 to R55, R149). -/

namespace Sys2Proof.Machine

/-! ### What is committed (R31) -/

/-- Whether a record equals what is committed depends on the banks and the announcement table alone. -/
theorem equalsCommitted_congr {s t : State} (hm : t.laneMap = s.laneMap) (ht : t.directory.table = s.directory.table) (r : Record) :
    equalsCommitted t r = equalsCommitted s r := by
  have hbank : bankOf t = bankOf s := funext fun v => by
    unfold bankOf
    rw [hm]
  have hentry : annEntry t = annEntry s := funext fun k => by
    unfold annEntry
    rw [ht]
  cases r with
  | announce => simp only [equalsCommitted, hentry]
  | labelSegment => rfl
  | _ => simp only [equalsCommitted, hbank]

/-- The removal of a candidate commits nothing. -/
theorem equalsCommitted_removeCandidate (r q : Record) (s : State) : equalsCommitted (removeCandidate q s) r = equalsCommitted s r :=
  equalsCommitted_congr rfl rfl r

/-- The reception of an order commits nothing. -/
theorem equalsCommitted_heard (r : Record) (s : State) : equalsCommitted (heard s) r = equalsCommitted s r :=
  equalsCommitted_congr rfl rfl r

/-- An IDENT record for the active bank equals what is committed just when the bank holds its contents (R31). -/
theorem equalsCommitted_ident_active {s : State} {v : Nat} (hv : s.laneMap.active.serial = some v) (identity : Word16)
    (lanes services : Nat) (name : List Byte) : equalsCommitted s (.ident v identity lanes services name) = true ↔
      s.laneMap.active.ident = some { identity := identity, lanes := lanes, services := services, name := name } := by
  simp [equalsCommitted, bankOf, hv]

/-! ### The two-sighting rule (R32) -/

section Sighting

variable {r : Record} {s : State}

/-- Every record but a label segment and an ALARM ON is under the two-sighting rule (R32, R34). -/
theorem sighting_twoSighting (hl : ∀ v g k n x, r ≠ .labelSegment v g k n x) (ha : ∀ v, r ≠ .announce 0 1 v) :
    sighting r s = confirmSighting r s := by
  unfold sighting
  split
  · exact absurd rfl (hl _ _ _ _ _)
  · exact absurd rfl (ha _)
  · rfl

theorem confirmSighting_equal (h : equalsCommitted s r = true) : confirmSighting r s = refresh r (removeCandidate r s) := if_pos h

theorem confirmSighting_waiting {c : Record} (h : equalsCommitted s r = false) (hc : candidateOf s r = some c) :
    confirmSighting r s = if c = r then commitRecord r (removeCandidate r s) else addCandidate r (removeCandidate r s) := by
  unfold confirmSighting
  rw [if_neg (by simp [h]), hc]

theorem confirmSighting_new (h : equalsCommitted s r = false) (hc : candidateOf s r = none) :
    confirmSighting r s = addCandidate r s := by
  unfold confirmSighting
  rw [if_neg (by simp [h]), hc]

end Sighting

/-- Settles O28: the record is under the rule, whose cases are the candidate it meets. -/
theorem sightingNeedsTwoInARow : Obligations.SightingNeedsTwoInARow := by
  intro r s hl ha
  dsimp only
  rw [sighting_twoSighting hl ha]
  refine ⟨confirmSighting_equal, fun h => ⟨fun hc => ?_, fun c hc hne => ?_, confirmSighting_new h⟩⟩
  · exact (confirmSighting_waiting h hc).trans (if_pos rfl)
  · exact (confirmSighting_waiting h hc).trans (if_neg hne)

/-! ### INJECT (R46) -/

/-- INJECT is carried out at once in a part that is ready for it (R165). -/
theorem exec_inject (ref : Byte) {record : List Byte} {s : State} (h : readyForOrder s) (hl : record.length ≤ 62) :
    exec (.inject ref record) s =
      let o := injectOrder record (heard s)
      carriedOut s ref 0x09 o.1 o.2.1 o.2.2 := exec_order ref 0x09 record s hl h

theorem injectOrder_short {record : List Byte} (h : record.length < 2) (s : State) : injectOrder record s = (.badValue, [], s) := by
  match record, h with
  | [], _ => rfl
  | [_], _ => rfl

section Inject

variable {kind len : Byte} {body : List Byte} {s : State}

theorem injectOrder_refused (h : len.toNat ≠ body.length ∨ wellFormedRecordOf kind body = none) :
    injectOrder (kind :: len :: body) s = (.badValue, [], s) := by
  unfold injectOrder
  dsimp only
  by_cases hlen : len.toNat = body.length
  · rw [if_pos hlen, h.resolve_left fun k => k hlen]
  · rw [if_neg hlen]

theorem injectOrder_accepted {r : Record} (hlen : len.toNat = body.length) (hr : wellFormedRecordOf kind body = some r) :
    injectOrder (kind :: len :: body) s = (.accepted, [kind], injectRecord r s) := by
  unfold injectOrder
  dsimp only
  rw [if_pos hlen, hr]

/-- A record that is no label segment is refreshed or committed at once (R46). -/
theorem injectRecord_atOnce {r : Record} (h : ∀ v g k n x, r ≠ .labelSegment v g k n x) :
    injectRecord r s = commitAtOnce r s := by
  unfold injectRecord
  split
  · exact absurd rfl (h _ _ _ _ _)
  · rfl

theorem commitAtOnce_eq (r : Record) (s : State) : commitAtOnce r s =
    if equalsCommitted s r then refresh r (removeCandidate r s) else commitRecord r (removeCandidate r s) := by
  unfold commitAtOnce
  dsimp only
  rw [equalsCommitted_removeCandidate]

end Inject

/-- Settles O47: the order is carried out at once, and its record is refused, offered as a segment, or committed at once. -/
theorem injectCommitsAtOnce : Obligations.InjectCommitsAtOnce := by
  intro ref record s h hl
  dsimp only
  rw [exec_inject ref h hl]
  refine ⟨fun hshort => by rw [injectOrder_short hshort], ?_⟩
  rintro kind len body rfl
  refine ⟨fun hbad => by rw [injectOrder_refused hbad], fun hlen r hr => ?_⟩
  rw [injectOrder_accepted hlen hr]
  dsimp only
  refine ⟨?_, fun hne => ?_⟩
  · rintro v g k n x rfl
    rfl
  · rw [injectRecord_atOnce hne, commitAtOnce_eq, equalsCommitted_heard]
    refine ⟨fun he => ?_, fun he => ?_⟩
    · rw [if_pos he]
      rfl
    · rw [if_neg (by simp [he])]
      rfl

/-! ### Where a commit is placed (R50, R54, R55) -/

section Place

variable {v : Nat} {f : Bank → BankCommit} {s : State}

/-- The Lane Map with this active bank and the flags evaluated afresh (R55). -/
def LaneMap.withActive (b : Bank) (m : LaneMap) : LaneMap :=
  { m with active := b, complete := bankComplete m.identity b, ready := bankReady m.pending }

/-- A commit in the active bank: a correction, an entry that joins, or neither (R50, R54). -/
theorem placeCommit_active (h : s.laneMap.active.serial = some v) : placeCommit v f s =
    let c := f s.laneMap.active
    let w := s.updLaneMap (LaneMap.withActive c.bank)
    if c.correction then correction w else if c.added then openWaitingSlots w else w := if_pos h

/-- A commit in the pending bank, which is emptied first when it has another serial (R50). -/
theorem placeCommit_pending (h : s.laneMap.active.serial ≠ some v) : placeCommit v f s =
    let b := (f (pendingFor v s.laneMap.pending)).bank
    s.updLaneMap fun m => { m with pending := b, complete := bankComplete m.identity m.active, ready := bankReady b } := if_neg h

end Place

/-! ### Announcement commits (R38 to R40, R149) -/

section Announce

variable {t : Fin 8} {target : Word16} {s : State}

theorem annType_val (t : Fin 8) : annType t.val = t := Fin.ext (Nat.mod_eq_of_lt t.isLt)

theorem commitRecord_on (t : Fin 8) (target : Word16) (s : State) : commitRecord (.announce t.val 1 target) s = commitOn t target s := by
  show commitOn (annType t.val) target s = _
  rw [annType_val]

theorem commitRecord_off (t : Fin 8) (target : Word16) (s : State) : commitRecord (.announce t.val 0 target) s = commitOff t target s := by
  show commitOff (annType t.val) target s = _
  rw [annType_val]

theorem commitOn_repeated (h : (annEntry s t).on = true) (ht : (annEntry s t).target = some target) : commitOn t target s = s := by
  unfold commitOn
  dsimp only
  rw [if_pos h, if_pos ht]

theorem commitOn_replaces (h : (annEntry s t).on = true) (ht : (annEntry s t).target ≠ some target) : commitOn t target s =
    let u := onset t target (setAnnEntry t { on := true, target := some target, age := 0 }
      (annEnd t (annEntry s t).target .replaced s))
    if u.announcer.takeover = .idle then reopenRecord u else u := by
  unfold commitOn
  dsimp only
  rw [if_pos h, if_neg ht]

theorem commitOn_begins (h : (annEntry s t).on = false) :
    commitOn t target s = onset t target (setAnnEntry t { on := true, target := some target, age := 0 } s) := by
  unfold commitOn
  dsimp only
  rw [if_neg (by simp [h])]

theorem commitOff_ends (h : (annEntry s t).on = true ∧ (annEntry s t).target = some target) : commitOff t target s =
    annEnd t (some target) .off (setAnnEntry t { annEntry s t with on := false, age := 0 } s) := if_pos h

theorem commitOff_other (h : ¬((annEntry s t).on = true ∧ (annEntry s t).target = some target)) : commitOff t target s = s := if_neg h

end Announce

/-! ### RECORD_CONFIRMED (R32, log 2) -/

section Confirmed

variable {r : Record} {s : State}

theorem confirmRecord_commits (hc : candidateOf s r = some r) (he : equalsCommitted s r = false) :
    confirmRecord r s = commitRecord r (removeCandidate r s) := if_pos ⟨hc, he⟩

theorem confirmRecord_other (h : candidateOf s r ≠ some r ∨ equalsCommitted s r = true) : confirmRecord r s = s :=
  if_neg fun ⟨hc, he⟩ => h.elim (fun k => k hc) fun k => by rw [k] at he; cases he

end Confirmed

/-- Settles O29: the row by its own condition, then the placing by bank and the announcement by the entry it meets. -/
theorem recordConfirmedCommits : Obligations.RecordConfirmedCommits := by
  refine ⟨fun s hr => ?_, fun v s => ?_, fun v f s => ?_, fun t target s => ?_⟩
  · have hexec : ∀ r, exec (.recordConfirmed r) s = .next (endEvent s (confirmRecord r s)) := fun _ => command_running hr
    refine ⟨fun r hc he => ?_, fun r h => ?_, fun v identity lanes services name hv hc hne => ?_⟩
    · rw [hexec, confirmRecord_commits hc he]
      rfl
    · rw [hexec, confirmRecord_other h]
    · have he := Bool.eq_false_iff.2 fun k => hne ((equalsCommitted_ident_active hv identity lanes services name).1 k)
      rw [hexec, confirmRecord_commits hc he]
      exact congrArg (fun u => Host.Outcome.next (endEvent s u)) (placeCommit_active hv)
  · exact ⟨fun _ _ _ _ _ _ _ => rfl, fun _ _ _ _ _ _ => rfl, fun _ _ => rfl, fun _ _ _ _ => rfl, fun _ _ _ => rfl⟩
  · refine ⟨fun hv => ?_, placeCommit_pending⟩
    rw [placeCommit_active hv]
    dsimp only
    refine ⟨fun hc => ?_, fun hc ha => ?_, fun hc ha => ?_⟩
    · rw [if_pos hc]
      rfl
    · rw [if_neg (by simp [hc]), if_pos ha]
      rfl
    · rw [if_neg (by simp [hc]), if_neg (by simp [ha])]
      rfl
  · dsimp only
    rw [commitRecord_on, commitRecord_off]
    exact ⟨commitOn_repeated, commitOn_replaces, commitOn_begins, fun h ht => commitOff_ends ⟨h, ht⟩, commitOff_other,
      fun _ _ => rfl⟩

end Sys2Proof.Machine
end

section
/-! The end of announcements by age, and the completion of labels (R41, R42, R44, R45, R149, R159). -/

namespace Sys2Proof.Machine

/-! ### ANNOUNCEMENT_EXPIRY (R41, R42, R149) -/

theorem expireEntry_young {s : State} {t : Fin 8} (h : (annEntry s t).on = true → (annEntry s t).age < 64) : expireEntry s t = s :=
  if_neg fun ⟨hon, hage⟩ => absurd (h hon) (Nat.not_lt.2 hage)

/-- Where no entry that is ON has reached the age, nothing ends (R41). -/
theorem expireTable_young {s : State} (h : ∀ t, (annEntry s t).on = true → (annEntry s t).age < 64) : expireTable s = s := by
  have fold : ∀ l : List (Fin 8), l.foldl expireEntry s = s := fun l => by
    induction l with
    | nil => rfl
    | cons t rest ih => rw [List.foldl_cons, expireEntry_young (h t), ih]
  exact fold annTypes

theorem annEnd_candidates (t : Fin 8) (target : Option Word16) (cause : EndCause) (s : State) :
    (annEnd t target cause s).directory.candidates = s.directory.candidates :=
  (annEnd_eff (n := 1) (le_refl 1) t target cause s).candidates (by omega)

theorem expireEntry_candidates (s : State) (t : Fin 8) : (expireEntry s t).directory.candidates = s.directory.candidates := by
  unfold expireEntry
  dsimp only
  split
  · exact annEnd_candidates _ _ _ _
  · rfl

theorem expireTable_candidates (s : State) : (expireTable s).directory.candidates = s.directory.candidates := by
  unfold expireTable
  exact foldl_keeps (fun s : State => s.directory.candidates) expireEntry expireEntry_candidates annTypes s

/-- An end by expiry, where the announcement that ends is the one held, returns it for good (R149, R150). -/
theorem annEnd_expiry (t : Fin 8) (target : Option Word16) (s : State) : annEnd t target .expiry s =
    if s.announcer.heldType = some t ∧ s.announcer.heldTarget = target ∧ s.announcer.takeover ≠ .idle then returnHeld false s
    else s := rfl

/-- Settles O31: the row runs the pass of the tick over the table, read entry by entry. -/
theorem announcementExpiryTurnsOff : Obligations.AnnouncementExpiryTurnsOff := fun s hr =>
  ⟨expireTable s, command_running hr, expireTable_entry s, expireTable_candidates s,
    (expireTable_eff (n := 4) (le_refl 4) s).intake (by omega), rfl, rfl, annEnd_expiry, expireTable_young⟩

/-! ### The candidate label (R45) -/

/-- A buffer is complete when every segment below its count is present; the texts joined are its candidate label. -/
theorem candidate_iff (b : LabelBuffer) (text : List Byte) : b.candidate = some text ↔ ∃ n, b.count = some n ∧
    (∀ t ∈ b.segments.toList.take n, t ≠ none) ∧ text = (b.segments.toList.take n).flatMap fun t => t.getD [] := by
  have present : ∀ l : List (Option (List Byte)), l.all Option.isSome = true ↔ ∀ t ∈ l, t ≠ none := fun l => by
    simp [List.all_eq_true, Option.isSome_iff_ne_none]
  unfold LabelBuffer.candidate
  cases b.count with
  | none => simp
  | some n =>
    dsimp only
    constructor
    · intro h
      split at h
      · rename_i hall
        injection h with h
        exact ⟨n, rfl, (present _).1 hall, h.symm⟩
      · cases h
    · rintro ⟨_, ⟨⟩, hall, rfl⟩
      exact if_pos ((present _).2 hall)

/-! ### One label (R45, R159) -/

/-- A buffer after the completion of labels, given the service it follows. -/
def LabelBuffer.completed (b : LabelBuffer) (followed : Option Word16) : LabelBuffer :=
  match b.candidate, followed with
  | some text, some _ => { b with segments := noSegments, visible := some text }
  | _, _ => b

theorem label_setLabel (i j : Fin 5) (b : LabelBuffer) (s : State) : label (setLabel i b s) j = if j = i then b else label s j := by
  unfold label setLabel
  rw [updDirectory_directory]
  simp only [Fin.getElem_fin]
  rw [Vector.getElem_set]
  by_cases h : j = i
  · subst h
    simp
  · rw [if_neg h, if_neg fun e => h (Fin.ext e.symm)]

theorem label_raise_joinLabel (a : Attention) (p : LabelPacket) (s : State) (j : Fin 5) :
    label (raise a (joinLabel p s)) j = label s j := by
  obtain ⟨_, _, e⟩ := joinLabel_fields p s
  rw [e]
  rfl

section Complete

variable {s : State} {i : Fin 5} {text : List Byte} {service : Word16}

theorem completeLabel_complete (hc : (label s i).candidate = some text) (hf : followedService s i = some service) :
    completeLabel i s = setLabel i { label s i with segments := noSegments, visible := some text }
      (if (label s i).visible = some text then s
        else raise (.label i) (joinLabel { slot := i, service := service, text := text } s)) := by
  unfold completeLabel
  dsimp only
  rw [hc, hf]

theorem completeLabel_incomplete (h : (label s i).candidate = none ∨ followedService s i = none) : completeLabel i s = s := by
  unfold completeLabel
  dsimp only
  split
  · rename_i hc hf
    rcases h with h | h
    · rw [h] at hc
      cases hc
    · rw [h] at hf
      cases hf
  · rfl

/-- A buffer is complete, following a service, or nothing happens to it. -/
theorem complete_or_not (s : State) (i : Fin 5) :
    (∃ text service, (label s i).candidate = some text ∧ followedService s i = some service) ∨
      ((label s i).candidate = none ∨ followedService s i = none) := by
  cases hc : (label s i).candidate with
  | none => exact .inr (.inl rfl)
  | some text =>
    cases hf : followedService s i with
    | none => exact .inr (.inr rfl)
    | some service => exact .inl ⟨text, service, rfl, rfl⟩

theorem completed_incomplete {b : LabelBuffer} {followed : Option Word16} (h : b.candidate = none ∨ followed = none) :
    b.completed followed = b := by
  unfold LabelBuffer.completed
  split
  · rename_i hc
    rcases h with h | h
    · rw [h] at hc
      cases hc
    · cases h
  · rfl

theorem completed_complete {b : LabelBuffer} (h : b.candidate = some text) :
    b.completed (some service) = { b with segments := noSegments, visible := some text } := by
  unfold LabelBuffer.completed
  rw [h]

/-- The completion of a label changes its own buffer alone. -/
theorem completeLabel_label (i j : Fin 5) (s : State) :
    label (completeLabel i s) j = if j = i then (label s j).completed (followedService s j) else label s j := by
  rcases complete_or_not s i with ⟨text, service, hc, hf⟩ | h
  · have hkept : ∀ p : Prop, ∀ _ : Decidable p, label (if p then s
        else raise (.label i) (joinLabel { slot := i, service := service, text := text } s)) j = label s j := fun p _ => by
      split
      · rfl
      · exact label_raise_joinLabel _ _ _ j
    rw [completeLabel_complete hc hf, label_setLabel, hkept]
    by_cases hj : j = i
    · subst hj
      rw [if_pos rfl, if_pos rfl, hf, completed_complete hc]
    · rw [if_neg hj, if_neg hj]
  · rw [completeLabel_incomplete h]
    by_cases hj : j = i
    · subst hj
      rw [if_pos rfl, completed_incomplete h]
    · rw [if_neg hj]

/-- The completion of a label leaves the services that the buffers follow. -/
theorem completeLabel_followed (i j : Fin 5) (s : State) : followedService (completeLabel i s) j = followedService s j := by
  rcases complete_or_not s i with ⟨text, service, hc, hf⟩ | h
  · obtain ⟨_, _, e⟩ := joinLabel_fields { slot := i, service := service, text := text } s
    rw [completeLabel_complete hc hf, e]
    split <;> rfl
  · rw [completeLabel_incomplete h]

/-- A label that repeats the visible one is neither queued nor raised (R45). -/
theorem completeLabel_repeated (h : ∀ text, (label s i).candidate = some text → followedService s i ≠ none →
    (label s i).visible = some text) : (completeLabel i s).link = s.link := by
  rcases complete_or_not s i with ⟨text, service, hc, hf⟩ | hn
  · rw [completeLabel_complete hc hf, if_pos (h text hc (by simp [hf]))]
    rfl
  · rw [completeLabel_incomplete hn]

/-- The LABEL queue after a packet has joined it: a full one has given up its oldest first (R159). -/
theorem joinLabel_labels (p : LabelPacket) (s : State) : (joinLabel p s).link.labels =
    (if s.link.labels.length < 2 then s.link.labels else s.link.labels.tail) ++ [p] := by
  unfold joinLabel labelCapacity
  by_cases h : s.link.labels.length < 2
  · rw [if_neg (by omega), if_pos h]
    rfl
  · rw [if_pos (by omega), if_neg h]
    rfl

theorem joinLabel_overrun (p : LabelPacket) {s : State} (h : 2 ≤ s.link.labels.length) :
    (joinLabel p s).link.causes[(7 : Fin 9)] = { pending := true, detail := some (.overrun .label) } := by
  unfold joinLabel labelCapacity
  rw [if_pos h]
  exact raise_own_cause _ _

/-- A label that differs from the visible one is queued and raises LABEL attention (R45, R159). -/
theorem completeLabel_link (hc : (label s i).candidate = some text) (hf : followedService s i = some service)
    (hv : (label s i).visible ≠ some text) :
    (completeLabel i s).link.labels = (if s.link.labels.length < 2 then s.link.labels else s.link.labels.tail) ++
        [{ slot := i, service := service, text := text }] ∧
      (2 ≤ s.link.labels.length →
        (completeLabel i s).link.causes[(7 : Fin 9)] = { pending := true, detail := some (.overrun .label) }) ∧
      (completeLabel i s).link.causes[(8 : Fin 9)] = { pending := true, detail := some (.label i) } := by
  rw [completeLabel_complete hc hf, if_neg hv]
  refine ⟨joinLabel_labels _ _, fun h => ?_, raise_own_cause (.label i) _⟩
  refine (raise_cause (.label i) _ 7).trans ((if_neg fun e : (7 : Fin 9) = 8 => absurd e (by decide)).trans ?_)
  exact joinLabel_overrun _ h

end Complete

/-! ### LABEL_COMPLETE (R45, log 28) -/

/-- Every complete buffer shows its candidate label. -/
theorem completeLabels_label (s : State) (i : Fin 5) :
    label (completeLabels s) i = (label s i).completed (followedService s i) := by
  have one : ∀ (s : State) (i j : Fin 5), (label (completeLabel j s) i, followedService (completeLabel j s) i) =
      if i = j then ((label s i).completed (followedService s i), followedService s i) else (label s i, followedService s i) :=
    fun s i j => by
      rw [completeLabel_label, completeLabel_followed]
      split <;> rfl
  have all := foldl_own (fun s i => (label s i, followedService s i)) (fun s i => completeLabel i s)
    (fun q => (q.1.completed q.2, q.2)) one allSlots allSlots_nodup s i
  rw [if_pos (mem_allSlots i)] at all
  exact congrArg Prod.fst all

theorem completeFold_incomplete {s : State} (l : List (Fin 5)) (h : ∀ j ∈ l, (label s j).candidate = none) :
    l.foldl (fun s i => completeLabel i s) s = s := by
  induction l with
  | nil => rfl
  | cons j rest ih =>
    rw [List.foldl_cons, completeLabel_incomplete (.inl (h j List.mem_cons_self))]
    exact ih fun k hk => h k (List.mem_cons_of_mem j hk)

/-- Where one buffer alone is complete, its completion is all that happens. -/
theorem completeFold_single {s : State} {i : Fin 5} (h : ∀ j, j ≠ i → (label s j).candidate = none) (l : List (Fin 5))
    (hl : l.Nodup) (hi : i ∈ l) : l.foldl (fun s i => completeLabel i s) s = completeLabel i s := by
  induction l with
  | nil => exact absurd hi List.not_mem_nil
  | cons j rest ih =>
    obtain ⟨hj, hrest⟩ := List.nodup_cons.1 hl
    rw [List.foldl_cons]
    by_cases e : i = j
    · subst e
      refine completeFold_incomplete rest fun k hk => ?_
      have hki : k ≠ i := fun e => hj (e ▸ hk)
      rw [completeLabel_label, if_neg hki]
      exact h k hki
    · rw [completeLabel_incomplete (.inl (h j (Ne.symm e)))]
      exact ih hrest ((List.mem_cons.1 hi).resolve_left e)

theorem completeLabels_single {s : State} {i : Fin 5} (h : ∀ j, j ≠ i → (label s j).candidate = none) :
    completeLabels s = completeLabel i s := completeFold_single h allSlots allSlots_nodup (mem_allSlots i)

/-- A label that is complete and followed is the visible one already. -/
def repeatsVisible (s : State) (i : Fin 5) : Prop :=
  ∀ text, (label s i).candidate = some text → followedService s i ≠ none → (label s i).visible = some text

theorem completeFold_repeated (l : List (Fin 5)) (hl : l.Nodup) {s : State} (h : ∀ i ∈ l, repeatsVisible s i) :
    (l.foldl (fun s i => completeLabel i s) s).link = s.link := by
  induction l generalizing s with
  | nil => rfl
  | cons j rest ih =>
    obtain ⟨hj, hrest⟩ := List.nodup_cons.1 hl
    rw [List.foldl_cons, ih hrest fun i hi => ?_, completeLabel_repeated (h j List.mem_cons_self)]
    unfold repeatsVisible
    rw [completeLabel_label, completeLabel_followed, if_neg fun e : i = j => hj (e ▸ hi)]
    exact h i (List.mem_cons_of_mem j hi)

/-- Where every complete buffer repeats its visible label, the Delivery Link stays as it is. -/
theorem completeLabels_repeated {s : State} (h : ∀ i, repeatsVisible s i) : (completeLabels s).link = s.link :=
  completeFold_repeated allSlots allSlots_nodup fun i _ => h i

/-- Settles O32: the candidate label, then the completion buffer by buffer and what it leaves of the Delivery Link. -/
theorem labelCompletesWhenEverySegmentIsPresent : Obligations.LabelCompletesWhenEverySegmentIsPresent := by
  refine ⟨candidate_iff, fun s hr => ⟨completeLabels s, command_running hr, completeLabels_label s, ?_, ?_, ?_, ?_,
    completeLabels_repeated⟩⟩
  · exact (completeLabels_eff (n := 1) (le_refl 1) s).candidates (by omega)
  · exact (completeLabels_eff (n := 1) (le_refl 1) s).table (by omega)
  · exact (completeLabels_eff (n := 1) (le_refl 1) s).intake (by omega)
  · intro i text service hc hf hv halone
    rw [completeLabels_single halone]
    exact completeLabel_link hc hf hv

end Sys2Proof.Machine
end

section
/-! SELECT where no lane is opened: in standby, and of a service that the active bank lacks (R43, R121, R139, R161, log 25). -/

namespace Sys2Proof.Machine

/-! ### What giving up references keeps -/

/-- At rank 0 the Delivery Link is kept but for its causes. -/
theorem Eff.link0 {s t : State} (h : Eff 0 s t) : t.link = { s.link with causes := t.link.causes } :=
  h.preserves (P := fun t => t.link = { s.link with causes := t.link.causes }) (fun u v k hu => by
    rw [k.rank0.2.2.2, hu]) rfl

/-- Below rank 3 the Lane Map is kept but for its index. -/
theorem Eff.laneMap_index {n : Nat} {s t : State} (hn : n < 3) (h : Eff n s t) :
    t.laneMap = { s.laneMap with index := t.laneMap.index } :=
  congrArg (fun m : LaneMap => { m with index := t.laneMap.index }) (h.laneMap hn)

/-- Below rank 6 the profiles are kept. -/
theorem Change.profiles_eq {n : Nat} {s t : State} (hn : n < 6) (h : Change n s t) : t.store.profiles = s.store.profiles := by
  cases h with
  | audioJoins _ p => obtain ⟨_, _, e⟩ := joinAudio_fields p s; rw [e]; rfl
  | dataJoins _ p => obtain ⟨_, _, e⟩ := joinData_fields p s; rw [e]; rfl
  | labelJoins _ p => obtain ⟨_, _, e⟩ := joinLabel_fields p s; rw [e]; rfl
  | profiles => omega
  | _ => rfl

theorem Eff.profiles {n : Nat} {s t : State} (hn : n < 6) (h : Eff n s t) : t.store.profiles = s.store.profiles :=
  h.keeps (f := fun s => s.store.profiles) fun _ _ k => k.profiles_eq hn

/-! ### SELECT as an order (R121) -/

/-- SELECT is carried out at once in a part that is ready for it (R165). -/
theorem exec_select (ref slot : Byte) (service : Word16) (code wants : Byte) {s : State} (h : readyForOrder s) :
    exec (.select ref slot service code wants) s =
      let o := selectSlot slot service code wants (heard s)
      carriedOut s ref 0x01 o.1 o.2.1 o.2.2 := by
  have ho : orderOutcome 0x01 [slot, highByte service, lowByte service, code, wants] (heard s) =
      selectSlot slot (wordOf (highByte service) (lowByte service)) code wants (heard s) := rfl
  rw [wordOf_bytes] at ho
  have k := exec_order ref 0x01 [slot, highByte service, lowByte service, code, wants] s (by simp) h
  rw [ho] at k
  exact k

theorem otherForeground_none {s : State} {i : Fin 5} (h : ∀ j : Fin 5, j ≠ 4 → j ≠ i → (s.slot j).role ≠ some .foreground) :
    otherForeground s i = false := by
  unfold otherForeground
  rw [List.any_eq_false]
  intro j hj
  by_cases hji : j = i
  · simp [hji]
  · simp [h j (mem_hostSlots.1 hj) hji]

/-- The role code is allowed: BACKGROUND, or FOREGROUND where no other slot has that role (R121). -/
def roleAllowed (s : State) (i : Fin 5) (code : Byte) (role : Role) : Prop :=
  (code = 2 ∧ role = .background) ∨
    (code = 1 ∧ role = .foreground ∧ ∀ j : Fin 5, j ≠ 4 → j ≠ i → (s.slot j).role ≠ some .foreground)

theorem roleAllowed_selectRole {s : State} {i : Fin 5} {code : Byte} {role : Role} (h : roleAllowed s i code role) :
    selectRole code = some role := by
  rcases h with ⟨rfl, rfl⟩ | ⟨rfl, rfl, _⟩ <;> rfl

theorem roleAllowed_notBusy {s : State} {i : Fin 5} {code : Byte} {role : Role} (h : roleAllowed s i code role) :
    ¬(role = .foreground ∧ otherForeground s i = true) := by
  rcases h with ⟨_, rfl⟩ | ⟨_, _, h⟩
  · exact fun k => by cases k.1
  · exact fun k => by
      rw [otherForeground_none h] at k
      cases k.2

/-- The state and parked state that SELECT leaves where it opens no lane: in standby, and of an absent service (R121). -/
def heldAs (s : State) (service : Word16) (st : SlotState) (parked : Option SlotState) (stCode : Byte) : Prop :=
  (s.announcer.power = .standby ∧ st = .parked ∧ parked = some .waiting ∧ stCode = 5) ∨
    (s.announcer.power = .active ∧ activeService s service = none ∧ st = .waiting ∧ parked = none ∧ stCode = 1)

section Held

variable {slot : Byte} {service : Word16} {code wants : Byte} {role : Role} {i : Fin 5} {s : State} {st : SlotState}
  {parked : Option SlotState} {stCode : Byte}

theorem selectSlot_held (hi4 : i ≠ 4) (hi : slot.toNat = i.val) (hr : roleAllowed s i code role)
    (hst : heldAs s service st parked stCode) : selectSlot slot service code wants s =
      (.accepted, selectData i st noRefs noRefs,
        consumeEarly i (selectHeld i st parked service role (wants.getLsbD 0) (wants.getLsbD 1) s)) := by
  have hlt : slot.toNat < 4 := by
    have := i.isLt
    have : i.val ≠ 4 := fun e => hi4 (Fin.ext e)
    omega
  have hfin : (⟨slot.toNat, Nat.lt_succ_of_lt hlt⟩ : Fin 5) = i := Fin.ext hi
  unfold selectSlot
  rw [dif_pos hlt, hfin, roleAllowed_selectRole hr]
  dsimp only
  rw [if_neg (roleAllowed_notBusy hr)]
  rcases hst with ⟨hp, rfl, rfl, _⟩ | ⟨hp, hs, rfl, rfl, _⟩
  · rw [if_pos hp]
  · rw [if_neg (by simp [hp]), hs]

/-- The answer data where no lane is opened: the state left, and no role wanted (R123). -/
theorem selectData_held (hi : slot.toNat = i.val) (hst : heldAs s service st parked stCode) :
    selectData i st noRefs noRefs = [slot, stCode, 0, 0, 0, 0, 0, 0] := by
  have hslot : BitVec.ofNat 8 i.val = slot := by rw [← hi, BitVec.ofNat_toNat, BitVec.setWidth_eq]
  unfold selectData
  rw [hslot]
  rcases hst with ⟨_, rfl, _, rfl⟩ | ⟨_, _, rfl, _, rfl⟩ <;> rfl

end Held

/-! ### The frame of the Selection Controller's orders -/

/-- The thresholds and masks of a slot do not depend on its roles. -/
theorem thresholds_of_outline {x y : Slot} (h : x.outline = y.outline) :
    x.thHi = y.thHi ∧ x.thLo = y.thLo ∧ x.riseMask = y.riseMask ∧ x.fallMask = y.fallMask := by
  unfold Slot.outline at h
  injection h
  exact ⟨‹_›, ‹_›, ‹_›, ‹_›⟩

/-- Changes of rank 0 keep to the frame of the Selection Controller's orders. -/
theorem Eff.selectionFrame {s t : State} (h : Eff 0 s t) : selectionFrame s t := by
  refine ⟨h.intake (by omega), h.laneMap_index (by omega), ?_, h.profiles (by omega), fun i => thresholds_of_outline (h.outline i),
    h.announcer0, h.earlyLow, ?_, h.pending⟩
  · rw [h.directory0]
  · exact congrArg (fun l : Link => { l with
      audio := t.link.audio, data := t.link.data, labels := t.link.labels }) h.link0

theorem selectionFrame_trans {s t u : State} (h : selectionFrame s t) (k : selectionFrame t u) : selectionFrame s u := by
  obtain ⟨hintake, hmap, hdir, hprofiles, hthresholds, hann, hearly, hlink, hpending⟩ := h
  obtain ⟨kintake, kmap, kdir, kprofiles, kthresholds, kann, kearly, klink, kpending⟩ := k
  refine ⟨kintake.trans hintake, ?_, ?_, kprofiles.trans hprofiles, fun i => ?_, kann.trans hann, kearly.trans hearly, ?_,
    kpending.trans hpending⟩
  · exact kmap.trans (congrArg (fun m : LaneMap => { m with index := u.laneMap.index }) hmap)
  · exact kdir.trans (congrArg (fun d : Directory => { d with labels := u.directory.labels }) hdir)
  · obtain ⟨h1, h2, h3, h4⟩ := hthresholds i
    obtain ⟨k1, k2, k3, k4⟩ := kthresholds i
    exact ⟨k1.trans h1, k2.trans h2, k3.trans h3, k4.trans h4⟩
  · exact klink.trans (congrArg (fun l : Link => { l with
      audio := u.link.audio, data := u.link.data, labels := u.link.labels, causes := u.link.causes }) hlink)

/-! ### What SELECT leaves where it opens no lane (R121, R139, R161) -/

section Left

variable (i : Fin 5) (st : SlotState) (parked : Option SlotState) (service : Word16) (role : Role) (wantTwin wantData : Bool)

/-- What follows once the slot has given up its references: the slot is set, its packets leave, its label buffer is emptied, SELECTION
is raised, and the early start is consumed. -/
def heldAfter (s : State) : State :=
  consumeEarly i (raise (.selection i st) (emptyLabel i
    ((removeSlotPackets i (s.updSlot i Slot.clearRoles)).updSlot i fun x =>
      heldSlot x st parked service role wantTwin wantData)))

theorem selectHeld_eq (s : State) : consumeEarly i (selectHeld i st parked service role wantTwin wantData s) =
    heldAfter i st parked service role wantTwin wantData (dropReferences (s.slot i) s) := rfl

variable (s : State)

theorem heldAfter_slot (j : Fin 5) : (heldAfter i st parked service role wantTwin wantData s).slot j =
    if j = i then { heldSlot (s.slot i).outline st parked service role wantTwin wantData with early := false } else s.slot j := by
  have hearly : ∀ v : State, (consumeEarly i v).slot j = if j = i then { v.slot i with early := false } else v.slot j :=
    fun _ => slot_updSlot _ _ _ _
  have hlabel : ∀ (v : State) (k : Fin 5), (emptyLabel i v).slot k = v.slot k := fun _ _ => rfl
  have hpackets : ∀ (v : State) (k : Fin 5), (removeSlotPackets i v).slot k = v.slot k := fun _ _ => rfl
  unfold heldAfter
  rw [hearly]
  simp only [raise_slot, hlabel, slot_updSlot, hpackets, if_true]
  split <;> rfl

theorem heldAfter_frame : selectionFrame s (heldAfter i st parked service role wantTwin wantData s) := by
  refine ⟨rfl, rfl, rfl, rfl, fun j => ?_, rfl, rfl, rfl, rfl⟩
  rw [heldAfter_slot]
  split
  · rename_i hj
    subst hj
    exact ⟨rfl, rfl, rfl, rfl⟩
  · exact ⟨rfl, rfl, rfl, rfl⟩

theorem heldAfter_noPackets : noPacketsOf (heldAfter i st parked service role wantTwin wantData s) i :=
  ⟨fun _ hp => of_decide_eq_true (List.mem_filter.1 hp).2, fun _ hp => of_decide_eq_true (List.mem_filter.1 hp).2,
    fun _ hp => of_decide_eq_true (List.mem_filter.1 hp).2⟩

theorem heldAfter_label : label (heldAfter i st parked service role wantTwin wantData s) i = LabelBuffer.reset :=
  Vector.getElem_set_self i.isLt

end Left

/-- Settles O54: both cases give up the references of the slot and leave one state, which is read field by field. -/
theorem selectHeldWithoutLanes : Obligations.SelectHeldWithoutLanes := by
  intro ref slot service code wants role i s h hi4 hi hr st parked stCode hst
  have hsel := selectSlot_held (s := heard s) (wants := wants) hi4 hi hr hst
  rw [selectHeld_eq, selectData_held (s := heard s) hi hst] at hsel
  have hexec := exec_select ref slot service code wants h
  rw [hsel] at hexec
  have hdrop : Eff 0 (heard s) (dropReferences ((heard s).slot i) (heard s)) := dropReferences_eff _ _
  have hout : ∀ j, ((dropReferences ((heard s).slot i) (heard s)).slot j).outline = (s.slot j).outline := hdrop.outline
  generalize dropReferences ((heard s).slot i) (heard s) = t at *
  refine ⟨_, hexec, ?_, rfl, heldAfter_label .., heldAfter_noPackets ..,
    selectionFrame_trans hdrop.selectionFrame (heldAfter_frame ..), raise_own_cause (.selection i st) _, fun j hj => ?_⟩
  · rw [heldAfter_slot, if_pos rfl, hout]
    rfl
  · rw [heldAfter_slot, if_neg hj]
    have hstate := congrArg Slot.state (hout j)
    have hservice := congrArg Slot.service (hout j)
    exact ⟨hstate, hservice⟩

end Sys2Proof.Machine
end

section
/-! The opening of slots that hold nothing, and what it leaves alone elsewhere: WAITING_SLOT_OPENS and RESUME (R126, R154). -/

namespace Sys2Proof.Machine

/-! ### Folds in which few items act -/

/-- A fold each of whose items leaves the state leaves it. -/
theorem foldl_still {α : Type} {f : State → α → State} {s : State} (l : List α) (h : ∀ a ∈ l, f s a = s) : l.foldl f s = s := by
  induction l with
  | nil => rfl
  | cons a rest ih =>
    rw [List.foldl_cons, h a List.mem_cons_self]
    exact ih fun b hb => h b (List.mem_cons_of_mem a hb)

/-- A fold in which one item alone acts is that item's step. -/
theorem foldl_single {α : Type} {f : State → α → State} {a : α} {l : List α} (hl : l.Nodup) (ha : a ∈ l) {s : State}
    (before : ∀ b ∈ l, b ≠ a → f s b = s) (after : ∀ b ∈ l, b ≠ a → f (f s a) b = f s a) : l.foldl f s = f s a := by
  obtain ⟨l1, l2, rfl⟩ := List.append_of_mem ha
  obtain ⟨_, h2, h12⟩ := List.nodup_append.1 hl
  rw [List.foldl_append, List.foldl_cons, foldl_still l1 fun b hb => ?_, foldl_still l2 fun b hb => ?_]
  · exact after b (List.mem_append_right l1 (List.mem_cons_of_mem a hb)) fun e => (List.nodup_cons.1 h2).1 (e ▸ hb)
  · exact before b (List.mem_append_left _ hb) (h12 b hb a List.mem_cons_self)

/-- A fold over slots that keeps P until it comes to slot i, turns it into Q there, and keeps Q after it. -/
theorem foldl_comes_to {P Q : State → Prop} {f : State → Fin 5 → State} {i : Fin 5} {l : List (Fin 5)} (hl : l.Nodup) (hi : i ∈ l)
    (before : ∀ s j, i ≠ j → P s → P (f s j)) (own : ∀ s, P s → Q (f s i)) (after : ∀ s j, i ≠ j → Q s → Q (f s j)) {s : State}
    (hs : P s) : Q (l.foldl f s) := by
  obtain ⟨l1, l2, rfl⟩ := List.append_of_mem hi
  obtain ⟨_, h2, h12⟩ := List.nodup_append.1 hl
  rw [List.foldl_append, List.foldl_cons]
  exact foldl_others after l2 (List.nodup_cons.1 h2).1 _
    (own _ (foldl_others before l1 (fun h => h12 i h i List.mem_cons_self rfl) _ hs))

theorem hostSlots_nodup : hostSlots.Nodup := by decide

/-! ### What requests leave alone (R87, R122) -/

/-- Two states that differ in the contexts, the free column stack and the position index alone. -/
def LanesOnly (s u : State) : Prop :=
  ∃ contexts free index, u =
    { s with contexts := contexts, store := { s.store with free := free }, laneMap := { s.laneMap with index := index } }

theorem LanesOnly.refl (s : State) : LanesOnly s s := ⟨s.contexts, s.store.free, s.laneMap.index, rfl⟩

theorem LanesOnly.trans {s t u : State} (h : LanesOnly s t) (k : LanesOnly t u) : LanesOnly s u := by
  obtain ⟨_, _, _, rfl⟩ := h
  obtain ⟨contexts, free, index, rfl⟩ := k
  exact ⟨contexts, free, index, rfl⟩

theorem LanesOnly.foldlFst {α β : Type} {f : State × β → α → State × β} (hf : ∀ a x, LanesOnly a.1 (f a x).1) (l : List α)
    (a : State × β) : LanesOnly a.1 (l.foldl f a).1 := by
  induction l generalizing a with
  | nil => exact .refl _
  | cons x rest ih => exact (hf a x).trans (ih _)

theorem addRef_lanes (c : Fin 16) (s : State) : LanesOnly s (addRef c s) := ⟨_, s.store.free, s.laneMap.index, rfl⟩

theorem requestCtx_lanes (x : Nat) (first : Count) (s : State) : LanesOnly s (requestCtx x first s).2 := by
  unfold requestCtx
  split
  · exact addRef_lanes _ s
  · split
    · exact .refl s
    · split
      · exact .refl s
      · split
        · exact .refl s
        · exact ⟨_, _, _, rfl⟩

theorem LanesOnly.slot {s u : State} (h : LanesOnly s u) (i : Fin 5) : u.slot i = s.slot i := by
  obtain ⟨_, _, _, rfl⟩ := h
  rfl

theorem shareStep_lanes (acc : State × Refs) (q : RoleIx × Nat) : LanesOnly acc.1 (shareStep acc q).1 := by
  unfold shareStep
  split
  · exact addRef_lanes _ _
  · exact .refl _

theorem openStep_lanes (first : Count) (acc : State × Refs) (q : RoleIx × Nat) : LanesOnly acc.1 (openStep first acc q).1 := by
  unfold openStep
  split
  · exact .refl _
  · exact requestCtx_lanes _ _ _

/-- Sharing and requests touch the lanes alone. -/
theorem openedRoles_lanes (w : List (RoleIx × Nat)) (first : Count) (s : State) : LanesOnly s (openedRoles w first id s).1 :=
  (LanesOnly.foldlFst shareStep_lanes w (s, noRefs)).trans (LanesOnly.foldlFst (openStep_lanes first) w _)

/-! ### What the opening, suspending or waiting of one slot leaves alone (R123, R126) -/

/-- Outside the slots and contexts u is as s but for the free columns, the position index and the causes; thresholds and masks are
kept. -/
structure OutsideSlots (s u : State) : Prop where
  frame : selectionFrame s u
  directory : u.directory = s.directory
  cells : u.store.cells = s.store.cells
  link : u.link = { s.link with causes := u.link.causes }

theorem OutsideSlots.refl (s : State) : OutsideSlots s s :=
  ⟨⟨rfl, rfl, rfl, rfl, fun _ => ⟨rfl, rfl, rfl, rfl⟩, rfl, rfl, rfl, rfl⟩, rfl, rfl, rfl⟩

theorem OutsideSlots.trans {s t u : State} (h : OutsideSlots s t) (k : OutsideSlots t u) : OutsideSlots s u :=
  ⟨selectionFrame_trans h.frame k.frame, k.directory.trans h.directory, k.cells.trans h.cells,
    k.link.trans (congrArg (fun l : Link => { l with causes := u.link.causes }) h.link)⟩

theorem OutsideSlots.foldl {α : Type} {f : State → α → State} (hf : ∀ s x, OutsideSlots s (f s x)) (l : List α) (s : State) :
    OutsideSlots s (l.foldl f s) := by
  induction l generalizing s with
  | nil => exact .refl s
  | cons x rest ih => exact (hf s x).trans (ih _)

theorem LanesOnly.outside {s u : State} (h : LanesOnly s u) : OutsideSlots s u := by
  obtain ⟨_, _, _, rfl⟩ := h
  exact ⟨⟨rfl, rfl, rfl, rfl, fun _ => ⟨rfl, rfl, rfl, rfl⟩, rfl, rfl, rfl, rfl⟩, rfl, rfl, rfl⟩

/-- A slot takes a value with the thresholds and masks it had, and a cause is raised. -/
theorem raised_slot_outside {s : State} {i : Fin 5} {f : Slot → Slot} (a : Attention)
    (h : (f (s.slot i)).thHi = (s.slot i).thHi ∧ (f (s.slot i)).thLo = (s.slot i).thLo ∧
      (f (s.slot i)).riseMask = (s.slot i).riseMask ∧ (f (s.slot i)).fallMask = (s.slot i).fallMask) :
    OutsideSlots s (raise a (s.updSlot i f)) := by
  refine ⟨⟨rfl, rfl, rfl, rfl, fun j => ?_, rfl, rfl, rfl, rfl⟩, rfl, rfl, rfl⟩
  rw [raise_slot, slot_updSlot]
  split
  · rename_i hj
    rw [hj]
    exact h
  · exact ⟨rfl, rfl, rfl, rfl⟩

section Opened

variable (i : Fin 5) (service : Word16) (role : Option Role) (wantTwin wantData : Bool) (refs : Refs) (s : State)

theorem setOpened_outside : OutsideSlots s (setOpened i service role wantTwin wantData refs s) :=
  raised_slot_outside _ ⟨rfl, rfl, rfl, rfl⟩

theorem setOpened_slot_self : (setOpened i service role wantTwin wantData refs s).slot i =
    openedSlot s (s.slot i) service role wantTwin wantData refs := by
  unfold setOpened
  rw [raise_slot, slot_updSlot_self]

theorem setOpened_slot_other {j : Fin 5} (h : j ≠ i) : (setOpened i service role wantTwin wantData refs s).slot j = s.slot j := by
  unfold setOpened
  rw [raise_slot, slot_updSlot, if_neg h]

/-- A slot that takes the fields of R123 is open. -/
theorem setOpened_openedAs : openedAs (setOpened i service role wantTwin wantData refs s) i service role wantTwin wantData := by
  unfold openedAs
  rw [setOpened_slot_self]
  exact ⟨rfl, rfl, rfl, rfl, rfl, rfl, rfl, rfl, rfl, rfl, rfl⟩

end Opened

/-- Slot i has opened in u, and nothing outside the lanes, that slot and its SELECTION attention has changed (R123, R126). -/
structure OpenedAlone (s u : State) (i : Fin 5) (e : ServiceEntry) : Prop where
  opened : openedAs u i e.service (s.slot i).role (s.slot i).wantTwin (s.slot i).wantData
  others : ∀ j, j ≠ i → u.slot j = s.slot j
  outside : OutsideSlots s u
  selection : u.link.causes[(5 : Fin 9)] = { pending := true, detail := some (.selection i .opening) }

theorem openHeldSlot_alone (i : Fin 5) (e : ServiceEntry) (first : Count) (s : State) :
    OpenedAlone s (openHeldSlot i e first s) i e := by
  have lanes := openedRoles_lanes (wantedRoles i e (s.slot i).wantTwin (s.slot i).wantData) first s
  exact ⟨setOpened_openedAs _ _ _ _ _ _ _, fun j hj => (setOpened_slot_other _ _ _ _ _ _ _ hj).trans (lanes.slot j),
    lanes.outside.trans (setOpened_outside _ _ _ _ _ _ _), raise_own_cause (.selection i .opening) _⟩

/-- A slot SUSPENDED for room keeps its outgoing contexts (R61, R126). -/
theorem suspendRoom_eq (i : Fin 5) (s : State) : suspendRoom i s = raise (.selection i .suspended) (s.updSlot i fun x =>
    { x with
      state := .suspended, roles := Vector.ofFn fun r => { x.roles[r] with ref := .notWanted }, cause := some .room,
      parked := none }) := by
  unfold suspendRoom enterSlotState
  rw [updSlot_updSlot]
  rfl

/-! ### A slot reopened (R126, R150, R154) -/

section Reopen

variable {i : Fin 5} {s : State} {e : ServiceEntry}

theorem reopenSlot_absent (h : (s.slot i).service.bind (activeService s) = none) : reopenSlot i s = becomeWaiting i s := by
  unfold reopenSlot
  rw [h]

theorem reopenSlot_fits (h : (s.slot i).service.bind (activeService s) = some e) (fits : serviceFits s e [] = true) :
    reopenSlot i s = openHeldSlot i e (nextFrameCount s) s := by
  unfold reopenSlot
  rw [h]
  exact if_pos fits

theorem reopenSlot_noRoom (h : (s.slot i).service.bind (activeService s) = some e) (full : serviceFits s e [] = false) :
    reopenSlot i s = suspendRoom i s := by
  unfold reopenSlot
  rw [h]
  exact if_neg (by simp [full])

/-- A reopened slot has no service in the bank, one that fits, or one that does not. -/
theorem reopenSlot_cases (i : Fin 5) (s : State) :
    ((s.slot i).service.bind (activeService s) = none ∧ reopenSlot i s = becomeWaiting i s) ∨
      ∃ e, (s.slot i).service.bind (activeService s) = some e ∧
        ((serviceFits s e [] = true ∧ reopenSlot i s = openHeldSlot i e (nextFrameCount s) s) ∨
          (serviceFits s e [] = false ∧ reopenSlot i s = suspendRoom i s)) := by
  cases h : (s.slot i).service.bind (activeService s) with
  | none => exact .inl ⟨rfl, reopenSlot_absent h⟩
  | some e =>
    cases fits : serviceFits s e [] with
    | true => exact .inr ⟨e, rfl, .inl ⟨fits, reopenSlot_fits h fits⟩⟩
    | false => exact .inr ⟨e, rfl, .inr ⟨fits, reopenSlot_noRoom h fits⟩⟩

theorem reopenSlot_outside (i : Fin 5) (s : State) : OutsideSlots s (reopenSlot i s) := by
  rcases reopenSlot_cases i s with ⟨_, h⟩ | ⟨e, _, ⟨_, h⟩ | ⟨_, h⟩⟩ <;> rw [h]
  · rw [becomeWaiting_eq]
    exact raised_slot_outside _ ⟨rfl, rfl, rfl, rfl⟩
  · exact (openHeldSlot_alone i e _ s).outside
  · rw [suspendRoom_eq]
    exact raised_slot_outside _ ⟨rfl, rfl, rfl, rfl⟩

theorem reopenSlot_other {j : Fin 5} (hj : j ≠ i) (s : State) : (reopenSlot i s).slot j = s.slot j := by
  rcases reopenSlot_cases i s with ⟨_, h⟩ | ⟨e, _, ⟨_, h⟩ | ⟨_, h⟩⟩ <;> rw [h]
  · rw [becomeWaiting_eq, raise_slot, slot_updSlot, if_neg hj]
  · exact (openHeldSlot_alone i e _ s).others j hj
  · rw [suspendRoom_eq, raise_slot, slot_updSlot, if_neg hj]

end Reopen

/-! ### WAITING_SLOT_OPENS (R126) -/

/-- Slot i waits for a service that the active bank holds. -/
def waitsForEntry (s : State) (i : Fin 5) : Prop :=
  (s.slot i).state = .waiting ∧ ((s.slot i).service.bind (activeService s)).isSome = true

/-- Where no host slot waits for an entry of the bank, none opens. -/
theorem openWaitingSlots_none {s : State} (h : ∀ i, i ≠ 4 → ¬waitsForEntry s i) : openWaitingSlots s = s :=
  foldl_still hostSlots fun i hi => if_neg (h i (mem_hostSlots.1 hi))

/-- Where one slot alone is WAITING, it alone is reopened. -/
theorem openWaitingSlots_single {s : State} {i : Fin 5} (hi : i ≠ 4) (h : waitsForEntry s i)
    (alone : ∀ j, j ≠ i → (s.slot j).state ≠ .waiting) : openWaitingSlots s = reopenSlot i s := by
  have own : (if (s.slot i).state = .waiting ∧ ((s.slot i).service.bind (activeService s)).isSome then reopenSlot i s else s) =
      reopenSlot i s := if_pos h
  refine (foldl_single hostSlots_nodup (mem_hostSlots.2 hi) (fun j _ hj => if_neg fun k => alone j hj k.1)
    fun j _ hj => if_neg fun k => alone j hj ?_).trans own
  rw [own, reopenSlot_other hj] at k
  exact k.1

/-- Settles O38: the row folds over the host slots, and where one alone waits the fold is its reopening. -/
theorem waitingSlotOpens : Obligations.WaitingSlotOpens := by
  have hexec : ∀ s : State, s.running = true → exec .waitingSlotOpens s = .next (endEvent s (openWaitingSlots s)) :=
    fun _ => command_running
  refine ⟨hexec, fun s => ?_, fun i e s hr hi hw he alone => ?_, fun s hr h => ?_⟩
  · simp only [← Option.isSome_iff_ne_none]
    rfl
  · have single := openWaitingSlots_single hi ⟨hw, by rw [he]; rfl⟩ alone
    rw [hexec s hr, single]
    refine ⟨fun fits => ?_, fun full => ?_⟩
    · have roles := rolesOpened_reopenSlot he fits
      rw [reopenSlot_fits he fits] at roles ⊢
      obtain ⟨opened, others, outside, selection⟩ := openHeldSlot_alone i e (nextFrameCount s) s
      exact ⟨_, rfl, opened, roles, others, outside.frame, outside.directory, outside.cells, outside.link, selection⟩
    · rw [reopenSlot_noRoom he full, suspendRoom_eq]
  · rw [hexec s hr, openWaitingSlots_none]
    rintro i hi ⟨hw, hs⟩
    rw [h i hi hw] at hs
    cases hs

/-! ### RESUME (R154) -/

/-- A slot as RESUME leaves one that was PARKED, given the entry of its service in the active bank (R126, R154). -/
def reopenedFrom (x : Slot) (entry : Option ServiceEntry) (i : Fin 5) (u : State) : Prop :=
  (entry = none → (u.slot i).state = .waiting ∧ (u.slot i).service = x.service ∧
    (u.slot i).roles = Vector.replicate 5 RoleRef.none) ∧
  ∀ e, entry = some e → openedAs u i e.service x.role x.wantTwin x.wantData ∨
    ((u.slot i).state = .suspended ∧ (u.slot i).cause = some .room ∧ (u.slot i).parked = none ∧
      (u.slot i).roles = Vector.ofFn fun r => { x.roles[r] with ref := .notWanted })

theorem reopenSlot_reopened (i : Fin 5) (s : State) :
    reopenedFrom (s.slot i) ((s.slot i).service.bind (activeService s)) i (reopenSlot i s) := by
  rcases reopenSlot_cases i s with ⟨ha, h⟩ | ⟨e, he, ⟨_, h⟩ | ⟨_, h⟩⟩
  · rw [ha, h, becomeWaiting_eq]
    unfold reopenedFrom
    rw [raise_slot, slot_updSlot_self]
    exact ⟨fun _ => ⟨rfl, rfl, rfl⟩, nofun⟩
  · rw [he, h]
    refine ⟨nofun, ?_⟩
    intro e k
    cases k
    exact .inl (openHeldSlot_alone i e _ s).opened
  · rw [he, h, suspendRoom_eq]
    refine ⟨nofun, ?_⟩
    intro e k
    cases k
    rw [raise_slot, slot_updSlot_self]
    exact .inr ⟨rfl, rfl, rfl, rfl⟩

/-- What is left of a slot depends on that slot alone. -/
theorem reopenedFrom_congr {x : Slot} {entry : Option ServiceEntry} {i : Fin 5} {u v : State} (h : v.slot i = u.slot i)
    (k : reopenedFrom x entry i u) : reopenedFrom x entry i v := by
  unfold reopenedFrom openedAs at k ⊢
  rwa [h]

/-- The step of a warm restart for one slot (R154). -/
def resumeSlot (s : State) (i : Fin 5) : State := if (s.slot i).state = .parked then reopenSlot i s else s

theorem resumeSlot_parked {s : State} {i : Fin 5} (h : (s.slot i).state = .parked) : resumeSlot s i = reopenSlot i s := if_pos h

theorem resumeSlot_other {i j : Fin 5} (h : i ≠ j) (s : State) : (resumeSlot s j).slot i = s.slot i := by
  unfold resumeSlot
  split
  · exact reopenSlot_other h s
  · rfl

theorem resumeSlot_outside (s : State) (i : Fin 5) : OutsideSlots s (resumeSlot s i) := by
  unfold resumeSlot
  split
  · exact reopenSlot_outside i s
  · exact .refl s

theorem OutsideSlots.active {s u : State} (h : OutsideSlots s u) : u.laneMap.active = s.laneMap.active := by
  obtain ⟨_, hmap, _⟩ := h.frame
  rw [hmap]

/-- Every PARKED host slot is reopened in its turn (R154). -/
theorem resumeSlots_reopened {s : State} {i : Fin 5} (hi : i ≠ 4) (h : (s.slot i).state = .parked) :
    reopenedFrom (s.slot i) ((s.slot i).service.bind (activeService s)) i (hostSlots.foldl resumeSlot s) := by
  refine foldl_comes_to (P := fun v => v.slot i = s.slot i ∧ v.laneMap.active = s.laneMap.active)
    (Q := reopenedFrom (s.slot i) ((s.slot i).service.bind (activeService s)) i) hostSlots_nodup (mem_hostSlots.2 hi)
    (fun v j hj hv => ?_) (fun v hv => ?_) (fun v j hj => reopenedFrom_congr (resumeSlot_other hj v)) ⟨rfl, rfl⟩
  · exact ⟨(resumeSlot_other hj v).trans hv.1, (resumeSlot_outside v j).active.trans hv.2⟩
  · obtain ⟨hslot, hbank⟩ := hv
    have entry : (v.slot i).service.bind (activeService v) = (s.slot i).service.bind (activeService s) := by
      unfold activeService
      rw [hslot, hbank]
    have k := reopenSlot_reopened i v
    rw [entry, hslot] at k
    rwa [resumeSlot_parked (hslot ▸ h)]

/-- A slot that is not PARKED, and slot 4, stay as they are. -/
theorem resumeSlots_kept {s : State} {i : Fin 5} (h : i = 4 ∨ (s.slot i).state ≠ .parked) :
    (hostSlots.foldl resumeSlot s).slot i = s.slot i := by
  by_cases hi : i = 4
  · exact foldl_others (P := fun v => v.slot i = s.slot i) (fun v j hj hv => (resumeSlot_other hj v).trans hv) hostSlots
      (fun k => mem_hostSlots.1 k hi) s rfl
  · refine foldl_comes_to (P := fun v => v.slot i = s.slot i) (Q := fun v => v.slot i = s.slot i) hostSlots_nodup
      (mem_hostSlots.2 hi) (fun v j hj hv => (resumeSlot_other hj v).trans hv) (fun v hv => ?_)
      (fun v j hj hv => (resumeSlot_other hj v).trans hv) rfl
    unfold resumeSlot
    rw [if_neg (hv ▸ h.resolve_left hi), hv]

/-- Where one host slot alone is PARKED, the restart is its reopening. -/
theorem resumeSlots_single {s : State} {i : Fin 5} (hi : i ≠ 4) (h : (s.slot i).state = .parked)
    (alone : ∀ j, j ≠ 4 → j ≠ i → (s.slot j).state ≠ .parked) : hostSlots.foldl resumeSlot s = reopenSlot i s := by
  refine (foldl_single hostSlots_nodup (mem_hostSlots.2 hi) (fun j hm hj => if_neg (alone j (mem_hostSlots.1 hm) hj))
    fun j hm hj => if_neg ?_).trans (resumeSlot_parked h)
  rw [resumeSlot_parked h, reopenSlot_other hj]
  exact alone j (mem_hostSlots.1 hm) hj

/-- A slot with its service in the bank opens when it fits and is SUSPENDED when not, its detail in SELECTION (R126, R136). -/
theorem reopenSlot_present {i : Fin 5} {s : State} {e : ServiceEntry} (he : (s.slot i).service.bind (activeService s) = some e) :
    (((reopenSlot i s).slot i).state = .opening ↔ serviceFits s e [] = true) ∧ (reopenSlot i s).link.causes[(5 : Fin 9)] =
      { pending := true, detail := some (.selection i ((reopenSlot i s).slot i).state) } := by
  cases fits : serviceFits s e [] with
  | true =>
    rw [reopenSlot_fits he fits]
    obtain ⟨⟨hstate, _⟩, _, _, hcause⟩ := openHeldSlot_alone i e (nextFrameCount s) s
    exact ⟨iff_of_true hstate rfl, by rw [hstate, hcause]⟩
  | false =>
    rw [reopenSlot_noRoom he fits, suspendRoom_eq]
    have hstate : ∀ f : Slot → Slot, (f (s.slot i)).state = .suspended →
        ((raise (.selection i .suspended) (s.updSlot i f)).slot i).state = .suspended := fun f hf => by
      rw [raise_slot, slot_updSlot_self, hf]
    rw [hstate _ rfl]
    exact ⟨by simp, raise_own_cause (.selection i .suspended) _⟩

/-- The part in ACTIVE with WAKE low, before its slots are reopened (R154). -/
def resumed (s : State) : State := s.updAnnouncer fun a => { a with power := .active, wakeLine := false }

theorem resumeOrder_active {s : State} (h : s.announcer.power = .active) :
    resumeOrder s = (.notNow, [], s.updAnnouncer fun a => { a with wakeLine := false }) := by
  unfold resumeOrder
  rw [h]

/-- RESUME in standby is a warm restart, which folds over the host slots (R154). -/
theorem resumeOrder_standby {s : State} (h : s.announcer.power = .standby) :
    resumeOrder s = (.accepted, [], hostSlots.foldl resumeSlot (resumed s)) := by
  have restart : warmRestart (s.updAnnouncer fun a => { a with wakeLine := false }) = hostSlots.foldl resumeSlot (resumed s) := by
    unfold warmRestart resumed
    rfl
  unfold resumeOrder
  rw [h, ← restart]

/-- RESUME is carried out at once in a part that is ready for it (R165). -/
theorem exec_resume (ref : Byte) {s : State} (h : readyForOrder s) :
    exec (.resume ref) s =
      let o := resumeOrder (heard s)
      carriedOut s ref 0x0F o.1 o.2.1 o.2.2 := exec_order ref 0x0F [] s (by simp) h

/-- Settles O52: in standby the order is a warm restart, whose fold is read slot by slot. -/
theorem resumeReopensTheSlots : Obligations.ResumeReopensTheSlots := by
  intro ref s h
  rw [exec_resume ref h]
  refine ⟨fun hp => ?_, fun hp => ⟨hostSlots.foldl resumeSlot (resumed (heard s)), ?_, rfl, ?_⟩⟩
  · rw [resumeOrder_active (s := heard s) hp]
  · rw [resumeOrder_standby (s := heard s) hp]
  · have outside := OutsideSlots.foldl resumeSlot_outside hostSlots (resumed (heard s))
    obtain ⟨⟨hintake, hmap, _, hprofiles, hthresholds, hann, _⟩, hdir, hcells, hlink⟩ := outside
    refine ⟨hann, fun i hi hs => ?_, fun i hs => resumeSlots_kept hs, hintake, hdir, ?_, hprofiles, hcells, hthresholds, hlink⟩
    · obtain ⟨habsent, hpresent⟩ := resumeSlots_reopened (s := resumed (heard s)) hi hs
      refine ⟨habsent, hpresent, fun alone e he => ?_⟩
      rw [resumeSlots_single (s := resumed (heard s)) hi hs alone]
      obtain ⟨hstate, hcause⟩ := reopenSlot_present (s := resumed (heard s)) he
      exact ⟨hstate, fun fits => rolesOpened_reopenSlot (s := resumed (heard s)) he fits, hcause⟩
    · rw [hmap]
      rfl

end Sys2Proof.Machine
end

section
/-! Requests for lane contexts, the position index, and the retry of DEFERRED roles (R64, R65, R77, R87, R88, R127). -/

namespace Sys2Proof.Machine

/-! ### The lowest context that meets a test (R87, R88) -/

/-- The search over the contexts finds the lowest-numbered one. -/
theorem ctxIds_find_iff (p : Fin 16 → Bool) (c : Fin 16) :
    ctxIds.find? p = some c ↔ p c = true ∧ ∀ d, d < c → ¬p d = true := by
  have ids : ctxIds = List.finRange 16 := by decide
  have hget : ∀ (k : Nat) (hk : k < ctxIds.length), ctxIds[k] = ⟨k, hk⟩ := fun k hk => by
    simp [ids]
  rw [List.find?_eq_some_iff_getElem]
  refine and_congr_right fun _ => ⟨?_, fun h => ⟨c.val, c.isLt, hget _ _, fun j hj => ?_⟩⟩
  · rintro ⟨k, hk, rfl, h⟩ d hd
    rw [hget] at hd
    have := h d.val hd
    rw [hget] at this
    simpa using this
  · rw [hget]
    simpa using h ⟨j, _⟩ hj

theorem receiving_iff (x : LaneContext) : x.receiving = true ↔ x.state = .filling ∨ x.state = .running := by
  simp [LaneContext.receiving]

/-- A context holds a lane when its shape is of that lane (R88). -/
theorem lane?_eq_some_iff (x : LaneContext) (lane : Nat) : x.lane? = some lane ↔ ∃ e, x.shape = some e ∧ e.lane = lane := by
  simp [LaneContext.lane?]

theorem receivingLane_iff (s : State) (x : Nat) (c : Fin 16) :
    let holds (c : Fin 16) : Prop := ((s.ctx c).state = .filling ∨ (s.ctx c).state = .running) ∧
      ∃ e, (s.ctx c).shape = some e ∧ e.lane = x
    receivingLane s x = some c ↔ holds c ∧ ∀ d, d < c → ¬holds d := by
  unfold receivingLane
  simp only [ctxIds_find_iff, Bool.and_eq_true, receiving_iff, beq_iff_eq, lane?_eq_some_iff]

theorem freeCtx_iff (s : State) (c : Fin 16) :
    freeCtx s = some c ↔ (s.ctx c).state = .free ∧ ∀ d, d < c → (s.ctx d).state ≠ .free := by
  unfold freeCtx
  simp only [ctxIds_find_iff, beq_iff_eq, ne_eq]

/-! ### The position index (R65) -/

/-- The entry of the bank whose range a context receives. -/
theorem ctxEntry_iff (b : Bank) (x : LaneContext) (e : LaneEntry) :
    x.lane?.bind b.lane? = some e ↔ ∃ held, x.shape = some held ∧ b.lane? held.lane = some e := by
  unfold LaneContext.lane?
  cases x.shape <;> simp

/-- The entries of one context: the tiles of its lane's range in the bank, when it is FILLING or RUNNING. -/
theorem mem_ctxIndex (b : Bank) (c : Fin 16) (x : LaneContext) (i : IndexEntry) : i ∈ ctxIndex b c x ↔
    x.receiving = true ∧ ∃ e, x.lane?.bind b.lane? = some e ∧ ∃ k < e.n, { position := e.start + k, ctx := c, tile := k } = i := by
  unfold ctxIndex
  cases x.receiving with
  | false => simp
  | true => cases x.lane?.bind b.lane? <;> simp

theorem mem_builtIndex (b : Bank) (ctxs : Vector LaneContext 16) (p k : Nat) (c : Fin 16) :
    ({ position := p, ctx := c, tile := k } : IndexEntry) ∈ builtIndex b ctxs ↔
      ((ctxs[c]).state = .filling ∨ (ctxs[c]).state = .running) ∧
        ∃ held e, (ctxs[c]).shape = some held ∧ b.lane? held.lane = some e ∧ k < e.n ∧ p = e.start + k := by
  have own : ({ position := p, ctx := c, tile := k } : IndexEntry) ∈ builtIndex b ctxs ↔
      ({ position := p, ctx := c, tile := k } : IndexEntry) ∈ ctxIndex b c ctxs[c] := by
    unfold builtIndex
    rw [List.mem_flatMap]
    refine ⟨?_, fun h => ⟨c, mem_ctxIds c, h⟩⟩
    rintro ⟨d, _, h⟩
    obtain ⟨_, _, _, _, _, hi⟩ := (mem_ctxIndex _ _ _ _).1 h
    rwa [show d = c from congrArg IndexEntry.ctx hi] at h
  rw [own, mem_ctxIndex, receiving_iff]
  refine and_congr_right fun _ => ⟨?_, ?_⟩
  · rintro ⟨e, he, _, hk, ⟨⟩⟩
    obtain ⟨held, hs, hl⟩ := (ctxEntry_iff _ _ _).1 he
    exact ⟨held, e, hs, hl, hk, rfl⟩
  · rintro ⟨held, e, hs, hl, hk, rfl⟩
    exact ⟨e, (ctxEntry_iff _ _ _).2 ⟨held, hs, hl⟩, k, hk, rfl⟩

/-! ### A request by the first case that applies (R87, R88, R77) -/

section Request

variable {x : Nat} {first : Count} {s : State} {c : Fin 16} {e : LaneEntry}

theorem requestCtx_shared (h : receivingLane s x = some c) : requestCtx x first s = (.shared c, addRef c s) := by
  unfold requestCtx
  rw [h]

theorem requestCtx_noEntry (h : receivingLane s x = none) (he : s.laneMap.active.lane? x = none) :
    requestCtx x first s = (.noEntry, s) := by
  unfold requestCtx
  rw [h, he]

theorem requestCtx_noContext (h : receivingLane s x = none) (he : s.laneMap.active.lane? x = some e) (hc : freeCtx s = none) :
    requestCtx x first s = (.noContext, s) := by
  unfold requestCtx
  rw [h, he, hc]

theorem requestCtx_room (h : receivingLane s x = none) (he : s.laneMap.active.lane? x = some e) (hc : freeCtx s = some c) :
    requestCtx x first s = if s.store.free.length < e.n then (.noColumns, s) else (.opened c, openCtx c e first s) := by
  unfold requestCtx
  rw [h, he, hc]

/-- An opening sets its own context, FILLING with one reference (R88). -/
theorem openCtx_ctx (d : Fin 16) : (openCtx c e first s).ctx d =
    if d = c then { LaneContext.free with
      state := .filling, shape := some e, columns := s.store.free.take e.n, first := some first, refs := 1 }
    else s.ctx d := by
  unfold openCtx
  dsimp only
  rw [rebuildIndex_ctx, ctx_setCtx]
  rfl

end Request

/-- Settles O35: the index entry by entry, the two searches, and the request case by case. -/
theorem requestAnswersFirstCase : Obligations.RequestAnswersFirstCase := by
  refine ⟨mem_builtIndex, fun s x => ⟨receivingLane_iff s x, freeCtx_iff s⟩, fun x first s => ⟨fun c => requestCtx_shared, fun h =>
    ⟨requestCtx_noEntry h, fun e he => ⟨requestCtx_noContext h he, fun c hc => ?_⟩⟩⟩⟩
  rw [requestCtx_room h he hc]
  refine ⟨fun hn => if_pos hn, fun hn => ⟨openCtx c e first s, if_neg (by omega), ?_, fun d hd => ?_, rfl, rfl, rfl⟩⟩
  · rw [openCtx_ctx, if_pos rfl]
  · rw [openCtx_ctx, if_neg hd]

/-! ### DEFERRED roles (R64, R127) -/

theorem mem_roleIxs (r : RoleIx) : r ∈ roleIxs := by
  revert r
  decide

/-- A reference set in one role leaves the other roles (R118). -/
theorem setRef_roleRef_other {x : Slot} {r q : RoleIx} {ref : Ref} (h : q ≠ r) : (x.setRef r ref).roleRef q = x.roleRef q := by
  unfold Slot.setRef Slot.roleRef
  simp only [Fin.getElem_fin]
  rw [Vector.getElem_set, if_neg fun e => h (Fin.ext e.symm)]

section Retry

variable {i : Fin 5} {s : State}

theorem retryDeferred_apart (h1 : (s.slot i).state ≠ .opening) (h2 : (s.slot i).state ≠ .delivering) : retryDeferred i s = s :=
  if_neg fun h => h.elim h1 h2

theorem retryDeferred_open (h : (s.slot i).state = .opening ∨ (s.slot i).state = .delivering) :
    retryDeferred i s = roleIxs.foldl (retryRole i (s.intake.lastClosed + 1)) s := if_pos h

variable {first : Count} {r : RoleIx} {lane : Nat}

theorem retryRole_settled (h : ∀ lane, ((s.slot i).roleRef r).ref ≠ .deferred lane) : retryRole i first s r = s := by
  unfold retryRole
  split
  · rename_i lane hl
    exact absurd hl (h lane)
  · rfl

/-- The context that the answer to a request gives, if any (R87). -/
def RequestAnswer.given : RequestAnswer → Option (Fin 16)
  | .shared c => some c
  | .opened c => some c
  | _ => none

/-- A DEFERRED role takes the context that its request answers; a refusal changes nothing (R64). -/
theorem retryRole_deferred (h : ((s.slot i).roleRef r).ref = .deferred lane) : retryRole i first s r =
    (requestCtx lane first s).1.given.elim s fun c => (requestCtx lane first s).2.updSlot i fun x => x.setRef r (.context c) := by
  unfold retryRole
  rw [h]
  dsimp only
  cases (requestCtx lane first s).1 <;> rfl

/-- A retry leaves the references of every other role and slot. -/
theorem retryRole_other {j : Fin 5} {q : RoleIx} (h : ¬(j = i ∧ q = r)) :
    (((retryRole i first s r).slot j).roleRef q).ref = ((s.slot j).roleRef q).ref := by
  by_cases hd : ∀ lane, ((s.slot i).roleRef r).ref ≠ .deferred lane
  · rw [retryRole_settled hd]
  · obtain ⟨lane, hl⟩ := not_forall_not.1 hd
    rw [retryRole_deferred hl]
    cases (requestCtx lane first s).1.given with
    | none => rfl
    | some c =>
      dsimp only [Option.elim_some]
      rw [slot_updSlot, (requestCtx_lanes lane first s).slot, (requestCtx_lanes lane first s).slot]
      split
      · rename_i hj
        subst hj
        rw [setRef_roleRef_other fun hq => h ⟨rfl, hq⟩]
      · rfl

theorem retryDeferred_settled (h : ∀ q lane, ((s.slot i).roleRef q).ref ≠ .deferred lane) : retryDeferred i s = s := by
  unfold retryDeferred
  split
  · exact foldl_still roleIxs fun q _ => retryRole_settled (h q)
  · rfl

/-- Where one role of an open slot alone is DEFERRED, the slot's retry is that role's. -/
theorem retryDeferred_single (ho : (s.slot i).state = .opening ∨ (s.slot i).state = .delivering)
    (alone : ∀ q lane, ((s.slot i).roleRef q).ref = .deferred lane → q = r) :
    retryDeferred i s = retryRole i (s.intake.lastClosed + 1) s r := by
  rw [retryDeferred_open ho]
  refine foldl_single (by decide) (mem_roleIxs r) (fun q _ hq => retryRole_settled fun lane hl => hq (alone q lane hl))
    fun q _ hq => retryRole_settled fun lane hl => hq (alone q lane ?_)
  rwa [retryRole_other fun k => hq k.2] at hl

/-- Where one role alone is DEFERRED, in an open slot, the row is that role's retry. -/
theorem retryAllDeferred_single (ho : (s.slot i).state = .opening ∨ (s.slot i).state = .delivering)
    (alone : ∀ j q lane, ((s.slot j).roleRef q).ref = .deferred lane → j = i ∧ q = r) :
    retryAllDeferred s = retryRole i (s.intake.lastClosed + 1) s r := by
  have own := retryDeferred_single ho fun q lane hl => (alone i q lane hl).2
  refine (foldl_single slotOrder_nodup (mem_slotOrder i)
    (fun j _ hj => retryDeferred_settled fun q lane hl => hj (alone j q lane hl).1)
    fun j _ hj => retryDeferred_settled fun q lane hl => hj (alone j q lane ?_).1).trans own
  rwa [own, retryRole_other fun k => hj k.1] at hl

theorem retryAllDeferred_settled (h : ∀ j q lane, ((s.slot j).roleRef q).ref ≠ .deferred lane) : retryAllDeferred s = s :=
  foldl_still slotOrder fun j _ => retryDeferred_settled (h j)

end Retry

/-- Settles O36: slot by slot and role by role, and where one role alone is DEFERRED by the answer to its request. -/
theorem deferredRoleIsRetried : Obligations.DeferredRoleIsRetried := by
  have hexec : ∀ s : State, s.running = true → exec .deferredRetry s = .next (endEvent s (retryAllDeferred s)) :=
    fun _ => command_running
  refine ⟨hexec, fun i s => ⟨retryDeferred_open, retryDeferred_apart⟩, fun i first s r => ⟨retryRole_settled, ?_⟩, ?_,
    fun s hr h => ?_⟩
  · rintro lane hl a u ha
    rw [retryRole_deferred hl, ha]
    cases a <;> rfl
  · intro i r lane s hr ho hl alone
    dsimp only
    rw [hexec s hr, retryAllDeferred_single ho alone, retryRole_deferred hl]
    refine ⟨fun c u ha => ?_, fun c u ha => ?_, fun hs hopen => ?_⟩
    · rw [ha]
      rfl
    · rw [ha]
      rfl
    · cases ha : (requestCtx lane (s.intake.lastClosed + 1) s).1 with
      | shared c => exact absurd ha (hs c)
      | opened c => exact absurd ha (hopen c)
      | _ => rfl
  · rw [hexec s hr, retryAllDeferred_settled h]

end Sys2Proof.Machine
end

section
/-! What a commit does to a bank, by the kind of its record (R51 to R53). -/

namespace Sys2Proof.Machine

/-! ### What an insertion leaves to be found (R51, R52) -/

/-- The search for a key looks at the head first. -/
theorem find_key_cons {α β : Type} [DecidableEq β] (key : α → β) (k : β) (a : α) (l : List α) :
    (a :: l).find? (fun o => key o == k) = if k = key a then some a else l.find? fun o => key o == k := by
  by_cases h : k = key a
  · rw [if_pos h, List.find?_cons_of_pos (by simp [h])]
  · rw [if_neg h, List.find?_cons_of_neg (by simpa using Ne.symm h)]

/-- After an insertion the new entry is found under its lane id, and under any other what was found before. -/
theorem find_insertLane (e : LaneEntry) (x : Nat) (l : List LaneEntry) : (insertLane e l).find? (fun o => o.lane == x) =
    if x = e.lane then some e else l.find? fun o => o.lane == x := by
  have front := find_key_cons LaneEntry.lane x
  induction l with
  | nil => exact front e []
  | cons o rest ih =>
    unfold insertLane
    split
    · exact front e (o :: rest)
    · split
      · rename_i heq
        rw [front, front, ← heq]
        split <;> rfl
      · rename_i hne
        rw [front, front, ih]
        by_cases h : x = o.lane
        · rw [if_pos h, if_pos h, if_neg fun k => hne (k.symm.trans h)]
        · rw [if_neg h, if_neg h]

/-- After an insertion the new entry is found under its service id, and under any other what was found before. -/
theorem find_insertService (e : ServiceEntry) (v : Word16) (l : List ServiceEntry) :
    (insertService e l).find? (fun o => o.service == v) =
      if v = e.service then some e else l.find? fun o => o.service == v := by
  have front := find_key_cons ServiceEntry.service v
  induction l with
  | nil => exact front e []
  | cons o rest ih =>
    unfold insertService
    split
    · exact front e (o :: rest)
    · split
      · rename_i heq
        rw [front, front, ← heq]
        split <;> rfl
      · rename_i hne
        rw [front, front, ih]
        by_cases h : v = o.service
        · rw [if_pos h, if_pos h, if_neg fun k => hne (k.symm.trans h)]
        · rw [if_neg h, if_neg h]

/-! ### A LANE commit (R51) -/

/-- In a list whose lane ids are apart, what a filter leaves under a lane id is what stood there, if it passes. -/
theorem find_filter_lane (p : LaneEntry → Bool) (x : Nat) {l : List LaneEntry} (hl : l.Pairwise fun a b => a.lane ≠ b.lane) :
    (l.filter p).find? (fun o => o.lane == x) = (l.find? fun o => o.lane == x).filter p := by
  have front := find_key_cons LaneEntry.lane x
  induction l with
  | nil => rfl
  | cons o rest ih =>
    obtain ⟨ho, hrest⟩ := List.pairwise_cons.1 hl
    rw [front]
    by_cases h : x = o.lane
    · have gone : (rest.filter p).find? (fun o => o.lane == x) = none :=
        List.find?_eq_none.2 fun q hq => by
          have hq := ho q (List.mem_of_mem_filter hq)
          simpa [h] using Ne.symm hq
      by_cases hp : p o = true
      · rw [List.filter_cons_of_pos hp, front, if_pos h, if_pos h]
        simp [Option.filter, hp]
      · rw [List.filter_cons_of_neg hp, gone, if_pos h]
        simp [Option.filter, hp]
    · rw [if_neg h, ← ih hrest]
      by_cases hp : p o = true
      · rw [List.filter_cons_of_pos hp, front, if_neg h]
      · rw [List.filter_cons_of_neg hp]

section Lane

variable (e : LaneEntry) (b : Bank)

theorem commitLane_own : (commitLane e b).bank.lane? e.lane = some e :=
  (find_insertLane e e.lane _).trans (if_pos rfl)

/-- Another lane keeps its entry just when that shares no position with the new one. -/
theorem commitLane_other (h : b.lanesApart) {x : Nat} (hx : x ≠ e.lane) :
    (commitLane e b).bank.lane? x = (b.lane? x).filter fun o => !o.overlaps e := by
  refine (find_insertLane e x _).trans ((if_neg hx).trans ((find_filter_lane _ x (h.imp fun k => Nat.ne_of_lt k.1)).trans ?_))
  show (b.lane? x).filter _ = _
  cases ho : b.lane? x with
  | none => rfl
  | some o =>
    have hlane : o.lane ≠ e.lane := fun k => hx ((lane?_some ho).symm.trans k)
    simp [Option.filter, hlane]

theorem commitLane_lanesApart (h : b.lanesApart) : (commitLane e b).bank.lanesApart :=
  insertLane_apart (h.sublist List.filter_sublist) fun o ho hne => by
    have hkept := (List.mem_filter.1 ho).2
    simpa [hne] using hkept

/-- A LANE commit is a correction when it removes an entry of another lane or replaces one of its own with other content. -/
theorem commitLane_correction : (commitLane e b).correction = true ↔
    (∃ o ∈ b.lanes, o.lane ≠ e.lane ∧ o.overlaps e = true) ∨ ∃ o, b.lane? e.lane = some o ∧ o ≠ e := by
  unfold commitLane
  dsimp only
  rw [Bool.or_eq_true]
  refine or_congr ?_ ?_
  · rw [decide_eq_true_iff, ne_eq, List.length_filter_eq_length_iff]
    simp
  · cases b.lane? e.lane <;> simp

end Lane

/-! ### SERVICE and SERVICE-LABEL commits (R52, R53) -/

/-- A bank whose services have taken an entry in. -/
def Bank.withService (e : ServiceEntry) (b : Bank) : Bank := { b with services := insertService e b.services }

section Service

variable {e : ServiceEntry} {b : Bank}

theorem withService_service? (e : ServiceEntry) (b : Bank) (v : Word16) :
    (b.withService e).service? v = if v = e.service then some e else b.service? v := find_insertService e v b.services

theorem commitService_present {old : ServiceEntry} (h : b.service? e.service = some old) : commitService e b =
    { bank := b.withService { e with label := old.label }, correction := decide (old ≠ { e with label := old.label })
      added := false } := by
  unfold commitService
  rw [h]
  rfl

theorem commitService_new (h : b.service? e.service = none) (hroom : b.services.length < 32) : commitService e b =
    { bank := b.withService { e with label := none }, correction := false, added := true } := by
  unfold commitService
  rw [h]
  exact if_pos hroom

theorem commitService_overfull (h : b.service? e.service = none) (hfull : 32 ≤ b.services.length) : commitService e b =
    { bank := { b with overfull := true }, correction := false, added := false } := by
  unfold commitService
  rw [h]
  exact if_neg (by omega)

theorem commitServiceLabel_present {v : Word16} {old : ServiceEntry} (text : List Byte) (h : b.service? v = some old) :
    commitServiceLabel v text b = { bank := b.withService { old with label := some text }, correction := false, added := false } := by
  unfold commitServiceLabel
  rw [h]
  rfl

theorem commitServiceLabel_absent {v : Word16} (text : List Byte) (h : b.service? v = none) :
    commitServiceLabel v text b = { bank := b, correction := false, added := false } := by
  unfold commitServiceLabel
  rw [h]

/-- The entry taken in is found under its id, any other id finds what it found, and the bank is else as it was. -/
theorem withService_found {v : Word16} (hv : e.service = v) : (b.withService e).service? v = some e ∧
    (∀ w, w ≠ v → (b.withService e).service? w = b.service? w) ∧
      b.withService e = { b with services := (b.withService e).services } := by
  subst hv
  exact ⟨by rw [withService_service?, if_pos rfl], fun w hw => by rw [withService_service?, if_neg hw], rfl⟩

end Service

/-- Settles O30: commit by commit, through what an insertion leaves to be found. -/
theorem laneCommitRemovesOverlaps : Obligations.LaneCommitRemovesOverlaps := by
  refine ⟨fun e b h => ?_, fun e b => ?_, fun b => ⟨fun v text => ⟨fun old h => ?_, commitServiceLabel_absent text⟩, fun _ => rfl,
    fun _ => rfl⟩⟩
  · exact ⟨commitLane_own e b, fun x hx => commitLane_other e b h hx, commitLane_lanesApart e b h, rfl, rfl,
      commitLane_correction e b, Option.isNone_iff_eq_none⟩
  · refine ⟨fun old h => ?_, fun h hroom => ?_, commitService_overfull⟩
    · rw [commitService_present h]
      obtain ⟨hown, hother, hbank⟩ := withService_found (e := { e with label := old.label }) (b := b) rfl
      exact ⟨hown, hother, hbank, decide_eq_true_iff, rfl⟩
    · rw [commitService_new h hroom]
      obtain ⟨hown, hother, hbank⟩ := withService_found (e := { e with label := none }) (b := b) rfl
      exact ⟨hown, hother, hbank, rfl, rfl⟩
  · have hv := service?_some h
    rw [commitServiceLabel_present text h]
    obtain ⟨hown, hother, hbank⟩ := withService_found (e := { old with label := some text }) (b := b) hv
    exact ⟨hown, hother, hbank, rfl, rfl⟩

end Sys2Proof.Machine
end

section
/-! QUERY: the order, and the data of each subject byte by byte (R68, R105, R137, R156, R168 to R170, R179, R185, Table 10-6). -/

namespace Sys2Proof.Machine

/-! ### Flags as sums of bits (R179) -/

/-- The bit k of a flags byte as a number. -/
def flagBit (b : Bool) (k : Nat) : Nat := if b then 2 ^ k else 0

theorem boolByte_eq (b : Bool) : boolByte b = natByte (flagBit b 0) := by
  cases b <;> rfl

theorem flagsByte_two (a b : Bool) : flagsByte [a, b] = natByte (flagBit a 0 + flagBit b 1) := by
  revert a b
  decide

theorem flagsByte_three (a b c : Bool) : flagsByte [a, b, c] = natByte (flagBit a 0 + flagBit b 1 + flagBit c 2) := by
  revert a b c
  decide

theorem flagsByte_four (a b c d : Bool) :
    flagsByte [a, b, c, d] = natByte (flagBit a 0 + flagBit b 1 + flagBit c 2 + flagBit d 3) := by
  revert a b c d
  decide

theorem flagsByte_five (a b c d e : Bool) :
    flagsByte [a, b, c, d, e] = natByte (flagBit a 0 + flagBit b 1 + flagBit c 2 + flagBit d 3 + flagBit e 4) := by
  revert a b c d e
  decide

/-- A byte whose number is an index is the byte of that index. -/
theorem natByte_index {n : Nat} {b : Byte} {i : Fin n} (h : b.toNat = i.val) : natByte i.val = b := by
  rw [← h]
  unfold natByte
  rw [BitVec.ofNat_toNat, BitVec.setWidth_eq]

/-! ### The order (R168, R185) -/

section Order

variable (ref subject first second : Byte) {s : State}

/-- QUERY is carried out at once in a part that is ready for it, on data that the reception of the order does not touch (R165). -/
theorem exec_query (h : readyForOrder s) : orderCommand (queryBody ref subject first second) s =
    (queryData subject first second s).elim (carriedOut s ref 0x0B .badValue [] (heard s)) fun data =>
      carriedOut s ref 0x0B .accepted (subject :: data) (heard s) := by
  have outcome : orderOutcome 0x0B [subject, first, second] (heard s) = queryOrder subject first second (heard s) := rfl
  have same : queryData subject first second (heard s) = queryData subject first second s := rfl
  refine (exec_order ref 0x0B [subject, first, second] s (by simp) h).trans ?_
  rw [outcome]
  unfold queryOrder
  rw [same]
  cases queryData subject first second s <;> rfl

end Order

theorem queryData_unknown {subject : Byte} (h : 7 < subject.toNat) (first second : Byte) (s : State) :
    queryData subject first second s = none := by
  have other : ∀ k : Byte, k.toNat ≤ 7 → subject ≠ k := fun k hk e => by
    subst e
    omega
  unfold queryData
  rw [if_neg (other 0 (by decide)), if_neg (other 1 (by decide)), if_neg (other 2 (by decide)), if_neg (other 3 (by decide)),
    if_neg (other 4 (by decide)), if_neg (other 5 (by decide)), if_neg (other 6 (by decide)), if_neg (other 7 (by decide))]

/-! ### Subjects with a bank (R68) -/

section Banked

variable {first second : Byte} {s : State} {b : Bank}

/-- A bank code is 0 for the active bank and 1 for the pending one (Table 10-1). -/
theorem queriedBank_coded (h : (first = 0 ∧ b = s.laneMap.active) ∨ (first = 1 ∧ b = s.laneMap.pending)) :
    queriedBank s first = some b := by
  rcases h with ⟨rfl, rfl⟩ | ⟨rfl, rfl⟩ <;> rfl

theorem queriedBank_unknown (h : 1 < first.toNat) : queriedBank s first = none := by
  unfold queriedBank
  rw [if_neg fun e => by simp [e] at h, if_neg fun e => by simp [e] at h]

theorem queryData_laneEntry (hb : queriedBank s first = some b) (h : second.toNat ≤ 63) :
    queryData 1 first second s = some ([first, second, byteOr b.serial] ++ laneEntryData (b.lane? second.toNat)) := by
  show queryLaneEntryData first second s = _
  unfold queryLaneEntryData
  rw [hb]
  exact if_pos h

theorem queryData_serviceEntry (hb : queriedBank s first = some b) (h : second.toNat ≤ 31) :
    queryData 2 first second s = some ([first, second, byteOr b.serial] ++ serviceEntryData b.services[second.toNat]?) := by
  show queryServiceEntryData first second s = _
  unfold queryServiceEntryData
  rw [hb]
  exact if_pos h

theorem queryData_laneEntry_outside (h : 1 < first.toNat ∨ 63 < second.toNat) : queryData 1 first second s = none := by
  show queryLaneEntryData first second s = none
  unfold queryLaneEntryData
  split
  · rename_i hb
    refine if_neg fun k => ?_
    rw [queriedBank_unknown (h.resolve_right (by omega))] at hb
    cases hb
  · rfl

theorem queryData_serviceEntry_outside (h : 1 < first.toNat ∨ 31 < second.toNat) : queryData 2 first second s = none := by
  show queryServiceEntryData first second s = none
  unfold queryServiceEntryData
  split
  · rename_i hb
    refine if_neg fun k => ?_
    rw [queriedBank_unknown (h.resolve_right (by omega))] at hb
    cases hb
  · rfl

end Banked

/-! ### CONTEXT, SELECTION and LABEL (R105, R137, R170) -/

section Indexed

variable {first second : Byte} {s : State}

theorem queryData_context {c : Fin 16} (h : first.toNat = c.val) : queryData 3 first second s = some (contextData c s) := by
  show queryContextData first s = _
  unfold queryContextData
  rw [dif_pos (h ▸ c.isLt), show (⟨first.toNat, h ▸ c.isLt⟩ : Fin 16) = c from Fin.ext h]

theorem queryData_context_outside (h : 15 < first.toNat) : queryData 3 first second s = none := by
  show queryContextData first s = none
  exact dif_neg (by omega)

theorem queryData_selection {i : Fin 5} (h : first.toNat = i.val) : queryData 4 first second s = some (selectionData i s) := by
  show querySelectionData first s = _
  unfold querySelectionData
  rw [dif_pos (h ▸ i.isLt), show (⟨first.toNat, h ▸ i.isLt⟩ : Fin 5) = i from Fin.ext h]

theorem queryData_label {i : Fin 5} (h : first.toNat = i.val) : queryData 7 first second s = some (labelData i s) := by
  show queryLabelData first s = _
  unfold queryLabelData
  rw [dif_pos (h ▸ i.isLt), show (⟨first.toNat, h ▸ i.isLt⟩ : Fin 5) = i from Fin.ext h]

theorem queryData_slot_outside (h : 4 < first.toNat) : queryData 4 first second s = none ∧ queryData 7 first second s = none :=
  ⟨dif_neg (c := first.toNat < 5) (by omega), dif_neg (c := first.toNat < 5) (by omega)⟩

end Indexed

/-- One role's reference and lane, without the outgoing context (R137). -/
def referenceData (s : State) : Ref → List Byte
  | .notWanted => [0, 0xFF, 0xFF]
  | .context c => [1, natByte c.val, byteOr (s.ctx c).lane?]
  | .absent => [2, 0xFF, 0xFF]
  | .deferred lane => [3, 0xFF, natByte lane]

theorem roleData_eq (s : State) (r : RoleRef) :
    roleData s r = referenceData s r.ref ++ [byteOr (r.outgoing.getLast?.map Fin.val)] := by
  unfold roleData
  cases r.ref <;> rfl

theorem flatMap_roleIxs {α : Type} (f : RoleIx → List α) : roleIxs.flatMap f = f 0 ++ f 1 ++ f 2 ++ f 3 ++ f 4 := by
  simp [roleIxs]

/-! ### ANNOUNCEMENTS (R156, log 16, log 19) -/

/-- The table read entry by entry. -/
theorem flatMap_table {α : Type} (v : Vector AnnEntry 8) (f : AnnEntry → List α) : v.toList.flatMap f =
    f v[(0 : Fin 8)] ++ f v[(1 : Fin 8)] ++ f v[(2 : Fin 8)] ++ f v[(3 : Fin 8)] ++ f v[(4 : Fin 8)] ++ f v[(5 : Fin 8)] ++
      f v[(6 : Fin 8)] ++ f v[(7 : Fin 8)] := by
  have entries : v.toList = (List.finRange 8).map fun t => v[t] := by
    refine List.ext_getElem (by simp) fun k h1 h2 => ?_
    simp
  have types : List.finRange 8 = annTypes := by decide
  rw [entries, types]
  simp [annTypes]

theorem preemptedData_eq : preemptedData = fun p => [natByte p.slot.val, natByte (flagBit (p.roles.getLsbD 2) 0 +
    flagBit (p.roles.getLsbD 3) 1 + flagBit (p.roles.getLsbD 4) 2 + flagBit (p.roles.getLsbD 1) 3 + flagBit p.whole 4)] := by
  funext p
  unfold preemptedData
  rw [flagsByte_five]

/-- The places not used show no slot (R179). -/
theorem preemptionData_eq {l : List Preempted} (h : l.length ≤ 4) : preemptionData l =
    (l.map preemptedData).flatten ++ (List.replicate (4 - l.length) ([0xFF, 0] : List Byte)).flatten := by
  match l, h with
  | [], _ => rfl
  | [_], _ => rfl
  | [_, _], _ => rfl
  | [_, _, _], _ => rfl
  | [_, _, _, _], _ => rfl

/-- Settles O41: the order answers the data, which is read subject by subject. -/
theorem queriesChangeNothing : Obligations.QueriesChangeNothing := by
  refine ⟨fun ref first second s h => ?_, fun first second s => ?_⟩
  · have key : ∀ subject, orderCommand (queryBody ref subject first second) s =
        match queryData subject first second s with
        | some data => carriedOut s ref 0x0B .accepted (subject :: data) (heard s)
        | none => carriedOut s ref 0x0B .badValue [] (heard s) := fun subject => by
      rw [exec_query ref subject first second h]
      cases queryData subject first second s <;> rfl
    refine ⟨key 0, key 1, key 2, key 3, key 4, key 5, key 6, key 7, fun subject hs => ?_⟩
    refine (exec_query ref subject first second h).trans ?_
    rw [queryData_unknown hs]
    rfl
  · dsimp only
    refine ⟨?_, fun b hb h => ?_, fun b hb h => ?_, queryData_laneEntry_outside, queryData_serviceEntry_outside, fun c h => ?_,
      queryData_context_outside, fun i h => ?_, ?_, fun i h => ?_, queryData_slot_outside⟩
    · show some (statusData s) = _
      simp only [statusData, flagsByte_four, flagsByte_three, ← BitVec.ofNat_toNat]
      rfl
    · rw [queryData_laneEntry (queriedBank_coded hb) h]
      rfl
    · rw [queryData_serviceEntry (queriedBank_coded hb) h]
      cases b.services[second.toNat]? with
      | none => rfl
      | some e =>
        simp only [serviceEntryData, boolByte_eq]
        rfl
    · rw [queryData_context h]
      simp only [contextData, natByte_index h, List.append_assoc]
      cases (s.ctx c).last <;> rfl
    · rw [queryData_selection h]
      simp only [selectionData, roleData_eq, flatMap_roleIxs, natByte_index h, flagsByte_two, boolByte_eq, ← BitVec.ofNat_toNat,
        ← List.append_assoc]
      rfl
    · intro hlen
      show some (announcementsData s) = _
      simp only [announcementsData, flatMap_table, annEntryData, preemptionData_eq hlen, preemptedData_eq, flagsByte_two, boolByte_eq,
        ← List.append_assoc]
      rfl
    · rw [queryData_label h]
      unfold labelData
      rw [natByte_index h]
      rfl

end Sys2Proof.Machine
end

section
/-! How an announcement comes to be held: the takeover, the onset and its tests, the acceptance, and what an alarm takes
(R144 to R147, R153). -/

namespace Sys2Proof.Machine

/-! ### The takeover (R147) -/

theorem beginTakeover_not {s : State} (h : ¬(s.announcer.takeover = .opening ∧ (s.slot 4).state = .delivering)) :
    beginTakeover s = s := if_neg h

/-- The takeover begins: the foreground slot, if any, is overridden (R147). -/
theorem beginTakeover_begins {s : State} (h : s.announcer.takeover = .opening ∧ (s.slot 4).state = .delivering) : beginTakeover s =
    let u := s.updAnnouncer fun a => { a with takeover := .takeover }
    raise (.announce .takeover) ((foreground s).elim u fun f => u.updSlot f fun x => { x with overridden := true }) := by
  have same : foreground (s.updAnnouncer fun a => { a with takeover := .takeover }) = foreground s := rfl
  unfold beginTakeover
  rw [if_pos h]
  dsimp only
  rw [same]
  cases foreground s <;> rfl

/-! ### The onset and its tests (R144, R153) -/

section Onset

variable {t : Fin 8} {target : Word16} {s : State}

theorem onset_active (h : s.announcer.power = .active) : onset t target s = testOnset t target false s := by
  unfold onset
  rw [h]

theorem onset_asleep (h : s.announcer.power = .standby) (hw : s.announcer.wake.getLsbD t.val = false) : onset t target s = s := by
  unfold onset
  rw [h]
  exact if_neg (Bool.eq_false_iff.1 hw)

/-- An onset of a waking type in standby drives WAKE high; an alarm restarts the part, any other type waits for the host (R153). -/
theorem onset_wakes (h : s.announcer.power = .standby) (hw : s.announcer.wake.getLsbD t.val = true) : onset t target s =
    let u := s.updAnnouncer fun a => { a with wakeLine := true }
    if t = 0 then testOnset t target true (warmRestart (raise (.alarmOnset target true) u)) else raise (.announce .wake) u := by
  unfold onset
  rw [h]
  exact if_pos hw

/-- The programme condition of R144: an alarm, or a foreground slot heard or overridden whose service supports the type. -/
theorem programmeAllows_iff : programmeAllows t s = true ↔ t = 0 ∨ ∃ i : Fin 5, i ≠ 4 ∧ (s.slot i).role = some .foreground ∧
    ((s.slot i).state = .delivering ∨ (s.slot i).overridden = true) ∧
    ∃ e, (s.slot i).service.bind (activeService s) = some e ∧ e.support.getLsbD t.val = true := by
  unfold programmeAllows
  simp only [Bool.or_eq_true, beq_iff_eq, List.any_eq_true, mem_hostSlots, Bool.and_eq_true, and_assoc]
  refine or_congr_right (exists_congr fun i => and_congr_right fun _ => and_congr_right fun _ => and_congr_right fun _ => ?_)
  cases (s.slot i).service.bind (activeService s) <;> simp

/-- The priority condition of R144: nothing is held, or a type of lower priority. -/
theorem priorityAllows_iff :
    priorityAllows t s = true ↔ s.announcer.takeover = .idle ∨ ∃ h, s.announcer.heldType = some h ∧ t < h := by
  unfold priorityAllows
  rw [Bool.or_eq_true, beq_iff_eq]
  cases s.announcer.heldType <;> simp

variable {wake : Bool}

theorem testOnset_fails (h : ¬(s.announcer.accept.getLsbD t.val = true ∧ programmeAllows t s = true ∧ priorityAllows t s = true)) :
    testOnset t target wake s = s := if_neg h

theorem testOnset_audio (h : s.announcer.accept.getLsbD t.val = true ∧ programmeAllows t s = true ∧ priorityAllows t s = true)
    {e : ServiceEntry} (he : activeService s target = some e) (hk : e.kind = .audio) :
    testOnset t target wake s = acceptOnset t e wake s := by
  unfold testOnset
  rw [if_pos h, he]
  exact if_pos hk

theorem testOnset_refused (h : s.announcer.accept.getLsbD t.val = true ∧ programmeAllows t s = true ∧ priorityAllows t s = true)
    (he : ∀ e, activeService s target = some e → e.kind ≠ .audio) :
    testOnset t target wake s = raise (.announce .refusedTarget) s := by
  unfold testOnset
  rw [if_pos h]
  split
  · rename_i e hs
    exact if_neg (he e hs)
  · rfl

end Onset

/-! ### The acceptance (R145) -/

section Accept

variable {t : Fin 8} {e : ServiceEntry} {wake : Bool} {s : State}

/-- The slot in the foreground and its service, held as the anchor of any type but ALARM (R140, R145). -/
theorem anchorFor_eq (t : Fin 8) (s : State) : anchorFor t s =
    if t = 0 then none else (foreground s).bind fun f => (s.slot f).service.map fun x => { slot := f, service := x } := by
  unfold anchorFor
  split
  · rfl
  · cases foreground s <;> rfl

/-- What every acceptance that is not refused ends with (R145). -/
theorem setHeld_eq (t : Fin 8) (target : Word16) (wake : Bool) (s : State) : setHeld t target wake s =
    let w := s.updAnnouncer fun a => { a with
      heldType := some t, heldTarget := some target
      anchor := if t = 0 then none else (foreground s).bind fun f => (s.slot f).service.map fun x => { slot := f, service := x } }
    if t = 0 then raise (.alarmOnset target wake) w else w := by
  unfold setHeld
  rw [anchorFor_eq]

theorem foregroundCarries_iff (s : State) (v : Word16) : foregroundCarries s v = true ↔ ∃ i : Fin 5, i ≠ 4 ∧
    (s.slot i).role = some .foreground ∧ (s.slot i).service = some v ∧
      ((s.slot i).state = .opening ∨ (s.slot i).state = .delivering) := by
  unfold foregroundCarries
  simp only [List.any_eq_true, mem_hostSlots, Bool.and_eq_true, Bool.or_eq_true, beq_iff_eq, and_assoc]

theorem acceptOnset_same (h : s.announcer.takeover ≠ .idle ∧ s.announcer.heldTarget = some e.service) :
    acceptOnset t e wake s = setHeld t e.service wake s := if_pos h

/-- The state in which an onset of another target is accepted: what is held is returned first, its record kept (R145). -/
def returnedFirst (s : State) : State := if s.announcer.takeover = .idle then s else returnHeld true s

theorem acceptOnset_other (h : ¬(s.announcer.takeover ≠ .idle ∧ s.announcer.heldTarget = some e.service)) :
    acceptOnset t e wake s =
    let v := returnedFirst s
    if foregroundCarries v e.service then
      setHeld t e.service wake (raise (.announce .takeover)
        ((emptyLabel 4 v).updAnnouncer fun a => { a with takeover := .inService }))
    else if t = 0 then setHeld t e.service wake (openSlotFourForAlarm e v)
    else if serviceFits v e [] then setHeld t e.service wake (openSlotFour e v)
    else reopenRecord (raise (.announce .refusedRoom) v) := if_neg h

end Accept

/-! ### Slot 4 opens (R145 step 4) -/

section SlotFour

variable {e : ServiceEntry} {lane : Nat} {s : State}

/-- Slot 4 wants the primary lane of an AUDIO service alone (R120). -/
theorem wantedRoles_slotFour (hk : e.kind = .audio) (hp : e.primary = some lane) : wantedRoles 4 e false false = [(0, lane)] := by
  simp [wantedRoles, roleIxs, wantsRole, hk, ServiceEntry.lane?, hp]

/-- The reference of a primary role after its request (R122 step 3). -/
theorem refOfAnswer_primary (ans : RequestAnswer) (lane : Nat) :
    refOfAnswer ans 0 lane = ans.given.elim (.deferred lane) .context := by
  cases ans <;> rfl

/-- One wanted lane is requested, whether by sharing or by opening (R122). -/
theorem openedRoles_single (r : RoleIx) (lane : Nat) (first : Count) (s : State) : openedRoles [(r, lane)] first id s =
    ((requestCtx lane first s).2, noRefs.set r (refOfAnswer (requestCtx lane first s).1 r lane)) := by
  have none' : noRefs[r] = Ref.notWanted := by simp [noRefs]
  dsimp only [openedRoles, List.foldl_cons, List.foldl_nil, id]
  unfold shareStep
  cases hl : receivingLane s lane with
  | some c =>
    rw [requestCtx_shared hl]
    exact if_pos (by simp [Ref.isContext])
  | none => exact if_neg (by rw [none']; simp [Ref.isContext])

/-- Slot 4 opens with the reference that the answer to the request of its one lane gives (R145 step 4). -/
theorem openSlotFour_audio (hk : e.kind = .audio) (hp : e.primary = some lane) : openSlotFour e s =
    let answer := requestCtx lane (nextFrameCount s) s
    (emptyLabel 4 (setOpened 4 e.service (some .announcement) false false
      (noRefs.set 0 (answer.1.given.elim (.deferred lane) .context)) answer.2)).updAnnouncer
        fun a => { a with takeover := .opening } := by
  have opening : openSlotFour e s =
      let opened := openedRoles (wantedRoles 4 e false false) (nextFrameCount s) id s
      (emptyLabel 4 (setOpened 4 e.service (some .announcement) false false opened.2 opened.1)).updAnnouncer
        fun a => { a with takeover := .opening } := rfl
  rw [opening, wantedRoles_slotFour hk hp, openedRoles_single, refOfAnswer_primary]
  rfl

end SlotFour

/-! ### What an alarm takes (R146) -/

section Take

variable {i : Fin 5} {r : RoleIx} {c : Fin 16} {s : State}

theorem takeRole_required (ho : (s.slot i).state = .opening ∨ (s.slot i).state = .delivering)
    (hc : ((s.slot i).roleRef r).ref = .context c) (h1 : (s.ctx c).refs = 1) (hr : r = 0 ∨ (r = 2 ∧ slotKind s i = some .dataOnly)) :
    takeRole i r s = raise (.selection i .suspended) ((dropReferences (s.slot i) (noteTaken i true r s)).updSlot i fun x =>
      { x with
        state := .suspended, cause := some .preempted, roles := Vector.ofFn fun q => { x.roles[q] with ref := .notWanted } }) := by
  unfold takeRole
  dsimp only
  rw [if_pos ho, hc]
  dsimp only
  rw [if_pos h1, if_pos hr]
  unfold enterSlotState giveUpRefs
  rw [updSlot_updSlot, updSlot_updSlot]
  rfl

theorem takeRole_other (ho : (s.slot i).state = .opening ∨ (s.slot i).state = .delivering)
    (hc : ((s.slot i).roleRef r).ref = .context c) (h1 : (s.ctx c).refs = 1)
    (hr : ¬(r = 0 ∨ (r = 2 ∧ slotKind s i = some .dataOnly))) :
    takeRole i r s = (dropRef c (noteTaken i false r s)).updSlot i fun x =>
      { x.setRef r .absent with taken := x.taken ||| (1#5 <<< r.val) } := by
  unfold takeRole
  dsimp only
  rw [if_pos ho, hc]
  dsimp only
  rw [if_pos h1, if_neg hr]

/-- A slot that does not open or deliver, or whose role refers to no context of count 1, gives nothing. -/
theorem takeRole_nothing (h : ¬((s.slot i).state = .opening ∨ (s.slot i).state = .delivering) ∨
    ∀ c, ((s.slot i).roleRef r).ref = .context c → (s.ctx c).refs ≠ 1) : takeRole i r s = s := by
  unfold takeRole
  dsimp only
  split
  · rename_i ho
    split
    · rename_i c hc
      exact if_neg (h.resolve_left (fun k => k ho) c hc)
    · rfl
  · rfl

end Take

/-- Settles O40: the takeover, the onset, its tests, the acceptance, slot 4, the order of the taking and one role taken. -/
theorem takeoverOverridesForeground : Obligations.TakeoverOverridesForeground := by
  refine ⟨fun s hr => ?_, fun t target s => ⟨onset_active, onset_asleep, fun hs hw ht => ?_, fun hs hw ht => ?_⟩,
    fun t target wake s => ?_, fun t e wake s => ?_, fun e lane s hk hp => ?_, fun lane s => rfl, fun i r s => ⟨fun c ho hc h1 =>
    ⟨takeRole_required ho hc h1, takeRole_other ho hc h1⟩, takeRole_nothing⟩⟩
  · have hexec : exec .takeover s = .next (endEvent s (beginTakeover s)) := command_running hr
    rw [hexec]
    dsimp only
    refine ⟨fun ht hs => ?_, fun h => by rw [beginTakeover_not h], rfl⟩
    rw [beginTakeover_begins ⟨ht, hs⟩]
    exact ⟨fun f hf => by rw [hf]; rfl, fun hf => by rw [hf]; rfl⟩
  · exact (onset_wakes hs hw).trans (if_neg ht)
  · exact (onset_wakes hs hw).trans (if_pos ht)
  · dsimp only
    rw [← programmeAllows_iff, ← priorityAllows_iff]
    exact ⟨testOnset_fails, fun h e => testOnset_audio h, testOnset_refused⟩
  · intro held sameTarget v carries
    have hheld : ∀ w, held w = setHeld t e.service wake w := fun w => (setHeld_eq t e.service wake w).symm
    have hcarries : carries ↔ foregroundCarries (returnedFirst s) e.service = true := (foregroundCarries_iff _ _).symm
    rw [hcarries]
    refine ⟨fun h => ?_, fun h hc => ?_, fun h hc ht fits => ?_, fun h hc ht full => ?_, fun h hc ht lane hp => ?_⟩
    · rw [hheld]
      exact acceptOnset_same h
    · rw [hheld]
      exact (acceptOnset_other h).trans (if_pos hc)
    · rw [hheld]
      exact (acceptOnset_other h).trans ((if_neg hc).trans ((if_neg ht).trans (if_pos fits)))
    · exact (acceptOnset_other h).trans ((if_neg hc).trans ((if_neg ht).trans (if_neg (Bool.eq_false_iff.1 full))))
    · have alarm : openSlotFourForAlarm e v = openSlotFour e (preemptFor lane v) := by
        unfold openSlotFourForAlarm
        rw [hp]
      rw [hheld, ← alarm]
      exact (acceptOnset_other h).trans ((if_neg hc).trans (if_pos ht))
  · dsimp only
    have lanes := requestCtx_lanes lane (nextFrameCount s) s
    obtain ⟨_, _, _, _, _, hann, _⟩ := lanes.outside.frame
    rw [openSlotFour_audio hk hp]
    generalize requestCtx lane (nextFrameCount s) s = answer at *
    refine ⟨setOpened_openedAs .., congrArg (fun a : Announcer => { a with takeover := .opening }) hann, ?_, rfl, rfl, ?_,
      fun j hj => ?_, raise_own_cause (.selection 4 .opening) _⟩
    · refine (setOpened_ref ..).trans ?_
      cases answer.1 <;> rfl
    · exact (label_setLabel 4 4 _ _).trans (if_pos rfl)
    · exact (setOpened_slot_other _ _ _ _ _ _ _ hj).trans (lanes.slot j)

end Sys2Proof.Machine
end

section
/-! The Delay Store under every step: the canonical form of its cells, and the conservation of its columns (R70, R72, R74, R76 to
R78, R85, R91). -/

namespace Sys2Proof.Machine

/-! ### A law that does not look at the Delivery Link -/

section OutsideLink

variable {P : State → Prop} (link : ∀ (s : State) (f : Link → Link), P s → P (s.updLink f))

include link

theorem joinAudio_preserves (p : FramePacket) {s : State} (h : P s) : P (joinAudio p s) := by
  obtain ⟨_, _, e⟩ := joinAudio_fields p s
  exact e ▸ link s _ h

theorem joinData_preserves (p : FramePacket) {s : State} (h : P s) : P (joinData p s) := by
  obtain ⟨_, _, e⟩ := joinData_fields p s
  exact e ▸ link s _ h

theorem joinLabel_preserves (p : LabelPacket) {s : State} (h : P s) : P (joinLabel p s) := by
  obtain ⟨_, _, e⟩ := joinLabel_fields p s
  exact e ▸ link s _ h

/-- A law outside the Delivery Link and the queue of waiting commands is kept by every step when every change inside a step and
the break reset keep it and the reset state meets it. -/
theorem keptByStep_of_changes (changes : ∀ s t, Change 6 s t → P s → P t)
    (queue : ∀ (s : State) (rest : List Instr), P s → P { s with pending := rest })
    (power : ∀ (early : Bool) (s : State), P (powerOn early s)) (hold : ∀ s : State, P (holdReset s))
    (brk : ∀ s : State, P s → P (holdBreak s)) : keptByStep P := by
  refine keptByStep_of_moves (fun s t h hs => ?_) queue
  cases h with
  | inner _ _ h => exact h.preserves changes hs
  | receiver => exact link s _ hs
  | clock => exact link s _ hs
  | orderJoins => exact link s _ hs
  | orderLeaves => exact link s _ hs
  | answerJoins => exact link s _ hs
  | lineFalls => exact link s _ hs
  | starts => exact link s _ hs
  | powerOn early => exact power early s
  | holdReset => exact hold s
  | holdBreak => exact brk s hs
  | releaseBreak =>
    unfold Machine.releaseBreak
    split
    · exact changes _ _ (.lines (by omega) _) (link s _ hs)
    · exact hs

end OutsideLink

/-! ### The canonical form of the cells (R70, R72, R74) -/

/-- The cells of the Delay Store are in canonical form. -/
def storeCanonical (s : State) : Prop := s.store.cells.wf = true

/-- Only a write, the clearing of columns, and a release, which clears its columns, touch a cell. -/
theorem Change.storeCanonical {n : Nat} {s t : State} (h : Change n s t) (hs : storeCanonical s) : storeCanonical t := by
  cases h with
  | cell a x => exact wf_write hs
  | clear columns => exact wf_clearColumns columns hs
  | released c => exact wf_clearColumns (s.ctx c).columns hs
  | audioJoins _ p => exact joinAudio_preserves (fun _ _ => id) p hs
  | dataJoins _ p => exact joinData_preserves (fun _ _ => id) p hs
  | labelJoins _ p => exact joinLabel_preserves (fun _ _ => id) p hs
  | _ => exact hs

/-- Settles O3: every change keeps the canonical form, a reset empties the list, and a break reset wipes it entry by entry. -/
theorem stepKeepsStoreCanonical : Obligations.StepKeepsStoreCanonical :=
  keptByStep_of_changes (P := storeCanonical) (fun _ _ => id) (fun _ _ h => h.storeCanonical) (fun _ _ => id) (fun _ _ => rfl)
    (fun _ => rfl) fun _ => wf_wipeTags

/-! ### The columns (R76 to R78, R85, R91) -/

/-- Replacing one part of a list of parts exchanges the old part for the new. -/
theorem flatMap_replace_perm {ι α : Type} [DecidableEq ι] {f g : ι → List α} {l : List ι} {c : ι} (hl : l.Nodup) (hc : c ∈ l)
    (other : ∀ d, d ≠ c → g d = f d) : (f c ++ l.flatMap g).Perm (g c ++ l.flatMap f) := by
  have rest : (l.erase c).flatMap g = (l.erase c).flatMap f :=
    List.flatMap_congr fun d hd => other d (hl.mem_erase_iff.1 hd).1
  have parted (k : ι → List α) : (l.flatMap k).Perm (k c ++ (l.erase c).flatMap k) := (List.perm_cons_erase hc).flatMap_right k
  calc
    (f c ++ l.flatMap g).Perm (f c ++ (g c ++ (l.erase c).flatMap g)) := (parted g).append_left _
    List.Perm _ (g c ++ (f c ++ (l.erase c).flatMap g)) := List.perm_append_comm_assoc ..
    _ = g c ++ (f c ++ (l.erase c).flatMap f) := by rw [rest]
    List.Perm _ (g c ++ l.flatMap f) := (parted f).symm.append_left _

/-- The columns held after one context is replaced: those it held are exchanged for those it holds now. -/
theorem heldColumns_replace {s t : State} {c : Fin 16} {y : LaneContext} (hctx : ∀ d, t.ctx d = if d = c then y else s.ctx d) :
    ((s.ctx c).columns ++ heldColumns t).Perm (y.columns ++ heldColumns s) := by
  have own : (t.ctx c).columns = y.columns := by rw [hctx, if_pos rfl]
  have other : ∀ d, d ≠ c → (t.ctx d).columns = (s.ctx d).columns := fun d hd => by rw [hctx, if_neg hd]
  exact own ▸ flatMap_replace_perm (g := fun d => (t.ctx d).columns) ctxIds_nodup (mem_ctxIds c) other

/-- One context replaced, columns moving between it and the free column stack alone, keeps the columns conserved. -/
theorem columnsConserved_replace {s t : State} {c : Fin 16} {y : LaneContext} (hs : columnsConserved s)
    (hctx : ∀ d, t.ctx d = if d = c then y else s.ctx d) (hy : y.state = .free → y = LaneContext.free)
    (moved : (t.store.free ++ y.columns).Perm (s.store.free ++ (s.ctx c).columns)) : columnsConserved t := by
  obtain ⟨clear, once⟩ := hs
  refine ⟨fun d hd => ?_, List.Perm.trans ?_ once⟩
  · rw [hctx] at hd ⊢
    split
    · rename_i h
      rw [if_pos h] at hd
      exact hy hd
    · rename_i h
      rw [if_neg h] at hd
      exact clear d hd
  · have held := heldColumns_replace hctx
    rw [List.perm_iff_count] at moved held ⊢
    intro a
    have hmoved := moved a
    have hheld := held a
    simp only [List.count_append] at hmoved hheld ⊢
    omega

/-- A context that stays open keeps its columns. -/
theorem columnsConserved_setCtx {s : State} {c : Fin 16} {y : LaneContext} (h : CtxStep (s.ctx c) y) (hs : columnsConserved s) :
    columnsConserved (s.setCtx c y) :=
  columnsConserved_replace hs (fun d => ctx_setCtx s c d y) (fun e => absurd e h.stays) (by rw [h.columns]; exact .refl _)

/-- The columns of an opened context are popped from the free column stack; the FREE context held none (R77, R88). -/
theorem columnsConserved_openCtx {s : State} {c : Fin 16} (e : LaneEntry) (first : Count) (hfree : (s.ctx c).state = .free)
    (hs : columnsConserved s) : columnsConserved (openCtx c e first s) := by
  refine columnsConserved_replace hs (fun d => openCtx_ctx d) (fun h => nomatch h) ?_
  have hnone : (s.ctx c).columns = [] := by rw [hs.1 c hfree]; rfl
  have popped : s.store.free.take e.n ++ s.store.free.drop e.n = s.store.free := List.take_append_drop ..
  rw [hnone, List.append_nil]
  exact List.perm_append_comm.trans (.of_eq popped)

/-- The columns of a released context go back to the free column stack (R78, R91). -/
theorem columnsConserved_releaseCtx (c : Fin 16) {s : State} (hs : columnsConserved s) : columnsConserved (releaseCtx c s) := by
  refine columnsConserved_replace hs (fun d => releaseCtx_ctx c d s) (fun _ => rfl) ?_
  show ((s.ctx c).columns ++ s.store.free ++ []).Perm _
  rw [List.append_nil]
  exact List.perm_append_comm

/-- Columns move at the opening and the release of a context alone. -/
theorem Change.columnsConserved {n : Nat} {s t : State} (h : Change n s t) (hs : columnsConserved s) : columnsConserved t := by
  cases h with
  | ctx c y _ h => exact columnsConserved_setCtx h hs
  | opened c e first _ hfree => exact columnsConserved_openCtx e first hfree hs
  | released c => exact columnsConserved_releaseCtx c hs
  | audioJoins _ p => exact joinAudio_preserves (fun _ _ => id) p hs
  | dataJoins _ p => exact joinData_preserves (fun _ _ => id) p hs
  | labelJoins _ p => exact joinLabel_preserves (fun _ _ => id) p hs
  | _ => exact hs

/-- The contexts and the free column stack alone say whether the columns are conserved. -/
theorem columnsConserved_congr {s t : State} (hctx : t.contexts = s.contexts) (hfree : t.store.free = s.store.free)
    (hs : columnsConserved s) : columnsConserved t := by
  have same : t.ctx = s.ctx := funext fun c => by unfold State.ctx; rw [hctx]
  unfold columnsConserved freeContextsClear heldColumns at *
  rwa [same, hfree]

/-- With the contexts and the free column stack of the reset state every column is free. -/
theorem columnsConserved_of_reset {s : State} (hctx : s.contexts = State.reset.contexts) (hfree : s.store.free = DelayStore.reset.free) :
    columnsConserved s := columnsConserved_congr hctx hfree reset_columnsConserved

/-- A break reset makes every column free, as a power-on reset does (R84). -/
theorem holdBreak_free (s : State) : (holdBreak s).store.free = DelayStore.reset.free := by simp only [holdBreak]

/-- Settles O6: every change keeps the columns conserved, and after a reset of any kind all are free. -/
theorem stepKeepsColumnsConserved : Obligations.StepKeepsColumnsConserved :=
  keptByStep_of_changes (P := columnsConserved) (fun _ _ => id) (fun _ _ h => h.columnsConserved) (fun _ _ => id)
    (fun _ _ => columnsConserved_of_reset rfl rfl) (fun _ => columnsConserved_of_reset rfl rfl) fun s _ =>
      columnsConserved_of_reset rfl (holdBreak_free s)

end Sys2Proof.Machine
end

section
/-! The profiles: QUERY of subject PATTERN, and LOAD_PATTERN by the first case that applies (R81 to R83, R184). -/

namespace Sys2Proof.Machine

/-! ### A profile's values and its use (R81) -/

/-- A profile is in use just when some context that is not FREE has its number (R81). -/
theorem profileInUse_iff (s : State) (p : Nat) :
    profileInUse s p = true ↔ ∃ c : Fin 16, (s.ctx c).state ≠ .free ∧ (s.ctx c).shape.map LaneEntry.profile = some p := by
  unfold profileInUse
  rw [List.any_eq_true]
  refine exists_congr fun c => ?_
  rw [and_iff_right (mem_ctxIds c)]
  simp

theorem boolByte_of_iff {b : Bool} {p : Prop} [Decidable p] (h : b = true ↔ p) : boolByte b = if p then 1 else 0 :=
  if_congr h rfl rfl

theorem profileValues_eq (s : State) {p : Nat} (h : p < 4) : profileValues s p = s.store.profiles[p] := by
  simp [profileValues, h]

/-- The values of a profile just loaded (R82). -/
theorem profileValues_loaded (s : State) (values : List Nat) {p : Nat} (h : p < 4) :
    profileValues (s.updStore fun d => { d with profiles := d.profiles.set p values }) p = values := by
  rw [profileValues_eq _ h]
  exact Vector.getElem_set_self h

/-! ### QUERY of subject PATTERN (R83) -/

theorem queryData_pattern {number : Byte} (second : Byte) (s : State) (h : number.toNat < 4) : queryData 6 number second s =
    some ([number] ++ (profileValues s number.toNat).map natByte ++ [boolByte (profileInUse s number.toNat)]) :=
  if_pos (c := number.toNat ≤ 3) (by omega)

theorem queryData_pattern_outside {number : Byte} (second : Byte) (s : State) (h : 3 < number.toNat) :
    queryData 6 number second s = none := if_neg (c := number.toNat ≤ 3) (by omega)

/-- Settles O42: the query answers the data of its subject, whose last byte shows the use of the profile. -/
theorem queryPatternAnswers : Obligations.QueryPatternAnswers := by
  intro ref number second s hr
  have answer := exec_query ref 6 number second hr
  refine ⟨fun h => answer.trans ?_, fun h => answer.trans ?_⟩
  · rw [queryData_pattern second s h, profileValues_eq s h, boolByte_of_iff (profileInUse_iff s number.toNat)]
    rfl
  · rw [queryData_pattern_outside second s h]
    rfl

/-! ### LOAD_PATTERN (R82, R184) -/

/-- LOAD_PATTERN is carried out at once in a part that is ready for it (R165). -/
theorem exec_loadPattern (ref number : Byte) {values : List Byte} {s : State} (h : readyForOrder s) (hl : values.length = 8) :
    exec (.loadPattern ref number values) s =
      let o := loadPatternOrder number values (heard s)
      carriedOut s ref 0x07 o.1 o.2.1 o.2.2 := by
  have outcome : orderOutcome 0x07 (number :: values) (heard s) = loadPatternOrder number values (heard s) := by
    unfold orderOutcome
    rw [if_neg (by decide), if_neg (by simp [impliedLength, hl])]
    rfl
  have k := exec_order ref 0x07 (number :: values) s (by simp [hl]) h
  rw [outcome] at k
  exact k

/-- Eight values are a permutation when each is at most 7 and no two are alike (R80). -/
theorem isPermutation_iff {values : List Nat} (h : values.length = 8) :
    isPermutation values = true ↔ (∀ v ∈ values, v ≤ 7) ∧ values.Nodup := by
  simp [isPermutation, h]

theorem map_natByte_toNat (bytes : List Byte) : (bytes.map BitVec.toNat).map natByte = bytes := by
  simp [natByte, Function.comp_def]

/-- The answer data: the number and the profile's values (R82). -/
theorem patternData_eq {number : Byte} (s : State) (h : number.toNat < 4) :
    patternData number s = number :: (s.store.profiles[number.toNat]).map (BitVec.ofNat 8) := by
  rw [patternData, profileValues_eq s h]
  rfl

section LoadPattern

variable {number : Byte} {values : List Byte} {s : State}

theorem loadPatternOrder_badNumber (h : 3 < number.toNat) : loadPatternOrder number values s = (.badValue, [], s) :=
  dif_neg (by omega)

theorem loadPatternOrder_notPermutation (h : number.toNat < 4) (hp : isPermutation (values.map BitVec.toNat) = false) :
    loadPatternOrder number values s = (.badValue, patternData number s, s) := by
  unfold loadPatternOrder
  rw [dif_pos h]
  exact if_pos (by rw [hp]; rfl)

theorem loadPatternOrder_permutation (h : number.toNat < 4) (hp : isPermutation (values.map BitVec.toNat) = true) :
    loadPatternOrder number values s =
      if values.map BitVec.toNat = profileValues s number.toNat then (.accepted, patternData number s, s)
      else if profileInUse s number.toNat then (.busy, patternData number s, s)
      else
        let t := s.updStore fun d => { d with profiles := d.profiles.set number.toNat (values.map BitVec.toNat) }
        (.accepted, patternData number t, t) := by
  unfold loadPatternOrder
  rw [dif_pos h]
  exact if_neg (by simp [hp])

end LoadPattern

/-- Settles O46: the order's cases are read off one after another, on a state that reception leaves as it was but for the link. -/
theorem loadPatternByCase : Obligations.LoadPatternByCase := by
  intro ref number values s hr hl
  have hlen : (values.map BitVec.toNat).length = 8 := by simpa using hl
  dsimp only
  rw [exec_loadPattern ref number hr hl, ← isPermutation_iff hlen]
  refine ⟨fun h => by rw [loadPatternOrder_badNumber h], fun h => ?_⟩
  have values_heard : profileValues (heard s) number.toNat = s.store.profiles[number.toNat] := profileValues_eq _ h
  have old : patternData number (heard s) = number :: (s.store.profiles[number.toNat]).map (BitVec.ofNat 8) := patternData_eq _ h
  have use : profileInUse (heard s) number.toNat = profileInUse s number.toNat := rfl
  refine ⟨fun hp => ?_, fun hp same => ?_, fun hp differs busy => ?_, fun hp differs idle => ?_⟩
  · rw [loadPatternOrder_notPermutation h (Bool.eq_false_iff.2 hp), old]
  · rw [loadPatternOrder_permutation h hp, if_pos (same.trans values_heard.symm), old]
  · rw [loadPatternOrder_permutation h hp, values_heard, if_neg differs, use, if_pos busy, old]
  · rw [loadPatternOrder_permutation h hp, values_heard, if_neg differs, use, if_neg (Bool.eq_false_iff.1 idle)]
    dsimp only
    rw [patternData, profileValues_loaded _ _ h, map_natByte_toNat]

end Sys2Proof.Machine
end

section
/-! The lane contexts and the slots under every step: one receiving context for each lane, and counters, thresholds and dwells in range
(R85, R87, R88, R109, R118, R125, R133). -/

namespace Sys2Proof.Machine

/-! ### One receiving context for each lane (R87, R88) -/

/-- One context replaced: the lanes stay apart when the new context receives no lane that another one receives. -/
theorem oneContextPerLane_replace {s t : State} {c : Fin 16} {y : LaneContext} (hs : oneContextPerLane s)
    (hctx : ∀ d, t.ctx d = if d = c then y else s.ctx d)
    (apart : y.receiving = true → ∀ d, d ≠ c → (s.ctx d).receiving = true → (s.ctx d).lane? ≠ y.lane?) : oneContextPerLane t := by
  intro a b ha hb hlane
  by_cases hac : a = c <;> by_cases hbc : b = c <;> simp only [hctx, hac, hbc, if_true, if_false] at ha hb hlane
  · rw [hac, hbc]
  · exact absurd hlane.symm (apart ha b hbc hb)
  · exact absurd hlane (apart hb a hac ha)
  · exact hs a b ha hb hlane

/-- A context that stays open keeps its lane, and receives only if it did. -/
theorem oneContextPerLane_setCtx {s : State} {c : Fin 16} {y : LaneContext} (h : CtxStep (s.ctx c) y) (hs : oneContextPerLane s) :
    oneContextPerLane (s.setCtx c y) :=
  oneContextPerLane_replace hs (fun d => ctx_setCtx s c d y) fun hy d hd hrec hlane =>
    hd (hs d c hrec (h.receiving hy) (hlane.trans h.lane))

/-- A context is opened for a lane that no context receives (R87). -/
theorem oneContextPerLane_openCtx {s : State} {c : Fin 16} {e : LaneEntry} (first : Count) (hlane : receivingLane s e.lane = none)
    (hs : oneContextPerLane s) : oneContextPerLane (openCtx c e first s) :=
  oneContextPerLane_replace hs (fun d => openCtx_ctx d) fun _ d _ hrec => receivingLane_none hlane d hrec

/-- A released context receives no lane. -/
theorem oneContextPerLane_releaseCtx (c : Fin 16) {s : State} (hs : oneContextPerLane s) : oneContextPerLane (releaseCtx c s) :=
  oneContextPerLane_replace hs (fun d => releaseCtx_ctx c d s) fun h => nomatch h

/-- Only a request gives a lane to a context, and only a lane that no other context receives. -/
theorem Change.oneContextPerLane {n : Nat} {s t : State} (h : Change n s t) (hs : oneContextPerLane s) : oneContextPerLane t := by
  cases h with
  | ctx c y _ h => exact oneContextPerLane_setCtx h hs
  | opened c e first _ _ hlane => exact oneContextPerLane_openCtx first hlane hs
  | released c => exact oneContextPerLane_releaseCtx c hs
  | audioJoins _ p => exact joinAudio_preserves (fun _ _ => id) p hs
  | dataJoins _ p => exact joinData_preserves (fun _ _ => id) p hs
  | labelJoins _ p => exact joinLabel_preserves (fun _ _ => id) p hs
  | _ => exact hs

/-- Settles O9: every change keeps the lanes apart, and after a reset of any kind no context receives. -/
theorem stepKeepsOneContextPerLane : Obligations.StepKeepsOneContextPerLane :=
  keptByStep_of_changes (P := oneContextPerLane) (fun _ _ => id) (fun _ _ h => h.oneContextPerLane) (fun _ _ => id)
    (fun _ _ => reset_oneContextPerLane) (fun _ => reset_oneContextPerLane) fun _ _ => reset_oneContextPerLane

/-! ### Counters, thresholds and dwells in range (R85, R109, R118, R125, R133) -/

/-- The counters of one context are in range (R85). -/
def LaneContext.inRange (x : LaneContext) : Prop := x.score ≤ 4095 ∧ x.settle ≤ 8 ∧ x.assembled ≤ 65535

/-- The thresholds and the dwell of one slot are in range (R118). -/
def Slot.inRange (x : Slot) : Prop := x.thLo < x.thHi ∧ x.thHi ≤ 4095 ∧ x.dwell ≤ 255

/-- Every context and every slot in range. -/
def rangesHold (s : State) : Prop := countersInRange s ∧ slotsInRange s

/-- One context replaced by one whose counters are in range. -/
theorem countersInRange_replace {s t : State} {c : Fin 16} {y : LaneContext} (hs : countersInRange s)
    (hctx : ∀ d, t.ctx d = if d = c then y else s.ctx d) (hy : y.inRange) : countersInRange t := by
  intro d
  rw [hctx]
  split
  · exact hy
  · exact hs d

/-- One slot replaced by one whose thresholds and dwell are in range. -/
theorem slotsInRange_setSlot {s : State} {i : Fin 5} {y : Slot} (hs : slotsInRange s) (hy : y.inRange) :
    slotsInRange (s.setSlot i y) := by
  intro j
  rw [slot_setSlot]
  split
  · exact hy
  · exact hs j

theorem CtxStep.inRange {x y : LaneContext} (h : CtxStep x y) (hx : x.inRange) : y.inRange := by
  obtain ⟨hscore, hsettle, hassembled⟩ := hx
  exact ⟨h.score hscore, h.settle hsettle, h.assembled hassembled⟩

theorem SlotStep.inRange {s : State} {i : Fin 5} {y : Slot} (h : SlotStep s i y) (hs : (s.slot i).inRange) : y.inRange := by
  obtain ⟨hlow, hhigh, hdwell⟩ := hs
  exact ⟨by rwa [h.thLo, h.thHi], by rwa [h.thHi], h.dwell hdwell⟩

theorem free_inRange : LaneContext.free.inRange := by simp [LaneContext.inRange, LaneContext.free]

/-- The ranges of a slot do not depend on its roles. -/
theorem inRange_outline (x : Slot) : x.outline.inRange ↔ x.inRange := .rfl

/-- A release frees its context and keeps every slot but for its roles (R91). -/
theorem rangesHold_releaseCtx (c : Fin 16) {s : State} (hs : rangesHold s) : rangesHold (releaseCtx c s) := by
  obtain ⟨hctxs, hslots⟩ := hs
  refine ⟨countersInRange_replace hctxs (fun d => releaseCtx_ctx c d s) free_inRange, fun i => ?_⟩
  have outline : ((releaseCtx c s).slot i).outline = (s.slot i).outline := dropOutgoingCtx_outline c _ i
  exact (inRange_outline _).1 (outline ▸ (inRange_outline _).2 (hslots i))

/-- The counters move by steps that keep their ranges, and the thresholds by SET-QUALITY alone, which clamps them. -/
theorem Change.rangesHold {n : Nat} {s t : State} (h : Change n s t) (hs : rangesHold s) : rangesHold t := by
  have hwhole := hs
  obtain ⟨hctxs, hslots⟩ := hs
  cases h with
  | ctx c y _ h => exact ⟨countersInRange_replace hctxs (fun d => ctx_setCtx s c d y) (h.inRange (hctxs c)), hslots⟩
  | opened c e first => exact ⟨countersInRange_replace hctxs (fun d => openCtx_ctx d) free_inRange, hslots⟩
  | released c => exact rangesHold_releaseCtx c hwhole
  | slot _ i y _ h => exact ⟨hctxs, slotsInRange_setSlot hslots (h.inRange (hslots i))⟩
  | quality _ i hi lo up down _ h =>
    obtain ⟨hlow, hhigh⟩ := h
    obtain ⟨_, _, hdwell⟩ := hslots i
    exact ⟨hctxs, slotsInRange_setSlot hslots ⟨hlow, hhigh, hdwell⟩⟩
  | audioJoins _ p => exact joinAudio_preserves (fun _ _ => id) p hwhole
  | dataJoins _ p => exact joinData_preserves (fun _ _ => id) p hwhole
  | labelJoins _ p => exact joinLabel_preserves (fun _ _ => id) p hwhole
  | _ => exact hwhole

theorem reset_rangesHold : rangesHold State.reset := ⟨reset_countersInRange, reset_slotsInRange⟩

/-- Settles O10: every change keeps the ranges, and a reset of any kind sets contexts and slots to values within them. -/
theorem stepKeepsCountersInRange : Obligations.StepKeepsCountersInRange :=
  keptByStep_of_changes (P := rangesHold) (fun _ _ => id) (fun _ _ h => h.rangesHold) (fun _ _ => id)
    (fun _ _ => reset_rangesHold) (fun _ => reset_rangesHold) fun _ _ => reset_rangesHold

end Sys2Proof.Machine
end

section
/-! SELECT in the present case: the lanes its slot shares and requests, and the state the order leaves (R43, R120 to R123, R131, R139,
R161, log 9, log 33). -/

namespace Sys2Proof.Machine

/-! ### The state checks after an opening (R131) -/

/-- A slot takes a value with the thresholds and masks it had. -/
theorem updSlot_outside {s : State} {i : Fin 5} {f : Slot → Slot} (h : SlotStep s i (f (s.slot i))) :
    OutsideSlots s (s.updSlot i f) := by
  refine ⟨⟨rfl, rfl, rfl, rfl, fun j => ?_, rfl, rfl, rfl, rfl⟩, rfl, rfl, rfl⟩
  rw [slot_updSlot]
  split
  · rename_i hj
    rw [hj]
    exact ⟨h.thHi, h.thLo, h.riseMask, h.fallMask⟩
  · exact ⟨rfl, rfl, rfl, rfl⟩

theorem enterSlotState_outside (i : Fin 5) (st : SlotState) (s : State) : OutsideSlots s (enterSlotState i st s) :=
  raised_slot_outside _ ⟨rfl, rfl, rfl, rfl⟩

theorem stateCheck_outside (i : Fin 5) (s : State) : OutsideSlots s (stateCheck i s) := by
  have reverted : OutsideSlots s (s.updSlot i (revertSource s)) := updSlot_outside (revertSource_step s i)
  unfold stateCheck
  dsimp only
  split
  · split
    · exact reverted.trans (enterSlotState_outside _ _ _)
    · exact reverted
  · exact reverted

theorem stateChecks_outsideSlots (s : State) : OutsideSlots s (stateChecks s) :=
  .foldl (fun s i => stateCheck_outside i s) _ _

/-- A check leaves a slot that is not DELIVERING and has its primary as source. -/
theorem stateCheck_settled {i : Fin 5} {x : Slot} (hx : x.state ≠ .delivering) (hp : x.source = .primary) (j : Fin 5) {s : State}
    (hs : s.slot i = x) : (stateCheck j s).slot i = x := by
  by_cases h : i = j
  · subst h
    rw [stateCheck_reverts (.inl (by rwa [hs])), slot_setSlot_self, hs]
    exact revertSource_kept (.inl hp)
  · rw [stateCheck_other h, hs]

theorem stateChecks_settled {i : Fin 5} {x : Slot} (hx : x.state ≠ .delivering) (hp : x.source = .primary) {s : State}
    (hs : s.slot i = x) : (stateChecks s).slot i = x :=
  List.foldlRecOn (motive := fun v : State => v.slot i = x) slotOrder _ hs fun _ hv j _ => stateCheck_settled hx hp j hv

/-! ### The slot gives up what it held (R122 step 2) -/

/-- In u, slot i is as in s but holds no role, and none of its packets is queued; what an order of the Selection Controller leaves alone
is as in s. -/
structure GivenUp (i : Fin 5) (s u : State) : Prop where
  slot : u.slot i = (s.slot i).outline
  frame : selectionFrame s u
  packets : noPacketsOf u i

theorem noPacketsOf_removeSlotPackets (i : Fin 5) (s : State) : noPacketsOf (removeSlotPackets i s) i :=
  ⟨fun _ hp => of_decide_eq_true (List.mem_filter.1 hp).2, fun _ hp => of_decide_eq_true (List.mem_filter.1 hp).2,
    fun _ hp => of_decide_eq_true (List.mem_filter.1 hp).2⟩

/-- Queues that hold what they held before hold no more packets of a slot. -/
theorem noPacketsOf_outside {s u : State} {i : Fin 5} (h : OutsideSlots s u) (hs : noPacketsOf s i) : noPacketsOf u i := by
  unfold noPacketsOf
  rwa [h.link]

theorem giveUpSlot_givenUp (i : Fin 5) (s : State) : GivenUp i s (removeSlotPackets i (giveUpSlot i s)) := by
  have dropped : selectionFrame s (dropReferences (s.slot i) s) := (dropReferences_eff _ _).selectionFrame
  have cleared : OutsideSlots (dropReferences (s.slot i) s) (giveUpSlot i s) :=
    updSlot_outside (.kept rfl rfl rfl rfl (.inl rfl) (.inl rfl))
  have removed : selectionFrame (giveUpSlot i s) (removeSlotPackets i (giveUpSlot i s)) :=
    ⟨rfl, rfl, rfl, rfl, fun _ => ⟨rfl, rfl, rfl, rfl⟩, rfl, rfl, rfl, rfl⟩
  exact ⟨giveUpSlot_slot i s, selectionFrame_trans (selectionFrame_trans dropped cleared.frame) removed,
    noPacketsOf_removeSlotPackets i _⟩

theorem GivenUp.after_lanes {i : Fin 5} {s t u : State} (h : LanesOnly s t) (k : GivenUp i t u) : GivenUp i s u :=
  ⟨by rw [k.slot, h.slot], selectionFrame_trans h.outside.frame k.frame, k.packets⟩

theorem GivenUp.lanes {i : Fin 5} {s t u : State} (h : GivenUp i s t) (k : LanesOnly t u) : GivenUp i s u :=
  ⟨(k.slot i).trans h.slot, selectionFrame_trans h.frame k.outside.frame, noPacketsOf_outside k.outside h.packets⟩

/-! ### What a SELECT in the present case leaves (R122, R123) -/

/-- The lanes as a SELECT in the present case opens them, and the references of the five roles. -/
abbrev selectedRoles (i : Fin 5) (e : ServiceEntry) (wantTwin wantData : Bool) (s : State) : State × Refs :=
  openedRoles (wantedRoles i e wantTwin wantData) (nextFrameCount s) (fun v => removeSlotPackets i (giveUpSlot i v)) s

section Present

variable (i : Fin 5) (e : ServiceEntry) (role : Option Role) (wantTwin wantData : Bool) (s : State)

theorem selectedRoles_givenUp : GivenUp i s (selectedRoles i e wantTwin wantData s).1 := by
  have sharing : LanesOnly s ((wantedRoles i e wantTwin wantData).foldl shareStep (s, noRefs)).1 :=
    .foldlFst shareStep_lanes _ (s, noRefs)
  exact ((giveUpSlot_givenUp i _).after_lanes sharing).lanes (.foldlFst (openStep_lanes _) _ _)

theorem selectPresent_state : (selectPresent i e role wantTwin wantData s).2.2 =
    emptyLabel i (setOpened i e.service role wantTwin wantData (selectedRoles i e wantTwin wantData s).2
      (selectedRoles i e wantTwin wantData s).1) := rfl

theorem selectPresent_lanes :
    (selectPresent i e role wantTwin wantData s).2.2.contexts = (selectedRoles i e wantTwin wantData s).1.contexts ∧
      (selectPresent i e role wantTwin wantData s).2.2.store = (selectedRoles i e wantTwin wantData s).1.store := ⟨rfl, rfl⟩

theorem selectPresent_frame : selectionFrame s (selectPresent i e role wantTwin wantData s).2.2 := by
  have opened : ∀ v refs, selectionFrame v (setOpened i e.service role wantTwin wantData refs v) := fun _ _ =>
    (setOpened_outside ..).frame
  have emptied : ∀ v, selectionFrame v (emptyLabel i v) := fun _ =>
    ⟨rfl, rfl, rfl, rfl, fun _ => ⟨rfl, rfl, rfl, rfl⟩, rfl, rfl, rfl, rfl⟩
  rw [selectPresent_state]
  exact selectionFrame_trans (selectionFrame_trans (selectedRoles_givenUp ..).frame (opened _ _)) (emptied _)

theorem selectPresent_packets : noPacketsOf (selectPresent i e role wantTwin wantData s).2.2 i := by
  have opened : ∀ v refs, OutsideSlots v (setOpened i e.service role wantTwin wantData refs v) := fun _ _ => setOpened_outside ..
  have emptied : ∀ v, noPacketsOf v i → noPacketsOf (emptyLabel i v) i := fun _ => id
  rw [selectPresent_state]
  exact emptied _ (noPacketsOf_outside (opened _ _) (selectedRoles_givenUp ..).packets)

theorem selectPresent_label : label (selectPresent i e role wantTwin wantData s).2.2 i = LabelBuffer.reset :=
  (label_setLabel i i _ _).trans (if_pos rfl)

/-- Slot i as a SELECT in the present case leaves it. -/
theorem selectPresent_slot : (selectPresent i e role wantTwin wantData s).2.2.slot i =
    openedSlot s (s.slot i).outline e.service role wantTwin wantData (selectPresent i e role wantTwin wantData s).2.1 := by
  have given := selectedRoles_givenUp i e wantTwin wantData s
  obtain ⟨_, _, _, _, _, hann, _⟩ := given.frame
  refine (setOpened_slot_self i e.service role wantTwin wantData _ (selectedRoles i e wantTwin wantData s).1).trans ?_
  rw [given.slot]
  unfold openedSlot
  rw [hann]
  rfl

/-- A slot that held nothing refers, once opened, just as its roles were set. -/
theorem openedSlot_roleRef (x : Slot) (service : Word16) (refs : Refs) (r : RoleIx) :
    (openedSlot s x.outline service role wantTwin wantData refs).roleRef r = { ref := refs[r], outgoing := [] } := by
  simp [openedSlot, Slot.roleRef, Slot.outline, RoleRef.none]

end Present

/-! ### The references before and after the requests (R122) -/

section References

variable (i : Fin 5) (e : ServiceEntry) (wantTwin wantData : Bool) (s : State) {r : RoleIx} {lane : Nat}

/-- The state and the references after the sharing step of R122. -/
abbrev sharedRoles : State × Refs := (wantedRoles i e wantTwin wantData).foldl shareStep (s, noRefs)

theorem noRefs_get (r : RoleIx) : noRefs[r] = Ref.notWanted := by simp [noRefs]

theorem sharedRoles_wanted (h : (r, lane) ∈ wantedRoles i e wantTwin wantData) :
    (sharedRoles i e wantTwin wantData s).2[r] = (receivingLane s lane).elim .notWanted .context := by
  have shared := (shareFold_refs s _ (s, noRefs) (wantedRoles_nodup i e wantTwin wantData) (fun _ => rfl) r).2 lane h
  rwa [noRefs_get] at shared

theorem sharedRoles_notWanted (h : ∀ l, (r, l) ∉ wantedRoles i e wantTwin wantData) :
    (sharedRoles i e wantTwin wantData s).2[r] = .notWanted :=
  ((shareFold_refs s _ (s, noRefs) (wantedRoles_nodup i e wantTwin wantData) (fun _ => rfl) r).1 h).trans (noRefs_get r)

/-- Sharing adds a reference to the context of each lane that is received, as the lanes stand when its turn comes. -/
theorem sharedRoles_state : (sharedRoles i e wantTwin wantData s).1 = (wantedRoles i e wantTwin wantData).foldl (fun v q =>
    match receivingLane v q.2 with
    | some c => addRef c v
    | none => v) s := by
  refine (List.foldl_hom Prod.fst fun acc q => ?_).symm
  unfold shareStep
  cases receivingLane acc.1 q.2 <;> rfl

/-- The wanted roles that sharing leaves to be requested. -/
abbrev askedRoles : List (RoleIx × Nat) :=
  (wantedRoles i e wantTwin wantData).filter fun q => (receivingLane s q.2).isNone

theorem selectedRoles_requested : RequestedFrom (nextFrameCount s) (askedRoles i e wantTwin wantData s)
    (removeSlotPackets i (giveUpSlot i (sharedRoles i e wantTwin wantData s).1)) (sharedRoles i e wantTwin wantData s).2
    (selectedRoles i e wantTwin wantData s) := by
  refine openFold s _ _ _ _ (wantedRoles_nodup i e wantTwin wantData) fun r lane h => ?_
  rw [sharedRoles_wanted i e wantTwin wantData s h]
  cases receivingLane s lane <;> rfl

/-- A role that is not asked keeps what sharing gave it. -/
theorem selectedRoles_kept (h : ∀ l, (r, l) ∉ askedRoles i e wantTwin wantData s) :
    (selectedRoles i e wantTwin wantData s).2[r] = (sharedRoles i e wantTwin wantData s).2[r] :=
  (selectedRoles_requested i e wantTwin wantData s).2.1 r h

/-- A role whose lane is received keeps the context it shares. -/
theorem selectedRoles_shared {c : Fin 16} (h : (r, lane) ∈ wantedRoles i e wantTwin wantData) (hc : receivingLane s lane = some c) :
    (selectedRoles i e wantTwin wantData s).2[r] = .context c := by
  have notAsked : ∀ l, (r, l) ∉ askedRoles i e wantTwin wantData s := fun l hl => by
    obtain ⟨hmem, hnone⟩ := List.mem_filter.1 hl
    cases List.inj_on_of_nodup_map (wantedRoles_nodup i e wantTwin wantData) hmem h rfl
    simp [hc] at hnone
  rw [selectedRoles_kept i e wantTwin wantData s notAsked, sharedRoles_wanted i e wantTwin wantData s h, hc]
  rfl

/-- A role whose lane is not received gets the reference that some answer gives it. -/
theorem selectedRoles_answered (h : (r, lane) ∈ wantedRoles i e wantTwin wantData) (hnone : receivingLane s lane = none) :
    ∃ answer, (selectedRoles i e wantTwin wantData s).2[r] = refOfAnswer answer r lane := by
  obtain ⟨_, _, answered⟩ := selectedRoles_requested i e wantTwin wantData s
  have asked : (r, lane) ∈ askedRoles i e wantTwin wantData s := List.mem_filter.2 ⟨h, Option.isNone_iff_eq_none.2 hnone⟩
  obtain ⟨k, hk⟩ := List.mem_iff_getElem?.1 asked
  exact ⟨_, answered k r lane hk⟩

theorem selectedRoles_notWanted (h : wantsRole i e.kind wantTwin wantData r = false) :
    (selectedRoles i e wantTwin wantData s).2[r] = .notWanted := by
  have unwanted : ∀ l, (r, l) ∉ wantedRoles i e wantTwin wantData := fun l hl => by
    obtain ⟨q, _, hq⟩ := List.mem_filterMap.1 hl
    split at hq
    · rename_i hw
      obtain ⟨x, _, hx⟩ := Option.map_eq_some_iff.1 hq
      injection hx with hqr
      rw [hqr, h] at hw
      cases hw
    · cases hq
  rw [selectedRoles_kept i e wantTwin wantData s fun l hl => unwanted l (List.mem_filter.1 hl).1,
    sharedRoles_notWanted i e wantTwin wantData s unwanted]

/-- Where one wanted role alone is not shared, it alone is asked. -/
theorem askedRoles_single (h : (r, lane) ∈ wantedRoles i e wantTwin wantData) (hnone : receivingLane s lane = none)
    (others : ∀ q x, (q, x) ∈ wantedRoles i e wantTwin wantData → q ≠ r → receivingLane s x ≠ none) :
    askedRoles i e wantTwin wantData s = [(r, lane)] := by
  have nodup := wantedRoles_nodup i e wantTwin wantData
  refine List.perm_singleton.1 ((List.perm_ext_iff_of_nodup (nodup.of_map.filter _) (List.nodup_singleton _)).2 fun q => ?_)
  rw [List.mem_filter, List.mem_singleton]
  refine ⟨fun ⟨hmem, hq⟩ => ?_, ?_⟩
  · have hrole : q.1 = r := by
      by_contra hne
      exact others q.1 q.2 hmem hne (Option.isNone_iff_eq_none.1 hq)
    exact List.inj_on_of_nodup_map nodup hmem h hrole
  · rintro rfl
    exact ⟨h, Option.isNone_iff_eq_none.2 hnone⟩

/-- The one role that is not shared is requested in the state that sharing and giving up leave. -/
theorem selectedRoles_single (h : (r, lane) ∈ wantedRoles i e wantTwin wantData) (hnone : receivingLane s lane = none)
    (others : ∀ q x, (q, x) ∈ wantedRoles i e wantTwin wantData → q ≠ r → receivingLane s x ≠ none) :
    let answer := requestCtx lane (nextFrameCount s) (giveUpSlot i (sharedRoles i e wantTwin wantData s).1)
    (selectedRoles i e wantTwin wantData s).2[r] = refOfAnswer answer.1 r lane ∧
      SameLanes (selectedRoles i e wantTwin wantData s).1 answer.2 := by
  obtain ⟨state, _, answered⟩ := selectedRoles_requested i e wantTwin wantData s
  rw [askedRoles_single i e wantTwin wantData s h hnone others] at state answered
  generalize (sharedRoles i e wantTwin wantData s).1 = v at *
  have lanes : SameLanes (removeSlotPackets i (giveUpSlot i v)) (giveUpSlot i v) := ⟨rfl, rfl, rfl⟩
  obtain ⟨sameAnswer, sameState⟩ := requestCtx_same lanes lane (nextFrameCount s)
  refine ⟨?_, ?_⟩
  · rw [answered 0 r lane rfl, ← sameAnswer]
    rfl
  · rw [state]
    exact sameState

end References

/-- The reference that an answer gives: the two refusals for room alike. -/
theorem refOfAnswer_eq (answer : RequestAnswer) (r : RoleIx) (lane : Nat) : refOfAnswer answer r lane =
    match answer with
    | .shared c => .context c
    | .opened c => .context c
    | .noEntry => .deferred lane
    | _ => if r = 1 then .absent else .deferred lane := by
  cases answer <;> rfl

/-- A reference that an answer gives is to a context, DEFERRED, or a twin ABSENT (R122 step 3). -/
theorem refOfAnswer_cases (answer : RequestAnswer) (r : RoleIx) (lane : Nat) :
    (∃ c, refOfAnswer answer r lane = .context c) ∨ refOfAnswer answer r lane = .deferred lane ∨
      (r = 1 ∧ refOfAnswer answer r lane = .absent) := by
  by_cases h : r = 1 <;> cases answer <;> simp [refOfAnswer, h]

/-! ### SELECT in the present case as an order (R121) -/

/-- SELECT of a service that the active bank holds, with room. -/
theorem selectSlot_present {slot : Byte} {service : Word16} {code wants : Byte} {role : Role} {i : Fin 5} {e : ServiceEntry}
    {s : State} (hi4 : i ≠ 4) (hi : slot.toNat = i.val) (hr : roleAllowed s i code role) (hp : s.announcer.power = .active)
    (he : activeService s service = some e)
    (fits : serviceFits s e (spareCtxs s i ((wantedRoles i e (wants.getLsbD 0) (wants.getLsbD 1)).map Prod.snd)) = true) :
    selectSlot slot service code wants s =
      let a := selectPresent i e (some role) (wants.getLsbD 0) (wants.getLsbD 1) s
      (.accepted, selectData i .opening a.1 a.2.1, consumeEarly i (stateChecks a.2.2)) := by
  have hlt : slot.toNat < 4 := by
    have := i.isLt
    have : i.val ≠ 4 := fun e => hi4 (Fin.ext e)
    omega
  have hfin : (⟨slot.toNat, Nat.lt_succ_of_lt hlt⟩ : Fin 5) = i := Fin.ext hi
  unfold selectSlot
  rw [dif_pos hlt, hfin, roleAllowed_selectRole hr]
  dsimp only
  rw [if_neg (roleAllowed_notBusy hr), if_neg (by simp [hp]), he]
  exact if_pos fits

/-- Consuming the early start touches the early flag of the slot alone (R139). -/
theorem consumeEarly_slot (i j : Fin 5) (s : State) :
    (consumeEarly i s).slot j = if j = i then { s.slot i with early := false } else s.slot j := slot_updSlot _ _ _ _

theorem consumeEarly_frame (i : Fin 5) (s : State) : selectionFrame s (consumeEarly i s) := by
  refine ⟨rfl, rfl, rfl, rfl, fun j => ?_, rfl, rfl, rfl, rfl⟩
  rw [consumeEarly_slot]
  split
  · rename_i hj
    subst hj
    exact ⟨rfl, rfl, rfl, rfl⟩
  · exact ⟨rfl, rfl, rfl, rfl⟩

theorem label_outside {s u : State} (h : OutsideSlots s u) (i : Fin 5) : label u i = label s i := by
  unfold label
  rw [h.directory]

section Left

variable (i : Fin 5) (e : ServiceEntry) (role : Option Role) (wantTwin wantData : Bool) (s : State)

/-- The state that SELECT leaves in the present case. -/
def selectedState : State := consumeEarly i (stateChecks (selectPresent i e role wantTwin wantData s).2.2)

theorem selectedState_slot : (selectedState i e role wantTwin wantData s).slot i =
    { openedSlot s (s.slot i).outline e.service role wantTwin wantData (selectedRoles i e wantTwin wantData s).2 with
      early := false } := by
  have opened := selectPresent_slot i e role wantTwin wantData s
  unfold selectedState
  rw [consumeEarly_slot, if_pos rfl, stateChecks_settled (by simp [openedSlot]) rfl opened]
  rfl

theorem selectedState_roleRef (r : RoleIx) : ((selectedState i e role wantTwin wantData s).slot i).roleRef r =
    { ref := (selectedRoles i e wantTwin wantData s).2[r], outgoing := [] } := by
  rw [selectedState_slot]
  exact openedSlot_roleRef role wantTwin wantData s _ e.service _ r

theorem selectedState_openedAs : openedAs (selectedState i e role wantTwin wantData s) i e.service role wantTwin wantData := by
  unfold openedAs
  rw [selectedState_slot]
  exact ⟨rfl, rfl, rfl, rfl, rfl, rfl, rfl, rfl, rfl, rfl, rfl⟩

/-- After the openings nothing touches a context or a cell. -/
theorem selectedState_lanes :
    (selectedState i e role wantTwin wantData s).contexts = (selectedRoles i e wantTwin wantData s).1.contexts ∧
      (selectedState i e role wantTwin wantData s).store = (selectedRoles i e wantTwin wantData s).1.store := by
  obtain ⟨contexts, store⟩ := stateChecks_outside (selectPresent i e role wantTwin wantData s).2.2
  obtain ⟨opened, openedStore⟩ := selectPresent_lanes i e role wantTwin wantData s
  have consumed : ∀ v, (consumeEarly i v).contexts = v.contexts ∧ (consumeEarly i v).store = v.store := fun _ => ⟨rfl, rfl⟩
  unfold selectedState
  rw [(consumed _).1, (consumed _).2, contexts, store, opened, openedStore]
  exact ⟨rfl, rfl⟩

theorem selectedState_rolesOpened :
    rolesOpened s (selectedState i e role wantTwin wantData s) i e wantTwin wantData (nextFrameCount s) (giveUpSlot i) := by
  obtain ⟨contexts, store⟩ := selectedState_lanes i e role wantTwin wantData s
  refine rolesOpened_of (g' := fun v => removeSlotPackets i (giveUpSlot i v)) (fun _ => ⟨rfl, rfl, rfl⟩) contexts store fun r => ?_
  rw [selectedState_roleRef]

theorem selectedState_frame : selectionFrame s (selectedState i e role wantTwin wantData s) :=
  selectionFrame_trans (selectionFrame_trans (selectPresent_frame ..) (stateChecks_outsideSlots _).frame) (consumeEarly_frame i _)

theorem selectedState_packets : noPacketsOf (selectedState i e role wantTwin wantData s) i := by
  have consumed : ∀ v, noPacketsOf v i → noPacketsOf (consumeEarly i v) i := fun _ => id
  exact consumed _ (noPacketsOf_outside (stateChecks_outsideSlots _) (selectPresent_packets i e role wantTwin wantData s))

theorem selectedState_label : label (selectedState i e role wantTwin wantData s) i = LabelBuffer.reset := by
  have consumed : ∀ v, label (consumeEarly i v) i = label v i := fun _ => rfl
  unfold selectedState
  rw [consumed, label_outside (stateChecks_outsideSlots _), selectPresent_label]

end Left

/-- Settles O55: sharing and requests role by role, then the state that the order leaves, part by part. -/
theorem selectOpensTheSlot : Obligations.SelectOpensTheSlot := by
  intro ref slot service code wants role i e s h hi4 hi hr hp he fits
  dsimp only
  have hsel := selectSlot_present (s := heard s) hi4 hi hr hp he fits
  have hexec := exec_select ref slot service code wants h
  rw [hsel] at hexec
  have hservice : e.service = service := service?_some he
  refine ⟨fun r lane hw => ⟨?_, fun c hc => ?_, ?_, fun hnone others => ?_⟩,
    selectedState i e (some role) (wants.getLsbD 0) (wants.getLsbD 1) (heard s), hexec, rfl,
    hservice ▸ selectedState_openedAs .., ?_, ?_, fun r => selectedState_roleRef .., selectedState_rolesOpened ..,
    fun r => selectedRoles_notWanted i e _ _ _, rfl, selectedState_label .., selectedState_packets .., selectedState_frame ..⟩
  · refine (sharedRoles_wanted i e _ _ (heard s) hw).trans ?_
    show (receivingLane s lane).elim Ref.notWanted Ref.context = _
    cases receivingLane s lane <;> rfl
  · have shared := (sharedRoles_wanted i e _ _ (heard s) hw).symm.trans hc
    cases hl : receivingLane (heard s) lane with
    | none =>
      rw [hl] at shared
      cases shared
    | some d =>
      rw [hl] at shared
      exact (selectedRoles_shared i e _ _ (heard s) hw hl).trans shared
  · cases hl : receivingLane (heard s) lane with
    | some c => exact .inl ⟨c, selectedRoles_shared i e _ _ (heard s) hw hl⟩
    | none =>
      obtain ⟨answer, ha⟩ := selectedRoles_answered i e _ _ (heard s) hw hl
      have given := refOfAnswer_cases answer r lane
      rw [← ha] at given
      exact given
  · obtain ⟨given, contexts, store, _⟩ := selectedRoles_single i e _ _ (heard s) hw hnone others
    rw [sharedRoles_state] at given contexts store
    exact ⟨given.trans (refOfAnswer_eq ..), contexts, store⟩
  · rw [selectedState_slot]
  · rw [selectedState_slot]
    refine decide_eq_decide.2 ?_
    rw [Option.some.injEq]
    exact .rfl

end Sys2Proof.Machine
end

section
/-! The ends of drains: the contexts they free, the columns they push and the attention they raise (R78, R91, R94, R131). -/

namespace Sys2Proof.Machine

/-! ### One drain that ends (R91, R94) -/

theorem drainDone_iff (x : LaneContext) :
    drainDone x = true ↔ x.state = .draining ∧ ∃ d status, x.drainEnd = some d ∧ x.last = some (d, status) := by
  simp only [drainDone, Bool.and_eq_true, beq_iff_eq, Option.isSome_iff_exists]
  constructor
  · rintro ⟨⟨hstate, d, hend⟩, hlast⟩
    obtain ⟨⟨_, status⟩, hlast, rfl⟩ := Option.map_eq_some_iff.1 (hlast.trans hend)
    exact ⟨hstate, _, status, hend, hlast⟩
  · rintro ⟨hstate, d, status, hend, hlast⟩
    exact ⟨⟨hstate, d, hend⟩, by rw [hlast, hend]; rfl⟩

/-- A context once its drain, if done, has ended. -/
def LaneContext.drained (x : LaneContext) : LaneContext := if drainDone x = true then LaneContext.free else x

theorem endDrain_done {s : State} {c : Fin 16} (h : drainDone (s.ctx c) = true) :
    endDrain s c = raise (.layout .laneEnded) (releaseCtx c s) := if_pos h

theorem endDrain_still {s : State} {c : Fin 16} (h : ¬drainDone (s.ctx c) = true) : endDrain s c = s := if_neg h

/-- The end of a drain touches its own context alone. -/
theorem endDrain_ctx (s : State) (d c : Fin 16) :
    (endDrain s c).ctx d = if d = c then (s.ctx d).drained else s.ctx d := by
  unfold LaneContext.drained
  by_cases h : drainDone (s.ctx c) = true
  · rw [endDrain_done h, raise_ctx, releaseCtx_ctx]
    split
    · rename_i k
      rw [k, if_pos h]
    · rfl
  · rw [endDrain_still h]
    split
    · rename_i k
      rw [k, if_neg h]
    · rfl

theorem releaseCtx_free (c : Fin 16) (s : State) : (releaseCtx c s).store.free = (s.ctx c).columns ++ s.store.free := rfl

/-! ### The drains that end, in order of id (R94) -/

theorem endDrainFold_ctx {l : List (Fin 16)} (hl : l.Nodup) (s : State) (c : Fin 16) :
    (l.foldl endDrain s).ctx c = if c ∈ l then (s.ctx c).drained else s.ctx c :=
  foldl_own State.ctx endDrain LaneContext.drained endDrain_ctx l hl s c

/-- The end of a drain to come finds its context as it was. -/
theorem endDrainFold_ctx_next {l : List (Fin 16)} {c : Fin 16} (hl : (l ++ [c]).Nodup) (s : State) :
    l.Nodup ∧ (l.foldl endDrain s).ctx c = s.ctx c := by
  obtain ⟨nodup, _, apart⟩ := List.nodup_append.1 hl
  exact ⟨nodup, by rw [endDrainFold_ctx nodup, if_neg fun h => apart c h c List.mem_cons_self rfl]⟩

/-- The columns of the drains that end are pushed in order, so those of the last end on top (R78). -/
theorem endDrainFold_free (l : List (Fin 16)) (hl : l.Nodup) (s : State) : (l.foldl endDrain s).store.free =
    ((l.filter fun c => drainDone (s.ctx c)).reverse.flatMap fun c => (s.ctx c).columns) ++ s.store.free := by
  induction l using List.reverseRecOn with
  | nil => rfl
  | append_singleton l c ih =>
    obtain ⟨nodup, kept⟩ := endDrainFold_ctx_next hl s
    rw [List.foldl_append, List.foldl_cons, List.foldl_nil, List.filter_append, List.reverse_append]
    by_cases h : drainDone (s.ctx c) = true
    · rw [endDrain_done (by rwa [kept]), raise_store, releaseCtx_free, kept, ih nodup]
      simp [h]
    · rw [endDrain_still (by rwa [kept]), ih nodup]
      simp [h]

/-- LAYOUT is raised once a drain has ended, and stays so (R94). -/
theorem endDrainFold_layout (l : List (Fin 16)) (hl : l.Nodup) {s : State} {c : Fin 16} (hc : c ∈ l)
    (h : drainDone (s.ctx c) = true) :
    (l.foldl endDrain s).link.causes[(4 : Fin 9)] = { pending := true, detail := some (.layout .laneEnded) } := by
  induction l using List.reverseRecOn with
  | nil => cases hc
  | append_singleton l d ih =>
    obtain ⟨nodup, kept⟩ := endDrainFold_ctx_next hl s
    rw [List.foldl_append, List.foldl_cons, List.foldl_nil]
    by_cases hd : drainDone (s.ctx d) = true
    · rw [endDrain_done (by rwa [kept])]
      exact raise_own_cause (.layout .laneEnded) _
    · have hcd : c ≠ d := fun e => hd (e ▸ h)
      rw [endDrain_still (by rwa [kept])]
      exact ih nodup ((List.mem_append.1 hc).resolve_right fun k => hcd (List.mem_singleton.1 k))

/-! ### DRAIN_END (R94, R131) -/

theorem endDrains_ctx (s : State) (c : Fin 16) : (endDrains s).ctx c = (s.ctx c).drained := by
  unfold endDrains State.ctx
  rw [(stateChecks_outside _).1]
  exact (endDrainFold_ctx ctxIds_nodup s c).trans (if_pos (mem_ctxIds c))

theorem endDrains_frame (s : State) : selectionFrame s (endDrains s) := by
  have ended : Eff 0 s (ctxIds.foldl endDrain s) := .foldl endDrain endDrain_eff ctxIds s
  exact selectionFrame_trans ended.selectionFrame (stateChecks_outsideSlots _).frame

/-- Settles O34: the drains that end context by context, the columns they push, the cause they raise, and what the command leaves
alone. -/
theorem drainEndReleases : Obligations.DrainEndReleases := by
  refine ⟨drainDone_iff, fun s => rfl, fun s => rfl, fun s hr => ⟨endDrains s, command_running hr, rfl, endDrains_ctx s, ?_, ?_, ?_⟩⟩
  · unfold endDrains
    rw [(stateChecks_outside _).2]
    exact endDrainFold_free ctxIds ctxIds_nodup s
  · rintro ⟨c, hc⟩
    unfold endDrains
    rw [stateChecks_cause _ (by decide)]
    exact endDrainFold_layout ctxIds ctxIds_nodup (mem_ctxIds c) hc
  · obtain ⟨intake, laneMap, _, _, thresholds, announcer, _⟩ := endDrains_frame s
    have active := congrArg LaneMap.active laneMap
    exact ⟨intake, announcer, active, thresholds⟩

end Sys2Proof.Machine
end

section
/-! The resolution of a group by the number of its missing tiles, and the split of a lane frame into groups (R96 to R100). -/

namespace Sys2Proof.Machine

/-! ### The number of tiles that are not present (R97 to R99) -/

theorem missingCount_append (a b : List (Option Bytes30)) : missingCount (a ++ b) = missingCount a + missingCount b := by
  unfold missingCount
  rw [List.filter_append, List.length_append]

theorem missingCount_zero {tiles : List (Option Bytes30)} : missingCount tiles = 0 ↔ ∀ t ∈ tiles, t ≠ none := by
  simp [missingCount, Option.isNone_iff_eq_none]

/-- A tile that is not present, and those before and after it. -/
theorem missingCount_at {tiles : List (Option Bytes30)} {k : Nat} (h : tiles[k]? = some none) :
    missingCount tiles = missingCount (tiles.take k) + 1 + missingCount (tiles.drop (k + 1)) := by
  obtain ⟨hk, hnone⟩ := List.getElem?_eq_some_iff.1 h
  have parted : tiles = tiles.take k ++ [none] ++ tiles.drop (k + 1) := by
    rw [List.append_assoc, List.singleton_append, ← hnone, List.getElem_cons_drop, List.take_append_drop]
  calc
    missingCount tiles = missingCount (tiles.take k ++ [none] ++ tiles.drop (k + 1)) := congrArg missingCount parted
    _ = missingCount (tiles.take k) + 1 + missingCount (tiles.drop (k + 1)) := by
      rw [missingCount_append, missingCount_append]
      rfl

/-- One tile alone is not present. -/
theorem missingCount_one {tiles : List (Option Bytes30)} {k : Nat} (h : tiles[k]? = some none)
    (others : ∀ j, j ≠ k → tiles[j]? ≠ some none) : missingCount tiles = 1 := by
  have before : missingCount (tiles.take k) = 0 := missingCount_zero.2 fun t ht e => by
    obtain ⟨j, hj⟩ := List.mem_iff_getElem?.1 ht
    rw [List.getElem?_take] at hj
    split at hj
    · exact others j (by omega) (hj.trans (congrArg some e))
    · cases hj
  have after : missingCount (tiles.drop (k + 1)) = 0 := missingCount_zero.2 fun t ht e => by
    obtain ⟨j, hj⟩ := List.mem_iff_getElem?.1 ht
    rw [List.getElem?_drop] at hj
    exact others (k + 1 + j) (by omega) (hj.trans (congrArg some e))
  rw [missingCount_at h, before, after]

/-- Two tiles are not present. -/
theorem missingCount_two {tiles : List (Option Bytes30)} {k j : Nat} (hk : tiles[k]? = some none) (hkj : k < j)
    (hj : tiles[j]? = some none) : 2 ≤ missingCount tiles := by
  have after : missingCount (tiles.drop (k + 1)) ≠ 0 := fun e => by
    refine missingCount_zero.1 e none (List.mem_iff_getElem?.2 ⟨j - (k + 1), ?_⟩) rfl
    rw [List.getElem?_drop, ← hj]
    congr 1
    omega
  rw [missingCount_at hk]
  omega

/-! ### A group by that number (R97 to R99) -/

/-- A data tile of a group that is not repaired: as received, or filled. -/
def DataTile.ofTile : Option Bytes30 → DataTile
  | some p => .received p
  | none => .filled

section Group

variable {g k : Nat} {tiles : List (Option Bytes30)}

theorem resolveGroup_whole (h : ∀ t ∈ tiles, t ≠ none) :
    resolveGroup g tiles = (if xorPresent tiles = 0 then .clean else .mismatch, (tiles.take g).map DataTile.ofTile) := by
  have data : ∀ t ∈ tiles.take g, DataTile.received (t.getD 0) = DataTile.ofTile t := fun t ht => by
    cases t with
    | some p => rfl
    | none => exact absurd rfl (h none (List.mem_of_mem_take ht))
  unfold resolveGroup
  rw [missingCount_zero.2 h, ← List.map_congr_left data]
  rfl

/-- A data tile of a group that is repaired: as received, or rebuilt (R98). -/
def DataTile.repairedFrom (sum : Bytes30) : Option Bytes30 → DataTile
  | some p => .received p
  | none => .rebuilt sum

theorem resolveGroup_repaired (h : missingCount tiles = 1) :
    resolveGroup g tiles = (.repaired, (tiles.take g).map (DataTile.repairedFrom (xorPresent tiles))) := by
  unfold resolveGroup
  rw [h]
  rfl

theorem resolveGroup_lost (h : 2 ≤ missingCount tiles) :
    resolveGroup g tiles = (.lost, (tiles.take g).map DataTile.ofTile) := by
  unfold resolveGroup
  dsimp only
  split
  · omega
  · omega
  · rfl

/-- The data tiles of a repaired group: the one missing is rebuilt, every other is as received. -/
theorem repaired_data {j : Nat} (sum : Bytes30) (hj : j < g) (hlen : g ≤ tiles.length) (hk : tiles[k]? = some none)
    (others : ∀ j, j ≠ k → tiles[j]? ≠ some none) : ((tiles.take g).map (DataTile.repairedFrom sum))[j]? =
      some (if j = k then .rebuilt sum else DataTile.ofTile tiles[j]?.join) := by
  rw [List.getElem?_map, List.getElem?_take_of_lt hj]
  by_cases h : j = k
  · rw [if_pos h, h, hk]
    rfl
  · have hother := others j h
    rw [if_neg h]
    rw [List.getElem?_eq_getElem (hj.trans_le hlen)] at hother ⊢
    cases ht : tiles[j] with
    | some p => rfl
    | none => exact absurd (congrArg some ht) hother

end Group

/-- Settles O33: each group by the number of its missing tiles, and the two splits of a lane frame. -/
theorem groupResolution : Obligations.GroupResolution := by
  refine ⟨fun g tiles _ hlen => ⟨resolveGroup_whole, fun k hk hnone others => ?_, fun k j hkj hj hknone hjnone =>
    resolveGroup_lost (missingCount_two hknone hkj hjnone)⟩, fun n g tiles => ⟨fun hg => if_neg (by omega), rfl⟩⟩
  have alone : ∀ j, j ≠ k → tiles[j]? ≠ some none := fun j hjk hj => by
    obtain ⟨hlt, _⟩ := List.getElem?_eq_some_iff.1 hj
    exact others j (by omega) hjk hj
  rw [resolveGroup_repaired (missingCount_one hnone alone)]
  exact ⟨rfl, fun j hj => repaired_data _ hj (by omega) hnone alone⟩

end Sys2Proof.Machine
end

section
/-! The foreground under every step: at most one slot has role FOREGROUND, and never slot 4 (R118, R121). -/

namespace Sys2Proof.Machine

/-- No other host slot has role FOREGROUND (R121). -/
theorem otherForeground_eq_false_iff (s : State) (i : Fin 5) :
    otherForeground s i = false ↔ ∀ j : Fin 5, j ≠ 4 → j ≠ i → (s.slot j).role ≠ some .foreground := by
  refine ⟨fun h j hj hji hrole => ?_, otherForeground_none⟩
  have other := List.any_eq_false.1 h j (mem_hostSlots.2 hj)
  simp [hji, hrole] at other

/-- The roles of the slots alone say which slot is the foreground. -/
theorem oneForeground_congr {s t : State} (h : ∀ i, (t.slot i).role = (s.slot i).role) (hs : oneForeground s) : oneForeground t := by
  unfold oneForeground at *
  simpa only [h] using hs

/-- A slot takes role FOREGROUND only as a host slot beside which no other slot has it. -/
theorem oneForeground_setSlot {s : State} {i : Fin 5} {y : Slot} (h : SlotStep s i y) (hs : oneForeground s) :
    oneForeground (s.setSlot i y) := by
  obtain ⟨four, one⟩ := hs
  have taken : y.role = some .foreground → i ≠ 4 ∧ ∀ j, j ≠ i → (s.slot j).role ≠ some .foreground := fun hy => by
    rcases h.role hy with had | ⟨hi, free⟩
    · exact ⟨fun e => four (e ▸ had), fun j hji hj => hji (one j i hj had)⟩
    · exact ⟨hi, fun j hji hj => (otherForeground_eq_false_iff s i).1 free j (fun e => four (e ▸ hj)) hji hj⟩
  refine ⟨fun h4 => ?_, fun j k hj hk => ?_⟩
  · rw [slot_setSlot] at h4
    split at h4
    · rename_i e
      obtain ⟨hi, _⟩ := taken h4
      exact hi e.symm
    · exact four h4
  · rw [slot_setSlot] at hj hk
    split at hj <;> split at hk <;> rename_i hji hki
    · rw [hji, hki]
    · obtain ⟨_, alone⟩ := taken hj
      exact absurd hk (alone k hki)
    · obtain ⟨_, alone⟩ := taken hk
      exact absurd hj (alone j hji)
    · exact one j k hj hk

/-- Only a slot that takes a new value changes its role: a release drops outgoing contexts, and SET-QUALITY sets thresholds and masks. -/
theorem Change.oneForeground {n : Nat} {s t : State} (h : Change n s t) (hs : oneForeground s) : oneForeground t := by
  cases h with
  | slot _ i y _ h => exact oneForeground_setSlot h hs
  | released c _ hc => exact oneForeground_congr (Eff.of (.released c s hc)).role0 hs
  | quality _ i hi lo up down =>
    refine oneForeground_congr (fun j => ?_) hs
    rw [slot_updSlot]
    split
    · rename_i e
      rw [e]
    · rfl
  | audioJoins _ p => exact joinAudio_preserves (fun _ _ => id) p hs
  | dataJoins _ p => exact joinData_preserves (fun _ _ => id) p hs
  | labelJoins _ p => exact joinLabel_preserves (fun _ _ => id) p hs
  | _ => exact hs

/-- Settles O7: every change keeps the foreground alone, and after a reset of any kind no slot has that role. -/
theorem stepKeepsOneForeground : Obligations.StepKeepsOneForeground :=
  keptByStep_of_changes (P := oneForeground) (fun _ _ => id) (fun _ _ h => h.oneForeground) (fun _ _ => id)
    (fun _ _ => reset_oneForeground) (fun _ => reset_oneForeground) fun _ _ => reset_oneForeground

end Sys2Proof.Machine
end

section
/-! SELECT refused by the first case that applies, and the fit test: the wanted roles, the contexts X and the room they leave (R120 to
R122). -/

namespace Sys2Proof.Machine

/-! ### The refusals (R121) -/

/-- A slot byte below 4 names its host slot. -/
theorem hostSlot_named {slot : Byte} {i : Fin 5} (hi4 : i ≠ 4) (hi : slot.toNat = i.val) :
    ∃ h : slot.toNat < 4, (⟨slot.toNat, Nat.lt_succ_of_lt h⟩ : Fin 5) = i := by
  have hne : i.val ≠ 4 := fun e => hi4 (Fin.ext e)
  exact ⟨by omega, Fin.ext hi⟩

section Refused

variable {slot : Byte} {service : Word16} {code wants : Byte} {role : Role} {i : Fin 5} {e : ServiceEntry} {s : State}

theorem selectSlot_badSlot (h : 4 ≤ slot.toNat) : selectSlot slot service code wants s = (.badSlot, [slot], s) :=
  dif_neg (by omega)

theorem selectRole_none (h1 : code ≠ 1) (h2 : code ≠ 2) : selectRole code = none := by
  unfold selectRole
  rw [if_neg h1, if_neg h2]

theorem selectSlot_badValue (h : slot.toNat < 4) (h1 : code ≠ 1) (h2 : code ≠ 2) :
    selectSlot slot service code wants s = (.badValue, [slot], s) := by
  unfold selectSlot
  rw [dif_pos h, selectRole_none h1 h2]

theorem selectSlot_busy (hi4 : i ≠ 4) (hi : slot.toNat = i.val)
    (other : ∃ j : Fin 5, j ≠ 4 ∧ j ≠ i ∧ (s.slot j).role = some .foreground) :
    selectSlot slot service 1 wants s = (.busy, [slot], s) := by
  obtain ⟨h, hfin⟩ := hostSlot_named hi4 hi
  have busy : otherForeground s i = true := by
    by_contra hn
    obtain ⟨j, hj, hji, hrole⟩ := other
    exact (otherForeground_eq_false_iff s i).1 (Bool.eq_false_iff.2 hn) j hj hji hrole
  unfold selectSlot
  rw [dif_pos h, hfin]
  exact if_pos ⟨rfl, busy⟩

theorem selectSlot_noRoom (hi4 : i ≠ 4) (hi : slot.toNat = i.val) (hr : roleAllowed s i code role)
    (hp : s.announcer.power = .active) (he : activeService s service = some e)
    (full : serviceFits s e (spareCtxs s i ((wantedRoles i e (wants.getLsbD 0) (wants.getLsbD 1)).map Prod.snd)) = false) :
    selectSlot slot service code wants s = (.noRoom, [slot], s) := by
  obtain ⟨h, hfin⟩ := hostSlot_named hi4 hi
  unfold selectSlot
  rw [dif_pos h, hfin, roleAllowed_selectRole hr]
  dsimp only
  rw [if_neg (roleAllowed_notBusy hr), if_neg (by simp [hp]), he]
  exact if_neg (Bool.eq_false_iff.1 full)

end Refused

/-! ### The fit test (R122) -/

/-- The required lane: the primary of an AUDIO service, the first data lane of a DATA-ONLY one. -/
theorem requiredLane_eq (e : ServiceEntry) : requiredLane e =
    match e.kind with
    | .audio => e.primary
    | .dataOnly => e.data[0]? := by
  unfold requiredLane
  cases e.kind with
  | audio => rfl
  | dataOnly => exact List.head?_eq_getElem?

theorem receivingLane_isSome_iff (s : State) (lane : Nat) : (receivingLane s lane).isSome = true ↔
    ∃ c : Fin 16, (s.ctx c).receiving = true ∧ (s.ctx c).lane? = some lane := by
  unfold receivingLane
  simp [List.find?_isSome, mem_ctxIds]

/-- A lane fits when a context receives it, when the bank lacks it, or when the FREE contexts and columns with those of X suffice. -/
theorem laneFits_iff (s : State) (lane : Nat) (spare : List (Fin 16)) : laneFits s lane spare = true ↔
    (∃ c : Fin 16, (s.ctx c).receiving = true ∧ (s.ctx c).lane? = some lane) ∨
      ∀ x, s.laneMap.active.lane? lane = some x → 1 ≤ freeCtxCount s + spare.length ∧
        x.n ≤ s.store.free.length + (spare.map fun c => (s.ctx c).columns.length).sum := by
  unfold laneFits
  rw [Bool.or_eq_true, receivingLane_isSome_iff]
  cases s.laneMap.active.lane? lane <;> simp

theorem serviceFits_iff (s : State) (e : ServiceEntry) (spare : List (Fin 16)) :
    serviceFits s e spare = true ↔ ∀ lane, requiredLane e = some lane → laneFits s lane spare = true := by
  unfold serviceFits
  cases requiredLane e <;> simp

/-! ### The wanted roles and the contexts X (R120, R122) -/

theorem mem_wantedRoles (i : Fin 5) (e : ServiceEntry) (wantTwin wantData : Bool) (r : RoleIx) (lane : Nat) :
    (r, lane) ∈ wantedRoles i e wantTwin wantData ↔ wantsRole i e.kind wantTwin wantData r = true ∧ e.lane? r = some lane := by
  unfold wantedRoles
  rw [List.mem_filterMap]
  refine ⟨?_, fun ⟨hw, hl⟩ => ⟨r, mem_roleIxs r, by rw [if_pos hw, hl]; rfl⟩⟩
  rintro ⟨q, _, hq⟩
  split at hq
  · rename_i hw
    obtain ⟨x, hx, hqx⟩ := Option.map_eq_some_iff.1 hq
    cases hqx
    exact ⟨hw, hx⟩
  · cases hq

/-- The wanted roles stand in the order primary, twin, data lanes (R62). -/
theorem wantedRoles_ordered (i : Fin 5) (e : ServiceEntry) (wantTwin wantData : Bool) :
    (wantedRoles i e wantTwin wantData).Pairwise fun a b => a.1 < b.1 := by
  have own : ∀ (r : RoleIx) (q : RoleIx × Nat),
      (if wantsRole i e.kind wantTwin wantData r then (e.lane? r).map fun l => (r, l) else none) = some q → q.1 = r := by
    intro r q h
    split at h
    · obtain ⟨x, _, hx⟩ := Option.map_eq_some_iff.1 h
      rw [← hx]
    · cases h
  have ordered : roleIxs.Pairwise (· < ·) := by decide
  refine ordered.filterMap _ fun a b hab p hp q hq => ?_
  rw [own a p hp, own b q hq]
  exact hab

theorem refersInRole_iff (x : Slot) (c : Fin 16) : x.refersInRole c = true ↔ ∃ r : RoleIx, (x.roleRef r).ref = .context c := by
  unfold Slot.refersInRole
  simp [mem_roleIxs]

/-- The contexts X: received, referred to by the slot alone, and of no wanted lane. -/
theorem mem_spareCtxs (s : State) (i : Fin 5) (wanted : List Nat) (c : Fin 16) : c ∈ spareCtxs s i wanted ↔
    (s.ctx c).receiving = true ∧ (s.ctx c).refs = 1 ∧ (∃ r : RoleIx, ((s.slot i).roleRef r).ref = .context c) ∧
      ∀ lane ∈ wanted, (s.ctx c).lane? ≠ some lane := by
  unfold spareCtxs
  rw [List.mem_filter, and_iff_right (mem_ctxIds c)]
  simp only [Bool.and_eq_true, beq_iff_eq, refersInRole_iff, Bool.not_eq_true', List.any_eq_false, and_assoc]

theorem spareCtxs_nodup (s : State) (i : Fin 5) (wanted : List Nat) : (spareCtxs s i wanted).Nodup := ctxIds_nodup.filter _

/-- Settles O53: the refusals in the order of their cases, then the fit test, the wanted roles and the contexts X. -/
theorem selectRefusals : Obligations.SelectRefusals := by
  refine ⟨fun ref slot service role wants s h => ?_, fun s e spare => ?_, fun i e wantTwin wantData => ?_, fun s i wanted =>
    ⟨spareCtxs_nodup s i wanted, mem_spareCtxs s i wanted⟩⟩
  · dsimp only
    rw [exec_select ref slot service role wants h]
    refine ⟨fun hs => by rw [selectSlot_badSlot hs], fun i hi4 hi => ⟨fun h1 h2 => ?_, ?_, fun hr hp e he full => ?_⟩⟩
    · obtain ⟨hs, _⟩ := hostSlot_named hi4 hi
      rw [selectSlot_badValue hs h1 h2]
    · rintro rfl other
      rw [selectSlot_busy (s := heard s) hi4 hi other]
    · obtain ⟨named, allowed⟩ : ∃ r, roleAllowed (heard s) i role r := by
        rcases hr with h2 | ⟨h1, free⟩
        · exact ⟨.background, .inl ⟨h2, rfl⟩⟩
        · exact ⟨.foreground, .inr ⟨h1, rfl, free⟩⟩
      rw [selectSlot_noRoom (s := heard s) hi4 hi allowed hp he full]
  · rw [serviceFits_iff, requiredLane_eq]
    exact forall_congr' fun lane => imp_congr_right fun _ => laneFits_iff s lane spare
  · refine ⟨wantsRole_iff i e.kind wantTwin wantData, fun r l => ?_, wantedRoles_ordered i e wantTwin wantData⟩
    rw [mem_wantedRoles, wantsRole_iff]
    rfl

end Sys2Proof.Machine
end

section
/-! RELEASE: the references given up, the contexts released, and what the order and the state checks after it leave (R78, R90, R91,
R124, R131, R136, R161, log 9). -/

namespace Sys2Proof.Machine

/-! ### What the state checks do (R131, R136) -/

/-- A check reverts the source of its slot; a DELIVERING slot it can also demote, which raises SELECTION. -/
theorem stateCheck_cases (i : Fin 5) (s : State) :
    stateCheck i s = s.setSlot i (revertSource s (s.slot i)) ∨
      ((s.slot i).state = .delivering ∧ stateCheck i s =
        raise (.selection i .opening) (s.setSlot i { revertSource s (s.slot i) with state := .opening })) := by
  by_cases hd : (s.slot i).state = .delivering
  · cases hk : slotKind s i with
    | none => exact .inl (stateCheck_reverts (.inr hk))
    | some k =>
      rw [stateCheck_delivering hd hk]
      split
      · exact .inl rfl
      · exact .inr ⟨hd, rfl⟩
  · exact .inl (stateCheck_reverts (.inl hd))

/-- What the check of each slot preserves, the state checks preserve. -/
theorem stateChecks_preserves {P : State → Prop} (check : ∀ (i : Fin 5) (v : State), P v → P (stateCheck i v)) {s : State}
    (hs : P s) : P (stateChecks s) := by
  unfold stateChecks
  exact List.foldlRecOn (motive := P) slotOrder _ hs fun v hv i _ => check i v hv

/-- The role and the service of a slot: what the state checks leave alone. -/
def Slot.selected (x : Slot) : Option Role × Option Word16 := (x.role, x.service)

/-- Role and service do not depend on the roles a slot refers in. -/
theorem selected_of_outline {x y : Slot} (h : x.outline = y.outline) : x.selected = y.selected := by
  have parts := congrArg Slot.selected h
  exact parts

theorem revertSource_selected (s : State) (x : Slot) : (revertSource s x).selected = x.selected := by
  unfold revertSource
  split <;> rfl

theorem stateCheck_selected (i j : Fin 5) (s : State) : ((stateCheck i s).slot j).selected = (s.slot j).selected := by
  by_cases h : j = i
  · subst h
    rcases stateCheck_cases j s with e | ⟨_, e⟩ <;> rw [e]
    · rw [slot_setSlot_self, revertSource_selected]
    · rw [raise_slot, slot_setSlot_self]
      exact revertSource_selected s _
  · rw [stateCheck_other h]

theorem stateChecks_selected (j : Fin 5) (s : State) : ((stateChecks s).slot j).selected = (s.slot j).selected :=
  foldl_keeps (fun s : State => (s.slot j).selected) _ (fun s i => stateCheck_selected i j s) _ _

theorem stateChecks_earlyConsumed (s : State) : (stateChecks s).earlyConsumed = s.earlyConsumed := by
  refine foldl_keeps State.earlyConsumed _ (fun s i => ?_) _ _
  rcases stateCheck_cases i s with e | ⟨_, e⟩ <;> rw [e] <;> rfl

/-- A pending SELECTION cause stays pending through the state checks. -/
theorem stateChecks_selection_pending {s : State} (h : (s.link.causes[(5 : Fin 9)]).pending = true) :
    ((stateChecks s).link.causes[(5 : Fin 9)]).pending = true := by
  refine stateChecks_preserves (P := fun v => (v.link.causes[(5 : Fin 9)]).pending = true) (fun i v hv => ?_) h
  rcases stateCheck_cases i v with e | ⟨_, e⟩ <;> rw [e]
  · exact hv
  · exact congrArg Cause.pending (raise_own_cause (.selection i .opening) _)

/-- Where no slot is DELIVERING the state checks leave the Delivery Link as it is. -/
theorem stateChecks_link {s : State} (h : ∀ j, (s.slot j).state ≠ .delivering) : (stateChecks s).link = s.link := by
  have checked := stateChecks_preserves (P := fun v => (∀ j, (v.slot j).state ≠ .delivering) ∧ v.link = s.link)
    (fun i v hv => ?_) ⟨h, rfl⟩
  · exact checked.2
  · obtain ⟨quiet, link⟩ := hv
    rw [stateCheck_reverts (.inl (quiet i))]
    refine ⟨fun j => ?_, link⟩
    rw [slot_setSlot]
    split
    · rw [revertSource_state]
      exact quiet i
    · exact quiet j

/-! ### The references of a slot given up (R90, R91) -/

/-- At rank 0 the early start consumed flag is kept. -/
theorem Eff.earlyConsumed0 {s t : State} (h : Eff 0 s t) : t.earlyConsumed = s.earlyConsumed :=
  h.keeps (f := State.earlyConsumed) fun _ _ k => by
    obtain ⟨_, _, early, _⟩ := k.rank0
    exact early

/-- Giving up what a slot held leaves every slot as it was but for its roles. -/
theorem giveUpSlot_outline (i j : Fin 5) (s : State) : ((giveUpSlot i s).slot j).outline = (s.slot j).outline := by
  have dropped := (dropReferences_eff (n := 0) (s.slot i) s).outline
  by_cases h : j = i
  · subst h
    rw [giveUpSlot_slot]
    rfl
  · unfold giveUpSlot
    rw [slot_updSlot, if_neg h, dropped]

theorem giveUpSlot_earlyConsumed (i : Fin 5) (s : State) : (giveUpSlot i s).earlyConsumed = s.earlyConsumed := by
  unfold giveUpSlot
  rw [updSlot_earlyConsumed]
  exact Eff.earlyConsumed0 (dropReferences_eff _ _)

@[simp] theorem removeSlotPackets_slot (i j : Fin 5) (s : State) : (removeSlotPackets i s).slot j = s.slot j := rfl

section DropRef

variable {c : Fin 16} {s : State}

/-- The context with one count less. -/
def lowered (c : Fin 16) (s : State) : State := s.setCtx c { s.ctx c with refs := (s.ctx c).refs - 1 }

theorem dropRef_free (h : (s.ctx c).state = .free) : dropRef c s = s := if_pos h

/-- A count that is given up is lowered; a FILLING or RUNNING context that it leaves without count is released (R90). -/
theorem dropRef_open (h : (s.ctx c).state ≠ .free) : dropRef c s =
    if (s.ctx c).receiving = true ∧ (s.ctx c).refs ≤ 1 then releaseCtx c (lowered c s) else lowered c s := by
  unfold dropRef
  rw [if_neg h]
  dsimp only
  rw [ctx_setCtx_self]
  refine if_congr (and_congr_right fun _ => ?_) rfl rfl
  show (s.ctx c).refs - 1 = 0 ↔ _
  omega

theorem dropRef_lowers (h : (s.ctx c).state = .draining ∨ ((s.ctx c).receiving = true ∧ 1 < (s.ctx c).refs)) :
    dropRef c s = lowered c s := by
  rcases h with hd | ⟨hr, hn⟩
  · have still : ¬(s.ctx c).receiving = true := by simp [receiving_iff, hd]
    rw [dropRef_open (by simp [hd]), if_neg fun k => still k.1]
  · rw [dropRef_open (receiving_ne_free hr), if_neg fun k => by omega]

theorem dropRef_releases (hr : (s.ctx c).receiving = true) (hn : (s.ctx c).refs ≤ 1) :
    dropRef c s = releaseCtx c (lowered c s) := by
  rw [dropRef_open (receiving_ne_free hr), if_pos ⟨hr, hn⟩]

end DropRef

/-- A slot whose roles have dropped an outgoing context (R91 step 4). -/
def Slot.dropOutgoing (c : Fin 16) (x : Slot) : Slot :=
  { x with roles := Vector.ofFn fun r => { x.roles[r] with outgoing := x.roles[r].outgoing.filter fun d => decide (d ≠ c) } }

theorem dropOutgoingCtx_slot (c : Fin 16) (s : State) (i : Fin 5) : (dropOutgoingCtx c s).slot i = (s.slot i).dropOutgoing c := by
  simp [dropOutgoingCtx, State.slot, Slot.dropOutgoing]

theorem releaseCtx_slot (c : Fin 16) (s : State) (i : Fin 5) : (releaseCtx c s).slot i = (s.slot i).dropOutgoing c :=
  dropOutgoingCtx_slot c _ i

/-! ### RELEASE as an order (R124) -/

/-- The state that RELEASE leaves (R124, R131). -/
def releasedState (i : Fin 5) (s : State) : State := stateChecks (releaseSlot i s)

theorem exec_release (ref slot : Byte) {s : State} (h : readyForOrder s) :
    exec (.release ref slot) s =
      let o := releaseOrder slot (heard s)
      carriedOut s ref 0x02 o.1 o.2.1 o.2.2 := exec_order ref 0x02 [slot] s (by simp) h

section Order

variable {slot : Byte} {i : Fin 5} {s : State}

theorem releaseOrder_badSlot (h : 4 ≤ slot.toNat) : releaseOrder slot s = (.badSlot, [], s) := dif_neg (by omega)

theorem releaseOrder_empty (hi4 : i ≠ 4) (hi : slot.toNat = i.val) (he : (s.slot i).state = .empty) :
    releaseOrder slot s = (.accepted, [slot], s.updSlot i fun x => { x with early := false }) := by
  obtain ⟨h, hfin⟩ := hostSlot_named hi4 hi
  unfold releaseOrder
  rw [dif_pos h, hfin]
  exact if_pos he

theorem releaseOrder_releases (hi4 : i ≠ 4) (hi : slot.toNat = i.val) (he : (s.slot i).state ≠ .empty) :
    releaseOrder slot s = (.accepted, [slot], releasedState i s) := by
  obtain ⟨h, hfin⟩ := hostSlot_named hi4 hi
  unfold releaseOrder
  rw [dif_pos h, hfin]
  exact if_neg he

end Order

/-! ### What a release leaves (R124, R136, R161) -/

/-- What follows once slot i has given up its references and its packets have left: its label buffer is emptied, it takes its reset
values, and SELECTION is raised. -/
def emptiedSlot (i : Fin 5) (v : State) : State := raise (.selection i .empty) ((emptyLabel i v).updSlot i (releasedSlot i))

theorem releaseSlot_eq (i : Fin 5) (s : State) : releaseSlot i s = emptiedSlot i (removeSlotPackets i (giveUpSlot i s)) := rfl

section Emptied

variable (i : Fin 5) (v : State)

theorem emptiedSlot_slot (j : Fin 5) : (emptiedSlot i v).slot j = if j = i then releasedSlot i (v.slot i) else v.slot j :=
  slot_updSlot (emptyLabel i v) i j _

theorem emptiedSlot_lanes : (emptiedSlot i v).contexts = v.contexts ∧ (emptiedSlot i v).store = v.store := ⟨rfl, rfl⟩

theorem emptiedSlot_earlyConsumed : (emptiedSlot i v).earlyConsumed = v.earlyConsumed := rfl

theorem emptiedSlot_selection :
    (emptiedSlot i v).link.causes[(5 : Fin 9)] = { pending := true, detail := some (.selection i .empty) } :=
  raise_own_cause (.selection i .empty) _

theorem emptiedSlot_label : label (emptiedSlot i v) i = LabelBuffer.reset := (label_setLabel i i _ v).trans (if_pos rfl)

theorem emptiedSlot_frame : selectionFrame v (emptiedSlot i v) := by
  have emptied : selectionFrame v (emptyLabel i v) := ⟨rfl, rfl, rfl, rfl, fun _ => ⟨rfl, rfl, rfl, rfl⟩, rfl, rfl, rfl, rfl⟩
  have released : OutsideSlots (emptyLabel i v) (emptiedSlot i v) := raised_slot_outside _ ⟨rfl, rfl, rfl, rfl⟩
  exact selectionFrame_trans emptied released.frame

theorem emptiedSlot_packets (h : noPacketsOf v i) : noPacketsOf (emptiedSlot i v) i := h

/-- Where the other slots are not DELIVERING, none is once slot i is EMPTY. -/
theorem emptiedSlot_notDelivering (h : ∀ j, j ≠ i → (v.slot j).state ≠ .delivering) (j : Fin 5) :
    ((emptiedSlot i v).slot j).state ≠ .delivering := by
  rw [emptiedSlot_slot]
  split
  · exact fun hd => nomatch hd
  · rename_i hj
    exact h j hj

end Emptied

section Released

variable {i : Fin 5} (s : State)

theorem releasedState_slot (hi4 : i ≠ 4) : (releasedState i s).slot i = { Slot.reset none with
    thHi := (s.slot i).thHi, thLo := (s.slot i).thLo, riseMask := (s.slot i).riseMask, fallMask := (s.slot i).fallMask } := by
  have given := (giveUpSlot_givenUp i s).slot
  unfold releasedState
  rw [releaseSlot_eq]
  refine stateChecks_settled (by simp [Slot.reset]) rfl ?_
  rw [emptiedSlot_slot, if_pos rfl, given]
  unfold releasedSlot
  rw [if_neg hi4]
  rfl

/-- The contexts and cells are as the references given up leave them. -/
theorem releasedState_lanes : (releasedState i s).contexts = (dropReferences (s.slot i) s).contexts ∧
    (releasedState i s).store = (dropReferences (s.slot i) s).store := by
  have given : ∀ v : State, (removeSlotPackets i (v.updSlot i Slot.clearRoles)).contexts = v.contexts ∧
      (removeSlotPackets i (v.updSlot i Slot.clearRoles)).store = v.store := fun _ => ⟨rfl, rfl⟩
  obtain ⟨contexts, store⟩ := given (dropReferences (s.slot i) s)
  obtain ⟨checked, checkedStore⟩ := stateChecks_outside (releaseSlot i s)
  rw [releaseSlot_eq] at checked checkedStore
  exact ⟨checked.trans ((emptiedSlot_lanes i _).1.trans contexts), checkedStore.trans ((emptiedSlot_lanes i _).2.trans store)⟩

/-- A context loses one count for each reference the slot had to it (R90, R124 step 1). -/
theorem releasedState_ctx (c : Fin 16) : (releasedState i s).ctx c = (dropReferences (s.slot i) s).ctx c := by
  unfold State.ctx
  rw [(releasedState_lanes s).1]

theorem releasedState_selection_pending : ((releasedState i s).link.causes[(5 : Fin 9)]).pending = true := by
  unfold releasedState
  rw [releaseSlot_eq]
  refine stateChecks_selection_pending ?_
  rw [emptiedSlot_selection]

/-- Where no other slot is DELIVERING no check demotes one, and SELECTION shows the slot released (R136). -/
theorem releasedState_selection (h : ∀ j, j ≠ i → (s.slot j).state ≠ .delivering) :
    (releasedState i s).link.causes[(5 : Fin 9)] = { pending := true, detail := some (.selection i .empty) } := by
  have quiet : ∀ j, j ≠ i → ((removeSlotPackets i (giveUpSlot i s)).slot j).state ≠ .delivering := fun j hj => by
    have state := congrArg Slot.state (giveUpSlot_outline i j s)
    rw [removeSlotPackets_slot]
    exact fun hd => h j hj (state.symm.trans hd)
  unfold releasedState
  rw [releaseSlot_eq, stateChecks_link (emptiedSlot_notDelivering i _ quiet), emptiedSlot_selection]

theorem releasedState_label : label (releasedState i s) i = LabelBuffer.reset := by
  unfold releasedState
  rw [label_outside (stateChecks_outsideSlots _), releaseSlot_eq, emptiedSlot_label]

theorem releasedState_packets : noPacketsOf (releasedState i s) i :=
  noPacketsOf_outside (stateChecks_outsideSlots _) (emptiedSlot_packets i _ (giveUpSlot_givenUp i s).packets)

theorem releasedState_frame : selectionFrame s (releasedState i s) :=
  selectionFrame_trans (selectionFrame_trans (giveUpSlot_givenUp i s).frame (emptiedSlot_frame i _)) (stateChecks_outsideSlots _).frame

theorem releasedState_earlyConsumed : (releasedState i s).earlyConsumed = s.earlyConsumed := by
  have removed : ∀ v : State, (removeSlotPackets i v).earlyConsumed = v.earlyConsumed := fun _ => rfl
  unfold releasedState
  rw [stateChecks_earlyConsumed, releaseSlot_eq, emptiedSlot_earlyConsumed, removed, giveUpSlot_earlyConsumed]

theorem releasedState_other {j : Fin 5} (hj : j ≠ i) : ((releasedState i s).slot j).selected = (s.slot j).selected := by
  unfold releasedState
  rw [stateChecks_selected, releaseSlot_eq, emptiedSlot_slot, if_neg hj, removeSlotPackets_slot]
  exact selected_of_outline (giveUpSlot_outline i j s)

end Released

/-- Settles O56: the order by the state of its slot, then one count given up and one context released. -/
theorem releaseEmptiesTheSlot : Obligations.ReleaseEmptiesTheSlot := by
  refine ⟨fun ref slot s h => ?_, fun _ _ => rfl, fun _ _ => rfl, fun c s => ⟨dropRef_free, dropRef_lowers, dropRef_releases⟩,
    fun c s => ⟨fun d => releaseCtx_ctx c d s, rfl, fun hs _ _ hc hr => read_clearColumns _ hs hc hr, rfl, releaseCtx_slot c s, rfl⟩⟩
  rw [exec_release ref slot h]
  refine ⟨fun hs => by rw [releaseOrder_badSlot hs], fun i hi4 hi => ⟨fun he => ?_, fun he =>
    ⟨releasedState i (heard s), ?_, releasedState_slot (heard s) hi4, fun c => ?_, (releasedState_lanes (heard s)).2,
      releasedState_selection_pending (heard s), releasedState_selection (heard s), releasedState_label (heard s),
      releasedState_packets (heard s), releasedState_frame (heard s), releasedState_earlyConsumed (heard s), fun j hj =>
      Prod.mk.inj (releasedState_other (heard s) hj)⟩⟩⟩
  · rw [releaseOrder_empty (s := heard s) hi4 hi he]
  · rw [releaseOrder_releases (s := heard s) hi4 hi he]
  · rw [releasedState_ctx]
    exact dropReferences_ctx (s.slot i) c (heard s)

end Sys2Proof.Machine
end

section
/-! The slots that open by themselves at a retry and at the early start: ROOM_RETRY and EARLY_START (R122, R123, R126, R127, R139,
log 2, log 9, log 14, log 23). -/

namespace Sys2Proof.Machine

/-! ### One slot SUSPENDED for room (R127) -/

/-- Slot i is SUSPENDED with cause ROOM. -/
def lacksRoom (s : State) (i : Fin 5) : Prop := (s.slot i).state = .suspended ∧ (s.slot i).cause = some .room

section Room

variable {i : Fin 5} {s : State} {e : ServiceEntry}

theorem retryRoom_apart (h : ¬lacksRoom s i) : retryRoom i s = s := if_neg h

theorem retryRoom_absent (h : lacksRoom s i) (ha : (s.slot i).service.bind (activeService s) = none) :
    retryRoom i s = becomeWaiting i s := by
  unfold retryRoom
  unfold lacksRoom at h
  rw [if_pos h, ha]

theorem retryRoom_fits (h : lacksRoom s i) (he : (s.slot i).service.bind (activeService s) = some e)
    (fits : serviceFits s e [] = true) : retryRoom i s = openHeldSlot i e (s.intake.lastClosed + 1) s := by
  unfold retryRoom
  unfold lacksRoom at h
  rw [if_pos h, he]
  exact if_pos fits

theorem retryRoom_full (h : lacksRoom s i) (he : (s.slot i).service.bind (activeService s) = some e)
    (full : serviceFits s e [] = false) : retryRoom i s = s := by
  unfold retryRoom
  unfold lacksRoom at h
  rw [if_pos h, he]
  exact if_neg (Bool.eq_false_iff.1 full)

/-- A retry touches no slot but its own. -/
theorem retryRoom_other {j : Fin 5} (hj : j ≠ i) : (retryRoom i s).slot j = s.slot j := by
  by_cases h : lacksRoom s i
  · cases he : (s.slot i).service.bind (activeService s) with
    | none => rw [retryRoom_absent h he, becomeWaiting_eq, raise_slot, slot_updSlot, if_neg hj]
    | some e =>
      cases fits : serviceFits s e [] with
      | true =>
        rw [retryRoom_fits h he fits]
        exact (openHeldSlot_alone i e _ s).others j hj
      | false => rw [retryRoom_full h he fits]
  · rw [retryRoom_apart h]

/-- Where one slot alone is SUSPENDED for room, the retries come to its own. -/
theorem retryAllRoom_single (alone : ∀ j, j ≠ i → ¬lacksRoom s j) : retryAllRoom s = retryRoom i s := by
  refine foldl_single (f := fun v j => retryRoom j v) slotOrder_nodup (mem_slotOrder i) (fun j _ hj => retryRoom_apart (alone j hj))
    fun j _ hj => retryRoom_apart ?_
  unfold lacksRoom
  rw [retryRoom_other hj]
  exact alone j hj

end Room

/-- Settles O37: the row folds over the slots, one slot is retried by its own condition, and where one alone is retried the fold is its
retry. -/
theorem suspendedForRoomIsRetried : Obligations.SuspendedForRoomIsRetried := by
  have hexec : ∀ s : State, s.running = true → exec .roomRetry s = .next (endEvent s (retryAllRoom s)) := fun _ => command_running
  refine ⟨hexec, fun i s => ⟨retryRoom_apart, fun h ha => ?_, fun h e he => ⟨retryRoom_full h he, fun fits => ?_⟩⟩,
    fun i s hr hs hc alone => ?_⟩
  · rw [retryRoom_absent h ha, becomeWaiting_eq]
  · obtain ⟨opened, others, _, selection⟩ := openHeldSlot_alone i e (s.intake.lastClosed + 1) s
    rw [retryRoom_fits h he fits]
    exact ⟨opened, rolesOpened_openHeldSlot i e _ s, others, selection⟩
  · have h : lacksRoom s i := ⟨hs, hc⟩
    rw [hexec s hr, retryAllRoom_single alone]
    refine ⟨fun ha => ?_, fun e he => ⟨fun full => ?_, fun fits => ?_⟩⟩
    · rw [retryRoom_absent h ha, becomeWaiting_eq]
    · rw [retryRoom_full h he full]
    · obtain ⟨opened, others, outside, selection⟩ := openHeldSlot_alone i e (s.intake.lastClosed + 1) s
      rw [retryRoom_fits h he fits]
      exact ⟨_, rfl, opened, rolesOpened_openHeldSlot i e _ s, others, outside.frame, outside.directory, outside.cells,
        outside.link, selection⟩

/-! ### The conditions of the early start (R139) -/

/-- The conditions of R139 beside those of the AUDIO service: the EARLY latch low and not consumed, ACTIVE, LOCKED with a COMPLETE
bank, slot 0 EMPTY and no other slot the foreground. -/
def earlyAllowed (s : State) : Prop :=
  s.earlyLow = true ∧ s.earlyConsumed = false ∧ s.announcer.power = .active ∧ s.intake.state = .locked ∧
    s.laneMap.complete = true ∧ (s.slot 0).state = .empty ∧ ∀ j : Fin 5, j ≠ 0 → j ≠ 4 → (s.slot j).role ≠ some .foreground

theorem earlyConditions_iff {s : State} (h : s.running = true) : earlyConditions s = true ↔ earlyAllowed s := by
  have other : otherForeground s 0 = false ↔ ∀ j : Fin 5, j ≠ 0 → j ≠ 4 → (s.slot j).role ≠ some .foreground := by
    rw [otherForeground_eq_false_iff]
    exact forall_congr' fun j => forall_comm
  unfold earlyConditions earlyAllowed
  simp only [h, Bool.true_and, Bool.and_eq_true, Bool.not_eq_true', beq_iff_eq, other, and_assoc]

/-- The AUDIO service of lowest id is the first AUDIO entry of a bank in order (R48). -/
theorem firstAudio_lowest {s : State} {e : ServiceEntry} (ordered : s.laneMap.active.servicesOrdered)
    (he : e ∈ s.laneMap.active.services) (hk : e.kind = .audio)
    (lowest : ∀ x ∈ s.laneMap.active.services, x.kind = .audio → e.service ≤ x.service) : firstAudio s = some e := by
  obtain ⟨_, ascending⟩ := ordered
  unfold firstAudio
  generalize s.laneMap.active.services = services at *
  obtain ⟨before, after, rfl⟩ := List.append_of_mem he
  refine List.find?_eq_some_iff_append.2 ⟨by simp [hk], before, after, rfl, fun x hx => ?_⟩
  have below : x.service < e.service := (List.pairwise_append.1 ascending).2.2 x hx e List.mem_cons_self
  have other : x.kind ≠ .audio := fun hx' => absurd (lowest x (List.mem_append_left _ hx) hx') (BitVec.not_le.2 below)
  simp [other]

theorem firstAudio_none {s : State} (h : ∀ x ∈ s.laneMap.active.services, x.kind ≠ .audio) : firstAudio s = none :=
  List.find?_eq_none.2 fun x hx => by simp [h x hx]

/-! ### The early start (R139) -/

/-- The early start consumed. -/
def earlySpent (s : State) : State := { s with earlyConsumed := true }

/-- The state that the early start leaves where the service e fits: slot 0 opened as the foreground on it, and marked early. -/
def earlyOpened (e : ServiceEntry) (s : State) : State :=
  (selectPresent 0 e (some .foreground) true false (earlySpent s)).2.2.updSlot 0 fun x => { x with early := true }

section Early

variable {s : State} {e : ServiceEntry}

theorem earlyStart_fits (h : earlyConditions s = true) (he : firstAudio s = some e) (fits : serviceFits s e [] = true) :
    earlyStart s = earlyOpened e s := by
  unfold earlyStart
  rw [h, he]
  exact if_pos fits

theorem earlyStart_full (h : earlyConditions s = true) (he : firstAudio s = some e) (full : serviceFits s e [] = false) :
    earlyStart s = earlySpent s := by
  unfold earlyStart
  rw [h, he]
  exact if_neg (Bool.eq_false_iff.1 full)

theorem earlyStart_none (h : earlyConditions s = false ∨ firstAudio s = none) : earlyStart s = s := by
  unfold earlyStart
  rcases h with h | h <;> rw [h]
  cases earlyConditions s <;> rfl

end Early

/-! ### What the opening of a slot leaves of the others (R122) -/

/-- Every slot is as it was but for its roles, and so is the early start consumed flag. -/
structure OutlinesKept (s u : State) : Prop where
  outline : ∀ j, (u.slot j).outline = (s.slot j).outline
  early : u.earlyConsumed = s.earlyConsumed

theorem OutlinesKept.trans {s t u : State} (h : OutlinesKept s t) (k : OutlinesKept t u) : OutlinesKept s u :=
  ⟨fun j => (k.outline j).trans (h.outline j), k.early.trans h.early⟩

theorem LanesOnly.outlines {s u : State} (h : LanesOnly s u) : OutlinesKept s u := by
  obtain ⟨_, _, _, rfl⟩ := h
  exact ⟨fun _ => rfl, rfl⟩

theorem giveUpSlot_outlines (i : Fin 5) (s : State) : OutlinesKept s (removeSlotPackets i (giveUpSlot i s)) := by
  have removed : OutlinesKept (giveUpSlot i s) (removeSlotPackets i (giveUpSlot i s)) := ⟨fun _ => rfl, rfl⟩
  have given : OutlinesKept s (giveUpSlot i s) := ⟨fun j => giveUpSlot_outline i j s, giveUpSlot_earlyConsumed i s⟩
  exact given.trans removed

section Opened

variable (i : Fin 5) (e : ServiceEntry) (role : Option Role) (wantTwin wantData : Bool) (s : State)

/-- Sharing, giving up and requests change no slot but in its roles. -/
theorem selectedRoles_outlines : OutlinesKept s (selectedRoles i e wantTwin wantData s).1 := by
  have sharing : LanesOnly s (sharedRoles i e wantTwin wantData s).1 := .foldlFst shareStep_lanes _ (s, noRefs)
  have requests : LanesOnly (removeSlotPackets i (giveUpSlot i (sharedRoles i e wantTwin wantData s).1))
      (selectedRoles i e wantTwin wantData s).1 := .foldlFst (openStep_lanes _) _ _
  exact (sharing.outlines.trans (giveUpSlot_outlines i _)).trans requests.outlines

theorem selectPresent_earlyConsumed : (selectPresent i e role wantTwin wantData s).2.2.earlyConsumed = s.earlyConsumed :=
  (selectedRoles_outlines i e wantTwin wantData s).early

/-- A SELECT in the present case changes another slot in its roles at most. -/
theorem selectPresent_other {j : Fin 5} (hj : j ≠ i) :
    ((selectPresent i e role wantTwin wantData s).2.2.slot j).outline = (s.slot j).outline := by
  have emptied : ∀ v : State, (emptyLabel i v).slot j = v.slot j := fun _ => rfl
  rw [selectPresent_state, emptied, setOpened_slot_other _ _ _ _ _ _ _ hj]
  exact (selectedRoles_outlines i e wantTwin wantData s).outline j

theorem selectPresent_selection : (selectPresent i e role wantTwin wantData s).2.2.link.causes[(5 : Fin 9)] =
    { pending := true, detail := some (.selection i .opening) } := raise_own_cause (.selection i .opening) _

end Opened

/-! ### EARLY_START (R139) -/

section Started

variable (e : ServiceEntry) (s : State)

/-- The references that slot 0 gets at the early start, and the lanes as its opening leaves them. -/
abbrev earlyRoles : State × Refs := selectedRoles 0 e true false (earlySpent s)

theorem earlyOpened_slot (j : Fin 5) : (earlyOpened e s).slot j =
    if j = 0 then
      { openedSlot (earlySpent s) (s.slot 0).outline e.service (some .foreground) true false (earlyRoles e s).2 with early := true }
    else (selectPresent 0 e (some .foreground) true false (earlySpent s)).2.2.slot j := by
  unfold earlyOpened
  rw [slot_updSlot, selectPresent_slot]
  rfl

theorem earlyOpened_openedAs : openedAs (earlyOpened e s) 0 e.service (some .foreground) true false := by
  unfold openedAs
  rw [earlyOpened_slot, if_pos rfl]
  exact ⟨rfl, rfl, rfl, rfl, rfl, rfl, rfl, rfl, rfl, rfl, rfl⟩

theorem earlyOpened_rolesOpened :
    rolesOpened (earlySpent s) (earlyOpened e s) 0 e true false (nextFrameCount s) (giveUpSlot 0) := by
  have marked : ∀ (v : State) (f : Slot → Slot), (v.updSlot 0 f).contexts = v.contexts ∧ (v.updSlot 0 f).store = v.store :=
    fun _ _ => ⟨rfl, rfl⟩
  obtain ⟨contexts, store⟩ := selectPresent_lanes 0 e (some .foreground) true false (earlySpent s)
  refine rolesOpened_of (g' := fun v => removeSlotPackets 0 (giveUpSlot 0 v)) (fun _ => ⟨rfl, rfl, rfl⟩)
    ((marked _ _).1.trans contexts) ((marked _ _).2.trans store) fun r => ?_
  rw [earlyOpened_slot, if_pos rfl]
  exact congrArg RoleRef.ref (openedSlot_roleRef (some .foreground) true false (earlySpent s) (s.slot 0) e.service _ r)

theorem earlyOpened_frame : selectionFrame s (earlyOpened e s) := by
  have spent : selectionFrame s (earlySpent s) := ⟨rfl, rfl, rfl, rfl, fun _ => ⟨rfl, rfl, rfl, rfl⟩, rfl, rfl, rfl, rfl⟩
  have marked : ∀ v : State, OutsideSlots v (v.updSlot 0 fun x => { x with early := true }) := fun v =>
    updSlot_outside (.kept rfl rfl rfl rfl (.inl rfl) (.inl rfl))
  exact selectionFrame_trans (selectionFrame_trans spent (selectPresent_frame ..)) (marked _).frame

theorem earlyOpened_other {j : Fin 5} (hj : j ≠ 0) : ((earlyOpened e s).slot j).state = (s.slot j).state := by
  have state := congrArg Slot.state (selectPresent_other 0 e (some .foreground) true false (earlySpent s) hj)
  rw [earlyOpened_slot, if_neg hj]
  exact state

theorem earlyOpened_earlyConsumed : (earlyOpened e s).earlyConsumed = true := by
  unfold earlyOpened
  rw [updSlot_earlyConsumed, selectPresent_earlyConsumed]
  rfl

theorem earlyOpened_selection :
    (earlyOpened e s).link.causes[(5 : Fin 9)] = { pending := true, detail := some (.selection 0 .opening) } := by
  unfold earlyOpened
  rw [updSlot_link, selectPresent_selection]

theorem earlyOpened_answers : (earlyOpened e s).link.answers = s.link.answers := by
  obtain ⟨_, _, _, _, _, _, _, link, _⟩ := earlyOpened_frame e s
  rw [link]

end Started

/-- Settles O39: the service of lowest id that is found, then the early start by its conditions and by the room for that service. -/
theorem earlyStartOpensSlotZero : Obligations.EarlyStartOpensSlotZero := by
  intro s hr
  have hexec : exec .earlyStart s = .next (endEvent s (earlyStart s)) := command_running hr
  dsimp only
  rw [hexec]
  refine ⟨fun e hc ordered he hk lowest => ?_, fun h => ?_, rfl⟩
  · have allowed := (earlyConditions_iff hr).2 hc
    have first := firstAudio_lowest ordered he hk lowest
    refine ⟨fun fits => ⟨earlyOpened e s, by rw [earlyStart_fits allowed first fits], earlyOpened_openedAs e s, ?_,
      earlyOpened_earlyConsumed e s, earlyOpened_rolesOpened e s, fun _ => earlyOpened_other e s, earlyOpened_frame e s,
      earlyOpened_answers e s, earlyOpened_selection e s⟩, fun full => by rw [earlyStart_full allowed first full]; rfl⟩
    rw [earlyOpened_slot, if_pos rfl]
  · have missed : earlyConditions s = false ∨ firstAudio s = none := by
      rw [← Bool.not_eq_true, earlyConditions_iff hr]
      exact h.imp_right firstAudio_none
    rw [earlyStart_none missed]

end Sys2Proof.Machine
end

section
/-! The alarm lock: ALARM stays in both masks while it is set, under every step and under the orders that set the masks and the lock
(R142, R143, R176). -/

namespace Sys2Proof.Machine

/-! ### Every step -/

/-- While the alarm lock is set, ALARM is in both masks. -/
def alarmInMasks (s : State) : Prop := s.announcer.lockHolds

/-- What is held leaves lock and masks alone; an order that sets the masks or the lock sets ALARM with the lock. -/
theorem Change.alarmInMasks {n : Nat} {s t : State} (h : Change n s t) (hs : alarmInMasks s) : alarmInMasks t := by
  cases h with
  | held _ f _ kept =>
    obtain ⟨_, accept, wake, lock, _⟩ := kept s.announcer
    unfold Machine.alarmInMasks Announcer.lockHolds
    rw [updAnnouncer_announcer, accept, wake, lock]
    exact hs
  | masks _ a w lock _ _ alarm => exact alarm
  | audioJoins _ p => exact joinAudio_preserves (fun _ _ => id) p hs
  | dataJoins _ p => exact joinData_preserves (fun _ _ => id) p hs
  | labelJoins _ p => exact joinLabel_preserves (fun _ _ => id) p hs
  | _ => exact hs

/-- A part whose lock is clear, as after a reset, meets the law. -/
theorem unlocked_alarmInMasks {s : State} (h : s.announcer.lock = false) : alarmInMasks s := fun locked => by
  rw [h] at locked
  cases locked

/-- A break keeps the lock, and with it ALARM in the masks it resets (R176). -/
theorem holdBreak_alarmInMasks (s : State) : alarmInMasks (holdBreak s) := fun (locked : s.announcer.lock = true) => by
  unfold holdBreak
  rw [locked]
  exact ⟨lockedMask_alarm _, lockedMask_alarm _⟩

/-- Settles O5: every change keeps ALARM in the masks of a locked part, a reset clears the lock, and a break sets the masks by it. -/
theorem stepKeepsAlarmInMasks : Obligations.StepKeepsAlarmInMasks :=
  keptByStep_of_changes (P := alarmInMasks) (fun _ _ => id) (fun _ _ h => h.alarmInMasks) (fun _ _ => id)
    (fun _ _ => unlocked_alarmInMasks rfl) (fun _ => unlocked_alarmInMasks rfl) fun s _ => holdBreak_alarmInMasks s

/-! ### SET_ANNOUNCE and LOCK_ALARM (R142, R143) -/

/-- SET_ANNOUNCE is carried out at once in a part that is ready for it (R165). -/
theorem exec_setAnnounce (ref accept wake : Byte) {s : State} (h : readyForOrder s) :
    exec (.setAnnounce ref accept wake) s =
      let o := setAnnounceOrder accept wake (heard s)
      carriedOut s ref 0x04 o.1 o.2.1 o.2.2 := exec_order ref 0x04 [accept, wake] s (by simp) h

theorem exec_lockAlarm (ref : Byte) {s : State} (h : readyForOrder s) :
    exec (.lockAlarm ref) s =
      let o := lockAlarmOrder (heard s)
      carriedOut s ref 0x06 o.1 o.2.1 o.2.2 := exec_order ref 0x06 [] s (by simp) h

theorem setAnnounceOrder_unlocked {s : State} (h : s.announcer.lock = false) (accept wake : Byte) :
    setAnnounceOrder accept wake s =
      (.accepted, [accept, wake], s.updAnnouncer fun a => { a with accept := accept, wake := wake }) := by
  unfold setAnnounceOrder lockedMask
  rw [h]
  rfl

/-- While the lock is set ALARM joins both masks (R143). -/
theorem setAnnounceOrder_locked {s : State} (h : s.announcer.lock = true) (accept wake : Byte) :
    setAnnounceOrder accept wake s =
      (.accepted, [accept ||| 1, wake ||| 1],
        s.updAnnouncer fun a => { a with accept := accept ||| 1, wake := wake ||| 1 }) := by
  unfold setAnnounceOrder lockedMask
  rw [h]
  rfl

/-- Settles O44: the masks by the lock, and the lock with ALARM in both masks. -/
theorem masksAndAlarmLock : Obligations.MasksAndAlarmLock := by
  intro ref accept wake s h
  refine ⟨fun unlocked => ?_, fun locked => ?_, exec_lockAlarm ref h⟩
  · rw [exec_setAnnounce ref accept wake h, setAnnounceOrder_unlocked (s := heard s) unlocked]
  · rw [exec_setAnnounce ref accept wake h, setAnnounceOrder_locked (s := heard s) locked]

end Sys2Proof.Machine
end

section
/-! The lines under every step: ATTN and ANNC take their levels at the end of every event, and nothing outside an event touches what
they depend on (R141, R173, R175). -/

namespace Sys2Proof.Machine

/-! ### What leaves the lines as they are -/

/-- A change of the Delivery Link that leaves ATTN, the causes, the enable mask, and whether the part runs. -/
structure LinesKept (f : Link → Link) : Prop where
  attn : ∀ l, (f l).attn = l.attn
  causes : ∀ l, (f l).causes = l.causes
  enable : ∀ l, (f l).enable = l.enable
  held : ∀ l, (f l).resetHeld = l.resetHeld
  breaking : ∀ l, ((f l).breakDetector != .holding) = (l.breakDetector != .holding)

theorem LinesKept.linesShow {f : Link → Link} (h : LinesKept f) {s : State} (hs : linesShow s) : linesShow (s.updLink f) := by
  have running : (s.updLink f).running = s.running := by
    unfold State.running
    rw [updLink_link, h.held, h.breaking]
  have level : attnLevel (f s.link) = attnLevel s.link := by
    unfold attnLevel causeCounts
    rw [h.causes, h.enable]
  unfold Machine.linesShow
  rw [running, updLink_link, updLink_announcer, h.attn, level]
  exact hs

theorem setReceiver_linesShow (r : Receiver) {s : State} (h : linesShow s) : linesShow (setReceiver r s) := h

/-- The running clock ends the timing of a break, which is no hold. -/
theorem abandonTiming_linesKept : LinesKept fun l => { l with breakDetector := abandonTiming l.breakDetector } :=
  ⟨fun _ => rfl, fun _ => rfl, fun _ => rfl, fun _ => rfl, fun l => by
    dsimp only
    cases l.breakDetector <;> rfl⟩

/-! ### The end of an event sets the lines (R141, R173) -/

theorem driveLines_linesShow (s : State) : linesShow (driveLines s) := ⟨rfl, rfl⟩

theorem event_linesShow (f : State → State) (s : State) : linesShow (event f s) := driveLines_linesShow _

theorem handleOrders_linesShow (k : Nat) {s : State} (h : linesShow s) : linesShow (handleOrders k s) := by
  induction k generalizing s with
  | zero => exact h
  | succ k ih =>
    unfold handleOrders
    split
    · exact ih (event_linesShow _ _)
    · exact h

theorem orderArrives_linesShow (body : List Byte) {s : State} (h : linesShow s) : linesShow (orderArrives body s) := by
  unfold orderArrives
  split
  · exact event_linesShow _ _
  · exact handleOrders_linesShow _ h

theorem receiveByte_linesShow {s : State} (b : Byte) (h : linesShow s) : linesShow (receiveByte s b) := by
  have bad : linesShow (packetMalformed s) := event_linesShow _ _
  have next : ∀ r, linesShow (setReceiver r s) := fun r => setReceiver_linesShow r h
  unfold receiveByte
  split
  · split
    · exact next _
    · split
      · exact bad
      · exact h
  · split
    · exact next _
    · exact bad
  · exact next _
  · dsimp only
    split
    · exact next _
    · exact bad
  · split
    · exact orderArrives_linesShow _ (next _)
    · exact next _

theorem receiveBytes_linesShow (bytes : List Byte) {s : State} (h : linesShow s) : linesShow (receiveBytes bytes s) :=
  List.foldlRecOn (motive := linesShow) bytes _ (abandonTiming_linesKept.linesShow h) fun _ hv b _ => receiveByte_linesShow b hv

theorem cellProgress_linesShow (bytes : List Byte) {s : State} (h : linesShow s) : linesShow (cellProgress bytes s) := by
  unfold cellProgress
  split
  · split
    · exact h
    · exact event_linesShow _ _
  · exact h

theorem cellByte_linesShow {s : State} (b : Byte) (h : linesShow s) : linesShow (cellByte s b) := by
  unfold cellByte
  split
  · exact cellProgress_linesShow _ h
  · exact h

theorem cellBytes_linesShow (kind : Byte) (rest : List Byte) {s : State} (h : linesShow s) : linesShow (cellBytes kind rest s) :=
  List.foldlRecOn (motive := linesShow) rest _ (cellProgress_linesShow _ h) fun _ hv b _ => cellByte_linesShow b hv

theorem packetStarts_linesShow {s : State} (h : linesShow s) : linesShow (packetStarts s) := by
  unfold packetStarts
  split
  · exact handleOrders_linesShow _ (event_linesShow _ _)
  · exact h

theorem packetCompletes_linesShow {s : State} (h : linesShow s) : linesShow (packetCompletes s) := by
  unfold packetCompletes
  split
  · exact handleOrders_linesShow _ (event_linesShow _ _)
  · exact h

/-! ### Commands and resets -/

theorem whenRunning_linesShow {f : State → State} {s : State} (h : linesShow s) (hf : linesShow (f s)) :
    linesShow (whenRunning f s) := by
  unfold whenRunning
  split
  · exact hf
  · exact h

theorem reset_linesShow : linesShow State.reset := ⟨rfl, rfl⟩

theorem powerOn_linesShow (early : Bool) (s : State) : linesShow (powerOn early s) := reset_linesShow

theorem holdReset_linesShow (s : State) : linesShow (holdReset s) := ⟨rfl, rfl⟩

theorem holdBreak_linesShow (s : State) : linesShow (holdBreak s) := ⟨rfl, rfl⟩

theorem releaseBreak_linesShow {s : State} (h : linesShow s) : linesShow (releaseBreak s) := by
  unfold releaseBreak
  split
  · exact driveLines_linesShow _
  · exact h

/-- A command that is one event ends with the lines driven. -/
theorem command_linesShow {f : State → State} {s t : State} (h : linesShow s) (e : command f s = .next t) : linesShow t := by
  injection e with e
  exact e ▸ whenRunning_linesShow h (event_linesShow f s)

theorem cellCommand_linesShow {f : State → State} {s t : State} (h : linesShow s) (e : cellCommand f s = .next t) : linesShow t :=
  command_linesShow h e

theorem orderCommand_linesShow {body : List Byte} {s t : State} (h : linesShow s) (e : orderCommand body s = .next t) :
    linesShow t := by
  injection e with e
  exact e ▸ whenRunning_linesShow h (receiveBytes_linesShow _ h)

/-- Every command leaves the lines at their levels. -/
theorem exec_linesShow {c : Instr} {s t : State} (h : linesShow s) (e : exec c s = .next t) : linesShow t := by
  cases c with
  | head | dir | tile | tail | gap => exact cellCommand_linesShow h e
  | frameWatchExpiry | tick | holdoverLimitReached | announcementExpiry | earlyStart | drainEnd | deferredRetry | roomRetry
    | waitingSlotOpens | takeover | labelComplete | recordConfirmed => exact command_linesShow h e
  | unknownCell kind rest =>
    injection e with e
    exact e ▸ whenRunning_linesShow h (cellBytes_linesShow kind rest h)
  | powerOnReset early =>
    injection e with e
    exact e ▸ powerOn_linesShow early s
  | resetHeld =>
    injection e with e
    exact e ▸ holdReset_linesShow s
  | breakReset =>
    injection e with e
    exact e ▸ whenRunning_linesShow h (holdBreak_linesShow s)
  | breakRelease =>
    injection e with e
    exact e ▸ releaseBreak_linesShow h
  | packetStart =>
    injection e with e
    exact e ▸ whenRunning_linesShow h (packetStarts_linesShow h)
  | packetComplete =>
    injection e with e
    exact e ▸ whenRunning_linesShow h (packetCompletes_linesShow h)
  | malformed bytes =>
    injection e with e
    exact e ▸ whenRunning_linesShow h (receiveBytes_linesShow bytes h)
  | _ => exact orderCommand_linesShow h e

/-- Settles O11: a command ends with the lines driven, or touches nothing that their levels depend on. -/
theorem stepKeepsLinesShown : Obligations.StepKeepsLinesShown := by
  intro s t h e
  have waiting : ∀ rest, linesShow { s with pending := rest } := fun _ => h
  unfold step at e
  split at e
  · injection e with e
    exact e ▸ h
  · exact exec_linesShow (waiting _) e

end Sys2Proof.Machine
end

section
/-! The end of what is held: slot 4 released, the override cleared and the announcement forgotten, stage by stage (R150), and the
thresholds and masks that every change but SET-QUALITY's leaves alone. -/

namespace Sys2Proof.Machine

/-! ### Thresholds and masks (R118) -/

/-- Below rank 6 the thresholds and masks of every slot are kept. -/
theorem Change.thresholds {n : Nat} {s t : State} (hn : n < 6) (h : Change n s t) : thresholdsKept s t := by
  intro j
  cases h with
  | slot _ i y _ h =>
    rw [slot_setSlot]
    split
    · rename_i hj
      rw [hj]
      exact ⟨h.thHi, h.thLo, h.riseMask, h.fallMask⟩
    · exact ⟨rfl, rfl, rfl, rfl⟩
  | released c => exact thresholds_of_outline (dropOutgoingCtx_outline c _ j)
  | audioJoins _ p => obtain ⟨_, _, e⟩ := joinAudio_fields p s; rw [e]; exact ⟨rfl, rfl, rfl, rfl⟩
  | dataJoins _ p => obtain ⟨_, _, e⟩ := joinData_fields p s; rw [e]; exact ⟨rfl, rfl, rfl, rfl⟩
  | labelJoins _ p => obtain ⟨_, _, e⟩ := joinLabel_fields p s; rw [e]; exact ⟨rfl, rfl, rfl, rfl⟩
  | quality => omega
  | _ => exact ⟨rfl, rfl, rfl, rfl⟩

theorem Eff.thresholds {n : Nat} {s t : State} (hn : n < 6) (h : Eff n s t) : thresholdsKept s t :=
  h.preserves (P := thresholdsKept s) (fun u v k hu i => by
    obtain ⟨hi, lo, rise, fall⟩ := hu i
    obtain ⟨khi, klo, krise, kfall⟩ := k.thresholds hn i
    exact ⟨khi.trans hi, klo.trans lo, krise.trans rise, kfall.trans fall⟩) fun _ => ⟨rfl, rfl, rfl, rfl⟩

/-! ### Nothing is held any more (R150 steps 1 to 3) -/

/-- Slot 4 released with what it referred to given up, unless it is EMPTY (R150 step 1). -/
def slotFourReleased (s : State) : State :=
  if (s.slot 4).state = .empty then s
  else raise (.selection 4 .empty) ((dropReferences (s.slot 4) s).updSlot 4 (releasedSlot 4))

/-- The override cleared in every host slot (R150 step 2). -/
def overrideCleared (s : State) : State := hostSlots.foldl (fun s i => s.updSlot i fun x => { x with overridden := false }) s

/-- The Announcement Controller with nothing held, its record kept (R150 step 3). -/
def nothingHeld (s : State) : State :=
  s.updAnnouncer fun a => { a with takeover := .idle, heldType := none, heldTarget := none, anchor := none }

/-- The end of what is held, stage by stage. -/
theorem endHeld_eq (s : State) : endHeld s = emptyLabel 4 (nothingHeld (overrideCleared (slotFourReleased s))) := by
  have released : (giveUpSlot 4 s).updSlot 4 (releasedSlot 4) = (dropReferences (s.slot 4) s).updSlot 4 (releasedSlot 4) :=
    updSlot_updSlot ..
  unfold endHeld slotFourReleased
  rw [released]
  rfl

theorem overrideCleared_slot (i : Fin 5) (s : State) :
    (overrideCleared s).slot i = if i = 4 then s.slot i else { s.slot i with overridden := false } := by
  unfold overrideCleared
  rw [foldl_own State.slot _ (fun x => { x with overridden := false }) (fun s i j => ?_) _ hostSlots_nodup]
  · by_cases h : i = 4
    · rw [if_pos h, if_neg (by simp [mem_hostSlots, h])]
    · rw [if_neg h, if_pos (mem_hostSlots.2 h)]
  · rw [slot_updSlot]
    split
    · rename_i h
      rw [h]
    · rfl

theorem overrideCleared_eq (s : State) : overrideCleared s = { s with slots := (overrideCleared s).slots } := rfl

section Released

variable (s : State)

theorem slotFourReleased_four : ((slotFourReleased s).slot 4).state = .empty := by
  unfold slotFourReleased
  split
  · assumption
  · rw [raise_slot, slot_updSlot_self]
    rfl

/-- A host slot stays but for the roles in which it had outgoing contexts that are released. -/
theorem slotFourReleased_beside {i : Fin 5} (hi : i ≠ 4) : Beside i s (slotFourReleased s) := by
  have raised : ∀ v : State, Beside i v (raise (.selection 4 .empty) v) := fun _ => .of_slot rfl
  unfold slotFourReleased
  split
  · exact .refl s
  · exact ((Beside.of_eff (dropReferences_eff _ _)).trans (.updSlot hi _ _)).trans (raised _)

theorem slotFourReleased_announcer : (slotFourReleased s).announcer = s.announcer := by
  unfold slotFourReleased
  split
  · rfl
  · exact (dropReferences_eff (n := 0) (s.slot 4) s).announcer0

theorem slotFourReleased_directory : (slotFourReleased s).directory = s.directory := by
  unfold slotFourReleased
  split
  · rfl
  · exact (dropReferences_eff (n := 0) (s.slot 4) s).directory0

end Released

section Ended

variable (s : State)

theorem endHeld_slot (i : Fin 5) : (endHeld s).slot i =
    if i = 4 then (slotFourReleased s).slot i else { (slotFourReleased s).slot i with overridden := false } := by
  have stages : ∀ v : State, (emptyLabel 4 (nothingHeld v)).slot i = v.slot i := fun _ => rfl
  rw [endHeld_eq, stages, overrideCleared_slot]

theorem endHeld_announcer : (endHeld s).announcer =
    { s.announcer with takeover := .idle, heldType := none, heldTarget := none, anchor := none } := by
  have stages : ∀ v : State, (emptyLabel 4 (nothingHeld (overrideCleared v))).announcer =
      { v.announcer with takeover := .idle, heldType := none, heldTarget := none, anchor := none } := fun _ => rfl
  rw [endHeld_eq, stages, slotFourReleased_announcer]

theorem endHeld_label (i : Fin 5) : label (endHeld s) i = if i = 4 then LabelBuffer.reset else label s i := by
  have stages : ∀ v : State, label (nothingHeld (overrideCleared v)) i = v.directory.labels[i] := fun _ => rfl
  have emptied : label (endHeld s) i =
      if i = 4 then LabelBuffer.reset else label (nothingHeld (overrideCleared (slotFourReleased s))) i := by
    rw [endHeld_eq]
    exact label_setLabel 4 i _ _
  rw [emptied, stages, slotFourReleased_directory]
  rfl

/-- The end touches slots, announcer and labels alone, beside what the release of slot 4 touches. -/
theorem endHeld_rest : endHeld s = { slotFourReleased s with
    slots := (endHeld s).slots, announcer := (endHeld s).announcer
    directory := { s.directory with labels := (endHeld s).directory.labels } } := by
  have stages : ∀ (v : State) (slots : Vector Slot 5), let u := emptyLabel 4 (nothingHeld { v with slots := slots })
      u = { v with slots := u.slots, announcer := u.announcer, directory := { v.directory with labels := u.directory.labels } } :=
    fun _ _ => rfl
  rw [← slotFourReleased_directory s, endHeld_eq, overrideCleared_eq]
  exact stages _ _

theorem endHeld_four : ((endHeld s).slot 4).state = .empty := by
  rw [endHeld_slot, if_pos rfl, slotFourReleased_four]

theorem endHeld_overridden {i : Fin 5} (hi : i ≠ 4) : ((endHeld s).slot i).overridden = false := by
  rw [endHeld_slot, if_neg hi]

end Ended

end Sys2Proof.Machine
end

section
/-! The preemption record reopened, and the announcement that is returned (R146, R150, R151, log 16, log 17, log 31). -/

namespace Sys2Proof.Machine

/-! ### The order of the record (R150 step 4, log 16) -/

/-- An insertion adds no slot but its own. -/
theorem mem_insertPreempted {p q : Preempted} {l : List Preempted} (h : q ∈ insertPreempted p l) : q = p ∨ q ∈ l := by
  induction l with
  | nil => exact .inl (List.mem_singleton.1 h)
  | cons a rest ih =>
    unfold insertPreempted at h
    split at h
    · exact List.mem_cons.1 h
    · split at h
      · exact (List.mem_cons.1 h).imp_right (List.mem_cons_of_mem a)
      · rcases List.mem_cons.1 h with rfl | h
        · exact .inr List.mem_cons_self
        · exact (ih h).imp_right (List.mem_cons_of_mem a)

/-- The record stays in ascending order of slots, one entry for each. -/
theorem insertPreempted_ascending (p : Preempted) {l : List Preempted} (h : l.Pairwise fun a b => a.slot < b.slot) :
    (insertPreempted p l).Pairwise fun a b => a.slot < b.slot := by
  induction l with
  | nil => exact List.pairwise_singleton _ p
  | cons a rest ih =>
    obtain ⟨first, ascending⟩ := List.pairwise_cons.1 h
    unfold insertPreempted
    split
    · rename_i below
      refine List.pairwise_cons.2 ⟨fun b hb => ?_, h⟩
      rcases List.mem_cons.1 hb with rfl | hb
      · exact below
      · exact below.trans (first b hb)
    · split
      · rename_i same
        exact List.pairwise_cons.2 ⟨fun b hb => same ▸ first b hb, ascending⟩
      · refine List.pairwise_cons.2 ⟨fun b hb => ?_, ih ascending⟩
        rcases mem_insertPreempted hb with rfl | hb
        · omega
        · exact first b hb

/-! ### One role given back (R150 step 4, log 17) -/

/-- The reference that the answer to a request leaves in a role given back. -/
def returnedRef (a : RequestAnswer) (r : RoleIx) (lane : Nat) : Ref :=
  match a with
  | .shared c => .context c
  | .opened c => .context c
  | _ => if r = 1 then .absent else .deferred lane

theorem isContext_eq_false_iff (ref : Ref) : ref.isContext = false ↔ ∀ c, ref ≠ .context c := by
  cases ref <;> simp [Ref.isContext]

section Role

variable {i : Fin 5} {s : State} {r : RoleIx}

/-- A role that the slot wants and does not refer to is requested. -/
theorem reopenRole_requests {e : ServiceEntry} {lane : Nat} (he : (s.slot i).service.bind (activeService s) = some e)
    (hl : e.lane? r = some lane) (hw : wantsRole i e.kind (s.slot i).wantTwin (s.slot i).wantData r = true)
    (hc : ∀ c, ((s.slot i).roleRef r).ref ≠ .context c) : reopenRole i s r =
      (requestCtx lane (nextFrameCount s) s).2.updSlot i fun y =>
        y.setRef r (returnedRef (requestCtx lane (nextFrameCount s) s).1 r lane) := by
  have unheld := (isContext_eq_false_iff _).2 hc
  unfold reopenRole
  dsimp only
  rw [he]
  dsimp only
  rw [hl]
  dsimp only
  rw [if_pos ⟨hw, by rw [unheld]; rfl⟩]
  rfl

/-- A role that the entry does not name, that the slot does not want, or that it refers to, is left (log 17). -/
theorem reopenRole_left (h : ∀ e, (s.slot i).service.bind (activeService s) = some e → e.lane? r = none ∨
    wantsRole i e.kind (s.slot i).wantTwin (s.slot i).wantData r = false ∨ ∃ c, ((s.slot i).roleRef r).ref = .context c) :
    reopenRole i s r = s := by
  unfold reopenRole
  dsimp only
  split
  · rfl
  · rename_i e he
    split
    · rfl
    · rename_i lane hl
      refine if_neg ?_
      rintro ⟨hw, hc⟩
      rcases h e he with k | k | ⟨c, k⟩
      · rw [k] at hl
        cases hl
      · rw [k] at hw
        cases hw
      · rw [k] at hc
        cases hc

/-- A role given back is a request and a reference set, or nothing. -/
theorem reopenRole_cases (i : Fin 5) (s : State) (r : RoleIx) :
    reopenRole i s r = s ∨ ∃ u ref, LanesOnly s u ∧ reopenRole i s r = u.updSlot i fun y => y.setRef r ref := by
  unfold reopenRole
  dsimp only
  split
  · exact .inl rfl
  · split
    · exact .inl rfl
    · split
      · exact .inr ⟨_, _, requestCtx_lanes _ _ s, rfl⟩
      · exact .inl rfl

end Role

/-! ### One entry of the record (R150 step 4) -/

/-- The whole slot is given back only while it is SUSPENDED for the alarm. -/
def stillPreempted (x : Slot) : Prop := x.state = .suspended ∧ x.cause = some .preempted

/-- The states in which noted roles are given back. -/
def takesRolesBack (x : Slot) : Prop :=
  x.state = .opening ∨ x.state = .delivering ∨ (x.state = .suspended ∧ x.cause = some .lost)

section Entry

variable {p : Preempted} {s : State}

theorem reopenPreempted_whole (hw : p.whole = true) (hx : stillPreempted (s.slot p.slot)) :
    reopenPreempted s p = reopenSlot p.slot s := if_pos ⟨hw, hx.1, hx.2⟩

/-- Noted roles are given back where the slot has not been opened anew since they were taken (log 17). -/
theorem reopenPreempted_roles (hx : takesRolesBack (s.slot p.slot)) : reopenPreempted s p =
    (([0, 1, 2, 3, 4] : List RoleIx).filter fun r => p.roles.getLsbD r.val && (s.slot p.slot).taken.getLsbD r.val).foldl
      (reopenRole p.slot) s := by
  have notWhole : ¬(p.whole = true ∧ (s.slot p.slot).state = .suspended ∧ (s.slot p.slot).cause = some .preempted) := by
    rintro ⟨_, hs, hc⟩
    rcases hx with k | k | ⟨_, k⟩
    · exact nomatch hs.symm.trans k
    · exact nomatch hs.symm.trans k
    · exact nomatch hc.symm.trans k
  unfold reopenPreempted
  dsimp only
  rw [if_neg notWhole]
  refine (if_pos hx).trans ?_
  simp only [BitVec.getLsbD_and]
  rfl

theorem reopenPreempted_dropped (hw : ¬(p.whole = true ∧ stillPreempted (s.slot p.slot))) (hx : ¬takesRolesBack (s.slot p.slot)) :
    reopenPreempted s p = s := by
  unfold reopenPreempted
  exact (if_neg hw).trans (if_neg hx)

end Entry

/-! ### What the reopening leaves alone (R150) -/

theorem reopenRole_outside (i : Fin 5) (s : State) (r : RoleIx) : OutsideSlots s (reopenRole i s r) := by
  rcases reopenRole_cases i s r with h | ⟨u, ref, lanes, h⟩ <;> rw [h]
  · exact .refl s
  · exact lanes.outside.trans (updSlot_outside (setRef_step u i r ref))

/-- An entry of the record is reopened whole, in some of its roles, or not at all. -/
theorem reopenPreempted_cases (s : State) (p : Preempted) :
    (stillPreempted (s.slot p.slot) ∧ reopenPreempted s p = reopenSlot p.slot s) ∨
      (takesRolesBack (s.slot p.slot) ∧ ∃ l : List RoleIx, reopenPreempted s p = l.foldl (reopenRole p.slot) s) ∨
      reopenPreempted s p = s := by
  by_cases hw : p.whole = true ∧ stillPreempted (s.slot p.slot)
  · exact .inl ⟨hw.2, reopenPreempted_whole hw.1 hw.2⟩
  · by_cases hx : takesRolesBack (s.slot p.slot)
    · exact .inr (.inl ⟨hx, _, reopenPreempted_roles hx⟩)
    · exact .inr (.inr (reopenPreempted_dropped hw hx))

theorem reopenPreempted_outside (s : State) (p : Preempted) : OutsideSlots s (reopenPreempted s p) := by
  rcases reopenPreempted_cases s p with ⟨_, h⟩ | ⟨_, l, h⟩ | h <;> rw [h]
  · exact reopenSlot_outside p.slot s
  · exact .foldl (reopenRole_outside p.slot) l s
  · exact .refl s

/-- The announcer but for the record, the labels and the packets are left as they are. -/
theorem reopenRecord_eq (s : State) : ∃ u, OutsideSlots s u ∧
    reopenRecord s = u.updAnnouncer fun a => { a with preempted := [] } :=
  ⟨s.announcer.preempted.foldl reopenPreempted s, .foldl reopenPreempted_outside _ s, rfl⟩

/-! ### No announcement is heard any more -/

/-- Nothing is held, slot 4 is EMPTY, and no host slot is overridden. -/
structure NoneHeard (s : State) : Prop where
  idle : s.announcer.takeover = .idle
  four : (s.slot 4).state = .empty
  hosts : ∀ i : Fin 5, i ≠ 4 → (s.slot i).overridden = false

theorem endHeld_noneHeard (s : State) : NoneHeard (endHeld s) :=
  ⟨by rw [endHeld_announcer], endHeld_four s, fun _ => endHeld_overridden s⟩

theorem NoneHeard.raise {s : State} (h : NoneHeard s) (a : Attention) : NoneHeard (Machine.raise a s) := ⟨h.idle, h.four, h.hosts⟩

theorem NoneHeard.hostSlot {s u : State} {i : Fin 5} (h : NoneHeard s) (hi : i ≠ 4) (announcer : u.announcer = s.announcer)
    (own : (u.slot i).overridden = false) (others : ∀ j, j ≠ i → u.slot j = s.slot j) : NoneHeard u := by
  refine ⟨announcer ▸ h.idle, ?_, fun j hj => ?_⟩
  · rw [others 4 hi.symm]
    exact h.four
  · by_cases hji : j = i
    · exact hji ▸ own
    · rw [others j hji]
      exact h.hosts j hj

theorem OutsideSlots.announcer {s u : State} (h : OutsideSlots s u) : u.announcer = s.announcer := by
  obtain ⟨_, _, _, _, _, hann, _⟩ := h.frame
  exact hann

/-- A slot that opens is overridden only in TAKEOVER (R123, R147). -/
theorem openedSlot_idle {s : State} (h : s.announcer.takeover = .idle) (x : Slot) (service : Word16) (role : Option Role)
    (wantTwin wantData : Bool) (refs : Refs) : (openedSlot s x service role wantTwin wantData refs).overridden = false := by
  unfold openedSlot
  rw [h]
  simp

theorem reopenSlot_overridden {i : Fin 5} {s : State} (h : s.announcer.takeover = .idle) (hs : (s.slot i).overridden = false) :
    ((reopenSlot i s).slot i).overridden = false := by
  rcases reopenSlot_cases i s with ⟨_, e⟩ | ⟨entry, _, ⟨_, e⟩ | ⟨_, e⟩⟩ <;> rw [e]
  · rw [becomeWaiting_eq, raise_slot, slot_updSlot_self]
    exact hs
  · have lanes := openedRoles_lanes (wantedRoles i entry (s.slot i).wantTwin (s.slot i).wantData) (nextFrameCount s) s
    exact (congrArg Slot.overridden (setOpened_slot_self ..)).trans (openedSlot_idle (lanes.outside.announcer ▸ h) ..)
  · rw [suspendRoom_eq, raise_slot, slot_updSlot_self]
    exact hs

theorem reopenSlot_noneHeard {i : Fin 5} {s : State} (hi : i ≠ 4) (h : NoneHeard s) : NoneHeard (reopenSlot i s) :=
  h.hostSlot hi (reopenSlot_outside i s).announcer (reopenSlot_overridden h.idle (h.hosts i hi)) fun _ hj => reopenSlot_other hj s

theorem reopenRole_noneHeard {i : Fin 5} {s : State} (hi : i ≠ 4) (r : RoleIx) (h : NoneHeard s) : NoneHeard (reopenRole i s r) := by
  rcases reopenRole_cases i s r with e | ⟨u, ref, lanes, e⟩ <;> rw [e]
  · exact h
  · refine h.hostSlot hi lanes.outside.announcer ?_ fun j hj => ?_
    · rw [slot_updSlot_self, lanes.slot]
      exact h.hosts i hi
    · rw [slot_updSlot, if_neg hj, lanes.slot]

/-- Slot 4 is EMPTY, so that an entry that names it is dropped. -/
theorem reopenPreempted_noneHeard {s : State} (p : Preempted) (h : NoneHeard s) : NoneHeard (reopenPreempted s p) := by
  have host : (s.slot p.slot).state ≠ .empty → p.slot ≠ 4 := fun hs hp => hs (hp ▸ h.four)
  rcases reopenPreempted_cases s p with ⟨⟨hs, _⟩, e⟩ | ⟨hx, l, e⟩ | e <;> rw [e]
  · exact reopenSlot_noneHeard (host (by simp [hs])) h
  · have hi : p.slot ≠ 4 := host (by rcases hx with hs | hs | ⟨hs, _⟩ <;> simp [hs])
    exact List.foldlRecOn (motive := NoneHeard) l _ h fun _ hv r _ => reopenRole_noneHeard hi r hv
  · exact h

theorem reopenRecord_noneHeard {s : State} (h : NoneHeard s) : NoneHeard (reopenRecord s) := by
  have reopened : NoneHeard (s.announcer.preempted.foldl reopenPreempted s) :=
    List.foldlRecOn (motive := NoneHeard) _ _ h fun _ hv p _ => reopenPreempted_noneHeard p hv
  exact ⟨reopened.idle, reopened.four, reopened.hosts⟩

theorem revertSource_overridden (s : State) (x : Slot) : (revertSource s x).overridden = x.overridden := by
  unfold revertSource
  split <;> rfl

theorem stateCheck_noneHeard (i : Fin 5) (s : State) (h : NoneHeard s) : NoneHeard (stateCheck i s) := by
  have others : ∀ j, j ≠ i → (stateCheck i s).slot j = s.slot j := fun j hj => stateCheck_other hj s
  by_cases hi : i = 4
  · subst hi
    have quiet : (s.slot 4).state ≠ .delivering := by simp [h.four]
    refine ⟨(stateCheck_outside 4 s).announcer ▸ h.idle, ?_, fun j hj => others j hj ▸ h.hosts j hj⟩
    rw [stateCheck_reverts (.inl quiet), slot_setSlot_self, revertSource_state]
    exact h.four
  · refine h.hostSlot hi (stateCheck_outside i s).announcer ?_ others
    have reverted := (revertSource_overridden s (s.slot i)).trans (h.hosts i hi)
    rcases stateCheck_cases i s with e | ⟨_, e⟩ <;> rw [e]
    · rw [slot_setSlot_self, reverted]
    · rw [raise_slot, slot_setSlot_self]
      exact reverted

/-! ### The return (R150) -/

theorem returnHeld_eq (keep : Bool) (s : State) : returnHeld keep s = raise (.announce .returned)
    (stateChecks (if keep then endHeld s else reopenRecord (endHeld s))) := rfl

/-- A return that is not for an onset reopens the record (R150 step 4). -/
theorem returnHeld_reopens (s : State) :
    returnHeld false s = raise (.announce .returned) (stateChecks (reopenRecord (endHeld s))) := by
  rw [returnHeld_eq, if_neg (by simp)]

section Return

variable (s : State)

theorem returnHeld_noneHeard : NoneHeard (returnHeld false s) := by
  have checked : NoneHeard (stateChecks (reopenRecord (endHeld s))) :=
    stateChecks_preserves stateCheck_noneHeard (reopenRecord_noneHeard (endHeld_noneHeard s))
  rw [returnHeld_reopens]
  exact checked.raise _

/-- Nothing is held after a return, and the record is empty. -/
theorem returnHeld_announcer : (returnHeld false s).announcer =
    { s.announcer with takeover := .idle, heldType := none, heldTarget := none, anchor := none, preempted := [] } := by
  obtain ⟨u, outside, reopened⟩ := reopenRecord_eq (endHeld s)
  rw [returnHeld_reopens, raise_announcer, (stateChecks_outsideSlots _).announcer, reopened, updAnnouncer_announcer,
    outside.announcer, endHeld_announcer]

theorem returnHeld_label : label (returnHeld false s) 4 = LabelBuffer.reset := by
  have unchanged : ∀ (v : State) (a : Attention) (f : Announcer → Announcer),
      label (raise a v) 4 = label v 4 ∧ label (v.updAnnouncer f) 4 = label v 4 := fun _ _ _ => ⟨rfl, rfl⟩
  obtain ⟨u, outside, reopened⟩ := reopenRecord_eq (endHeld s)
  rw [returnHeld_reopens, (unchanged _ _ id).1, label_outside (stateChecks_outsideSlots _), reopened,
    (unchanged _ (.announce .returned) _).2, label_outside outside, endHeld_label, if_pos rfl]

theorem returnHeld_announced :
    (returnHeld false s).link.causes[(3 : Fin 9)] = { pending := true, detail := some (.announce .returned) } := by
  rw [returnHeld_reopens]
  exact raise_own_cause (.announce .returned) _

end Return

end Sys2Proof.Machine
end

section
/-! DISMISS, the check of what is held, and what every event ends with (R139, R141, R148, R151, R161, log 22, log 34, log 35). -/

namespace Sys2Proof.Machine

/-! ### DISMISS (R151) -/

/-- DISMISS is carried out at once in a part that is ready for it (R165). -/
theorem exec_dismiss (ref : Byte) {s : State} (h : readyForOrder s) :
    exec (.dismiss ref) s =
      let o := dismissOrder (heard s)
      carriedOut s ref 0x05 o.1 o.2.1 o.2.2 := exec_order ref 0x05 [] s (by simp) h

section Dismiss

variable {s : State}

theorem dismissOrder_idle (h : s.announcer.takeover = .idle) : dismissOrder s = (.notNow, [], s) := if_pos h

theorem dismissOrder_locked (h : s.announcer.takeover ≠ .idle) (k : s.announcer.heldType = some 0 ∧ s.announcer.lock = true) :
    dismissOrder s = (.locked, heldData s, s) := (if_neg h).trans (if_pos k)

theorem dismissOrder_returns (h : s.announcer.takeover ≠ .idle)
    (k : ¬(s.announcer.heldType = some 0 ∧ s.announcer.lock = true)) :
    dismissOrder s = (.accepted, heldData s, removeSlotPackets 4 (returnHeld false s)) := (if_neg h).trans (if_neg k)

end Dismiss

/-! ### What is held is checked (R148) -/

/-- The anchored slot still has role FOREGROUND with the anchored service, heard, opening or waiting for the signal. -/
theorem anchorHolds_iff (s : State) : anchorHolds s = true ↔ ∃ x, s.announcer.anchor = some x ∧
    (s.slot x.slot).role = some .foreground ∧ (s.slot x.slot).service = some x.service ∧
    ((s.slot x.slot).state = .opening ∨ (s.slot x.slot).state = .delivering ∨
      ((s.slot x.slot).state = .suspended ∧ (s.slot x.slot).cause = some .lost)) := by
  unfold anchorHolds
  cases s.announcer.anchor <;> simp [and_assoc, or_assoc]

section Check

variable {s : State} {e : ServiceEntry}

theorem checkHeld_idle (h : s.announcer.takeover = .idle) : checkHeld s = s := if_pos h

theorem checkHeld_targetGone (h : s.announcer.takeover ≠ .idle) (he : s.announcer.heldTarget.bind (activeService s) = none) :
    checkHeld s = returnHeld false s := by
  unfold checkHeld
  rw [if_neg h, he]

/-- An announcement of any type but ALARM is held as long as its anchor is. -/
theorem checkHeld_anchored (h : s.announcer.takeover ≠ .idle) (he : s.announcer.heldTarget.bind (activeService s) = some e)
    (ht : s.announcer.heldType ≠ some 0) : checkHeld s = if anchorHolds s then s else returnHeld false s := by
  unfold checkHeld
  rw [if_neg h, he]
  exact if_pos ht

/-- An alarm held IN-SERVICE whose carrier is gone opens slot 4 (log 34). -/
theorem checkHeld_alarm (h : s.announcer.takeover ≠ .idle) (he : s.announcer.heldTarget.bind (activeService s) = some e)
    (ht : s.announcer.heldType = some 0) : checkHeld s =
      if s.announcer.takeover = .inService ∧ foregroundCarries s e.service = false then openSlotFourForAlarm e s else s := by
  unfold checkHeld
  rw [if_neg h, he]
  dsimp only
  rw [if_neg (not_not.2 ht)]
  simp only [Bool.not_eq_true']

end Check

/-! ### The end of an event (R139, R141, R148, log 22) -/

/-- Some host slot has another state, role or service in b than in a. -/
def hostChanged (a b : State) : Prop :=
  ∃ i : Fin 5, i ≠ 4 ∧ ((a.slot i).state ≠ (b.slot i).state ∨ (a.slot i).role ≠ (b.slot i).role ∨
    (a.slot i).service ≠ (b.slot i).service)

theorem hostSlotsChanged_iff (a b : State) : hostSlotsChanged a b = true ↔ hostChanged a b := by
  unfold hostSlotsChanged hostChanged
  simp only [List.any_eq_true, mem_hostSlots, decide_eq_true_eq]

/-- The check runs at the end of an event that changed a host slot. -/
theorem checkAfter_of {a b v : State} (changed : hostChanged a b → v = checkHeld b) (same : ¬hostChanged a b → v = b) :
    checkAfter a b = v := by
  unfold checkAfter
  split
  · rename_i h
    exact (changed ((hostSlotsChanged_iff a b).1 h)).symm
  · rename_i h
    exact (same fun k => h ((hostSlotsChanged_iff a b).2 k)).symm

theorem endEvent_of {before after v w : State} (check : checkAfter before after = v) (start : checkAfter v (earlyStart v) = w) :
    endEvent before after = driveLines w := by
  unfold endEvent
  dsimp only
  rw [check, start]

/-! ### The statement, part by part -/

/-- DISMISS where it is accepted: the announcement is returned, and the packets of slot 4 leave (R150, R151, R161). -/
theorem dismiss_returns (ref : Byte) {s : State} (h : readyForOrder s) (held : s.announcer.takeover ≠ .idle)
    (free : ¬(s.announcer.heldType = some 0 ∧ s.announcer.lock = true)) :
    ∃ u, exec (.dismiss ref) s = carriedOut s ref 0x05 .accepted (heldData s) u ∧
      u.announcer = { s.announcer with
        takeover := .idle, heldType := none, heldTarget := none, anchor := none, preempted := [] } ∧
      (u.slot 4).state = .empty ∧ label u 4 = LabelBuffer.reset ∧ noPacketsOf u 4 ∧
      (∀ i : Fin 5, i ≠ 4 → (u.slot i).overridden = false) ∧ u.link.sending = s.link.sending ∧
      u.link.causes[(3 : Fin 9)] = { pending := true, detail := some (.announce .returned) } ∧
      u.directory.table = s.directory.table ∧ u.intake = s.intake ∧ thresholdsKept s u := by
  have accepted : exec (.dismiss ref) s =
      carriedOut s ref 0x05 .accepted (heldData s) (removeSlotPackets 4 (returnHeld false (heard s))) := by
    rw [exec_dismiss ref h, dismissOrder_returns (s := heard s) held free]
    rfl
  have effect : Eff 1 (heard s) (returnHeld false (heard s)) := returnHeld_eff (le_refl 1) false _
  have table := effect.table (by omega)
  have intake := effect.intake (by omega)
  have thresholds := effect.thresholds (by omega)
  have announcer := returnHeld_announcer (heard s)
  have emptied := returnHeld_label (heard s)
  have announced := returnHeld_announced (heard s)
  obtain ⟨_, four, hosts⟩ := returnHeld_noneHeard (heard s)
  generalize returnHeld false (heard s) = v at *
  exact ⟨removeSlotPackets 4 v, accepted, announcer, four, emptied, noPacketsOf_removeSlotPackets 4 v, hosts, effect.sending,
    announced, table, intake, thresholds⟩

/-- Settles O45: DISMISS by its cases, the return stage by stage, the record entry by entry and role by role, the check by what is
held, and the end of an event by what it changed. -/
theorem dismissByCase : Obligations.DismissByCase := by
  refine ⟨fun ref s h => ⟨fun idle => ?_, fun held alarm locked => ?_, fun held free => dismiss_returns ref h held free⟩,
    fun keep s => returnHeld_eq keep s, fun s => ?_, fun s => rfl, fun p l h => insertPreempted_ascending p h,
    fun p s => ⟨reopenPreempted_whole, reopenPreempted_roles, reopenPreempted_dropped⟩, fun i s => ⟨fun absent => ?_, fun e he =>
      ⟨fun full => ?_, fun fits => ?_⟩⟩, fun i r s => ⟨fun e lane he hl hw hc a u ha => ?_, reopenRole_left⟩, fun s => ?_,
    fun before after => ?_⟩
  · rw [exec_dismiss ref h, dismissOrder_idle (s := heard s) idle]
  · rw [exec_dismiss ref h, dismissOrder_locked (s := heard s) held ⟨alarm, locked⟩]
    rfl
  · refine ⟨(endHeld_slot s 4).trans (if_pos rfl), fun i hi => (endHeld_slot s i).trans (if_neg hi), endHeld_announcer s,
      (endHeld_label s 4).trans (if_pos rfl), fun i hi => (endHeld_label s i).trans (if_neg hi), endHeld_rest s⟩
  · rw [reopenSlot_absent absent, becomeWaiting_eq]
  · rw [reopenSlot_noRoom he full, suspendRoom_eq]
  · have roles := rolesOpened_reopenSlot he fits
    rw [reopenSlot_fits he fits] at roles ⊢
    obtain ⟨opened, others, _, selection⟩ := openHeldSlot_alone i e (nextFrameCount s) s
    exact ⟨opened, roles, others, selection⟩
  · rw [reopenRole_requests he hl hw hc, ha]
    cases a <;> rfl
  · intro a entry anchored carried
    have hanchored : anchored ↔ anchorHolds s = true := (anchorHolds_iff s).symm
    have hcarried : ∀ e, carried e ↔ foregroundCarries s e.service = true := fun e => (foregroundCarries_iff s e.service).symm
    refine ⟨checkHeld_idle, checkHeld_targetGone, fun held e he => ?_⟩
    rw [hanchored, hcarried]
    refine ⟨fun other gone => (checkHeld_anchored held he other).trans (if_neg gone), fun other holds =>
      (checkHeld_anchored held he other).trans (if_pos holds), fun alarm inService gone => ?_, fun alarm stays => ?_⟩
    · refine (checkHeld_alarm held he alarm).trans ((if_pos ⟨inService, Bool.eq_false_iff.2 gone⟩).trans ?_)
      unfold openSlotFourForAlarm
      cases e.primary <;> rfl
    · refine (checkHeld_alarm held he alarm).trans (if_neg ?_)
      rintro ⟨inService, gone⟩
      rcases stays with k | k
      · exact k inService
      · rw [gone] at k
        cases k
  · intro changed v w checked kept started still
    exact endEvent_of (checkAfter_of checked kept) (checkAfter_of started still)

end Sys2Proof.Machine
end

section
/-! STANDBY: what is held ends, the host slots are parked, and the outbound queues empty (R152). -/

namespace Sys2Proof.Machine

/-! ### One slot parked (R152 step 2) -/

/-- A slot as STANDBY leaves one that was not EMPTY. -/
def Slot.parkedForStandby (x : Slot) : Slot :=
  { x.outline with
    parked := some x.state, state := .parked, source := .primary, muted := false, overridden := false, cause := none }

/-- How a slot is parked depends on neither its roles nor its override. -/
theorem parkedForStandby_congr {x y : Slot} {b : Bool} (h : x.outline = { y.outline with overridden := b }) :
    x.parkedForStandby = y.parkedForStandby := by
  have same : x.outline.parkedForStandby = Slot.parkedForStandby { y.outline with overridden := b } := congrArg _ h
  exact same

/-- What a slot asks for, and its state, do not depend on its roles or its override. -/
theorem selection_of_outline {x y : Slot} {b : Bool} (h : x.outline = { y.outline with overridden := b }) :
    x.service = y.service ∧ x.role = y.role ∧ x.wantTwin = y.wantTwin ∧ x.wantData = y.wantData ∧ x.state = y.state := by
  unfold Slot.outline at h
  injection h with state role service wantTwin wantData
  exact ⟨service, role, wantTwin, wantData, state⟩

theorem state_of_outline {x y : Slot} (h : x.outline = y.outline) : x.state = y.state := by
  unfold Slot.outline at h
  injection h

section Park

variable {i : Fin 5} {s : State}

theorem parkSlot_empty (h : (s.slot i).state = .empty) : parkSlot s i = s := if_pos h

theorem parkSlot_parks (h : (s.slot i).state ≠ .empty) : (parkSlot s i).slot i = (s.slot i).parkedForStandby := by
  unfold parkSlot
  rw [if_neg h, raise_slot, slot_updSlot_self, giveUpSlot_slot]
  rfl

theorem parkSlot_beside {j : Fin 5} (h : i ≠ j) (s : State) : Beside i s (parkSlot s j) := by
  have raised : ∀ v : State, Beside i v (raise (.selection j .parked) v) := fun _ => .of_slot rfl
  unfold parkSlot
  split
  · exact .refl s
  · exact ((giveUpSlot_beside h s).trans (.updSlot h _ _)).trans (raised _)

theorem parkSlot_announcer (s : State) (j : Fin 5) : (parkSlot s j).announcer = s.announcer := by
  unfold parkSlot
  split
  · rfl
  · exact (dropReferences_eff (n := 0) (s.slot j) s).announcer0

end Park

/-! ### The host slots parked one after another -/

/-- The host slots parked in ascending order (log 11). -/
def hostsParked (s : State) : State := hostSlots.foldl parkSlot s

theorem hostsParked_announcer (s : State) : (hostsParked s).announcer = s.announcer :=
  foldl_keeps State.announcer parkSlot parkSlot_announcer hostSlots s

/-- A host slot that is not EMPTY is parked in its turn, and holds no role that the parking of the others could touch. -/
theorem hostsParked_slot {s : State} {i : Fin 5} (hi : i ≠ 4) (h : (s.slot i).state ≠ .empty) :
    (hostsParked s).slot i = (s.slot i).parkedForStandby := by
  refine foldl_comes_to (P := fun v => (v.slot i).outline = (s.slot i).outline)
    (Q := fun v => v.slot i = (s.slot i).parkedForStandby) hostSlots_nodup (mem_hostSlots.2 hi)
    (fun v j hj hv => (parkSlot_beside hj v).1.trans hv) (fun v hv => ?_) (fun v j hj hv => ?_) rfl
  · have parked := congrArg Slot.parkedForStandby hv
    rw [parkSlot_parks (by rwa [state_of_outline hv])]
    exact parked
  · exact ((parkSlot_beside hj v).2 (by rw [hv]; rfl)).trans hv

/-- Slot 4 and an EMPTY slot stay but for their roles. -/
theorem hostsParked_outline {s : State} {i : Fin 5} (h : i = 4 ∨ (s.slot i).state = .empty) :
    ((hostsParked s).slot i).outline = (s.slot i).outline := by
  have others : ∀ (v : State) (j : Fin 5), i ≠ j → (v.slot i).outline = (s.slot i).outline →
      ((parkSlot v j).slot i).outline = (s.slot i).outline := fun v j hj hv => (parkSlot_beside hj v).1.trans hv
  by_cases hi : i = 4
  · exact foldl_others (P := fun v => (v.slot i).outline = (s.slot i).outline) others hostSlots (fun k => mem_hostSlots.1 k hi) s rfl
  · refine foldl_comes_to (P := fun v => (v.slot i).outline = (s.slot i).outline)
      (Q := fun v => (v.slot i).outline = (s.slot i).outline) hostSlots_nodup (mem_hostSlots.2 hi) others (fun v hv => ?_) others rfl
    rw [parkSlot_empty ((state_of_outline hv).trans (h.resolve_left hi)), hv]

/-! ### STANDBY in ACTIVE (R152) -/

/-- What was held, if anything, has ended (R152 step 1). -/
def heldEnded (s : State) : State := if s.announcer.takeover = .idle then s else endHeld s

/-- The controller in standby, its record empty and WAKE low. -/
def asleep (s : State) : State := s.updAnnouncer fun a => { a with preempted := [], power := .standby, wakeLine := false }

theorem asleep_slot (s : State) (i : Fin 5) : (asleep s).slot i = s.slot i := rfl

/-- The outbound queues but that of answers emptied (R152 step 3). -/
def queuesEmptied (s : State) : State := s.updLink fun l => { l with audio := [], data := [], labels := [] }

theorem enterStandby_eq (s : State) : enterStandby s = queuesEmptied (hostsParked (asleep (heldEnded s))) := rfl

theorem heldEnded_announcer (s : State) : (heldEnded s).announcer.takeover = .idle ∧
    (heldEnded s).announcer.accept = s.announcer.accept ∧ (heldEnded s).announcer.wake = s.announcer.wake ∧
    (heldEnded s).announcer.lock = s.announcer.lock := by
  unfold heldEnded
  split
  · rename_i h
    exact ⟨h, rfl, rfl, rfl⟩
  · rw [endHeld_announcer]
    exact ⟨rfl, rfl, rfl, rfl⟩

/-- The end of what was held leaves a host slot as it was but for its roles and its override. -/
theorem heldEnded_host (s : State) {i : Fin 5} (hi : i ≠ 4) :
    ∃ b, ((heldEnded s).slot i).outline = { (s.slot i).outline with overridden := b } := by
  unfold heldEnded
  split
  · exact ⟨(s.slot i).overridden, rfl⟩
  · have released := congrArg (fun x : Slot => { x with overridden := false }) (slotFourReleased_beside s hi).1
    rw [endHeld_slot, if_neg hi]
    exact ⟨false, released⟩

theorem heldEnded_four {s : State} (h : s.announcer.takeover ≠ .idle) : ((heldEnded s).slot 4).state = .empty := by
  unfold heldEnded
  rw [if_neg h]
  exact endHeld_four s

section Standby

variable (s : State)

theorem enterStandby_slot (i : Fin 5) : (enterStandby s).slot i = (hostsParked (asleep (heldEnded s))).slot i := by
  have emptied : ∀ v : State, (queuesEmptied v).slot i = v.slot i := fun _ => rfl
  rw [enterStandby_eq, emptied]

/-- A slot that is not EMPTY is parked as it was. -/
theorem enterStandby_parks {i : Fin 5} (hi : i ≠ 4) (h : (s.slot i).state ≠ .empty) :
    (enterStandby s).slot i = (s.slot i).parkedForStandby := by
  obtain ⟨b, ended⟩ := heldEnded_host s hi
  obtain ⟨_, _, _, _, state⟩ := selection_of_outline ended
  rw [enterStandby_slot, hostsParked_slot hi (by rwa [asleep_slot, state]), asleep_slot]
  exact parkedForStandby_congr ended

theorem enterStandby_empty {i : Fin 5} (hi : i ≠ 4) (h : (s.slot i).state = .empty) :
    ∃ b, ((enterStandby s).slot i).outline = { (s.slot i).outline with overridden := b } := by
  obtain ⟨b, ended⟩ := heldEnded_host s hi
  obtain ⟨_, _, _, _, state⟩ := selection_of_outline ended
  rw [enterStandby_slot, hostsParked_outline (.inr (by rwa [asleep_slot, state])), asleep_slot]
  exact ⟨b, ended⟩

theorem enterStandby_queues :
    (enterStandby s).link.audio = [] ∧ (enterStandby s).link.data = [] ∧ (enterStandby s).link.labels = [] :=
  ⟨rfl, rfl, rfl⟩

theorem enterStandby_four (h : s.announcer.takeover ≠ .idle) : ((enterStandby s).slot 4).state = .empty := by
  have kept := hostsParked_outline (s := asleep (heldEnded s)) (i := 4) (.inl rfl)
  rw [asleep_slot] at kept
  rw [enterStandby_slot]
  exact (state_of_outline kept).trans (heldEnded_four h)

/-- In standby nothing is held and WAKE is low; masks and lock stay. -/
theorem enterStandby_announcer : (enterStandby s).announcer.power = .standby ∧ (enterStandby s).announcer.takeover = .idle ∧
    (enterStandby s).announcer.preempted = [] ∧ (enterStandby s).announcer.wakeLine = false ∧
    (enterStandby s).announcer.accept = s.announcer.accept ∧ (enterStandby s).announcer.wake = s.announcer.wake ∧
    (enterStandby s).announcer.lock = s.announcer.lock := by
  have emptied : ∀ v : State, (queuesEmptied v).announcer = v.announcer := fun _ => rfl
  have slept : ∀ v : State, (asleep v).announcer = { v.announcer with preempted := [], power := .standby, wakeLine := false } :=
    fun _ => rfl
  obtain ⟨idle, accept, wake, lock⟩ := heldEnded_announcer s
  rw [enterStandby_eq, emptied, hostsParked_announcer, slept]
  exact ⟨rfl, idle, rfl, rfl, accept, wake, lock⟩

end Standby

/-- STANDBY is carried out at once in a part that is ready for it (R165). -/
theorem exec_standby (ref : Byte) {s : State} (h : readyForOrder s) :
    exec (.standby ref) s =
      let o := standbyOrder (heard s)
      carriedOut s ref 0x0E o.1 o.2.1 o.2.2 := exec_order ref 0x0E [] s (by simp) h

theorem standbyOrder_active {s : State} (h : s.announcer.power = .active) : standbyOrder s = (.accepted, [], enterStandby s) := by
  unfold standbyOrder
  rw [h]

theorem standbyOrder_standby {s : State} (h : s.announcer.power = .standby) :
    standbyOrder s = (.accepted, [], s.updAnnouncer fun a => { a with wakeLine := false }) := by
  unfold standbyOrder
  rw [h]

/-- Settles O51: in standby WAKE falls; in ACTIVE the slots are read one by one, and the rest from what STANDBY can change. -/
theorem standbyParksTheSlots : Obligations.StandbyParksTheSlots := by
  intro ref s h
  rw [exec_standby ref h]
  refine ⟨fun standby => by rw [standbyOrder_standby (s := heard s) standby], fun active => ?_⟩
  rw [standbyOrder_active (s := heard s) active]
  have effect : Eff 2 (heard s) (enterStandby (heard s)) := enterStandby_eff (le_refl 2) _
  have answers := effect.answers
  have sending := effect.sending
  have intake := effect.intake (by omega)
  have bank := effect.active (by omega)
  have table := effect.table (by omega)
  have thresholds := effect.thresholds (by omega)
  obtain ⟨power, idle, record, wakeLine, accept, wake, lock⟩ := enterStandby_announcer (heard s)
  obtain ⟨audio, data, labels⟩ := enterStandby_queues (heard s)
  have parks := fun i hi => enterStandby_parks (heard s) (i := i) hi
  have empty := fun i hi => enterStandby_empty (heard s) (i := i) hi
  have four := enterStandby_four (heard s)
  generalize enterStandby (heard s) = u at *
  refine ⟨u, rfl, power, idle, record, wakeLine, accept, wake, lock, fun i hi => ?_, four, audio, data, labels, answers, sending,
    intake, bank, table, thresholds⟩
  by_cases he : (s.slot i).state = .empty
  · obtain ⟨b, kept⟩ := empty i hi he
    obtain ⟨service, role, wantTwin, wantData, state⟩ := selection_of_outline kept
    exact ⟨service, role, wantTwin, wantData, fun _ => state.trans he, fun k => absurd he k⟩
  · rw [parks i hi he]
    exact ⟨rfl, rfl, rfl, rfl, fun k => absurd k he, fun _ => ⟨rfl, rfl, rfl, rfl, rfl, rfl, rfl⟩⟩

end Sys2Proof.Machine
end

section
/-! The queues of the Delivery Link under every step: none holds more than its capacity (R158, R159, R164, R165). -/

namespace Sys2Proof.Machine

/-! ### What joining and leaving make of a queue's length -/

theorem joined_within {α : Type} {queue : List α} {n : Nat} (x : α) (room : queue.length < n) : (queue ++ [x]).length ≤ n := by
  rw [List.length_append, List.length_singleton]
  exact room

/-- A queue that gives up its oldest entry has room for one more. -/
theorem shifted_within {α : Type} {queue : List α} {n : Nat} (x : α) (held : queue.length ≤ n) (positive : 0 < n) :
    (queue.tail ++ [x]).length ≤ n := by
  rw [List.length_append, List.length_tail, List.length_singleton]
  omega

/-- What is left when the front of a queue leaves fits where the queue fitted. -/
theorem rest_within {α : Type} {x : α} {rest queue : List α} {n : Nat} (front : queue = x :: rest) (held : queue.length ≤ n) :
    rest.length ≤ n := by
  rw [front] at held
  exact Nat.le_of_succ_le held

/-! ### The outbound queues (R158, R159) -/

theorem joinAudio_withinCapacity (p : FramePacket) {s : State} (h : s.link.withinCapacity) :
    (joinAudio p s).link.withinCapacity := by
  obtain ⟨answers, audio, data, labels, orders⟩ := h
  unfold joinAudio
  split
  · exact ⟨answers, shifted_within p audio (by decide), data, labels, orders⟩
  · rename_i room
    exact ⟨answers, joined_within p (Nat.lt_of_not_ge room), data, labels, orders⟩

/-- A full DATA queue takes no packet. -/
theorem joinData_withinCapacity (p : FramePacket) {s : State} (h : s.link.withinCapacity) :
    (joinData p s).link.withinCapacity := by
  obtain ⟨answers, audio, data, labels, orders⟩ := h
  unfold joinData
  split
  · exact ⟨answers, audio, data, labels, orders⟩
  · rename_i room
    exact ⟨answers, audio, joined_within p (Nat.lt_of_not_ge room), labels, orders⟩

theorem joinLabel_withinCapacity (p : LabelPacket) {s : State} (h : s.link.withinCapacity) :
    (joinLabel p s).link.withinCapacity := by
  obtain ⟨answers, audio, data, labels, orders⟩ := h
  unfold joinLabel
  split
  · exact ⟨answers, audio, data, shifted_within p labels (by decide), orders⟩
  · rename_i room
    exact ⟨answers, audio, data, joined_within p (Nat.lt_of_not_ge room), orders⟩

/-- The packet that starts leaves its queue, and no other queue changes. -/
theorem startNext_withinCapacity {l : Link} (h : l.withinCapacity) : (startNext l).withinCapacity := by
  obtain ⟨answers, audio, data, labels, orders⟩ := h
  unfold startNext
  split
  · rename_i front
    exact ⟨rest_within front answers, audio, data, labels, orders⟩
  · rename_i front
    exact ⟨answers, rest_within front audio, data, labels, orders⟩
  · rename_i front
    exact ⟨answers, audio, rest_within front data, labels, orders⟩
  · rename_i front
    exact ⟨answers, audio, data, rest_within front labels, orders⟩
  · exact ⟨answers, audio, data, labels, orders⟩

/-! ### Every step -/

/-- No queue of the Delivery Link holds more than its capacity. -/
def queuesWithinCapacity (s : State) : Prop := s.link.withinCapacity

/-- Inside a step packets join by their queue's rule of R159, and leave. -/
theorem Change.queuesWithinCapacity {n : Nat} {s t : State} (h : Change n s t) (hs : queuesWithinCapacity s) :
    queuesWithinCapacity t := by
  cases h with
  | audioJoins _ p => exact joinAudio_withinCapacity p hs
  | dataJoins _ p => exact joinData_withinCapacity p hs
  | labelJoins _ p => exact joinLabel_withinCapacity p hs
  | packetsLeave _ au da la _ hau hda hla =>
    obtain ⟨answers, audio, data, labels, orders⟩ := hs
    exact ⟨answers, hau.length_le.trans audio, hda.length_le.trans data, hla.length_le.trans labels, orders⟩
  | _ => exact hs

theorem empty_withinCapacity {l : Link} (answers : l.answers = []) (audio : l.audio = []) (data : l.data = [])
    (labels : l.labels = []) (orders : l.orders = []) : l.withinCapacity := by
  unfold Link.withinCapacity
  simp [answers, audio, data, labels, orders]

/-- An order or an answer joins only where there is room (R164, R165), and a reset empties every queue. -/
theorem Move.queuesWithinCapacity {s t : State} (h : Move s t) (hs : queuesWithinCapacity s) : queuesWithinCapacity t := by
  have within := hs
  obtain ⟨answers, audio, data, labels, orders⟩ := hs
  cases h with
  | inner _ _ h => exact h.preserves (fun _ _ k => k.queuesWithinCapacity) within
  | orderJoins body _ room => exact ⟨answers, audio, data, labels, joined_within body room⟩
  | orderLeaves body rest _ front => exact ⟨answers, audio, data, labels, rest_within front orders⟩
  | answerJoins a _ room => exact ⟨joined_within a room, audio, data, labels, orders⟩
  | starts => exact startNext_withinCapacity within
  | powerOn | holdReset | holdBreak => exact empty_withinCapacity rfl rfl rfl rfl rfl
  | releaseBreak =>
    unfold Machine.releaseBreak
    split <;> exact within
  | _ => exact within

/-- Settles O4: every move of a command keeps the capacities. -/
theorem stepKeepsQueueCapacities : Obligations.StepKeepsQueueCapacities :=
  keptByStep_of_moves (P := queuesWithinCapacity) (fun _ _ h => h.queuesWithinCapacity) fun _ _ h => h

end Sys2Proof.Machine
end

section
/-! The attention causes and the break reset: WHICH, SET_ATTENTION, and what a break keeps (R171 to R178). -/

namespace Sys2Proof.Machine

/-! ### The pending enabled cause of lowest code (R174) -/

theorem causePlaces_eq : causePlaces = List.finRange 9 := rfl

theorem causeCounts_iff (l : Link) (p : Fin 9) :
    causeCounts l p = true ↔ (l.causes[p]).pending = true ∧ l.enable.getLsbD p.val = true := Bool.and_eq_true_iff

theorem firstCause_eq_some {l : Link} {p : Fin 9} (counts : causeCounts l p = true)
    (lowest : ∀ q, q < p → ¬causeCounts l q = true) : firstCause l = some p := by
  unfold firstCause
  rw [causePlaces_eq, List.find?_eq_some_iff_getElem]
  refine ⟨counts, p.val, by simp, by simp, fun j hj => ?_⟩
  simpa using lowest ⟨j, by omega⟩ hj

theorem firstCause_eq_none {l : Link} : firstCause l = none ↔ ∀ p, ¬causeCounts l p = true := by
  unfold firstCause
  rw [causePlaces_eq, List.find?_eq_none]
  exact ⟨fun h p => h p (List.mem_finRange p), fun h p _ => h p⟩

/-- ATTN is low just while no cause is both pending and enabled (R173). -/
theorem attnLevel_eq_false {l : Link} : attnLevel l = false ↔ firstCause l = none := by
  unfold attnLevel firstCause
  rw [List.any_eq_false, List.find?_eq_none]

/-! ### WHICH (R174) -/

theorem whichOrder_counts {s : State} {p : Fin 9} {d : Attention} (first : firstCause s.link = some p)
    (detail : (s.link.causes[p]).detail = some d) :
    whichOrder s = (.accepted, BitVec.ofNat 8 (p.val + 1) :: d.firstDetail :: wordBytes d.secondDetail,
      s.updLink fun l => { l with causes := l.causes.set p { l.causes[p] with pending := false } }) := by
  unfold whichOrder causeData
  rw [first]
  dsimp only
  rw [detail]
  rfl

theorem whichOrder_none {s : State} (first : firstCause s.link = none) : whichOrder s = (.accepted, [0, 0, 0, 0], s) := by
  unfold whichOrder
  rw [first]

/-- WHICH is carried out at once in a part that is ready for it (R165). -/
theorem exec_which (ref : Byte) {s : State} (h : readyForOrder s) :
    exec (.which ref) s =
      let o := whichOrder (heard s)
      carriedOut s ref 0x0C o.1 o.2.1 o.2.2 := exec_order ref 0x0C [] s (by simp) h

/-- Settles O49: the search of WHICH finds the lowest place that counts, or none. -/
theorem whichTakesLowestCode : Obligations.WhichTakesLowestCode := by
  intro ref s h counts
  have same : ∀ p, counts p ↔ causeCounts (heard s).link p = true := fun p => (causeCounts_iff s.link p).symm
  simp only [same, exec_which ref h]
  refine ⟨fun p d counted lowest detail => ?_, fun none => ?_⟩
  · rw [whichOrder_counts (firstCause_eq_some counted lowest) detail]
  · rw [whichOrder_none (firstCause_eq_none.2 none)]

/-! ### SET_ATTENTION (R172) -/

theorem enableBits_eq (mask : Word16) : mask.extractLsb' 0 9 = mask.setWidth 9 :=
  BitVec.eq_of_toNat_eq (by rw [BitVec.extractLsb'_toNat, BitVec.toNat_setWidth, Nat.shiftRight_zero])

/-- The nine low bits, as the answer carries them. -/
theorem enableBits_answer (mask : Word16) : (mask.extractLsb' 0 9).setWidth 16 = mask &&& 0x1FF := by
  apply BitVec.eq_of_toNat_eq
  have low : mask.toNat &&& 0x1FF = mask.toNat % 2 ^ 9 := Nat.and_two_pow_sub_one_eq_mod mask.toNat 9
  have small : mask.toNat % 2 ^ 9 < 2 ^ 16 := (Nat.mod_lt _ (by decide)).trans (by decide)
  rw [enableBits_eq, BitVec.toNat_and, BitVec.toNat_setWidth, BitVec.toNat_setWidth, Nat.mod_eq_of_lt small]
  exact low.symm

theorem setAttentionOrder_eq (mask : Word16) (s : State) :
    setAttentionOrder mask s =
      (.accepted, wordBytes (mask &&& 0x1FF) ++ pendingSet s.link, s.updLink fun l => { l with enable := mask.setWidth 9 }) := by
  unfold setAttentionOrder
  dsimp only
  rw [enableBits_answer, enableBits_eq]

/-- SET_ATTENTION is carried out at once in a part that is ready for it (R165). -/
theorem exec_setAttention (ref : Byte) (mask : Word16) {s : State} (h : readyForOrder s) :
    exec (.setAttention ref mask) s =
      let o := setAttentionOrder mask (heard s)
      carriedOut s ref 0x0D o.1 o.2.1 o.2.2 := by
  have carried : orderOutcome 0x0D (wordBytes mask) (heard s) =
      setAttentionOrder (wordOf (highByte mask) (lowByte mask)) (heard s) := rfl
  rw [wordOf_bytes] at carried
  rw [← carried]
  exact exec_order ref 0x0D (wordBytes mask) s (by simp [wordBytes]) h

/-- Below rank 6 the enable mask is kept: only an order sets it (R172). -/
theorem Change.enable {n : Nat} (hn : n < 6) {s t : State} (h : Change n s t) : t.link.enable = s.link.enable := by
  cases h with
  | audioJoins _ p => obtain ⟨_, _, e⟩ := joinAudio_fields p s; rw [e]; rfl
  | dataJoins _ p => obtain ⟨_, _, e⟩ := joinData_fields p s; rw [e]; rfl
  | labelJoins _ p => obtain ⟨_, _, e⟩ := joinLabel_fields p s; rw [e]; rfl
  | causes => omega
  | _ => rfl

theorem Eff.enable {n : Nat} (hn : n < 6) {s t : State} (h : Eff n s t) : t.link.enable = s.link.enable :=
  h.keeps (f := fun s => s.link.enable) fun _ _ k => k.enable hn

/-- At the end of an event of a running part ATTN is at its level (R173). -/
theorem endEvent_attn {after : State} (running : after.running = true) (before : State) :
    (endEvent before after).link.attn = attnLevel (endEvent before after).link := by
  obtain ⟨attn, _⟩ := event_linesShow (fun _ => after) before
  have runs : (endEvent before after).running = true := ((endEvent_eff (le_refl 1) before after).running).trans running
  exact attn.trans (by rw [event, runs, Bool.true_and])

theorem heard_running {s : State} (h : s.running = true) : (heard s).running = true := by
  have unheld : (abandonTiming s.link.breakDetector != .holding) = (s.link.breakDetector != .holding) := by
    cases s.link.breakDetector <;> rfl
  unfold State.running heard
  rw [updLink_link, unheld]
  exact h

/-- An order carried out in a running part leaves the enable mask as its effect does, and ATTN at its level (R165, R173). -/
theorem carriedOut_enable {ref kind : Byte} {result : OrderResult} {data : List Byte} {s t u : State}
    (running : u.running = true) (h : carriedOut s ref kind result data u = .next t) :
    t.link.enable = u.link.enable ∧ t.link.attn = attnLevel t.link := by
  injection h with h
  have answered : ∀ a, (joinAnswer a u).running = true := fun _ => running
  rw [← h]
  exact ⟨(endEvent_eff (le_refl 1) (heard s) (joinAnswer _ u)).enable (by omega), endEvent_attn (answered _) (heard s)⟩

/-- Settles O50: the order's effect, the level of ATTN at the end of its event, and the mask after either reset. -/
theorem setAttentionReplacesEnable : Obligations.SetAttentionReplacesEnable := by
  have effect : ∀ (ref : Byte) (mask : Word16) (s : State), readyForOrder s → exec (.setAttention ref mask) s =
      carriedOut s ref 0x0D .accepted (wordBytes (mask &&& 0x1FF) ++ pendingSet (heard s).link)
        ((heard s).updLink fun l => { l with enable := mask.setWidth 9 }) := fun ref mask s h => by
    rw [exec_setAttention ref mask h, setAttentionOrder_eq]
  refine ⟨effect, fun ref mask s t h e => ?_, rfl, fun _ => rfl⟩
  rw [effect ref mask s h] at e
  have running : ((heard s).updLink fun l => { l with enable := mask.setWidth 9 }).running = true := heard_running h.1
  obtain ⟨enable, attn⟩ := carriedOut_enable running e
  exact ⟨enable, attn, by rw [attn]; exact attnLevel_eq_false⟩

/-! ### The break (R175 to R177) -/

/-- Once every cause but RESTART is clear, ATTN shows whether RESTART is enabled (R173, R177). -/
theorem attnLevel_causesReset {l : Link} {cause : ResetCause} (h : l.causes = causesReset cause) :
    attnLevel l = l.enable.getLsbD 1 := by
  have counts : ∀ p : Fin 9, causeCounts l p = (decide (p = 1) && l.enable.getLsbD p.val) := fun p => by
    unfold causeCounts
    rw [h, causesReset_get]
    split <;> simp_all
  unfold attnLevel causePlaces
  simp [counts]

/-- The masks of a break reset are the power-on masks, in which ALARM stands already (R157, R176). -/
theorem holdBreak_announcer (s : State) : (holdBreak s).announcer = { Announcer.reset with lock := s.announcer.lock } := by
  unfold holdBreak
  cases s.announcer.lock <;> rfl

theorem exec_breakReset {s : State} (h : s.running = true) : exec .breakReset s = .next (holdBreak s) := congrArg _ (if_pos h)

theorem holdBreak_read {s : State} (h : s.store.cells.wf = true) (k : Nat) : (holdBreak s).store.cells.read k =
    { payload := (s.store.cells.read k).payload, tag := none, erased := false } := read_wipeTags h k

theorem holdBreak_ctx (s : State) (c : Fin 16) : (holdBreak s).ctx c = LaneContext.free := reset_ctx c

theorem driveLines_attn {s : State} (h : s.running = true) : (driveLines s).link.attn = attnLevel s.link := by
  unfold driveLines
  rw [h]
  rfl

theorem driveLines_announcer {s : State} (h : s.running = true) :
    (driveLines s).announcer = { s.announcer with anncLine := anncLevel s.announcer.takeover } := by
  unfold driveLines
  rw [h]
  rfl

/-- The part as a release from a break leaves it, before its lines are driven. -/
def breakEnded (s : State) : State :=
  s.updLink fun l => { l with breakDetector := .idle, resetCause := .brk, causes := causesReset .brk }

theorem exec_breakRelease {s : State} (h : s.link.breakDetector = .holding) :
    exec .breakRelease s = .next (driveLines (breakEnded s)) := congrArg _ (if_pos h)

theorem breakEnded_running {s : State} (h : s.link.resetHeld = false) : (breakEnded s).running = true := by
  unfold State.running breakEnded
  rw [updLink_link, h]
  rfl

/-- Settles O15: the blocks of a break reset field by field, and the lines driven at its release. -/
theorem breakResetKeepsThree : Obligations.BreakResetKeepsThree := by
  refine ⟨fun s running cells => ?_, fun s holding released => ?_⟩
  · exact ⟨holdBreak s, exec_breakReset running, rfl, rfl, rfl, holdBreak_announcer s, rfl, rfl, holdBreak_read cells,
      (holdBreak_free s).trans reset_free, rfl, rfl, rfl, rfl, holdBreak_ctx s, rfl, rfl, rfl, rfl, rfl, rfl, rfl, rfl, rfl, rfl⟩
  · have runs := breakEnded_running released
    have attn : (driveLines (breakEnded s)).link.attn = s.link.enable.getLsbD 1 := by
      rw [driveLines_attn runs]
      exact attnLevel_causesReset rfl
    have announcer : (driveLines (breakEnded s)).announcer =
        { s.announcer with anncLine := anncLevel s.announcer.takeover } := by
      rw [driveLines_announcer runs]
      rfl
    exact ⟨_, exec_breakRelease holding, runs, rfl, attn, causesReset_get .brk, rfl, announcer, rfl⟩

end Sys2Proof.Machine
end

section
/-! The inbound line: a step's command, an order that is carried out, waits or is discarded, unknown orders, and malformed packets
(R163 to R166, log 1). -/

namespace Sys2Proof.Machine

/-! ### A step (log 1) -/

/-- Settles O1: each part unfolds the step once. -/
theorem stepTakesFrontCommand : Obligations.StepTakesFrontCommand := by
  have empty : ∀ s : State, s.pending = [] → step s = .next s := fun s h => by
    unfold step
    rw [h]
  exact ⟨fun _ _ _ => rfl, empty, fun _ _ _ => ⟨rfl, rfl⟩⟩

/-! ### An order that has no effect (R165) -/

theorem orderOutcome_unknown {kind : Byte} (h : kind ∉ orderKinds) (params : List Byte) (s : State) :
    orderOutcome kind params s = (.unknownOrder, [], s) := if_pos h

theorem orderOutcome_wrongLength {kind : Byte} {n : Nat} {params : List Byte} (known : kind ∈ orderKinds)
    (implied : impliedLength kind = some n) (wrong : n ≠ params.length + 2) (s : State) :
    orderOutcome kind params s = (.badValue, [], s) := by
  unfold orderOutcome
  rw [if_neg (not_not_intro known), implied, if_pos]
  exact bne_iff_ne.2 wrong

/-- Settles O57: the first two cases of the order handler. -/
theorem unknownOrderChangesNothing : Obligations.UnknownOrderChangesNothing := by
  intro ref kind params s h short
  have carried := exec_order ref kind params s short h
  refine ⟨fun unknown => ?_, fun n known implied wrong => ?_⟩
  · rw [orderOutcome_unknown unknown] at carried
    exact carried
  · rw [orderOutcome_wrongLength known implied wrong] at carried
    exact carried

/-! ### The order queue (R164, R165) -/

/-- While the ANSWER queue is full the handler waits (R165). -/
theorem handleOrders_waits {s : State} (full : answerCapacity ≤ s.link.answers.length) (k : Nat) : handleOrders k s = s := by
  cases k with
  | zero => rfl
  | succ k => exact if_neg fun room => absurd room.2 full.not_gt

theorem runHandler_waits {s : State} (full : answerCapacity ≤ s.link.answers.length) : runHandler s = s :=
  handleOrders_waits full _

theorem orderArrives_waits {s : State} (room : s.link.orders.length < orderCapacity)
    (full : answerCapacity ≤ s.link.answers.length) (body : List Byte) :
    orderArrives body s = s.updLink fun l => { l with orders := l.orders ++ [body] } := by
  have waits : answerCapacity ≤ (s.updLink fun l => { l with orders := l.orders ++ [body] }).link.answers.length := full
  unfold orderArrives
  rw [if_neg room.not_ge, runHandler_waits waits]

theorem orderArrives_full {s : State} (full : orderCapacity ≤ s.link.orders.length) (body : List Byte) :
    orderArrives body s = endEvent s (raise (.overrun .order) s) := if_pos full

/-- An ORDER packet is received whole by a running part that hunts (R163). -/
theorem exec_order_arrives {body : List Byte} {s : State} (running : s.running = true) (hunting : s.link.receiver.hunting = true)
    (h2 : 2 ≤ body.length) (h64 : body.length ≤ 64) : exec (.order body) s = .next (orderArrives body (heard s)) :=
  congrArg _ ((if_pos running).trans (receiveOrder_arrives body s h2 h64 hunting))

/-- Settles O58, by the room in the order queue and in the ANSWER queue. -/
theorem orderIsTakenWaitsOrIsDiscarded : Obligations.OrderIsTakenWaitsOrIsDiscarded := by
  intro body s running hunting h2 h64
  refine ⟨fun none room => ?_, fun room full => ?_, fun full => ?_⟩
  · exact congrArg _ ((if_pos running).trans (receiveOrder_ready body s h2 h64 ⟨running, hunting, none, room⟩))
  · rw [exec_order_arrives running hunting h2 h64, orderArrives_waits (s := heard s) room full]
  · rw [exec_order_arrives running hunting h2 h64, orderArrives_full (s := heard s) full]

/-! ### Malformed packets (R163) -/

/-- The forms a packet can have at the byte that makes it malformed: no sync byte, a kind byte other than ORDER's, or a length
out of range. -/
inductive MalformedForm : List Byte → Prop
  | stray (b : Byte) (h : b ≠ 0xC3) : MalformedForm [b]
  | kind (k : Byte) (h : k ≠ 0x10) : MalformedForm [0xC3, k]
  | length (high low : Byte) (h : ¬(2 ≤ (wordOf high low).toNat ∧ (wordOf high low).toNat ≤ 64)) :
    MalformedForm [0xC3, 0x10, high, low]

theorem malformedForm_of {bytes : List Byte} (h : malformedFromStart bytes = true) : MalformedForm bytes := by
  unfold malformedFromStart at h
  split at h
  · exact .stray _ (bne_iff_ne.1 h)
  · simp only [Bool.and_eq_true, beq_iff_eq, bne_iff_ne] at h
    obtain ⟨rfl, other⟩ := h
    exact .kind _ other
  · simp only [Bool.and_eq_true, Bool.or_eq_true, beq_iff_eq, decide_eq_true_eq] at h
    obtain ⟨⟨rfl, rfl⟩, outside⟩ := h
    exact .length _ _ (by omega)
  · cases h

section Receiver

variable {s : State}

theorem receiveByte_sync {afterPacket : Bool} (h : s.link.receiver = .hunt afterPacket) :
    receiveByte s 0xC3 = setReceiver .kind s := by
  unfold receiveByte
  rw [h]
  rfl

theorem receiveByte_stray {b : Byte} {afterPacket : Bool} (h : s.link.receiver = .hunt afterPacket) (hb : b ≠ 0xC3) :
    receiveByte s b = if afterPacket then packetMalformed s else s := by
  unfold receiveByte
  rw [h]
  exact if_neg hb

theorem receiveByte_orderKind (s : State) : receiveByte (setReceiver .kind s) 0x10 = setReceiver (.length []) s := rfl

theorem receiveByte_otherKind {k : Byte} (hk : k ≠ 0x10) (s : State) :
    receiveByte (setReceiver .kind s) k = packetMalformed (setReceiver .kind s) := if_neg hk

theorem receiveByte_lengthHigh (high : Byte) (s : State) :
    receiveByte (setReceiver (.length []) s) high = setReceiver (.length [high]) s := rfl

theorem receiveByte_badLength {high low : Byte} (h : ¬(2 ≤ (wordOf high low).toNat ∧ (wordOf high low).toNat ≤ 64))
    (s : State) : receiveByte (setReceiver (.length [high]) s) low = packetMalformed (setReceiver (.length [high]) s) := if_neg h

/-- Where in a packet the receiver stands when it gives it up does not matter (R163). -/
theorem packetMalformed_setReceiver (r : Receiver) (s : State) : packetMalformed (setReceiver r s) = packetMalformed s := rfl

/-- Bytes that make a packet malformed, by their form; only a lone stray byte depends on what came before it. -/
theorem foldl_malformed {bytes : List Byte} {afterPacket : Bool} (h : s.link.receiver = .hunt afterPacket)
    (form : MalformedForm bytes) :
    bytes.foldl receiveByte s = if afterPacket = true ∨ 1 < bytes.length then packetMalformed s else s := by
  cases form with
  | stray b hb =>
    rw [List.foldl_cons, List.foldl_nil, receiveByte_stray h hb]
    simp
  | kind k hk =>
    rw [List.foldl_cons, List.foldl_cons, List.foldl_nil, receiveByte_sync h, receiveByte_otherKind hk,
      packetMalformed_setReceiver]
    simp
  | length high low outside =>
    rw [List.foldl_cons, List.foldl_cons, List.foldl_cons, List.foldl_cons, List.foldl_nil, receiveByte_sync h,
      receiveByte_orderKind, receiveByte_lengthHigh, receiveByte_badLength outside, packetMalformed_setReceiver]
    simp

end Receiver

/-- The part once the inbound clock runs: no break is being timed (R175). -/
def clocked (s : State) : State := s.updLink fun l => { l with breakDetector := abandonTiming l.breakDetector }

/-- A receiver that hunted, but not right after a packet, hunts on. -/
theorem clocked_hunting {s : State} (h : s.link.receiver = .hunt false) :
    clocked s = s.updLink fun l => { l with receiver := .hunt false, breakDetector := abandonTiming l.breakDetector } := by
  unfold clocked State.updLink
  rw [← h]

theorem exec_malformed {bytes : List Byte} {s : State} (running : s.running = true) :
    exec (.malformed bytes) s = .next (bytes.foldl receiveByte (clocked s)) := congrArg _ (if_pos running)

/-- Settles O59, by the form of the packet. -/
theorem malformedPacketIsDiscarded : Obligations.MalformedPacketIsDiscarded := by
  intro bytes afterPacket s running hunts malformed u
  have received := foldl_malformed (s := clocked s) hunts (malformedForm_of malformed)
  rw [exec_malformed running, received]
  refine ⟨fun discarded => ?_, fun search lone => ?_⟩
  · rw [if_pos discarded]
    rfl
  · subst search
    rw [if_neg (by simp [lone]), clocked_hunting hunts]

end Sys2Proof.Machine
end
section
/-! The arbiter: what it starts, and the waiting order that an answer's departure lets run (R158, R160, R165, log 2). -/

namespace Sys2Proof.Machine

/-! ### The packet that starts (R160) -/

section Start

variable {l : Link}

theorem startNext_answer {a : Answer} {rest : List Answer} (h : l.answers = a :: rest) :
    startNext l = { l with answers := rest, sending := some (.answer a) } := by
  unfold startNext
  rw [h]

theorem startNext_audio {f : FramePacket} {rest : List FramePacket} (answers : l.answers = []) (h : l.audio = f :: rest) :
    startNext l = { l with audio := rest, sending := some (.frame f) } := by
  unfold startNext
  rw [answers, h]

theorem startNext_data {f : FramePacket} {rest : List FramePacket} (answers : l.answers = []) (audio : l.audio = [])
    (h : l.data = f :: rest) : startNext l = { l with data := rest, sending := some (.frame f) } := by
  unfold startNext
  rw [answers, audio, h]

theorem startNext_label {p : LabelPacket} {rest : List LabelPacket} (answers : l.answers = []) (audio : l.audio = [])
    (data : l.data = []) (h : l.labels = p :: rest) : startNext l = { l with labels := rest, sending := some (.label p) } := by
  unfold startNext
  rw [answers, audio, data, h]

theorem startNext_idle (answers : l.answers = []) (audio : l.audio = []) (data : l.data = []) (labels : l.labels = []) :
    startNext l = l := by
  unfold startNext
  rw [answers, audio, data, labels]

/-- The arbiter leaves the waiting orders alone. -/
theorem startNext_orders (l : Link) : (startNext l).orders = l.orders := by
  unfold startNext
  split <;> rfl

end Start

/-! ### The two commands of the line (R160, log 2) -/

/-- The line when what was on it has left, and the next packet, if any, has started. -/
def lineFed (s : State) : State := s.updLink fun l => startNext { l with sending := none }

theorem lineFed_of {s : State} {l : Link} (h : startNext { s.link with sending := none } = l) :
    lineFed s = s.updLink fun _ => l := congrArg (fun next => s.updLink fun _ => next) h

theorem lineFed_idle {s : State} (h : s.link.sending = none) : s.updLink startNext = lineFed s := by
  unfold lineFed State.updLink
  rw [← h]

/-- The command that the state of the line lets act. -/
def feedsLine (c : Instr) (s : State) : Prop :=
  (c = .packetStart ∧ s.link.sending = none) ∨ (c = .packetComplete ∧ s.link.sending ≠ none)

/-- Either command feeds the line as one event, after which the handler takes what it can. -/
theorem exec_feedsLine {c : Instr} {s : State} (running : s.running = true) (h : feedsLine c s) :
    exec c s = .next (runHandler (endEvent s (lineFed s))) := by
  rcases h with ⟨rfl, idle⟩ | ⟨rfl, busy⟩
  · have starts : packetStarts s = runHandler (endEvent s (lineFed s)) :=
      (if_pos (Option.isNone_iff_eq_none.2 idle)).trans (by rw [event, lineFed_idle idle])
    exact congrArg _ ((if_pos running).trans starts)
  · have completes : packetCompletes s = runHandler (endEvent s (lineFed s)) := if_pos (Option.isSome_iff_ne_none.2 busy)
    exact congrArg _ ((if_pos running).trans completes)

theorem packetStarts_busy {s : State} (h : s.link.sending ≠ none) : packetStarts s = s :=
  if_neg (mt Option.isNone_iff_eq_none.1 h)

theorem packetCompletes_idle {s : State} (h : s.link.sending = none) : packetCompletes s = s :=
  if_neg (mt Option.isSome_iff_ne_none.1 (not_not_intro h))

theorem whenRunning_still {f : State → State} {s : State} (h : f s = s) : whenRunning f s = s := by
  unfold whenRunning
  rw [h, ite_self]

/-! ### The handler after the event (R165) -/

theorem lineFed_orders (s : State) : (endEvent s (lineFed s)).link.orders = s.link.orders :=
  (endEvent_eff (le_refl 1) s (lineFed s)).orders.trans (startNext_orders _)

theorem runHandler_none {s : State} (h : s.link.orders = []) : runHandler s = s := by
  unfold runHandler
  rw [h]
  rfl

/-- With no order waiting the line is fed and nothing else happens. -/
theorem exec_feedsLine_alone {c : Instr} {s : State} {l : Link} (running : s.running = true) (h : feedsLine c s)
    (orders : s.link.orders = []) (fed : startNext { s.link with sending := none } = l) :
    exec c s = .next (endEvent s (s.updLink fun _ => l)) := by
  rw [exec_feedsLine running h, runHandler_none ((lineFed_orders s).trans orders), lineFed_of fed]

/-- The head order leaves the queue and is carried out (R165). -/
theorem carryOutHead_eq {s : State} {body : List Byte} {more : List (List Byte)} (h : s.link.orders = body :: more) :
    carryOutHead s = carryOut body (s.updLink fun l => { l with orders := more }) := by
  unfold carryOutHead
  rw [h]

/-- An order carried out adds one answer. -/
theorem carryOut_answers {body : List Byte} (h2 : 2 ≤ body.length) (s : State) :
    (carryOut body s).link.answers.length = s.link.answers.length + 1 := by
  cases body with
  | nil => simp at h2
  | cons ref rest =>
    cases rest with
    | nil => simp at h2
    | cons kind params =>
      have effect := orderOutcome_eff (le_refl 6) kind params s
      unfold carryOut joinAnswer
      rw [updLink_link, List.length_append, effect.answers, List.length_singleton]

/-- With room for one answer the handler carries out one order and waits again (R165). -/
theorem runHandler_one {s : State} {body : List Byte} {more : List (List Byte)} (orders : s.link.orders = body :: more)
    (room : s.link.answers.length = 3) (h2 : 2 ≤ body.length) :
    runHandler s = endEvent s (carryOut body (s.updLink fun l => { l with orders := more })) := by
  have first : event carryOutHead s = endEvent s (carryOut body (s.updLink fun l => { l with orders := more })) := by
    rw [event, carryOutHead_eq orders]
  have full : answerCapacity ≤ (event carryOutHead s).link.answers.length := by
    rw [first, (endEvent_eff (le_refl 1) s _).answers, carryOut_answers h2, updLink_link, room, answerCapacity]
  have canRun : s.link.orders ≠ [] ∧ s.link.answers.length < answerCapacity := by
    simp [orders, room, answerCapacity]
  unfold runHandler
  rw [orders, List.length_cons, handleOrders, if_pos canRun, handleOrders_waits full, first]

/-- An answer that leaves a full queue gives room for the head order, which is carried out after the event (R165). -/
theorem exec_feedsLine_order {c : Instr} {s : State} {a : Answer} {rest : List Answer} {body : List Byte}
    {more : List (List Byte)} (running : s.running = true) (h : feedsLine c s) (answers : s.link.answers = a :: rest)
    (room : rest.length = 3) (orders : s.link.orders = body :: more) (h2 : 2 ≤ body.length) :
    let u := endEvent s (s.updLink fun l => { l with answers := rest, sending := some (.answer a) })
    exec c s = .next (endEvent u (carryOut body (u.updLink fun l => { l with orders := more }))) := by
  have fed : lineFed s = s.updLink fun l => { l with answers := rest, sending := some (.answer a) } :=
    lineFed_of (startNext_answer answers)
  have left : (endEvent s (lineFed s)).link.answers.length = 3 := by
    rw [(endEvent_eff (le_refl 1) s (lineFed s)).answers, fed]
    exact room
  rw [exec_feedsLine running h, runHandler_one ((lineFed_orders s).trans orders) left h2, fed]

/-- Settles O60: the line is fed by its first queue that is not empty, and the handler runs once where an answer left. -/
theorem arbiterStartsInPriority : Obligations.ArbiterStartsInPriority := by
  refine ⟨fun c s running feeds => ⟨fun orders => ?_, fun a rest body more answers room orders => ?_⟩,
    fun s => ⟨fun busy => ?_, fun idle => ?_⟩⟩
  · have alone := fun {l : Link} => exec_feedsLine_alone (l := l) running feeds orders
    exact ⟨fun _ _ front => alone (startNext_answer front), fun answers =>
      ⟨fun _ _ front => alone (startNext_audio answers front), fun audio =>
        ⟨fun _ _ front => alone (startNext_data answers audio front), fun data =>
          ⟨fun _ _ front => alone (startNext_label answers audio data front), fun labels =>
            alone (startNext_idle answers audio data labels)⟩⟩⟩⟩
  · exact exec_feedsLine_order running feeds answers room orders
  · exact congrArg _ (whenRunning_still (packetStarts_busy busy))
  · exact congrArg _ (whenRunning_still (packetCompletes_idle idle))

end Sys2Proof.Machine
end
